-- ==== Sys2Proof/Word.lean ====
section
/-! DEFINITION. The words of the part (spec/00_scope.md section 4) and the index types of its fixed arrays. -/

namespace Sys2Proof

/-- A byte of host memory. -/
abbrev Byte := BitVec 8

/-- A word is 32 bits (spec/00_scope.md section 4). -/
abbrev Word := BitVec 32

/-- A two-word quantity: a tally, a mark, a carrier tag, a host reference. -/
abbrev DWord := BitVec 64

/-- Zone numbers 0 to 63. -/
abbrev ZoneNo := Fin 64

/-- Moisture class numbers 0 to 7. -/
abbrev ClassNo := Fin 8

/-- Intake list numbers 0 to 7. -/
abbrev ListNo := Fin 8

/-- The word of all ones. It is never a plant minute, and stands for "none" where a field says so. -/
abbrev noWord : Word := 0xFFFFFFFF

end Sys2Proof
end

