-- ==== Sys2Proof/Syntax.lean ====
section
/-! DEFINITION. The commands of the part: one constructor per row of spec/opcode_table.json. -/

namespace Sys2Proof

/-- The bytes the host stores into its own memory before a register write, in order: address and byte (log entry 1). -/
abbrev HostStores := List Host.Cell

/-- The registers that a REGISTER_WRITE names (spec/10_exchange_region.md R158). STATUS and NUDGE have rows of their own. -/
inductive RegName where
  | id
  | baseLo
  | baseHi
  | control
deriving DecidableEq, Repr

/-- Bits of the nonvolatile memory that did not take what a programming wrote: in the copy or the complement of one
word of the class record, the bits set in `flips` hold the wrong value (spec/04 R79; log entry 8). -/
structure NvDefect where
  word : Nat
  complement : Bool
  flips : Word
deriving DecidableEq, Repr

/-- The commands. The commands that take a cell carry no operand: the list is the one the intake unit's arbitration
chooses (R163), and the request stands in the cell (log entry 37). -/
inductive Instr where
  /-- POWER_ON_RESET, R175. -/
  | powerOnReset
  /-- PIN_RESET, R175. -/
  | pinReset
  /-- SOFT_RESET, R175: a CONTROL write carrying SOFT_RESET. -/
  | softReset (stores : HostStores)
  /-- START, R170: a CONTROL write carrying START, with the enables it carries. -/
  | start (stores : HostStores) (enables : BitVec 5)
  /-- STOP, R173: a CONTROL write carrying STOP, with the enables it carries. -/
  | stop (stores : HostStores) (enables : BitVec 5)
  /-- STOP_COMPLETION, R173. -/
  | stopCompletion
  /-- REGISTER_WRITE, R158. -/
  | registerWrite (stores : HostStores) (reg : RegName) (value : Word)
  /-- STATUS_WRITE, R158. -/
  | statusWrite (stores : HostStores) (value : Word)
  /-- NUDGE, R162: bits 7–0 of the word written. -/
  | nudge (stores : HostStores) (mask : BitVec 8)
  /-- INTAKE_SCAN_TIMER_EXPIRY, R162. -/
  | intakeScanTimerExpiry
  /-- MINUTE_TIMER_EXPIRY, R122. -/
  | minuteTimerExpiry
  /-- ZONE_PAGE_PUBLICATION, R66. -/
  | zonePagePublication
  /-- ENROL, R19. -/
  | enrol
  /-- OPEN, R20. -/
  | openInto
  /-- MOVE, R21. -/
  | move
  /-- BAG, R22. -/
  | bag
  /-- RETIRE, R23. -/
  | retire
  /-- AMEND, R24 and R25. -/
  | amend
  /-- QUERY, R26. -/
  | query
  /-- CLIMATE, R58. -/
  | climate
  /-- ZONESET, R55. -/
  | zoneset
  /-- CLASSWRITE, R77. -/
  | classwrite
  /-- CLOCKSET, R125. -/
  | clockset
  /-- TUNE, R168. -/
  | tune
  /-- UNKNOWN_KIND, R165. -/
  | unknownKind
  /-- CLASS_PROGRAMMING_END, R79: the defects that the verify meets. -/
  | classProgrammingEnd (defects : List NvDefect)
  /-- CLASS_COMPLETION, R81. -/
  | classCompletion
  /-- WARNING_HANDOVER, R27. -/
  | warningHandover
  /-- EXPIRY_HANDOVER, R28. -/
  | expiryHandover
  /-- PATROL_READ, R115. -/
  | patrolRead
  /-- PATROL_WORK, R117. -/
  | patrolWork
  /-- REGION_ACCESS_FAILURE, R174: how many accesses succeed before the one that fails, 0 for one that fails now, and
  how many bytes of a failed write land (log entry 7). -/
  | regionAccessFailure (after : Nat) (written : Nat)
  /-- CELL_NO_LONGER_POSTED, R164. -/
  | cellNoLongerPosted
deriving DecidableEq, Repr

end Sys2Proof
end

