-- ==== Sys2Proof/Decode.lean ====
section
/-! DEFINITION. The commands of this block have no bit encoding: no row of spec/opcode_table.json gives bits. -/

namespace Sys2Proof

/-- The command a word spells by the table's bits. The table gives bits to no row, so no word spells one. -/
def decodeTableWord (_nbits _w : Nat) : Option Instr := none

end Sys2Proof
end

