-- ==== Sys2Proof/Config.lean ====
section
/-! DEFINITION. What an implementation fixes and the manual does not: the free values. No constant here has a body, so a
statement holds for every value of it. -/

namespace Sys2Proof.Config

/-- Bits 7–0 of the ID register, the revision (spec/10_exchange_region.md section 10.1). FREE VALUE, log entry 12. -/
opaque revision : BitVec 8

/-- Whether a QUERY served while the clock is UNSET takes a CURRENT zone as STALE at the next boundary, from the zone's
last valid sample minute and stale limit: R50 states the rate by a plant minute the clock then does not hold.
FREE VALUE, DESIGN CHOICE, log entry 13. -/
opaque unsetStale : Word → BitVec 16 → Bool

/-- Whether an AMEND that finds E at or above the budget with margin 0 leaves WARNED as it stands: R25 says of that case
both that WARNED is left and that it is cleared. FREE VALUE, DESIGN CHOICE, log entry 14. -/
opaque amendKeepsWarned : Bool

end Sys2Proof.Config
end

