-- ==== Sys2Proof/Machine/State.lean ====
section
/-! DEFINITION. Everything the part holds, as plain data, and its value after reset. Each field cites the rule of spec/ that
names it; INVENTORY.md lists them all with their reset values. -/

namespace Sys2Proof.Machine

/-! ## Host memory -/

/-- Host memory: address and byte, addresses strictly rising, no byte equal to what an unlisted address reads as
(`Memory.wf`). -/
abbrev Memory := List Host.Cell

/-! ## Registers -/

/-- Engine states of STATUS bits 1–0 (R169). -/
inductive EngineState where
  | idle
  | attaching
  | running
  | faulted
deriving DecidableEq, Repr

/-- Attach-failure codes of STATUS bits 25–24 (R169, R170). -/
inductive AttachFail where
  | ok
  | layout
  | zonePage
deriving DecidableEq, Repr

/-- The five interrupt causes (R154), in the order of their bits. -/
inductive Cause where
  | urgentNotice
  | notice
  | cellDone
  | attachEnd
  | fault
deriving DecidableEq, Repr

/-- What the part holds of the layout block from attach on (R159, R170). Offsets and sizes are in bytes. -/
structure Layout where
  regionSize : Nat
  controlPage : Nat
  zonePage : Nat
  accountTable : Nat
  noticeLog : Nat
  intakeLists : Nat
  tableSize : Nat
  cellsPerList : Nat
deriving DecidableEq, Repr

/-! ## Zone table -/

/-- Zone types (R53): NONE, OPEN, DRY and BAKE. -/
inductive ZoneType where
  | typeNone
  | typeOpen
  | typeDry
  | typeBake
deriving DecidableEq, Repr

/-- Climate states of a zone (R58 to R64). -/
inductive ClimateState where
  | noClimate
  | current
  | stale
deriving DecidableEq, Repr

/-- A zone record with its tallies (R52, R31). -/
structure Zone where
  type : ZoneType
  holdLine : Fin 9
  staleLimit : BitVec 16
  holdOnStale : Bool
  dryLimitBand : Fin 8
  climate : ClimateState
  /-- Tenths of a degree, two's complement. -/
  lastTemp : BitVec 16
  lastHum : BitVec 16
  tempBand : Fin 6
  humBand : Fin 8
  /-- Last valid sample minute. -/
  lastSample : Word
  clamped : Bool
  faultHold : Bool
  occupancy : Nat
  expiredPresent : Nat
  /-- Exposure tally Z of each class. -/
  exposure : Vector DWord 8
  /-- Degraded mark M of each class. -/
  degraded : Vector DWord 8
  /-- Bake tally B of each class. -/
  bake : Vector Word 8
  /-- Dry tally D. -/
  dry : Word
deriving DecidableEq, Repr

/-- UNDEFINED: a zone record holding its reset values (R52). -/
def Zone.undefined : Zone where
  type := .typeNone
  holdLine := 0
  staleLimit := 1440
  holdOnStale := false
  dryLimitBand := 0
  climate := .noClimate
  lastTemp := 0
  lastHum := 0
  tempBand := 0
  humBand := 0
  lastSample := 0
  clamped := false
  faultHold := false
  occupancy := 0
  expiredPresent := 0
  exposure := Vector.replicate 8 0
  degraded := Vector.replicate 8 0
  bake := Vector.replicate 8 0
  dry := 0

/-- The plant clock (R121): UNSET, or holding a plant minute with a stall count. It is STALLED exactly while the stall
count is above 0, and RUNNING otherwise. -/
inductive Clock where
  | unset
  | held (minute : Word) (stall : Fin 16)
deriving DecidableEq, Repr

/-! ## Class store -/

/-- The figures of a class record (spec/04 section 4.1). -/
structure Figures where
  /-- Minutes; 0 means unlimited. -/
  budget : Nat
  /-- Recovery ceiling in minutes. -/
  ceiling : Nat
  /-- Warning margin in minutes. -/
  margin : Nat
  gapRate : Nat
  /-- Recovery factor f. -/
  recovery : Nat
  /-- Bake setpoint in tenths of a degree. -/
  setpoint : Nat
  fullBake : Nat
  minBake : Nat
  bakeLimit : Nat
  /-- The rate at temperature band t and humidity band h is entry 8t + h. -/
  rates : Vector Nat 48
deriving DecidableEq, Repr

/-- Causes of an INVALID class (R72, R73): 1 DAMAGED, 2 INTERRUPTED, 3 a verify failure. -/
inductive LoadCause where
  | damaged
  | interrupted
  | verifyFailed
deriving DecidableEq, Repr

/-- Class states (R70). The figures and the worst rate are held while the class is VALID, the cause while it is INVALID. -/
inductive ClassState where
  | empty
  | valid (figures : Figures) (worst : Nat)
  | invalid (cause : LoadCause)
  | programming
deriving DecidableEq, Repr

/-- The nonvolatile record of a class: every word twice, and two markers (R71). -/
structure NvClass where
  words : Vector Word 30
  complements : Vector Word 30
  writtenMarker : Bool
  inProgress : Bool
deriving DecidableEq, Repr

/-- A class of a part as delivered: both markers erased (R71). -/
def NvClass.delivered : NvClass where
  words := Vector.replicate 30 0
  complements := Vector.replicate 30 0
  writtenMarker := false
  inProgress := false

/-- A cell as read at its take: its list and index, and words 0 to 9 (R164). -/
structure TakenCell where
  list : ListNo
  index : Nat
  words : Vector Word 10
deriving DecidableEq, Repr

/-- The CLASSWRITE in flight (R78): its class, the image held on chip, its cell, and, once programming has ended, whether
it ended in success (R79). -/
structure Programming where
  cls : ClassNo
  image : Vector Word 30
  cell : TakenCell
  ended : Option Bool
deriving DecidableEq, Repr

/-! ## Watch pool -/

/-- Stages of a watch entry (R48). -/
inductive Stage where
  | warn
  | expire
deriving DecidableEq, Repr

/-- A watch entry in use, at its position (R102). -/
structure WatchEntry where
  position : Nat
  account : Nat
  zone : ZoneNo
  cls : ClassNo
  threshold : DWord
  stage : Stage
  due : Bool
deriving DecidableEq, Repr

/-! ## Account cache -/

/-- A valid line: its tag and the words of one account record (R133). -/
structure Line where
  tag : Nat
  words : Vector Word 16
deriving DecidableEq, Repr

/-- A set: four lines and three replacement-order bits (R133, R136). -/
structure CacheSet where
  ways : Vector (Option Line) 4
  pairBit : Bool
  bit01 : Bool
  bit23 : Bool
deriving DecidableEq, Repr

/-- A set after reset: no valid line, every bit 0 (R133). -/
def CacheSet.invalid : CacheSet where
  ways := Vector.replicate 4 none
  pairBit := false
  bit01 := false
  bit23 := false

/-- Cache modes (R134). -/
inductive CacheMode where
  | normal
  | nofill
  | off
deriving DecidableEq, Repr

/-! ## Notices -/

/-- Notice kinds, in the order of their codes 1 to 12 (spec/09 section 9.1). -/
inductive NoticeKind where
  | expired
  | zoneStale
  | recordFault
  | classFault
  | expiryWarning
  | recovered
  | bakeCredit
  | bakeExhausted
  | zoneRestored
  | clockGap
  | classProgrammed
  | attached
deriving DecidableEq, Repr

/-- A notice as raised. The subject of CLOCK_GAP is its full starting minute (R128, R149). -/
structure Notice where
  kind : NoticeKind
  subject : Nat
  minute : Word
  detail1 : Word
  detail2 : Word
deriving DecidableEq, Repr

/-! ## Intake unit and account engine -/

/-- What the intake unit holds of one list (R161). -/
structure ListState where
  next : Nat
  eligible : Bool
deriving DecidableEq, Repr

/-- Rotation modes (R161). -/
inductive Rotation where
  | fixed
  | rotating
deriving DecidableEq, Repr

/-- A list's authority map (R167). -/
structure AuthMap where
  kindMask : Word
  zoneLen : Nat
  bitmap : DWord
deriving DecidableEq, Repr

/-- The account engine (R9): FREE, or BUSY with one piece of work. -/
inductive Engine where
  | free
  | cell (c : TakenCell)
  | handover (account : Nat) (zone : ZoneNo) (cls : ClassNo) (stage : Stage)
  | patrol (account : Nat)
deriving DecidableEq, Repr

/-- An armed failure of a region access: how many accesses succeed before it, and how many bytes of a failed write land.
The MODEL's own field (log entry 7). -/
structure Failing where
  after : Nat
  written : Nat
deriving DecidableEq, Repr

/-! ## Why a step can stop -/

/-- No command of this part ends in a fault: every rule of the spec gives its command an effect in every state (a failed
region access is the FAULTED engine state, a next state). The type has no constructor, which is safe. -/
inductive Fault where
deriving DecidableEq, Repr

/-- Reasons to refuse a command. -/
inductive Refusal where
  /-- Raised by an arm of `exec` for a command that has no meaning yet; no arm does. Safe. -/
  | notModelled (mnemonic : String)
deriving DecidableEq, Repr

/-! ## The state -/

/-- The state of the part, of the host memory it works on, and the queue of waiting commands. -/
structure State where
  /-- BASE_LO (R158). -/
  baseLo : Word
  /-- BASE_HI (R158). -/
  baseHi : Word
  /-- CONTROL bits 8–12 (R158). -/
  enables : BitVec 5
  /-- STATUS bits 1–0 (R169). -/
  engineState : EngineState
  /-- STATUS bits 4–2: POWER_ON, PIN, SOFT (R175). -/
  resetCauses : BitVec 3
  /-- STATUS bits 8–12 (R154). -/
  causes : BitVec 5
  /-- STATUS bit 16 (R152). -/
  logFull : Bool
  /-- STATUS bit 17 (R152). -/
  noticesDropped : Bool
  /-- STATUS bits 25–24 (R169). -/
  attachFail : AttachFail
  /-- Hold lines 1 to 8, true when asserted (R156). -/
  lines : Vector Bool 8
  /-- Interrupt messages sent (R155). -/
  messages : Nat
  /-- Host memory. -/
  mem : Memory
  /-- The layout held since attach (R159). -/
  layout : Layout
  /-- The zone table (R52). -/
  zones : Vector Zone 64
  /-- The published minute the zone table holds, 0xFFFFFFFF for none (R66, R126). -/
  published : Word
  /-- The plant clock (R121). -/
  clock : Clock
  /-- The publication of a minute boundary is still to be made (R123 stage 4). -/
  publicationDue : Bool
  /-- Class states (R70). -/
  classes : Vector ClassState 8
  /-- Nonvolatile memory (R71). -/
  nv : Vector NvClass 8
  /-- The CLASSWRITE in flight (R78). -/
  prog : Option Programming
  /-- Live counts (R14). -/
  live : Vector Nat 8
  /-- Highest bake counts (R76). -/
  highest : Vector Nat 8
  /-- Watch entries in use, by list and threshold (R102, R103). -/
  watch : List WatchEntry
  /-- Positions of due entries, oldest first (R109). -/
  dueQueue : List Nat
  /-- Unwatched count (R113). -/
  unwatched : Nat
  /-- Patrol cursor (R114). -/
  cursor : Nat
  /-- Patrol batch size (R114). -/
  batch : Nat
  /-- Patrol remaining count (R114). -/
  remaining : Nat
  /-- The account the patrol holds for the engine (R114). -/
  heldAccount : Option Nat
  /-- Account cache sets (R133). -/
  cacheSets : Vector CacheSet 64
  /-- Account cache mode (R133). -/
  cacheMode : CacheMode
  /-- W (R145). -/
  written : Word
  /-- The reckoned T (R145). -/
  taken : Word
  /-- Notice log capacity (R145). -/
  capacity : Nat
  /-- Held notice queue, oldest first (R149). -/
  heldNotices : List Notice
  /-- Intake lists (R161). -/
  lists : Vector ListState 8
  /-- Last-served list (R161). -/
  lastServed : ListNo
  /-- Elevated list (R161). -/
  elevated : Option ListNo
  /-- Rotation mode (R161). -/
  rotation : Rotation
  /-- Scan period in seconds (R161). -/
  scanPeriod : Nat
  /-- The scan timer runs (R161). -/
  scanRunning : Bool
  /-- Authority maps (R167). -/
  maps : Vector AuthMap 8
  /-- The account engine (R9). -/
  engine : Engine
  /-- A stop is under way (R173). -/
  stopping : Bool
  /-- An armed failure of a region access; the model's own (log entry 7). -/
  failing : Option Failing
  /-- Commands waiting, first in first out; the model's own. -/
  pending : List Instr
deriving DecidableEq, Repr

/-- The part as delivered, right after a power-on reset (R175; values the spec does not state: log entries 10 and 11). -/
def State.reset : State where
  baseLo := 0
  baseHi := 0
  enables := 0
  engineState := .idle
  resetCauses := 1
  causes := 0
  logFull := false
  noticesDropped := false
  attachFail := .ok
  lines := Vector.replicate 8 true
  messages := 0
  mem := []
  layout := ⟨0, 0, 0, 0, 0, 0, 0, 0⟩
  zones := Vector.replicate 64 Zone.undefined
  published := noWord
  clock := .unset
  publicationDue := false
  classes := Vector.replicate 8 .empty
  nv := Vector.replicate 8 NvClass.delivered
  prog := none
  live := Vector.replicate 8 0
  highest := Vector.replicate 8 0
  watch := []
  dueQueue := []
  unwatched := 0
  cursor := 0
  batch := 0
  remaining := 0
  heldAccount := none
  cacheSets := Vector.replicate 64 CacheSet.invalid
  cacheMode := .normal
  written := 0
  taken := 0
  capacity := 0
  heldNotices := []
  lists := Vector.replicate 8 ⟨0, false⟩
  lastServed := 7
  elevated := none
  rotation := .fixed
  scanPeriod := 0
  scanRunning := false
  maps := Vector.replicate 8 ⟨0, 0, 0⟩
  engine := .free
  stopping := false
  failing := none
  pending := []

end Sys2Proof.Machine
end

