-- ==== Sys2Proof/Machine/Memory.lean ====
section
/-! DEFINITION. Arithmetic helpers, byte order and the operations on host memory. Every width and byte order is decided here. -/

namespace Sys2Proof.Machine

/-! ## Widths -/

/-- A result stored in 32 bits saturates at the largest value (R30). -/
def sat32 (n : Nat) : Word := if n < 2 ^ 32 then BitVec.ofNat 32 n else noWord

/-- A result stored in 64 bits saturates at the largest value (R30). -/
def sat64 (n : Nat) : DWord := if n < 2 ^ 64 then BitVec.ofNat 64 n else 0xFFFFFFFFFFFFFFFF

/-- A count put into a word as it stands. -/
def word (n : Nat) : Word := BitVec.ofNat 32 n

/-- A truth value as 0 or 1. -/
def bit (b : Bool) : Nat := if b then 1 else 0

/-- Byte `i` of a word, byte 0 the least significant (spec/00 section 4). -/
def byteOf (w : Word) (i : Nat) : Nat := w.toNat / 256 ^ i % 256

/-- The low and the high half of a word as 16-bit quantities. -/
def lowHalf (w : Word) : BitVec 16 := w.setWidth 16

@[inherit_doc lowHalf]
def highHalf (w : Word) : BitVec 16 := (w >>> 16).setWidth 16

/-- A word from four byte values, the least significant first. -/
def wordOfBytes (b0 b1 b2 b3 : Nat) : Word :=
  word (b0 % 256 + 256 * (b1 % 256) + 65536 * (b2 % 256) + 16777216 * (b3 % 256))

/-- A word from two 16-bit values, the low one first. -/
def wordOfHalves (lo hi : Nat) : Word := word (lo % 65536 + 65536 * (hi % 65536))

/-- A two-word quantity, least significant word first (spec/00 section 4). -/
def dword (lo hi : Word) : DWord := hi ++ lo

/-- The words of a two-word quantity, in order of address. -/
def loWord (d : DWord) : Word := d.setWidth 32

@[inherit_doc loWord]
def hiWord (d : DWord) : Word := (d >>> 32).setWidth 32

/-- The four bytes of a word in order of address: each word is little-endian (spec/00 section 4). -/
def wordBytes (w : Word) : List Byte :=
  [w.extractLsb' 0 8, w.extractLsb' 8 8, w.extractLsb' 16 8, w.extractLsb' 24 8]

/-- The word that four bytes spell, the byte at the lowest address first. -/
def bytesWord (b0 b1 b2 b3 : Byte) : Word := b3 ++ b2 ++ b1 ++ b0

/-- The bytes of a run of words, in order of address. -/
def wordsBytes (ws : List Word) : List Byte := ws.flatMap wordBytes

/-! ## Memory -/

/-- What a byte of host memory reads as when nothing has been stored there. DESIGN CHOICE, unsafe (log entry 2): the
contents of host memory before the host writes it are not in the spec. -/
def unlistedByte : Byte := 0

/-- The byte at an address. -/
def Memory.read (m : Memory) (a : Nat) : Byte :=
  match m.find? (fun c => c.1 == a) with
  | some c => c.2
  | none => unlistedByte

/-- The cells to list for a run of bytes from `a` on: those that differ from an unlisted byte. -/
def Memory.listed : Nat → List Byte → List Host.Cell
  | _, [] => []
  | a, b :: bs => if b = unlistedByte then listed (a + 1) bs else (a, b) :: listed (a + 1) bs

/-- Store a run of bytes from address `a` on. -/
def Memory.store (m : Memory) (a : Nat) (bs : List Byte) : Memory :=
  m.filter (fun c => decide (c.1 < a)) ++ listed a bs ++ m.filter (fun c => decide (a + bs.length ≤ c.1))

/-- The word at an address. -/
def Memory.word (m : Memory) (a : Nat) : Word :=
  bytesWord (m.read a) (m.read (a + 1)) (m.read (a + 2)) (m.read (a + 3))

/-- A run of `n` words from address `a` on. -/
def Memory.words (m : Memory) (a n : Nat) : Vector Word n := Vector.ofFn fun i : Fin n => m.word (a + 4 * i.val)

/-- Store the host's bytes in their order (log entry 1). -/
def Memory.land (m : Memory) : HostStores → Memory
  | [] => m
  | c :: cs => Memory.land (m.store c.1 [c.2]) cs

/-- The canonical form: addresses strictly rising, and no entry that an unlisted address reads as. -/
def Memory.wf : Memory → Bool
  | [] => true
  | c :: cs => decide (c.2 ≠ unlistedByte) && (cs.all fun d => decide (c.1 < d.1)) && Memory.wf cs

/-! ## Check words -/

/-- The sum of the words, each rotated left by its index modulo 32, from index `i` on (R2, R67). -/
def rotatedSum : Nat → List Word → Word
  | _, [] => 0
  | i, w :: ws => w.rotateLeft (i % 32) + rotatedSum (i + 1) ws

/-- The check word over a run of words: the ones' complement of their rotated sum (R2, R67). -/
def checkWord (ws : List Word) : Word := ~~~ rotatedSum 0 ws

end Sys2Proof.Machine
end

