-- ==== Sys2Proof/Machine/Ops.lean ====
section
/-! DEFINITION. The operations every block shares: access to the exchange region, interrupt causes, hold lines, entry to
FAULTED, and how a command's work concludes. -/

namespace Sys2Proof.Machine

/-! ## Work that can be cut short -/

/-- Why work is cut short: an access to the exchange region failed (R174). -/
inductive Cut where
  | accessFailed
deriving DecidableEq, Repr

/-- A piece of work on the state. It ends normally, or is cut at a failed access with the state as it then stands (R13). -/
abbrev Act := EStateM Cut State

/-- Do `f` for each element, in order. -/
def forEach {α : Type} : List α → (α → Act Unit) → Act Unit
  | [], _ => pure ()
  | x :: xs, f => do
    f x
    forEach xs f

/-- Do `f` for each element, in order, and add up the counts it answers. -/
def sumOver {α : Type} : List α → (α → Act Nat) → Act Nat
  | [], _ => pure 0
  | x :: xs, f => do
    let n ← f x
    let m ← sumOver xs f
    pure (n + m)

/-- Do `a` a number of times. -/
def repeatAct : Nat → Act Unit → Act Unit
  | 0, _ => pure ()
  | n + 1, a => do
    a
    repeatAct n a

/-! ## The exchange region -/

/-- The region address held in BASE_LO and BASE_HI (R158, R170). -/
def State.base (s : State) : Nat := (s.baseHi ++ s.baseLo).toNat

/-- The word at an offset of the region, as it stands in host memory. -/
def State.peek (s : State) (off : Nat) : Word := s.mem.word (s.base + off)

/-- `n` words from an offset of the region on, as they stand in host memory. -/
def State.peekWords (s : State) (off n : Nat) : Vector Word n := s.mem.words (s.base + off) n

/-- Words stored from an offset of the region on. -/
def State.poke (s : State) (off : Nat) (ws : List Word) : State :=
  { s with mem := s.mem.store (s.base + off) (wordsBytes ws) }

/-- Only the first `n` bytes of a run of words stored: what a failed write may leave (R4, R139; log entry 7). -/
def State.pokePart (s : State) (off : Nat) (ws : List Word) (n : Nat) : State :=
  { s with mem := s.mem.store (s.base + off) ((wordsBytes ws).take n) }

/-- One read access of the region (R159). -/
def regionRead (off n : Nat) : Act (Vector Word n) := fun s =>
  match s.failing with
  | none => .ok (s.peekWords off n) s
  | some ⟨0, _⟩ => .error .accessFailed { s with failing := none }
  | some ⟨k + 1, p⟩ => .ok (s.peekWords off n) { s with failing := some ⟨k, p⟩ }

/-- One write access of the region (R159). `lands` says how many of the bytes armed to land do so when it fails. -/
def regionWriteLanding (lands : Nat → Nat) (off : Nat) (ws : List Word) : Act Unit := fun s =>
  match s.failing with
  | none => .ok () (s.poke off ws)
  | some ⟨0, p⟩ => .error .accessFailed { s.pokePart off ws (lands p) with failing := none }
  | some ⟨k + 1, p⟩ => .ok () { s.poke off ws with failing := some ⟨k, p⟩ }

/-- A write access that may leave a part of its words when it fails, never the whole of them (R4, R139; log entry 7). -/
def regionWrite (off : Nat) (ws : List Word) : Act Unit := regionWriteLanding (min (4 * ws.length - 1)) off ws

/-- A write access that leaves the old words when it fails: W and the held count (R146, R153), the check word of the zone page (R66)
and the word that makes a cell DONE (R174). -/
def regionWriteWhole (off : Nat) (ws : List Word) : Act Unit := regionWriteLanding (fun _ => 0) off ws

/-- The host's stores into its own memory (log entry 1). They are no access of the part's. -/
def landStores (stores : HostStores) : Act Unit :=
  modify fun s => { s with mem := s.mem.land stores }

/-! ## Places in the region (R159) -/

/-- Account record `n`. -/
def Layout.record (l : Layout) (n : Nat) : Nat := l.accountTable + 64 * n

/-- Cell `i` of list `k`. -/
def Layout.cell (l : Layout) (k : ListNo) (i : Nat) : Nat :=
  l.intakeLists + k.val * l.cellsPerList * 64 + 64 * i

/-- The entry of a zone in the zone page. -/
def Layout.zoneEntry (l : Layout) (z : Nat) : Nat := l.zonePage + 64 + 192 * z

/-! ## Time -/

/-- The current plant minute, or 0 while the clock is UNSET (R144). While STALLED it is the paused value (R8). -/
def State.minute (s : State) : Word :=
  match s.clock with
  | .unset => 0
  | .held m _ => m

/-- The clock holds a plant minute (R121). -/
def State.clockSet (s : State) : Bool :=
  match s.clock with
  | .unset => false
  | .held _ _ => true

/-- Clock state code of the control page and of CLOCKSET results: 0 UNSET, 1 RUNNING, 2 STALLED. -/
def clockCode : Clock → Nat
  | .unset => 0
  | .held _ stall => if stall = 0 then 1 else 2

/-- The stall count, 0 while UNSET (R121). -/
def stallOf : Clock → Nat
  | .unset => 0
  | .held _ stall => stall.val

/-- The plant minute as the part reports it: 0xFFFFFFFF while UNSET (R121). -/
def minuteWord : Clock → Word
  | .unset => noWord
  | .held m _ => m

/-! ## Interrupt causes (R154, R155) -/

/-- The bit of a cause among STATUS bits 8–12. -/
def Cause.index : Cause → Nat
  | .urgentNotice => 0
  | .notice => 1
  | .cellDone => 2
  | .attachEnd => 3
  | .fault => 4

/-- An event of a cause: a cause that goes from clear to set sends one message if its enable is set (R155). -/
def State.raiseCause (s : State) (c : Cause) : State :=
  if s.causes.getLsbD c.index then s
  else
    { s with
      causes := s.causes ||| (1#5 <<< c.index)
      messages := if s.enables.getLsbD c.index then s.messages + 1 else s.messages }

/-! ## Registers as the host reads them (spec/10 section 10.1) -/

/-- Engine state code of STATUS and of the control page. -/
def EngineState.code : EngineState → Nat
  | .idle => 0
  | .attaching => 1
  | .running => 2
  | .faulted => 3

/-- Attach-failure code of STATUS. -/
def AttachFail.code : AttachFail → Nat
  | .ok => 0
  | .layout => 1
  | .zonePage => 2

/-- STATUS (R158). -/
def State.status (s : State) : Word :=
  word (s.engineState.code + 4 * s.resetCauses.toNat + 2 ^ 8 * s.causes.toNat + 2 ^ 16 * bit s.logFull
    + 2 ^ 17 * bit s.noticesDropped + 2 ^ 24 * s.attachFail.code)

/-- CONTROL: the enables at bits 8–12; the command bits read 0 (R158). -/
def State.control (s : State) : Word := word (2 ^ 8 * s.enables.toNat)

/-- ID: part number, family code and the revision, a free value (log entry 12). -/
def idRegister : Word := word (0x6408B100 + Config.revision.toNat)

/-- What a read of a register returns, by offset. NUDGE reads 0; the spec names no other register. -/
def State.readRegister (s : State) (off : Nat) : Word :=
  if off = 0x00 then idRegister
  else if off = 0x04 then s.baseLo
  else if off = 0x08 then s.baseHi
  else if off = 0x0C then s.control
  else if off = 0x10 then s.status
  else 0

/-! ## Hold lines (R156) -/

/-- The part is ready: RUNNING with its clock RUNNING or STALLED (R156). -/
def State.ready (s : State) : Bool := decide (s.engineState = .running) && s.clockSet

/-- A zone asserts the line it names by conditions 1 to 3 of R156. -/
def Zone.holds (z : Zone) : Bool :=
  decide (0 < z.expiredPresent) || (z.holdOnStale && decide (z.climate ≠ .current)) || z.faultHold

/-- Hold line `n`, 1 to 8, is asserted by R156. -/
def State.lineHeld (s : State) (n : Nat) : Bool :=
  !s.ready || s.zones.toList.any fun z => decide (z.holdLine.val = n) && z.holds

/-- The hold line driver: each line changes as soon as its conditions do (R157). -/
def State.drive (s : State) : State :=
  { s with lines := Vector.ofFn fun i : Fin 8 => s.lineHeld (i.val + 1) }

/-! ## FAULTED (R174) -/

/-- Every eligibility mark cleared (R161). -/
def clearEligible (lists : Vector ListState 8) : Vector ListState 8 :=
  Vector.ofFn fun k : Fin 8 => { lists[k] with eligible := false }

/-- Entry to FAULTED: the work is abandoned and the engine FREE (R13), the clock UNSET with no publication, the scan timer
stopped and the eligibility marks cleared (R161), the FAULT cause set (R174). -/
def State.enterFaulted (s : State) : State :=
  { s with
    engineState := .faulted
    clock := .unset
    publicationDue := false
    scanRunning := false
    lists := clearEligible s.lists
    engine := .free
    stopping := false }.raiseCause .fault

/-! ## How a command concludes -/

/-- The state a piece of work leaves, its hold lines driven; a failed access sends the part to FAULTED (R174). -/
def State.after (s : State) (a : Act Unit) : State :=
  match a s with
  | .ok _ t => t.drive
  | .error _ t => t.enterFaulted.drive

/-- The outcome of a command: always a next state. -/
def conclude (a : Act Unit) (s : State) : Host.Outcome State Fault Refusal := .next (s.after a)

/-! ## Counts (R14) -/

/-- A count changed by a net change; no count is taken below 0 (R14). -/
def addCount (n : Nat) (d : Int) : Nat := ((n : Int) + d).toNat

/-- Net changes of a zone's occupancy and expired-present count (R14). -/
def State.countZone (s : State) (z : ZoneNo) (occ exp : Int) : State :=
  { s with
    zones := s.zones.set z
      { s.zones[z] with
        occupancy := addCount s.zones[z].occupancy occ
        expiredPresent := addCount s.zones[z].expiredPresent exp } }

/-- A net change of a class's live count (R14). -/
def State.countLive (s : State) (c : ClassNo) (d : Int) : State :=
  { s with live := s.live.set c (addCount s.live[c] d) }

/-- A class's highest bake count raised, if the new count is larger (R76). -/
def State.raiseHighest (s : State) (c : ClassNo) (n : Nat) : State :=
  { s with highest := s.highest.set c (max s.highest[c] n) }

end Sys2Proof.Machine
end

