-- ==== Sys2Proof/Machine/Account.lean ====
section
/-! DEFINITION. The account record: its fields, its words, its checks (spec/01 section 1.1, spec/10 Account record). -/

namespace Sys2Proof.Machine

/-- States of an account (R6). -/
inductive AccountState where
  | vacant
  | unopened
  | exposed
  | dryheld
  | baking
  | bagged
  | retired
deriving DecidableEq, Repr

/-- The five flags of an account (R7). -/
structure AccountFlags where
  expired : Bool
  warned : Bool
  saturated : Bool
  degraded : Bool
  noticeMissed : Bool
deriving DecidableEq, Repr

/-- Every flag clear. -/
def AccountFlags.clear : AccountFlags := ⟨false, false, false, false, false⟩

/-- The fields of a record that is neither corrupt nor malformed. -/
structure Account where
  tag : DWord
  cls : ClassNo
  state : AccountState
  zone : Option ZoneNo
  flags : AccountFlags
  bakeCount : Nat
  exposure : Word
  mark : DWord
  aux : Word
  lastCredit : Word
  entryMinute : Word
  expiryMinute : Word
  hostRef : DWord
  sequence : Word
deriving DecidableEq, Repr

/-- State code of the record. -/
def AccountState.code : AccountState → Nat
  | .vacant => 0
  | .unopened => 1
  | .exposed => 2
  | .dryheld => 3
  | .baking => 4
  | .bagged => 5
  | .retired => 6

/-- The state a code names, if any. -/
def accountStateOf (n : Nat) : Option AccountState :=
  match n with
  | 0 => some .vacant
  | 1 => some .unopened
  | 2 => some .exposed
  | 3 => some .dryheld
  | 4 => some .baking
  | 5 => some .bagged
  | 6 => some .retired
  | _ => none

/-- EXPOSED, DRYHELD and BAKING are the states in a zone (spec/01 section 1.2). -/
def AccountState.inZone : AccountState → Bool
  | .exposed | .dryheld | .baking => true
  | .vacant | .unopened | .bagged | .retired => false

/-- The states counted in the live count (R14). -/
def AccountState.isLive : AccountState → Bool
  | .unopened | .exposed | .dryheld | .baking | .bagged => true
  | .vacant | .retired => false

/-- The flag byte: bits 0 to 4 (spec/10 Account record). -/
def AccountFlags.code (f : AccountFlags) : Nat :=
  bit f.expired + 2 * bit f.warned + 4 * bit f.saturated + 8 * bit f.degraded + 16 * bit f.noticeMissed

/-- The flags of a flag byte. Bits 5 to 7 are not tested. -/
def accountFlagsOf (n : Nat) : AccountFlags :=
  ⟨n.testBit 0, n.testBit 1, n.testBit 2, n.testBit 3, n.testBit 4⟩

/-- 1 for an account whose EXPIRED flag is set, 0 otherwise: its part of an expired-present count (R14). -/
def Account.expiredCount (a : Account) : Int := if a.flags.expired then 1 else 0

/-- The check word of a record's first fifteen words (R2). -/
def recordCheck (ws : Vector Word 16) : Word := checkWord (ws.toList.take 15)

/-- A record whose sixteen words are all zero (R2). -/
def isBlank (ws : Vector Word 16) : Bool := ws.toList.all fun w => decide (w = 0)

/-- A corrupt record: not blank, and its stored check word differs from the computed one (R2). -/
def isCorrupt (ws : Vector Word 16) : Bool := !isBlank ws && decide (ws[15] ≠ recordCheck ws)

/-- The account in a record's words, or none for a malformed record (R3): a state code that names no state, a class above 7
or a bake count above 15, a zone missing or above 63 in a state that has one, a zone named in a state that has none. -/
def accountOf (ws : Vector Word 16) : Option Account :=
  let cls := byteOf ws[2] 0
  let zoneByte := byteOf ws[2] 2
  let bakes := byteOf ws[3] 0
  match accountStateOf (byteOf ws[2] 1) with
  | none => none
  | some st =>
    if cls > 7 ∨ bakes > 15 then none
    else if st.inZone then
      if zoneByte = 0 ∨ zoneByte > 64 then none
      else some (fields st (some (Fin.ofNat 64 (zoneByte - 1))))
    else if zoneByte ≠ 0 then none
    else some (fields st none)
where
  /-- The fields as they stand in the words. -/
  fields (st : AccountState) (zone : Option ZoneNo) : Account :=
    { tag := dword ws[0] ws[1]
      cls := Fin.ofNat 8 (byteOf ws[2] 0)
      state := st
      zone := zone
      flags := accountFlagsOf (byteOf ws[2] 3)
      bakeCount := byteOf ws[3] 0
      exposure := ws[4]
      mark := dword ws[5] ws[6]
      aux := ws[7]
      lastCredit := ws[8]
      entryMinute := ws[9]
      expiryMinute := ws[10]
      hostRef := dword ws[11] ws[12]
      sequence := ws[14] }

/-- The zone byte: the zone number plus 1, 0 for none (spec/10 Account record). -/
def zoneByteOf : Option ZoneNo → Nat
  | none => 0
  | some z => z.val + 1

/-- The fields as the part writes them by the state (R1): in EXPOSED the auxiliary mark is 0; in UNOPENED, BAGGED and
RETIRED the zone is none and both marks are 0. -/
def Account.asWritten (a : Account) : Account :=
  match a.state with
  | .exposed => { a with aux := 0 }
  | .dryheld | .baking => a
  | .vacant | .unopened | .bagged | .retired => { a with zone := none, mark := 0, aux := 0 }

/-- Words 0 to 14 of a record, its sequence as given. The reserved bytes are written 0. -/
def Account.bodyWords (a : Account) : List Word :=
  [loWord a.tag, hiWord a.tag,
   wordOfBytes a.cls.val a.state.code (zoneByteOf a.zone) a.flags.code,
   wordOfBytes a.bakeCount 0 0 0,
   a.exposure, loWord a.mark, hiWord a.mark, a.aux, a.lastCredit, a.entryMinute, a.expiryMinute,
   loWord a.hostRef, hiWord a.hostRef, 0, a.sequence]

/-- The sixteen words the part writes for an account: the fields by its state, and the check word (R1, R2). -/
def recordWords (a : Account) : Vector Word 16 :=
  let body := a.asWritten.bodyWords
  let words := body ++ [checkWord body]
  Vector.ofFn fun i : Fin 16 => words.getD i.val 0

end Sys2Proof.Machine
end

