-- ==== Sys2Proof/Machine/Classes.lean ====
section
/-! DEFINITION. The class image, the load of the class store, the figures in force and the fallback treatment
(spec/04; spec/02 R29, R35). -/

namespace Sys2Proof.Machine

/-! ## The class record (spec/04 section 4.1, spec/10 Class image) -/

/-- The figures in a class image's words. -/
def figuresOf (ws : Vector Word 30) : Figures where
  budget := ws[0].toNat
  ceiling := ws[1].toNat
  margin := (lowHalf ws[2]).toNat
  gapRate := (highHalf ws[2]).toNat
  recovery := (lowHalf ws[3]).toNat
  setpoint := (highHalf ws[3]).toNat
  fullBake := (lowHalf ws[4]).toNat
  minBake := (highHalf ws[4]).toNat
  bakeLimit := byteOf ws[5] 0
  rates := Vector.ofFn fun i : Fin 48 =>
    let w := ws[6 + i.val / 2]'(by omega)
    if i.val % 2 = 0 then (lowHalf w).toNat else (highHalf w).toNat

/-- The largest of the 48 entries of a rate table: the class's worst rate (R70). -/
def worstRate (f : Figures) : Nat := f.rates.toList.foldl max 0

/-- Every field lies in its range, the ceiling below a limited budget, and the gap rate at or above the largest rate
(spec/04 section 4.1, R72, R77). -/
def Figures.inRange (f : Figures) : Bool :=
  decide (f.budget ≤ 1000000) && decide (f.margin ≤ 65535)
    && f.rates.toList.all (fun r => decide (r ≤ 4095))
    && decide (worstRate f ≤ f.gapRate) && decide (f.gapRate ≤ 4095)
    && decide (f.recovery ≤ 4095)
    && (if f.budget = 0 then decide (f.ceiling ≤ 1000000) else decide (f.ceiling < f.budget))
    && decide (400 ≤ f.setpoint) && decide (f.setpoint ≤ 2000)
    && decide (1 ≤ f.fullBake) && decide (f.fullBake ≤ 10080)
    && decide (1 ≤ f.minBake) && decide (f.minBake ≤ f.fullBake)
    && decide (f.bakeLimit ≤ 15)

/-- The VALID state of a class with these figures, its worst rate computed from the rate table (R70). -/
def validClass (f : Figures) : ClassState := .valid f (worstRate f)

/-! ## Nonvolatile memory (R71, R72) -/

/-- Every word agrees with the complement of its copy (R72). -/
def NvClass.copiesAgree (c : NvClass) : Bool :=
  decide (c.complements = Vector.ofFn fun i : Fin 30 => ~~~ c.words[i])

/-- The state a class loads as, by the first case that applies (R72). -/
def loadClass (c : NvClass) : ClassState :=
  if c.inProgress then .invalid .interrupted
  else if !c.writtenMarker then .empty
  else if !c.copiesAgree || !(figuresOf c.words).inRange then .invalid .damaged
  else validClass (figuresOf c.words)

/-- The load of all eight classes at a reset (R72). -/
def loadClasses (nv : Vector NvClass 8) : Vector ClassState 8 := Vector.ofFn fun c : Fin 8 => loadClass nv[c]

/-- The bits that the defects flip in word `i` of the copy, or of the complement. -/
def defectBits (defects : List NvDefect) (complement : Bool) (i : Nat) : Word :=
  defects.foldl
    (fun acc d => if d.word = i ∧ d.complement = complement then acc ^^^ d.flips else acc) 0

/-- What the nonvolatile memory holds once an image has been programmed and verified: each word with its complement, the
written marker, and the in-progress marker left written unless the verify found every comparison and check to hold (R79). -/
def programmed (image : Vector Word 30) (defects : List NvDefect) : NvClass :=
  let words := Vector.ofFn fun i : Fin 30 => image[i] ^^^ defectBits defects false i.val
  let complements := Vector.ofFn fun i : Fin 30 => ~~~ image[i] ^^^ defectBits defects true i.val
  let verified := decide (words = image)
    && decide (complements = Vector.ofFn fun i : Fin 30 => ~~~ image[i]) && (figuresOf image).inRange
  { words := words, complements := complements, writtenMarker := true, inProgress := !verified }

/-- Cause codes of CLASS_FAULT (R73). -/
def LoadCause.code : LoadCause → Nat
  | .damaged => 1
  | .interrupted => 2
  | .verifyFailed => 3

/-! ## Figures in force (R29, R70, R74) -/

/-- The figures of a class while it is VALID. -/
def ClassState.figures? : ClassState → Option Figures
  | .valid f _ => some f
  | .empty | .invalid _ | .programming => none

/-- The fallback budget in minutes: the smallest limited budget among the classes VALID now, or 1 minute (R74). -/
def fallbackBudget (classes : Vector ClassState 8) : Nat :=
  let limited := classes.toList.filterMap fun c =>
    match c.figures? with
    | some f => if f.budget = 0 then none else some f.budget
    | none => none
  (limited.min?).getD 1

/-- The budget and warning margin in force for a class, in eu (R29). No budget means unlimited. -/
structure InForce where
  budget : Option Nat
  margin : Nat
deriving DecidableEq, Repr

/-- The figures a piece of work uses for a class: its own while VALID, the fallback's otherwise (R29, R74). -/
def State.inForce (s : State) (c : ClassNo) : InForce :=
  match s.classes[c].figures? with
  | some f => ⟨if f.budget = 0 then none else some (f.budget * 256), f.margin * 256⟩
  | none => ⟨some (fallbackBudget s.classes * 256), 0⟩

/-- The budget in force is limited (R29). -/
def InForce.limited (f : InForce) : Bool := f.budget.isSome

/-- A class that ENROL or AMEND may name, or the refusal it meets (R19, R24). -/
def ClassState.isProgramming : ClassState → Bool
  | .programming => true
  | .empty | .valid _ _ | .invalid _ => false

/-! ## Rates (R35, R74) -/

/-- The fallback rate in every band, and the largest rate (R74). -/
def fallbackRate : Nat := 4095

/-- The rate a class gives at a pair of bands. -/
def tableRate (c : ClassState) (t : Fin 6) (h : Fin 8) : Nat :=
  match c.figures? with
  | some f => f.rates[8 * t.val + h.val]'(by omega)
  | none => fallbackRate

/-- A class's worst rate, or the fallback's (R35, R39). -/
def worstOf : ClassState → Nat
  | .valid _ worst => worst
  | .empty | .invalid _ | .programming => fallbackRate

/-- A class's gap rate, or the fallback's (R127). -/
def gapRateOf (c : ClassState) : Nat :=
  match c.figures? with
  | some f => f.gapRate
  | none => fallbackRate

/-- The applied rate of a zone and class, the zone's climate state as the staleness check leaves it (R35); 0 for a zone of
type NONE (R50). -/
def appliedRate (z : Zone) (c : ClassState) : Nat :=
  match z.type with
  | .typeNone => 0
  | .typeOpen => if z.climate = .current then tableRate c z.tempBand z.humBand else worstOf c
  | .typeDry =>
    if z.climate = .current then
      if z.humBand ≤ z.dryLimitBand then 0 else tableRate c z.tempBand z.humBand
    else worstOf c
  | .typeBake => if z.climate = .current then 0 else worstOf c

end Sys2Proof.Machine
end

