-- ==== Sys2Proof/Machine/Flags.lean ====
section
/-! DEFINITION. Every flag computation on an account: the expiry and warning tests of folds, entries, ENROL, AMEND and
hand-overs, and the flags that a credit clears (R7, R17, R42, R43, R25, R97). -/

namespace Sys2Proof.Machine

/-! ## Setting and clearing EXPIRED and WARNED -/

/-- EXPIRED set where it was clear: the expiry minute takes the current plant minute (R8). -/
def Account.expire (a : Account) (minute : Word) : Account :=
  { a with flags := { a.flags with expired := true }, expiryMinute := minute }

/-- EXPIRED cleared if set: the expiry minute becomes 0 where the flag goes from set to clear (R8). A record whose EXPIRED is clear
already keeps its expiry minute, also in the tests of R25 and R97 (DEDUCED, log entry 48). -/
def Account.unexpire (a : Account) : Account :=
  if a.flags.expired then { a with flags := { a.flags with expired := false }, expiryMinute := 0 } else a

/-- WARNED set or cleared. -/
def Account.warn (a : Account) (w : Bool) : Account := { a with flags := { a.flags with warned := w } }

/-! ## Notices of the tests (R44) -/

/-- Detail 1 of a test's notice: the zone the test was made in, or 0xFFFFFFFF for an account in no zone (R44). -/
def zoneDetail : Option ZoneNo → Word
  | none => noWord
  | some z => word z.val

/-- A notice about account `n` that carries a zone and an exposure (R44). -/
def exposureNotice (k : NoticeKind) (n : Nat) (minute : Word) (zone : Option ZoneNo) (exposure : Word) : Notice :=
  ⟨k, n, minute, zoneDetail zone, exposure⟩

/-- RECORD_FAULT for account `n`: what is wrong and where it was met (R144). -/
def recordFault (n : Nat) (minute : Word) (what met : Nat) : Notice :=
  ⟨.recordFault, n, minute, word what, word met⟩

/-! ## The two tests -/

/-- The warning level: the budget less the margin, 0 when the margin is at or above the budget (R29). -/
def InForce.warningLevel (f : InForce) : Nat := f.budget.getD 0 - f.margin

/-- An exposure is at or above a limited budget. -/
def InForce.reached (f : InForce) (exposure : Nat) : Bool :=
  match f.budget with
  | some b => decide (b ≤ exposure)
  | none => false

/-- An exposure is at or above the warning level of a limited budget with a margin. -/
def InForce.warnable (f : InForce) (exposure : Nat) : Bool :=
  f.limited && decide (f.margin ≠ 0) && decide (f.warningLevel ≤ exposure)

/-- The expiry test (R17, R19, R42): with a limited budget, E at or above it and EXPIRED clear, EXPIRED is set and the
EXPIRED notice raised. -/
def expiryTest (f : InForce) (minute : Word) (n : Nat) (zone : Option ZoneNo) (a : Account) : Account × List Notice :=
  if f.reached a.exposure.toNat && !a.flags.expired then
    (a.expire minute, [exposureNotice .expired n minute zone a.exposure])
  else (a, [])

/-- The warning test (R17, R43): with a limited budget and a margin, WARNED and EXPIRED clear and E at or above the
warning level, WARNED is set and EXPIRY_WARNING raised. -/
def warningTest (f : InForce) (minute : Word) (n : Nat) (zone : Option ZoneNo) (a : Account) : Account × List Notice :=
  if f.warnable a.exposure.toNat && !a.flags.warned && !a.flags.expired then
    (a.warn true, [exposureNotice .expiryWarning n minute zone a.exposure])
  else (a, [])

/-- The budget and warning tests of an AMEND (R25 step 4). Where E is at or above the budget and the margin is 0, R25 says
of WARNED both that it is left and that it is cleared: a free value decides (log entry 14). -/
def amendTests (f : InForce) (minute : Word) (n : Nat) (zone : Option ZoneNo) (a : Account) : Account × List Notice :=
  if f.reached a.exposure.toNat then
    let a' := if f.margin = 0 then a.warn (a.flags.warned && Config.amendKeepsWarned) else a
    if a.flags.expired then (a', [])
    else (a'.expire minute, [exposureNotice .expired n minute zone a.exposure])
  else
    let a' := a.unexpire
    if f.warnable a.exposure.toNat then
      if a.flags.warned then (a', [])
      else (a'.warn true, [exposureNotice .expiryWarning n minute zone a.exposure])
    else (a'.warn false, [])

/-- The tests after a bake credit, which only clear flags (R97). -/
def creditTests (f : InForce) (a : Account) : Account :=
  let a' := if f.reached a.exposure.toNat then a else a.unexpire
  if !f.limited || (decide (f.margin ≠ 0) && decide (a.exposure.toNat < f.warningLevel)) then a'.warn false else a'

end Sys2Proof.Machine
end

