-- ==== Sys2Proof/Machine/Notices.lean ====
section
/-! DEFINITION. The notice unit: the log, the held notice queue and its drain (spec/09 9.1 to 9.3). -/

namespace Sys2Proof.Machine

/-- Places in the held notice queue (R148). -/
def heldMax : Nat := 64

/-- Kind codes 1 to 12 (spec/10 Notice record). -/
def NoticeKind.code : NoticeKind → Nat
  | .expired => 1
  | .zoneStale => 2
  | .recordFault => 3
  | .classFault => 4
  | .expiryWarning => 5
  | .recovered => 6
  | .bakeCredit => 7
  | .bakeExhausted => 8
  | .zoneRestored => 9
  | .clockGap => 10
  | .classProgrammed => 11
  | .attached => 12

/-- The kinds of level URGENT; the others are NORMAL (spec/09 section 9.1). -/
def NoticeKind.urgent : NoticeKind → Bool
  | .expired | .zoneStale | .recordFault | .classFault => true
  | .expiryWarning | .recovered | .bakeCredit | .bakeExhausted | .zoneRestored | .clockGap | .classProgrammed
  | .attached => false

/-- The kinds whose drop is recorded in the account they name (R151). -/
def NoticeKind.marksAccount : NoticeKind → Bool
  | .expired | .expiryWarning | .recovered | .bakeCredit | .bakeExhausted => true
  | .zoneStale | .recordFault | .classFault | .zoneRestored | .clockGap | .classProgrammed | .attached => false

/-- The subject field of the record, written 0 for CLOCK_GAP (R128). -/
def Notice.subjectField (n : Notice) : Nat := if n.kind = .clockGap then 0 else n.subject

/-- The four words of a notice record (spec/10 Notice record). -/
def Notice.words (n : Notice) : List Word :=
  [wordOfBytes n.kind.code (bit n.kind.urgent) n.subjectField (n.subjectField / 256), n.minute, n.detail1, n.detail2]

/-- The interrupt cause of a notice written into the log (R146, R154). -/
def Notice.cause (n : Notice) : Cause := if n.kind.urgent then .urgentNotice else .notice

/-- Two notices of the same kind and subject (R149). -/
def Notice.sameKey (m n : Notice) : Bool := decide (m.kind = n.kind) && decide (m.subject = n.subject)

/-- The occupancy of the log by the reckoned T, modulo 2^32 (R145). -/
def State.logOccupancy (s : State) : Nat := (s.written - s.taken).toNat

/-- The log has room by the reckoned T (R145). -/
def State.logHasRoom (s : State) : Bool := decide (s.logOccupancy < s.capacity)

/-- Write a notice into the log, then W and the held count into the control page (R146). `held` is the held queue as the
write leaves it. The cause is set when the record is written. -/
def writeNotice (n : Notice) (held : List Notice) : Act Unit := do
  let s ← get
  regionWrite (s.layout.noticeLog + 16 * (s.written.toNat % s.capacity)) n.words
  modify fun s =>
    { s with written := s.written + 1, heldNotices := held, logFull := s.logFull && !held.isEmpty }.raiseCause n.cause
  let s ← get
  regionWriteWhole (s.layout.controlPage + 4) [s.written, word s.heldNotices.length]

/-- The held notice drained next: the oldest URGENT, and once none is held the oldest NORMAL (R150). -/
def nextHeld (held : List Notice) : Option Notice :=
  match held.find? fun n => n.kind.urgent with
  | some n => some n
  | none => held.head?

/-- The drain: held notices written one at a time while the log has room; at most as many as are held (R150). -/
def drain : Nat → Act Unit
  | 0 => pure ()
  | k + 1 => do
    let s ← get
    if s.logHasRoom then
      match nextHeld s.heldNotices with
      | none => pure ()
      | some n => do
        writeNotice n (s.heldNotices.erase n)
        drain k
    else pure ()

/-- The T to reckon with from a value read: the value if valid, and W less the capacity otherwise (R147). -/
def reckonTaken (written : Word) (capacity : Nat) (t : Word) : Word :=
  if (written - t).toNat ≤ capacity then t else written - word capacity

/-- Read T from the control page and reckon with it; room found while notices are held starts the drain (R147). -/
def readTaken : Act Unit := do
  let s ← get
  let t ← regionRead s.layout.controlPage 1
  modify fun s => { s with taken := reckonTaken s.written s.capacity t[0] }
  let s ← get
  drain s.heldNotices.length

/-- A notice merged into the held one of its kind and subject: place kept, minute and details replaced (R149). -/
def mergeHeld (n : Notice) (held : List Notice) : List Notice :=
  held.map fun m => if m.sameKey n then { m with minute := n.minute, detail1 := n.detail1, detail2 := n.detail2 } else m

/-- A notice reaches the unit (R148). Answers whether it was dropped. T is read at a drop too, since the held queue is not
empty (R147; log entry 15), and before the drop is recorded (DESIGN CHOICE, log entry 45). -/
def receiveNotice (n : Notice) : Act Bool := do
  let s ← get
  if s.heldNotices.isEmpty then
    if s.logHasRoom then
      writeNotice n []
      pure false
    else do
      readTaken
      let s ← get
      if s.logHasRoom then writeNotice n []
      else modify fun s => { s with heldNotices := [n], logFull := true }
      pure false
  else if s.heldNotices.any fun m => m.sameKey n then do
    modify fun s => { s with heldNotices := mergeHeld n s.heldNotices }
    readTaken
    pure false
  else if s.heldNotices.length < heldMax then do
    modify fun s => { s with heldNotices := s.heldNotices ++ [n] }
    readTaken
    pure false
  else do
    readTaken
    pure true

/-- Hand notices over in order. A dropped notice that marks no account sets NOTICES_DROPPED; the answer says whether a
notice that marks its account was dropped (R151). The flag is set after the read of T that the drop makes (DESIGN CHOICE, log
entry 45). -/
def handNotices : List Notice → Act Bool
  | [] => pure false
  | n :: ns => do
    let dropped ← receiveNotice n
    if dropped && !n.kind.marksAccount then modify fun s => { s with noticesDropped := true }
    let rest ← handNotices ns
    pure ((dropped && n.kind.marksAccount) || rest)

/-- Hand over notices whose subjects are zones, classes, minutes or the part, or that report a faulty record. -/
def reportNotices (ns : List Notice) : Act Unit := do
  let _ ← handNotices ns
  pure ()

end Sys2Proof.Machine
end

