-- ==== Sys2Proof/Machine/Cache.lean ====
section
/-! DEFINITION. The account cache: lookup, fill, replacement, uncached reads and write-through (spec/08). -/

namespace Sys2Proof.Machine

/-- The set of an account number (R133). -/
def setOf (n : Nat) : Fin 64 := Fin.ofNat 64 n

/-- The tag of an account number (R133). -/
def tagOf (n : Nat) : Nat := n / 64

/-- A way holds the account with a tag. -/
def wayHolds (w : Option Line) (tag : Nat) : Bool :=
  match w with
  | some l => decide (l.tag = tag)
  | none => false

/-- The lowest-numbered way of a set that satisfies a condition. -/
def CacheSet.findWay (cs : CacheSet) (p : Option Line → Bool) : Option (Fin 4) :=
  (List.finRange 4).find? fun w => p cs.ways[w]

/-- The way that holds an account, if any (R133). -/
def State.hitWay (s : State) (n : Nat) : Option (Fin 4) :=
  s.cacheSets[setOf n].findWay fun w => wayHolds w (tagOf n)

/-- The record words a line holds for an account, if any. -/
def State.cached (s : State) (n : Nat) : Option (Vector Word 16) :=
  match s.hitWay n with
  | some w => (s.cacheSets[setOf n].ways[w]).map Line.words
  | none => none

/-- The replacement-order bits point away from the way used (R136). -/
def CacheSet.use (cs : CacheSet) (w : Fin 4) : CacheSet :=
  if w = 0 then { cs with pairBit := true, bit01 := true }
  else if w = 1 then { cs with pairBit := true, bit01 := false }
  else if w = 2 then { cs with pairBit := false, bit23 := true }
  else { cs with pairBit := false, bit23 := false }

/-- The victim the order bits name (R136). -/
def CacheSet.victim (cs : CacheSet) : Fin 4 :=
  if cs.pairBit then (if cs.bit23 then 3 else 2) else (if cs.bit01 then 1 else 0)

/-- The way a fill takes: the lowest invalid one, else the victim (R135). -/
def CacheSet.fillWay (cs : CacheSet) : Fin 4 := (cs.findWay Option.isNone).getD cs.victim

/-- One set changed. -/
def State.mapSet (s : State) (n : Nat) (f : CacheSet → CacheSet) : State :=
  { s with cacheSets := s.cacheSets.set (setOf n) (f s.cacheSets[setOf n]) }

/-- A fill of a set with an account's record (R135). -/
def CacheSet.fill (cs : CacheSet) (n : Nat) (ws : Vector Word 16) : CacheSet :=
  let w := cs.fillWay
  { cs with ways := cs.ways.set w (some ⟨tagOf n, ws⟩) }.use w

/-- The line that holds an account takes the words written through; no line is allocated (R139). -/
def CacheSet.rewrite (cs : CacheSet) (n : Nat) (ws : Vector Word 16) : CacheSet :=
  { cs with
    ways := Vector.ofFn fun w : Fin 4 =>
      if wayHolds cs.ways[w] (tagOf n) then some ⟨tagOf n, ws⟩ else cs.ways[w] }

/-- Every line invalid and every order bit 0 (R140, R143). -/
def State.invalidateCache (s : State) : State := { s with cacheSets := Vector.replicate 64 CacheSet.invalid }

/-- What a fetch returns to the engine or the patrol (R2, R3). -/
inductive Fetched where
  | corrupt
  | malformed
  | record (a : Account)
deriving DecidableEq, Repr

/-- Words that passed the check-word comparison, put to the malformed test (R3). -/
def judge (ws : Vector Word 16) : Fetched :=
  match accountOf ws with
  | some a => .record a
  | none => .malformed

/-- An uncached read: the record's words compared by R2, nothing allocated (R138). -/
def readUncached (n : Nat) : Act Fetched := do
  let s ← get
  let ws ← regionRead (s.layout.record n) 16
  pure (if isCorrupt ws then .corrupt else judge ws)

/-- A fetch by the account engine (R134, R135, R137). -/
def fetchRecord (n : Nat) : Act Fetched := do
  let s ← get
  match s.hitWay n, s.cached n with
  | some w, some ws =>
    modify fun s => s.mapSet n fun cs => cs.use w
    pure (judge ws)
  | _, _ =>
    if s.cacheMode = .normal then do
      let ws ← regionRead (s.layout.record n) 16
      if isCorrupt ws then pure .corrupt
      else do
        modify fun s => s.mapSet n fun cs => cs.fill n ws
        pure (judge ws)
    else readUncached n

/-- A read by the patrol: a line's copy on a hit, an uncached read on a miss, the set left as it was (R138). -/
def patrolFetch (n : Nat) : Act Fetched := do
  let s ← get
  match s.cached n with
  | some ws => pure (judge ws)
  | none => readUncached n

/-- Write an account's record through: the sequence raised by one, the check word recomputed, a line that holds it updated as
the write is issued, and one 64-byte write of the table (R139). Answers the new sequence. -/
def writeThrough (n : Nat) (a : Account) : Act Word := do
  let a' := { a with sequence := a.sequence + 1 }
  let ws := recordWords a'
  modify fun s => s.mapSet n fun cs => cs.rewrite n ws
  let s ← get
  regionWrite (s.layout.record n) ws.toList
  pure a'.sequence

/-- NOTICE_MISSED set in an account's record after a notice of the work was dropped: the record is fetched again, and written
if the flag is clear; a faulty record is recorded in NOTICES_DROPPED (R151). A failed access of this second fetch or write takes
the part to FAULTED and leaves NOTICES_DROPPED as it is (DESIGN CHOICE, log entry 46). -/
def markMissed (n : Nat) (dropped : Bool) : Act Unit := do
  if dropped then
    let f ← fetchRecord n
    match f with
    | .record a =>
      if a.flags.noticeMissed then pure ()
      else do
        let _ ← writeThrough n { a with flags := { a.flags with noticeMissed := true } }
        pure ()
    | .corrupt => modify fun s => { s with noticesDropped := true }
    | .malformed => modify fun s => { s with noticesDropped := true }

/-- Step 7 of R11 for a piece of work on account `n`: its notices handed over in order, and NOTICE_MISSED before step 8. -/
def handWorkNotices (n : Nat) (ns : List Notice) : Act Unit := do
  let dropped ← handNotices ns
  markMissed n dropped

end Sys2Proof.Machine
end

