-- ==== Sys2Proof/Machine/Exposure.lean ====
section
/-! DEFINITION. Exposure arithmetic: the fold, the watch thresholds, staleness, the minute boundary's advance, gap accrual and
the projected expiry (spec/02; spec/03 R64; spec/07 R127). -/

namespace Sys2Proof.Machine

/-! ## The fold (R41) -/

/-- The advance of a tally since a mark, 0 if the mark is above it (R41). -/
def advance (mark tally : DWord) : Nat := tally.toNat - mark.toNat

/-- The current exposure of an account against a tally: steps 1 and 2 of the fold (R41, R45). -/
def currentExposure (a : Account) (tally : DWord) : Word := sat32 (a.exposure.toNat + advance a.mark tally)

/-- Steps 1 to 3 of the fold: the advance taken into E, with SATURATED and DEGRADED (R41). -/
def takeAdvance (tally degradedMark : DWord) (a : Account) : Account :=
  { a with
    exposure := currentExposure a tally
    flags := { a.flags with
      saturated := a.flags.saturated || decide (2 ^ 32 ≤ a.exposure.toNat + advance a.mark tally)
      degraded := a.flags.degraded || decide (tally.toNat < a.mark.toNat) || decide (a.mark.toNat < degradedMark.toNat) } }

/-- The fold of account `n` in a zone against its exposure tally and degraded mark, with the notices it raises (R41). -/
def foldAccount (f : InForce) (minute : Word) (n : Nat) (z : ZoneNo) (tally degradedMark : DWord) (a : Account) :
    Account × List Notice :=
  let a1 := takeAdvance tally degradedMark a
  let (a2, n2) := expiryTest f minute n (some z) a1
  let (a3, n3) := warningTest f minute n (some z) a2
  ({ a3 with mark := tally }, n2 ++ n3)

/-! ## Watch thresholds (R47, R48) -/

/-- The expiry threshold for a limited budget (R47). -/
def expiryThreshold (budget : Nat) (a : Account) (tally : DWord) : DWord :=
  let base := min a.mark.toNat tally.toNat
  if a.exposure.toNat < budget then sat64 (base + (budget - a.exposure.toNat)) else BitVec.ofNat 64 base

/-- The warning threshold: the expiry threshold less the margin, not below 0 (R47). -/
def warningThreshold (margin : Nat) (expiry : DWord) : DWord := BitVec.ofNat 64 (expiry.toNat - margin)

/-- The threshold and stage of an inserted entry (R48). -/
def watchPoint (budget margin : Nat) (a : Account) (tally : DWord) : DWord × Stage :=
  let e := expiryThreshold budget a tally
  let w := warningThreshold margin e
  if margin = 0 ∨ a.flags.warned ∨ w.toNat ≤ tally.toNat then (e, .expire) else (w, .warn)

/-! ## Staleness (R64) -/

/-- A defined zone is of type OPEN, DRY or BAKE (R53). -/
def Zone.defined (z : Zone) : Bool := decide (z.type ≠ .typeNone)

/-- A CURRENT zone becomes STALE at the check made for a minute (R64). -/
def Zone.turnsStale (z : Zone) (minute : Nat) : Bool :=
  z.defined && decide (z.climate = .current)
    && (decide (minute < z.lastSample.toNat) || decide (z.staleLimit.toNat ≤ minute - z.lastSample.toNat))

/-- The staleness check of one zone for a minute (R64). -/
def Zone.checkStale (z : Zone) (minute : Nat) : Zone :=
  if z.turnsStale minute then { z with climate := .stale } else z

/-- ZONE_STALE for a zone turned STALE at a minute (R65). -/
def zoneStaleNotice (i : ZoneNo) (z : Zone) (minute : Word) : Notice :=
  ⟨.zoneStale, i.val, minute, z.lastSample, word z.staleLimit.toNat⟩

/-- The ZONE_STALE notices of one check of the whole table, in ascending zone number (R65). -/
def staleNotices (zones : Vector Zone 64) (minute : Word) : List Notice :=
  (List.finRange 64).filterMap fun i =>
    if zones[i].turnsStale minute.toNat then some (zoneStaleNotice i zones[i] minute) else none

/-! ## The advance of one boundary (R34 to R39) -/

/-- A degraded advance is one of a defined zone that is STALE or NO_CLIMATE (R39). -/
def Zone.degrades (z : Zone) : Bool := z.defined && decide (z.climate ≠ .current)

/-- A zone counts a dry minute: a CURRENT DRY zone at or below its dry limit band (R37). -/
def Zone.countsDry (z : Zone) : Bool :=
  decide (z.type = .typeDry) && decide (z.climate = .current) && decide (z.humBand ≤ z.dryLimitBand)

/-- A zone counts a bake minute for a class: a CURRENT BAKE zone, the class VALID with a setpoint at or below the last
temperature (R38). -/
def Zone.countsBake (z : Zone) (c : ClassState) : Bool :=
  decide (z.type = .typeBake) && decide (z.climate = .current)
    && (match c.figures? with
        | some f => decide ((f.setpoint : Int) ≤ z.lastTemp.toInt)
        | none => false)

/-- The tallies of a zone after one boundary, its climate state as the check left it (R36 to R39). A zone of type NONE is
passed over: its applied rates are 0 and it neither counts nor degrades. A page the host wrote can load a degraded mark above
its tally: at a degraded advance the mark then takes the new tally by R39 and falls, which R31 does not foresee (DEDUCED, log
entry 40; `Zone.gap` likewise by R40). -/
def Zone.advanceTallies (z : Zone) (classes : Vector ClassState 8) : Zone :=
  let exposure := Vector.ofFn fun c : Fin 8 => sat64 (z.exposure[c].toNat + appliedRate z classes[c])
  { z with
    exposure := exposure
    degraded := if z.degrades then exposure else z.degraded
    bake := Vector.ofFn fun c : Fin 8 =>
      if z.countsBake classes[c] then sat32 (z.bake[c].toNat + 1) else z.bake[c]
    dry := if z.countsDry then sat32 (z.dry.toNat + 1) else z.dry }

/-- One zone brought forward to a minute: the staleness check, then the advance (R34). -/
def Zone.boundary (z : Zone) (classes : Vector ClassState 8) (minute : Nat) : Zone :=
  (z.checkStale minute).advanceTallies classes

/-! ## Gap accrual (R127) -/

/-- The tallies of a zone after a gap of `g` minutes (R127 step 1). -/
def Zone.gap (z : Zone) (classes : Vector ClassState 8) (g : Nat) : Zone :=
  if z.defined then
    let exposure := Vector.ofFn fun c : Fin 8 => sat64 (z.exposure[c].toNat + g * gapRateOf classes[c])
    { z with exposure := exposure, degraded := exposure }
  else z

/-! ## Projection (R50, R51) -/

/-- A zone as the staleness check of the next boundary would leave it (R50). While the clock is UNSET the check's minute is
not held, and a free value says whether a CURRENT zone is taken as STALE (log entry 13). -/
def State.zoneAhead (s : State) (z : ZoneNo) : Zone :=
  let zone := s.zones[z]
  match s.clock with
  | .held m _ => zone.checkStale (m.toNat + 1)
  | .unset =>
    if zone.defined && decide (zone.climate = .current) && Config.unsetStale zone.lastSample zone.staleLimit then
      { zone with climate := .stale }
    else zone

/-- The applied rate a QUERY reports: that of the next boundary, 0 for an account in no zone (R26, R50). -/
def State.rateAhead (s : State) (a : Account) : Nat :=
  match a.zone with
  | some z => appliedRate (s.zoneAhead z) s.classes[a.cls]
  | none => 0

/-- The projected expiry (R51; R26 while the clock is UNSET): 0 for "already", 0xFFFFFFFF for "none". -/
def State.projection (s : State) (f : InForce) (a : Account) (now rate : Nat) : Word :=
  match f.budget with
  | none => noWord
  | some b =>
    if b ≤ now then 0
    else
      match s.clock with
      | .unset => noWord
      | .held m _ =>
        if rate = 0 ∨ a.zone = none then noWord
        else
          let at_ := m.toNat + (b - now + rate - 1) / rate
          if at_ ≤ 0xFFFFFFFE then word at_ else noWord

end Sys2Proof.Machine
end

