-- ==== Sys2Proof/Machine/Credits.lean ====
section
/-! DEFINITION. Exit credits: dry recovery and bake credit (spec/05). -/

namespace Sys2Proof.Machine

/-- The minutes of a stay: the rise of the zone's tally above the auxiliary mark, 0 if the mark is above it (R87). -/
def stayMinutes (aux tally : Word) : Nat := tally.toNat - aux.toNat

/-- The dry minutes an exposure requires: f × E / 4,096, rounded up (R92). -/
def requiredDry (f : Figures) (exposure : Nat) : Nat := (f.recovery * exposure + 4095) / 4096

/-- The five conditions of dry recovery (R92). -/
def recovers (f : Figures) (a : Account) (dryMinutes : Nat) : Bool :=
  decide (0 < f.recovery) && !a.flags.expired && decide (0 < a.exposure.toNat)
    && decide (a.exposure.toNat ≤ f.ceiling * 256) && decide (requiredDry f a.exposure.toNat ≤ dryMinutes)

/-- What an exit does to the account: the account after the credit, the credit in eu, and the notices raised. -/
structure ExitCredit where
  account : Account
  credit : Word
  notices : List Notice
deriving DecidableEq, Repr

/-- No credit: E, the flags, the bake count and the last credit stay as they are (R90, R93, R96). -/
def noCredit (a : Account) : ExitCredit := ⟨a, 0, []⟩

/-- Dry recovery, all or nothing (R92, R93). -/
def dryRecovery (f : Figures) (minute : Word) (n : Nat) (dryMinutes : Nat) (a : Account) : ExitCredit :=
  if recovers f a dryMinutes then
    { account := { a with exposure := 0, lastCredit := a.exposure }.warn false
      credit := a.exposure
      notices := [⟨.recovered, n, minute, a.exposure, word dryMinutes⟩] }
  else noCredit a

/-- The credit of a bake, if the stay counts as one (R95): none when exhausted or short, E when full, E × minutes / full bake
rounded down when proportional. -/
def bakeCreditOf (f : Figures) (a : Account) (bakeMinutes : Nat) : Option Nat :=
  if a.bakeCount = f.bakeLimit then none
  else if f.fullBake ≤ bakeMinutes then some a.exposure.toNat
  else if f.minBake ≤ bakeMinutes then some (a.exposure.toNat * bakeMinutes / f.fullBake)
  else none

/-- Bake credit (R95 to R97). The count rises by one as R96 says, also from the 15 of a record of the host's under a lower limit,
which makes the record malformed (R3; DEDUCED, log entry 49). -/
def bakeCredit (f : Figures) (inForce : InForce) (minute : Word) (n : Nat) (bakeMinutes : Nat) (a : Account) : ExitCredit :=
  match bakeCreditOf f a bakeMinutes with
  | none => noCredit a
  | some k =>
    { account := creditTests inForce
        { a with
          bakeCount := a.bakeCount + 1
          exposure := word (a.exposure.toNat - k)
          lastCredit := word k }
      credit := word k
      notices := [⟨.bakeCredit, n, minute, word k, word bakeMinutes⟩] }

/-- The exit credit of the source zone's type, judged on the account as folded (R90). None under the fallback. -/
def State.exitCredit (s : State) (n : Nat) (z : ZoneNo) (a : Account) : ExitCredit :=
  match s.classes[a.cls].figures? with
  | none => noCredit a
  | some f =>
    match s.zones[z].type with
    | .typeNone | .typeOpen => noCredit a
    | .typeDry => dryRecovery f s.minute n (stayMinutes a.aux s.zones[z].dry) a
    | .typeBake => bakeCredit f (s.inForce a.cls) s.minute n (stayMinutes a.aux s.zones[z].bake[a.cls]) a

end Sys2Proof.Machine
end

