-- ==== Sys2Proof/Machine/Pool.lean ====
section
/-! DEFINITION. The watch pool: entries in list and threshold order, insertion, removal, examination, the due queue
(spec/06 6.1 to 6.3). The 512 lists are the parts of `State.watch` by zone and class; the free list is the positions no entry
has; the membership map is the accounts the entries name (log entry 29). -/

namespace Sys2Proof.Machine

/-- The pool's positions (R102). -/
def poolSize : Nat := 4096

/-- The number of a zone and class among the 512 lists, in the order lists are examined (R107). -/
def WatchEntry.list (e : WatchEntry) : Nat := 8 * e.zone.val + e.cls.val

/-- `x` stands before an entry `e` inserted after it: an earlier list, or the same list with a threshold at or below
(R103). -/
def WatchEntry.before (x e : WatchEntry) : Bool :=
  decide (x.list < e.list) || (decide (x.list = e.list) && decide (x.threshold.toNat ≤ e.threshold.toNat))

/-- Place an entry after every entry that stands before it (R103). -/
def placeEntry (e : WatchEntry) : List WatchEntry → List WatchEntry
  | [] => [e]
  | x :: xs => if x.before e then x :: placeEntry e xs else e :: x :: xs

/-- The membership bit of an account (R102). -/
def State.watched (s : State) (n : Nat) : Bool := s.watch.any fun e => decide (e.account = n)

/-- The entry of an account, if it has one. -/
def State.entryOf (s : State) (n : Nat) : Option WatchEntry := s.watch.find? fun e => decide (e.account = n)

/-- The entry at a position, if it is in use. -/
def State.entryAt (s : State) (p : Nat) : Option WatchEntry := s.watch.find? fun e => decide (e.position = p)

/-- The free count (R113). -/
def State.freeCount (s : State) : Nat := poolSize - s.watch.length

/-- The lowest-numbered free position (R102). -/
def State.freePosition (s : State) : Option Nat :=
  (List.range' 0 poolSize).find? fun p => !s.watch.any fun e => decide (e.position = p)

/-- The exposure tally of an entry's list. -/
def State.tallyOf (s : State) (e : WatchEntry) : DWord := s.zones[e.zone].exposure[e.cls]

/-- An entry put in its list, and, if its threshold is at or below the tally as it stands, into the due queue (R105). -/
def State.putEntry (s : State) (e : WatchEntry) : State :=
  let due := decide (e.threshold.toNat ≤ (s.tallyOf e).toNat)
  { s with
    watch := placeEntry { e with due := due } s.watch
    dueQueue := if due then s.dueQueue ++ [e.position] else s.dueQueue }

/-- Remove an account's entry, if it has one, from its list and from the due queue (R106). -/
def State.removeEntry (s : State) (n : Nat) : State :=
  match s.entryOf n with
  | none => s
  | some e =>
    { s with
      watch := s.watch.filter fun x => decide (x.account ≠ n)
      dueQueue := s.dueQueue.filter fun p => decide (p ≠ e.position) }

/-- The insertion of a new entry, and whether the free list had a position for it (R104, R105). -/
def State.insertEntry (s : State) (n : Nat) (z : ZoneNo) (c : ClassNo) (threshold : DWord) (stage : Stage) : State × Bool :=
  let s' := s.removeEntry n
  match s'.freePosition with
  | none => (s', false)
  | some p => (s'.putEntry ⟨p, n, z, c, threshold, stage, false⟩, true)

/-- An account is eligible for an entry: in a zone, of a limited class under the figures in force, EXPIRED clear (R105). -/
def State.eligible (s : State) (a : Account) : Bool :=
  a.zone.isSome && (s.inForce a.cls).limited && !a.flags.expired

/-- The insertion step for an account (R16, R25, R117, R120): an eligible account gets an entry if the free list has one.
The pair says whether an entry was made. -/
def State.tryWatch (s : State) (n : Nat) (a : Account) : State × Bool :=
  if a.flags.expired then (s, false)
  else
    match a.zone, (s.inForce a.cls).budget with
    | some z, some b =>
      let point := watchPoint b (s.inForce a.cls).margin a s.zones[z].exposure[a.cls]
      s.insertEntry n z a.cls point.1 point.2
    | _, _ => (s, false)

/-- The largest unwatched count (R113). -/
def unwatchedMax : Nat := 32768

/-- The unwatched count raised, within its range (R113; log entry 21). -/
def State.raiseUnwatched (s : State) (k : Nat) : State := { s with unwatched := min unwatchedMax (s.unwatched + k) }

/-- The insertion step of a zone entry, an AMEND or the attach walk: an eligible account that finds the free list empty adds
one to the unwatched count (R113, R120). -/
def State.watchAccount (s : State) (n : Nat) (a : Account) : State :=
  let (s', made) := s.tryWatch n a
  if s.eligible a && !made then s'.raiseUnwatched 1 else s'

/-- A MOVE, BAG, RETIRE or AMEND reaches an account whose fetched record is eligible and whose membership bit is clear: the
unwatched count falls by one, and a fall below 0 leaves it at 0 (R113). An AMEND that finds the count at 0 and then no free position
therefore leaves it at 1 (DEDUCED, log entry 52). -/
def State.reachUnwatched (s : State) (n : Nat) (a : Account) : State :=
  if s.eligible a && !s.watched n then { s with unwatched := s.unwatched - 1 } else s

/-- The re-insertion of a warned account's entry at stage EXPIRE, in its own position (R27, R105). Under an unlimited budget,
which no entry in a pool that a run can reach has, the entry is removed (log entry 31). -/
def State.rewatch (s : State) (e : WatchEntry) (a : Account) : State :=
  match (s.inForce a.cls).budget with
  | none => s.removeEntry e.account
  | some b =>
    (s.removeEntry e.account).putEntry
      { e with threshold := expiryThreshold b a s.zones[e.zone].exposure[e.cls], stage := .expire, due := false }

/-- An examination: in each list whose tally rose, the entries not yet due whose threshold is at or below the tally are
marked due and join the due queue, in list order (R107, R108). `before` is the zone table before the tallies rose. -/
def State.examine (s : State) (before : Vector Zone 64) : State :=
  let found := fun e : WatchEntry =>
    !e.due && decide (before[e.zone].exposure[e.cls] ≠ s.tallyOf e) && decide (e.threshold.toNat ≤ (s.tallyOf e).toNat)
  { s with
    watch := s.watch.map fun e => if found e then { e with due := true } else e
    dueQueue := s.dueQueue ++ (s.watch.filter found).map WatchEntry.position }

/-- The pool emptied (R102, R120). -/
def State.emptyPool (s : State) : State := { s with watch := [], dueQueue := [], unwatched := 0 }

/-- The hand-over the pool presents: the head of the due queue, while the part is RUNNING with its clock set (R109). -/
def State.handover (s : State) : Option WatchEntry :=
  if s.ready then
    match s.dueQueue with
    | [] => none
    | p :: _ => s.entryAt p
  else none

end Sys2Proof.Machine
end

