-- ==== Sys2Proof/Machine/Pages.lean ====
section
/-! DEFINITION. The zone page and the control page: their words, the checks of a page at attach, bands, and publication
(spec/03 3.4 and 3.6; spec/10 Control page and Zone page). -/

namespace Sys2Proof.Machine

/-! ## Bands (R61) -/

/-- The temperature band of a clamped temperature (R61). -/
def tempBandOf (t : Int) : Fin 6 :=
  if t < 200 then 0 else if t < 250 then 1 else if t < 300 then 2 else if t < 350 then 3 else if t < 400 then 4 else 5

/-- The humidity band of a clamped humidity (R61). -/
def humBandOf (h : Nat) : Fin 8 :=
  if h < 100 then 0 else if h < 200 then 1 else if h < 300 then 2 else if h < 400 then 3
  else if h < 500 then 4 else if h < 600 then 5 else if h < 700 then 6 else 7

/-! ## Codes -/

/-- Zone type codes of the zone page and of ZONESET. -/
def ZoneType.code : ZoneType → Nat
  | .typeNone => 0
  | .typeOpen => 1
  | .typeDry => 2
  | .typeBake => 3

/-- The zone type a code names, if any (R54, R69). -/
def zoneTypeOf (n : Nat) : Option ZoneType :=
  match n with
  | 0 => some .typeNone
  | 1 => some .typeOpen
  | 2 => some .typeDry
  | 3 => some .typeBake
  | _ => none

/-- Climate state codes of the zone page. -/
def ClimateState.code : ClimateState → Nat
  | .noClimate => 0
  | .current => 1
  | .stale => 2

/-- The climate state a code names, if any (R69). -/
def climateOf (n : Nat) : Option ClimateState :=
  match n with
  | 0 => some .noClimate
  | 1 => some .current
  | 2 => some .stale
  | _ => none

/-! ## The zone page -/

/-- The words of two-word quantities, in order. -/
def dwordWords (v : Vector DWord 8) : List Word := v.toList.flatMap fun d => [loWord d, hiWord d]

/-- The 48 words of a zone's entry (spec/10 Zone page). -/
def Zone.entryWords (z : Zone) : List Word :=
  [wordOfBytes z.type.code z.holdLine.val z.climate.code
      (bit z.holdOnStale + 2 * bit z.clamped + 4 * bit z.faultHold),
   wordOfBytes z.staleLimit.toNat (z.staleLimit.toNat / 256) z.dryLimitBand.val (z.tempBand.val + 16 * z.humBand.val),
   wordOfHalves z.lastTemp.toNat z.lastHum.toNat,
   z.lastSample,
   wordOfHalves z.occupancy z.expiredPresent,
   z.dry]
  ++ dwordWords z.exposure ++ dwordWords z.degraded ++ z.bake.toList ++ [0, 0]

/-- The words of all the entries. -/
def entriesWords (zones : Vector Zone 64) : List Word := zones.toList.flatMap Zone.entryWords

/-- The fourteen words of the header after the check word. -/
def headerRest : List Word := List.replicate 14 0

/-- The check word of a page: over every word but itself, in order of address (R67). Its own place adds nothing. -/
def pageCheck (published : Word) (entries : List Word) : Word :=
  checkWord (published :: 0 :: (headerRest ++ entries))

/-- The bake or dry tally, occupancy and definition in the words of an entry, or none if a check of R69 fails. The bands are
chosen again from the readings, the fault hold is cleared, and the counts start at 0 (R69). -/
def zoneOfEntry (w : Vector Word 48) : Option Zone :=
  let flags := byteOf w[0] 3
  let holdLine := byteOf w[0] 1
  let staleLimit := lowHalf w[1]
  let dryLimit := byteOf w[1] 2
  let temp := lowHalf w[2]
  let hum := highHalf w[2]
  match zoneTypeOf (byteOf w[0] 0), climateOf (byteOf w[0] 2) with
  | some type, some climate =>
    if holdLine ≤ 8 ∧ 1 ≤ staleLimit.toNat ∧ staleLimit.toNat ≤ 1440 ∧ dryLimit ≤ 7
        ∧ -400 ≤ temp.toInt ∧ temp.toInt ≤ 1500 ∧ hum.toNat ≤ 1000
        ∧ (type = .typeNone → holdLine = 0 ∧ flags.testBit 0 = false) then
      some
        { type := type
          holdLine := Fin.ofNat 9 holdLine
          staleLimit := staleLimit
          holdOnStale := flags.testBit 0
          dryLimitBand := Fin.ofNat 8 dryLimit
          climate := climate
          lastTemp := temp
          lastHum := hum
          tempBand := tempBandOf temp.toInt
          humBand := humBandOf hum.toNat
          lastSample := w[3]
          clamped := flags.testBit 1
          faultHold := false
          occupancy := 0
          expiredPresent := 0
          exposure := Vector.ofFn fun c : Fin 8 => dword (w[6 + 2 * c.val]'(by omega)) (w[7 + 2 * c.val]'(by omega))
          degraded := Vector.ofFn fun c : Fin 8 => dword (w[22 + 2 * c.val]'(by omega)) (w[23 + 2 * c.val]'(by omega))
          bake := Vector.ofFn fun c : Fin 8 => w[38 + c.val]'(by omega)
          dry := w[5] }
    else none
  | _, _ => none

/-! ## The control page (spec/10 Control page) -/

/-- The word at byte 12: engine state, clock state, stall count and reset causes. -/
def State.controlClock (s : State) : Word :=
  wordOfBytes s.engineState.code (clockCode s.clock) (stallOf s.clock) s.resetCauses.toNat

/-- The words at bytes 12 to 27: written with each publication and at the end of attach. -/
def State.controlWords (s : State) : List Word :=
  [s.controlClock, minuteWord s.clock, word s.freeCount, word s.unwatched]

/-- The word that holds the next-cell indices of lists 4h to 4h + 3, one byte each. -/
def State.indexWord (s : State) (h : Fin 2) : Word :=
  wordOfBytes (s.lists[4 * h.val]'(by omega)).next (s.lists[4 * h.val + 1]'(by omega)).next
    (s.lists[4 * h.val + 2]'(by omega)).next (s.lists[4 * h.val + 3]'(by omega)).next

/-- Write the clock words alone: at the clock changes that no publication follows (R121). Bytes 12 to 19 are one access (DESIGN
CHOICE, log entry 23). -/
def writeClockWords : Act Unit := do
  let s ← get
  if s.engineState = .running then
    regionWrite (s.layout.controlPage + 12) [s.controlClock, minuteWord s.clock]

/-! ## Publication (R66) -/

/-- Write the zone page from one snapshot of the table: every entry, then the published minute, and the check word last (R66).
The entries go in ascending zone number, and bytes 8 to 63 of the header are an access of their own after the minute (DESIGN
CHOICE, log entries 23 and 41). -/
def writeZonePage (zones : Vector Zone 64) (published : Word) : Act Unit := do
  let s ← get
  forEach (List.finRange 64) fun z => regionWrite (s.layout.zoneEntry z.val) zones[z].entryWords
  regionWrite s.layout.zonePage [published]
  regionWrite (s.layout.zonePage + 8) headerRest
  regionWriteWhole (s.layout.zonePage + 4) [pageCheck published (entriesWords zones)]

/-- A publication: the published minute is the current plant minute, or the one the table holds while the clock is UNSET; the
zone page, then the control page's words (R66, R113, R121). -/
def publish : Act Unit := do
  modify fun s =>
    { s with published := if s.clockSet then s.minute else s.published, publicationDue := false }
  let s ← get
  writeZonePage s.zones s.published
  regionWrite (s.layout.controlPage + 12) s.controlWords

/-- The publication a boundary left due is made before the accrual unit's next operation (R123; log entry 9). -/
def finishPublication : Act Unit := do
  let s ← get
  if s.publicationDue then publish

end Sys2Proof.Machine
end

