-- ==== Sys2Proof/Machine/Operands.lean ====
section
/-! DEFINITION. The operands of the cell commands: every field of the request words, and the result codes and words
(spec/10 10.3). -/

namespace Sys2Proof.Machine

/-! ## The cell (R160, R164) -/

/-- Cell state codes: 0 FREE, 1 POSTED, 2 TAKEN, 3 DONE (R160). -/
def cellPosted : Nat := 1

@[inherit_doc cellPosted]
def cellTaken : Nat := 2

@[inherit_doc cellPosted]
def cellDone : Nat := 3

/-- Word 0 with another cell state, the kind and notify flag as read; byte 3 is 0 (R164, R166). Bits 1 to 7 of byte 2 are
written 0 whatever was read (DESIGN CHOICE, log entry 43). -/
def cellWord (state : Nat) (w0 : Word) : Word := wordOfBytes state (byteOf w0 1) (byteOf w0 2 % 2) 0

/-- The kind code of a taken cell. -/
def TakenCell.kind (c : TakenCell) : Nat := byteOf c.words[0] 1

/-- The notify flag of a taken cell. -/
def TakenCell.notify (c : TakenCell) : Bool := c.words[0].getLsbD 16

/-- The host tag of a taken cell. -/
def TakenCell.hostTag (c : TakenCell) : Word := c.words[1]

/-! ## Request words -/

/-- Account number (account kinds). -/
def TakenCell.account (c : TakenCell) : Nat := c.words[2].toNat

/-- Carrier tag (account kinds). -/
def TakenCell.tag (c : TakenCell) : DWord := dword c.words[3] c.words[4]

/-- ENROL: class. -/
def TakenCell.enrolClass (c : TakenCell) : Nat := byteOf c.words[5] 0

/-- ENROL: prior bakes. -/
def TakenCell.priorBakes (c : TakenCell) : Nat := byteOf c.words[5] 1

/-- ENROL: prior exposure. -/
def TakenCell.priorExposure (c : TakenCell) : Word := c.words[6]

/-- ENROL and AMEND: host reference. -/
def TakenCell.hostRef (c : TakenCell) : DWord := dword c.words[7] c.words[8]

/-- OPEN and MOVE: zone. -/
def TakenCell.zoneAsked (c : TakenCell) : Nat := c.words[5].toNat

/-- AMEND: new exposure, none for the keep code. -/
def TakenCell.newExposure (c : TakenCell) : Option Word := if c.words[5] = noWord then none else some c.words[5]

/-- AMEND: new class, none for the keep code. -/
def TakenCell.newClass (c : TakenCell) : Option Nat := if byteOf c.words[6] 0 = 255 then none else some (byteOf c.words[6] 0)

/-- AMEND: flags-to-clear mask. -/
def TakenCell.clearMask (c : TakenCell) : Nat := byteOf c.words[6] 1

/-- A CLIMATE sample: zone, temperature, humidity. -/
structure Sample where
  zone : Nat
  temp : BitVec 16
  hum : BitVec 16
deriving DecidableEq, Repr

/-- CLIMATE: sample count. -/
def TakenCell.sampleCount (c : TakenCell) : Nat := c.words[3].toNat

/-- CLIMATE: the four sample positions. -/
def TakenCell.samples (c : TakenCell) : List Sample :=
  [⟨byteOf c.words[2] 0, lowHalf c.words[4], highHalf c.words[4]⟩,
   ⟨byteOf c.words[2] 1, lowHalf c.words[5], highHalf c.words[5]⟩,
   ⟨byteOf c.words[2] 2, lowHalf c.words[6], highHalf c.words[6]⟩,
   ⟨byteOf c.words[2] 3, lowHalf c.words[7], highHalf c.words[7]⟩]

/-- ZONESET's request. -/
structure ZoneRequest where
  zone : Nat
  type : Nat
  holdLine : Nat
  staleLimit : BitVec 16
  holdOnStale : Nat
  dryLimit : Nat
  clearFault : Nat
deriving DecidableEq, Repr

/-- ZONESET: the fields of words 2 to 4. -/
def TakenCell.zoneRequest (c : TakenCell) : ZoneRequest where
  zone := c.words[2].toNat
  type := byteOf c.words[3] 0
  holdLine := byteOf c.words[3] 1
  staleLimit := highHalf c.words[3]
  holdOnStale := byteOf c.words[4] 0
  dryLimit := byteOf c.words[4] 1
  clearFault := byteOf c.words[4] 2

/-- CLASSWRITE: class. -/
def TakenCell.classAsked (c : TakenCell) : Nat := c.words[2].toNat

/-- CLASSWRITE: image offset. -/
def TakenCell.imageOffset (c : TakenCell) : Nat := c.words[3].toNat

/-- CLOCKSET: value. -/
def TakenCell.clockValue (c : TakenCell) : Word := c.words[2]

/-- TUNE: cache mode, patrol batch, scan period, reload-authority, as written. -/
def TakenCell.tuneMode (c : TakenCell) : Nat := c.words[2].toNat

@[inherit_doc TakenCell.tuneMode]
def TakenCell.tuneBatch (c : TakenCell) : Word := c.words[3]

@[inherit_doc TakenCell.tuneMode]
def TakenCell.tunePeriod (c : TakenCell) : Nat := c.words[4].toNat

@[inherit_doc TakenCell.tuneMode]
def TakenCell.tuneReload (c : TakenCell) : Nat := c.words[5].toNat

/-! ## Results (R166) -/

/-- The results of a cell. -/
inductive Result where
  | ok
  | okSameZone
  | noEffect
  | unknownKind
  | denied
  | clockUnset
  | badAccount
  | recordFault
  | tagMismatch
  | badState
  | badClass
  | badValue
  | badZone
  | classBusy
  | classInvalid
  | classInUse
  | zoneOccupied
  | clockBackward
  | badImage
  | programFailed
  | abandoned
deriving DecidableEq, Repr

/-- Result codes 0 to 20 (R166). -/
def Result.code : Result → Nat
  | .ok => 0
  | .okSameZone => 1
  | .noEffect => 2
  | .unknownKind => 3
  | .denied => 4
  | .clockUnset => 5
  | .badAccount => 6
  | .recordFault => 7
  | .tagMismatch => 8
  | .badState => 9
  | .badClass => 10
  | .badValue => 11
  | .badZone => 12
  | .classBusy => 13
  | .classInvalid => 14
  | .classInUse => 15
  | .zoneOccupied => 16
  | .clockBackward => 17
  | .badImage => 18
  | .programFailed => 19
  | .abandoned => 20

/-- A cell's answer: its result and words 11 to 15. -/
structure Answer where
  result : Result
  w11 : Word
  w12 : Word
  w13 : Word
  w14 : Word
  w15 : Word
deriving DecidableEq, Repr

/-- A refusal: zero result words (R11, R165). -/
def refusedWith (r : Result) : Answer := ⟨r, 0, 0, 0, 0, 0⟩

/-- The answer of the kinds that write a record: sequence, E, flags, credit (R11). -/
def accountAnswer (r : Result) (sequence exposure : Word) (flags : AccountFlags) (credit : Word) : Answer :=
  ⟨r, sequence, exposure, word flags.code, credit, 0⟩

end Sys2Proof.Machine
end

