-- ==== Sys2Proof/Machine/Intake.lean ====
section
/-! DEFINITION. The intake unit: inspection, arbitration, the take, the intake checks, completion; and when the account engine
takes work (spec/10 10.4 and 10.5; spec/01 R9, R10). -/

namespace Sys2Proof.Machine

/-! ## Authority (R167) -/

/-- A map permits a zone: below its length and set in its bitmap; a number above 63 never (R167). -/
def AuthMap.permitsZone (m : AuthMap) (z : Nat) : Bool := decide (z < 64) && decide (z < m.zoneLen) && m.bitmap.getLsbD z

/-- A map permits a kind: its bit of the kind mask is set (R167). -/
def AuthMap.permitsKind (m : AuthMap) (k : Nat) : Bool := m.kindMask.getLsbD k

/-! ## When the engine takes work (R9, R10) -/

/-- A completion of the class store waits to be applied, before any further engine work (R81). -/
def State.completionWaits (s : State) : Bool :=
  match s.prog with
  | some p => p.ended.isSome
  | none => false

/-- The engine may take work: RUNNING, no stop under way, the engine FREE, no completion waiting (R9, R81, R173). -/
def State.mayWork (s : State) : Bool :=
  decide (s.engineState = .running) && !s.stopping && decide (s.engine = .free) && !s.completionWaits

/-- The engine may take a cell: no hand-over is presented and the patrol holds no account (R10). -/
def State.mayTakeCell (s : State) : Bool := s.mayWork && s.handover.isNone && s.heldAccount.isNone

/-! ## Inspection (R162) -/

/-- A list made eligible, or not. -/
def State.setEligible (s : State) (k : ListNo) (e : Bool) : State :=
  { s with lists := s.lists.set k { s.lists[k] with eligible := e } }

/-- The offset of the cell at a list's next-cell index. -/
def State.nextCell (s : State) (k : ListNo) : Nat := s.layout.cell k s.lists[k].next

/-- An inspection of a list: eligible if the cell at its next-cell index is POSTED; a list already eligible is not read
(R162). -/
def inspect (k : ListNo) : Act Unit := do
  let s ← get
  if s.lists[k].eligible then pure ()
  else do
    let ws ← regionRead (s.nextCell k) 16
    modify fun t => t.setEligible k (decide (byteOf ws[0] 0 = cellPosted))

/-! ## Arbitration (R163) -/

/-- The lists in the order the rotation mode tries them, the elevated list apart (R163). -/
def State.turn (s : State) : List ListNo :=
  match s.rotation with
  | .fixed => List.finRange 8
  | .rotating => (List.finRange 8).map fun i => s.lastServed + 1 + i

/-- The list chosen among the eligible ones (R163). -/
def State.chosenList (s : State) : Option ListNo :=
  let rest := s.turn.find? fun k => s.lists[k].eligible && decide (s.elevated ≠ some k)
  match s.elevated with
  | some k => if s.lists[k].eligible then some k else rest
  | none => rest

/-! ## The take (R164) -/

/-- A list's next-cell index advanced by one modulo the cells per list; the list is not eligible until its next inspection,
and is the last-served list unless it is the elevated one (R163, R164). -/
def State.advanceList (s : State) (k : ListNo) : State :=
  { s with
    lists := s.lists.set k ⟨(s.lists[k].next + 1) % s.layout.cellsPerList, false⟩
    lastServed := if s.elevated = some k then s.lastServed else k }

/-- A take from a list whose cell is POSTED: words 0 to 9 read, word 0 written TAKEN, the index advanced and its control-page
word written; the engine is BUSY with the cell from then on (R164). -/
def takeCell (k : ListNo) : Act TakenCell := do
  let s ← get
  let i := s.lists[k].next
  let ws ← regionRead (s.layout.cell k i) 10
  let c : TakenCell := ⟨k, i, ws⟩
  regionWrite (s.layout.cell k i) [cellWord cellTaken ws[0]]
  modify fun t => { t.advanceList k with engine := .cell c }
  let t ← get
  let h : Fin 2 := if k.val < 4 then 0 else 1
  regionWrite (t.layout.controlPage + 28 + 4 * h.val) [t.indexWord h]
  pure c

/-- The kinds that need time (R165). -/
def needsTime (kind : Nat) : Bool := decide (kind ∈ [1, 2, 3, 4, 5, 6, 8])

/-- The refusal a taken cell meets at intake, if any, in the order of R165. A kind code outside 1 to 12 is therefore UNKNOWN_KIND on a
list whose kind mask is 0 as well (R167; DEDUCED, log entry 53). -/
def State.intakeRefusal (s : State) (c : TakenCell) : Option Result :=
  if c.kind < 1 ∨ 12 < c.kind then some .unknownKind
  else if !s.maps[c.list].permitsKind c.kind then some .denied
  else if needsTime c.kind && !s.clockSet then some .clockUnset
  else none

/-! ## Completion (R166) -/

/-- Completion of a cell: host tag, result words, then word 0 DONE; CELL_DONE if asked; the list inspected (R166). -/
def completeCell (c : TakenCell) (a : Answer) : Act Unit := do
  let s ← get
  let at_ := s.layout.cell c.list c.index
  regionWrite (at_ + 4) [c.hostTag]
  regionWrite (at_ + 40) [word a.result.code, a.w11, a.w12, a.w13, a.w14, a.w15]
  regionWriteWhole at_ [cellWord cellDone c.words[0]]
  modify fun t => { t with engine := .free }
  if c.notify then modify fun t => t.raiseCause .cellDone
  inspect c.list

/-- The engine's work on a taken cell: the intake checks, the work of the kind, and the completion. Work that answers none
leaves its cell TAKEN and the engine FREE (R78). -/
def serveTaken (c : TakenCell) (work : TakenCell → Act (Option Answer)) : Act Unit := do
  let s ← get
  match s.intakeRefusal c with
  | some r => completeCell c (refusedWith r)
  | none => do
    let answer ← work c
    match answer with
    | some a => completeCell c a
    | none => modify fun t => { t with engine := .free }

/-- The command of a kind of cell: where the engine may take a cell and the chosen list's next cell is POSTED with a kind code
of this command, the cell is taken and served. Otherwise the event cannot occur, and nothing happens (log entry 5). -/
def serveCell (kinds : Nat → Bool) (work : TakenCell → Act (Option Answer)) : Act Unit := do
  let s ← get
  if s.mayTakeCell then
    match s.chosenList with
    | none => pure ()
    | some k =>
      let w0 := s.peek (s.nextCell k)
      if byteOf w0 0 = cellPosted ∧ kinds (byteOf w0 1) = true then do
        let c ← takeCell k
        serveTaken c work
      else pure ()

end Sys2Proof.Machine
end

