-- ==== Sys2Proof/Machine/AccountKinds.lean ====
section
/-! DEFINITION. The account kinds of cell: ENROL, OPEN, MOVE, BAG, RETIRE, AMEND and QUERY (spec/01 1.4 to 1.6). -/

namespace Sys2Proof.Machine

/-! ## Shared steps (R11 to R18) -/

/-- The zone an account is in, as a list of none or one. -/
def Account.presentZone (a : Account) : List Nat := (a.zone.map Fin.val).toList

/-- The checks every account request passes: account number, record, tag, zones (R15). `zonesOf` are the zones of step 4. -/
def onAccount (c : TakenCell) (compareTag : Bool) (zonesOf : Account → List Nat) (work : Nat → Account → Act Answer) :
    Act Answer := do
  let s ← get
  let n := c.account
  if s.layout.tableSize ≤ n then pure (refusedWith .badAccount)
  else do
    let f ← fetchRecord n
    match f with
    | .corrupt => do
      reportNotices [recordFault n s.minute 1 1]
      pure (refusedWith .recordFault)
    | .malformed => do
      reportNotices [recordFault n s.minute 2 1]
      pure (refusedWith .recordFault)
    | .record a =>
      if compareTag && decide (c.tag ≠ a.tag) then pure (refusedWith .tagMismatch)
      else if (zonesOf a).any fun z => !s.maps[c.list].permitsZone z then pure (refusedWith .denied)
      else work n a

/-- Steps 5 to 7 of R11: the record written through, the count changes applied together, the notices handed over. Answers
the sequence of the work's own write. A notice of the work that was dropped sets NOTICE_MISSED in a second write (R151), and
the result words then report the flags of the work's own write, without it (DESIGN CHOICE, log entry 39). -/
def settleAccount (n : Nat) (a : Account) (counts : State → State) (notices : List Notice) : Act Word := do
  let sequence ← writeThrough n a
  modify counts
  handWorkNotices n notices
  pure sequence

/-- The state a zone type gives an account that enters (R6). -/
def ZoneType.accountState : ZoneType → AccountState
  | .typeDry => .dryheld
  | .typeBake => .baking
  | .typeNone | .typeOpen => .exposed

/-- The auxiliary mark an entry takes: the dry tally of a DRY zone, the bake tally of a BAKE zone and class (R16). -/
def Zone.auxMark (z : Zone) (c : ClassNo) : Word :=
  match z.type with
  | .typeDry => z.dry
  | .typeBake => z.bake[c]
  | .typeNone | .typeOpen => 0

/-- BAKE_EXHAUSTED at the entry into a BAKE zone of an account whose VALID class's bake limit its bake count equals (R17,
R99). -/
def State.exhaustedNotices (s : State) (n : Nat) (z : ZoneNo) (a : Account) : List Notice :=
  match s.zones[z].type, s.classes[a.cls].figures? with
  | .typeBake, some f =>
    if a.bakeCount = f.bakeLimit then [⟨.bakeExhausted, n, s.minute, word z.val, word a.bakeCount⟩] else []
  | _, _ => []

/-- A zone entry's changes to the account, with the tests and notices of the entry (R16, R17). -/
def State.enterZone (s : State) (n : Nat) (z : ZoneNo) (a : Account) : Account × List Notice :=
  let f := s.inForce a.cls
  let placed :=
    { a with
      state := s.zones[z].type.accountState
      zone := some z
      mark := s.zones[z].exposure[a.cls]
      aux := s.zones[z].auxMark a.cls
      entryMinute := s.minute }
  let (a1, n1) := expiryTest f s.minute n (some z) placed
  let (a2, n2) := warningTest f s.minute n (some z) a1
  (a2, n1 ++ n2 ++ s.exhaustedNotices n z a)

/-- The fold of an account in its zone, against the tallies as read in one access (R12, R41). -/
def State.foldIn (s : State) (n : Nat) (z : ZoneNo) (a : Account) : Account × List Notice :=
  foldAccount (s.inForce a.cls) s.minute n z s.zones[z].exposure[a.cls] s.zones[z].degraded[a.cls] a

/-- The fold and the exit credit of a MOVE or BAG, with their notices in order (R18, R90). -/
def State.leaveZone (s : State) (n : Nat) (z : ZoneNo) (a : Account) : ExitCredit :=
  let (folded, foldNotices) := s.foldIn n z a
  let e := s.exitCredit n z folded
  { e with notices := foldNotices ++ e.notices }

/-- A bake credit raises the class's highest bake count (R76). -/
def State.noteBake (s : State) (before after : Account) : State :=
  if after.bakeCount = before.bakeCount then s else s.raiseHighest after.cls after.bakeCount

/-- The account out of any zone, its entry minute the current plant minute (R18, R22, R23). -/
def Account.outOfZone (a : Account) (st : AccountState) (minute : Word) : Account :=
  { a with state := st, zone := none, mark := 0, aux := 0, entryMinute := minute }

/-! ## ENROL (R19) -/

/-- The refusal of a class that ENROL or AMEND names, if it is not VALID (R19, R24). -/
def ClassState.refusal : ClassState → Option Result
  | .valid _ _ => none
  | .programming => some .classBusy
  | .empty | .invalid _ => some .classInvalid

/-- The account ENROL writes, before the expiry test (R19). -/
def enrolled (c : TakenCell) (cls : ClassNo) (minute sequence : Word) : Account where
  tag := c.tag
  cls := cls
  state := if c.priorExposure = 0 then .unopened else .bagged
  zone := none
  flags := .clear
  bakeCount := c.priorBakes
  exposure := c.priorExposure
  mark := 0
  aux := 0
  lastCredit := 0
  entryMinute := minute
  expiryMinute := 0
  hostRef := c.hostRef
  sequence := sequence

/-- ENROL on a fetched record (R19). -/
def enrolAccount (c : TakenCell) (n : Nat) (a : Account) : Act Answer := do
  let s ← get
  if a.state ≠ .vacant ∧ a.state ≠ .retired then pure (refusedWith .badState)
  else if 7 < c.enrolClass then pure (refusedWith .badClass)
  else
    let cls : ClassNo := Fin.ofNat 8 c.enrolClass
    match s.classes[cls].figures? with
    | none => pure (refusedWith ((s.classes[cls].refusal).getD .classInvalid))
    | some f =>
      if f.bakeLimit < c.priorBakes then pure (refusedWith .badValue)
      else do
        let (a', notices) := expiryTest (s.inForce cls) s.minute n none (enrolled c cls s.minute a.sequence)
        let sequence ← settleAccount n a' (fun t => (t.countLive cls 1).raiseHighest cls a'.bakeCount) notices
        pure (accountAnswer .ok sequence a'.exposure a'.flags 0)

/-- The work of an ENROL cell. -/
def enrolWork (c : TakenCell) : Act (Option Answer) := do
  let a ← onAccount c false (fun _ => []) (enrolAccount c)
  pure (some a)

/-- ENROL (R19). -/
def execEnrol (s : State) : Host.Outcome State Fault Refusal := conclude (serveCell (· == 1) enrolWork) s

/-! ## OPEN (R20) -/

/-- OPEN on a fetched record (R20). The zone asked is below 64, since the map permits it. -/
def openAccount (c : TakenCell) (n : Nat) (a : Account) : Act Answer := do
  let s ← get
  let z : ZoneNo := Fin.ofNat 64 c.zoneAsked
  if a.state ≠ .unopened ∧ a.state ≠ .bagged then pure (refusedWith .badState)
  else if !s.zones[z].defined then pure (refusedWith .badZone)
  else do
    let (a', notices) := s.enterZone n z a
    modify fun t => t.watchAccount n a'
    let sequence ← settleAccount n a' (fun t => t.countZone z 1 a'.expiredCount) notices
    pure (accountAnswer .ok sequence a'.exposure a'.flags 0)

/-- The work of an OPEN cell. -/
def openWork (c : TakenCell) : Act (Option Answer) := do
  let a ← onAccount c true (fun _ => [c.zoneAsked]) (openAccount c)
  pure (some a)

/-- OPEN (R20). -/
def execOpen (s : State) : Host.Outcome State Fault Refusal := conclude (serveCell (· == 2) openWork) s

/-! ## MOVE (R21) -/

/-- MOVE on a fetched record (R21). The zone asked is below 64, since the map permits it. -/
def moveAccount (c : TakenCell) (n : Nat) (a : Account) : Act Answer := do
  let s ← get
  let dst : ZoneNo := Fin.ofNat 64 c.zoneAsked
  match a.zone with
  | none => pure (refusedWith .badState)
  | some src =>
    if !s.zones[dst].defined then pure (refusedWith .badZone)
    else if dst = src then pure (accountAnswer .okSameZone a.sequence a.exposure a.flags 0)
    else do
      let e := s.leaveZone n src a
      let (a', entryNotices) := s.enterZone n dst e.account
      modify fun t => ((t.reachUnwatched n a).removeEntry n).watchAccount n a'
      let sequence ← settleAccount n a'
        (fun t => ((t.countZone src (-1) (-a.expiredCount)).countZone dst 1 a'.expiredCount).noteBake a a')
        (e.notices ++ entryNotices)
      pure (accountAnswer .ok sequence a'.exposure a'.flags e.credit)

/-- The work of a MOVE cell. -/
def moveWork (c : TakenCell) : Act (Option Answer) := do
  let a ← onAccount c true (fun a => a.presentZone ++ [c.zoneAsked]) (moveAccount c)
  pure (some a)

/-- MOVE (R21). -/
def execMove (s : State) : Host.Outcome State Fault Refusal := conclude (serveCell (· == 3) moveWork) s

/-! ## BAG (R22) -/

/-- BAG on a fetched record (R22). -/
def bagAccount (n : Nat) (a : Account) : Act Answer := do
  let s ← get
  match a.zone with
  | none => pure (refusedWith .badState)
  | some z => do
    let e := s.leaveZone n z a
    let a' := e.account.outOfZone .bagged s.minute
    modify fun t => (t.reachUnwatched n a).removeEntry n
    let sequence ← settleAccount n a' (fun t => (t.countZone z (-1) (-a.expiredCount)).noteBake a a') e.notices
    pure (accountAnswer .ok sequence a'.exposure a'.flags e.credit)

/-- The work of a BAG cell. -/
def bagWork (c : TakenCell) : Act (Option Answer) := do
  let a ← onAccount c true Account.presentZone bagAccount
  pure (some a)

/-- BAG (R22). -/
def execBag (s : State) : Host.Outcome State Fault Refusal := conclude (serveCell (· == 4) bagWork) s

/-! ## RETIRE (R23) -/

/-- RETIRE on a fetched record (R23): folded in its zone, if it is in one, with no exit credit. -/
def retireAccount (n : Nat) (a : Account) : Act Answer := do
  let s ← get
  if a.state = .vacant ∨ a.state = .retired then pure (refusedWith .badState)
  else
    match a.zone with
    | none => do
      let a' := a.outOfZone .retired s.minute
      let sequence ← settleAccount n a' (fun t => t.countLive a.cls (-1)) []
      pure (accountAnswer .ok sequence a'.exposure a'.flags 0)
    | some z => do
      let (folded, notices) := s.foldIn n z a
      let a' := folded.outOfZone .retired s.minute
      modify fun t => (t.reachUnwatched n a).removeEntry n
      let sequence ← settleAccount n a'
        (fun t => (t.countZone z (-1) (-a.expiredCount)).countLive a.cls (-1)) notices
      pure (accountAnswer .ok sequence a'.exposure a'.flags 0)

/-- The work of a RETIRE cell. -/
def retireWork (c : TakenCell) : Act (Option Answer) := do
  let a ← onAccount c true Account.presentZone retireAccount
  pure (some a)

/-- RETIRE (R23). -/
def execRetire (s : State) : Host.Outcome State Fault Refusal := conclude (serveCell (· == 5) retireWork) s

/-! ## AMEND (R24, R25) -/

/-- The first of AMEND's kind checks that fails, in their order (R24). -/
def State.amendRefusal (s : State) (c : TakenCell) (a : Account) : Option Result :=
  if a.state = .vacant ∨ a.state = .retired then some .badState
  else if c.clearMask % 4 ≠ 0 ∨ 32 ≤ c.clearMask then some .badValue
  else
    match c.newClass with
    | some k =>
      if 7 < k then some .badClass
      else
        match s.classes[Fin.ofNat 8 k].figures? with
        | none => some ((s.classes[Fin.ofNat 8 k].refusal).getD .classInvalid)
        | some f => if f.bakeLimit < a.bakeCount then some .badValue else none
    | none => if s.classes[a.cls].isProgramming then some .classBusy else none

/-- The changes of step 2 of R25: flags cleared by the mask, exposure, class, host reference, and UNOPENED to BAGGED. -/
def amendFields (c : TakenCell) (a : Account) : Account :=
  let mask := accountFlagsOf c.clearMask
  { a with
    flags := { a.flags with
      saturated := a.flags.saturated && !mask.saturated
      degraded := a.flags.degraded && !mask.degraded
      noticeMissed := a.flags.noticeMissed && !mask.noticeMissed }
    exposure := c.newExposure.getD a.exposure
    cls := match c.newClass with
      | some k => Fin.ofNat 8 k
      | none => a.cls
    hostRef := c.hostRef
    state := match c.newExposure with
      | some e => if a.state = .unopened ∧ e ≠ 0 then .bagged else a.state
      | none => a.state }

/-- The re-mark of step 3 of R25, for an account in a zone whose class was `old`. -/
def State.remark (s : State) (old : ClassNo) (a : Account) : Account :=
  match a.zone with
  | none => a
  | some z =>
    { a with
      mark := s.zones[z].exposure[a.cls]
      aux := if a.state = .baking ∧ a.cls ≠ old then s.zones[z].bake[a.cls] else a.aux }

/-- The account an AMEND leaves and the notices it raises: fold, changes, re-mark, tests (R25 steps 1 to 4). -/
def State.amended (s : State) (c : TakenCell) (n : Nat) (a : Account) : Account × List Notice :=
  let (folded, foldNotices) :=
    match a.zone with
    | some z => s.foldIn n z a
    | none => (a, [])
  let changed := s.remark a.cls (amendFields c folded)
  let (tested, testNotices) := amendTests (s.inForce changed.cls) s.minute n changed.zone changed
  (tested, foldNotices ++ testNotices)

/-- The count changes of an AMEND (R14): the zone's expired-present count, and the live counts of a changed class, with the
new class's highest bake count (R76). -/
def State.countAmend (s : State) (before after : Account) : State :=
  let s1 :=
    match before.zone with
    | some z => s.countZone z 0 (after.expiredCount - before.expiredCount)
    | none => s
  if after.cls = before.cls then s1
  else ((s1.countLive before.cls (-1)).countLive after.cls 1).raiseHighest after.cls after.bakeCount

/-- AMEND on a fetched record (R24, R25). An account that is unwatched and stays so takes both events of R113, the fall and then the
rise (DEDUCED, log entry 52). -/
def amendAccount (c : TakenCell) (n : Nat) (a : Account) : Act Answer := do
  let s ← get
  match s.amendRefusal c a with
  | some r => pure (refusedWith r)
  | none => do
    let (a', notices) := s.amended c n a
    if a.zone.isSome then modify fun t => ((t.reachUnwatched n a).removeEntry n).watchAccount n a'
    let sequence ← settleAccount n a' (fun t => t.countAmend a a') notices
    pure (accountAnswer .ok sequence a'.exposure a'.flags 0)

/-- The work of an AMEND cell. -/
def amendWork (c : TakenCell) : Act (Option Answer) := do
  let a ← onAccount c true Account.presentZone (amendAccount c)
  pure (some a)

/-- AMEND (R24, R25). -/
def execAmend (s : State) : Host.Outcome State Fault Refusal := conclude (serveCell (· == 6) amendWork) s

/-! ## QUERY (R26) -/

/-- The current exposure of an account: as the fold computes it in a zone, E as stored in none (R26, R45). -/
def State.exposureNow (s : State) (a : Account) : Word :=
  match a.zone with
  | some z => currentExposure a s.zones[z].exposure[a.cls]
  | none => a.exposure

/-- The remaining exposure (R26). -/
def InForce.remaining (f : InForce) (now : Word) : Word :=
  match f.budget with
  | none => noWord
  | some b => word (b - now.toNat)

/-- What a QUERY reports of an account (R26). -/
def State.report (s : State) (n : Nat) (a : Account) : Answer :=
  let f := s.inForce a.cls
  let now := s.exposureNow a
  let rate := s.rateAhead a
  { result := .ok
    w11 := word (a.state.code + 8 * a.flags.code + 256 * (a.bakeCount % 16) + 32768 * bit (s.watched n) + 65536 * rate)
    w12 := now
    w13 := f.remaining now
    w14 := s.projection f a now.toNat rate
    w15 := a.sequence }

/-- QUERY on a fetched record (R26). -/
def queryAccount (n : Nat) (a : Account) : Act Answer := do
  let s ← get
  if a.state = .vacant then pure (refusedWith .badState) else pure (s.report n a)

/-- The work of a QUERY cell. -/
def queryWork (c : TakenCell) : Act (Option Answer) := do
  let a ← onAccount c true (fun _ => []) queryAccount
  pure (some a)

/-- QUERY (R26). -/
def execQuery (s : State) : Host.Outcome State Fault Refusal := conclude (serveCell (· == 7) queryWork) s

end Sys2Proof.Machine
end

