-- ==== Sys2Proof/Machine/ClassKinds.lean ====
section
/-! DEFINITION. The class store's commands: CLASSWRITE, CLASS_PROGRAMMING_END and CLASS_COMPLETION (spec/04 4.4). -/

namespace Sys2Proof.Machine

/-! ## CLASSWRITE (R77, R78) -/

/-- A class image takes 120 bytes (spec/10 10.2). -/
def imageBytes : Nat := 120

/-- The first of the checks of R77 after the image is read that fails, in their order. -/
def State.imageRefusal (s : State) (cls : ClassNo) (image : Vector Word 30) : Option Result :=
  let f := figuresOf image
  if !f.inRange then some .badImage
  else if s.classes.toList.any ClassState.isProgramming then some .classBusy
  else if (s.classes[cls].figures?).isSome ∧ 0 < s.live[cls] then some .classInUse
  else if 0 < s.live[cls] ∧ f.bakeLimit < s.highest[cls] then some .badImage
  else none

/-- A CLASSWRITE accepted: the in-progress marker written, the class PROGRAMMING, the image and the cell held (R78). -/
def State.beginProgramming (s : State) (cls : ClassNo) (image : Vector Word 30) (c : TakenCell) : State :=
  { s with
    classes := s.classes.set cls .programming
    nv := s.nv.set cls { s.nv[cls] with inProgress := true }
    prog := some ⟨cls, image, c, none⟩ }

/-- The work of a CLASSWRITE cell (R77, R78). Accepted, it answers nothing yet: the cell stays TAKEN. -/
def classwriteWork (c : TakenCell) : Act (Option Answer) := do
  let s ← get
  if 7 < c.classAsked then pure (some (refusedWith .badClass))
  else if c.imageOffset % 4 ≠ 0 ∨ s.layout.regionSize < c.imageOffset + imageBytes then
    pure (some (refusedWith .badImage))
  else do
    let image ← regionRead c.imageOffset 30
    let s ← get
    let cls : ClassNo := Fin.ofNat 8 c.classAsked
    match s.imageRefusal cls image with
    | some r => pure (some (refusedWith r))
    | none => do
      modify fun t => t.beginProgramming cls image c
      pure none

/-- CLASSWRITE (R77). -/
def execClasswrite (s : State) : Host.Outcome State Fault Refusal := conclude (serveCell (· == 10) classwriteWork) s

/-! ## CLASS_PROGRAMMING_END (R79) -/

/-- The end of programming: what the nonvolatile memory holds and how the verify came out (R79). It is no region access and
happens in any engine state (R85). Where nothing is being programmed, it cannot occur. -/
def State.endProgramming (s : State) (defects : List NvDefect) : State :=
  match s.prog with
  | none => s
  | some p =>
    match p.ended with
    | some _ => s
    | none =>
      let record := programmed p.image defects
      { s with
        nv := s.nv.set p.cls record
        prog := some { p with ended := some (!record.inProgress) } }

/-- CLASS_PROGRAMMING_END (R79). -/
def execClassProgrammingEnd (defects : List NvDefect) (s : State) : Host.Outcome State Fault Refusal :=
  conclude (modify fun t => t.endProgramming defects) s

/-! ## CLASS_COMPLETION (R81 to R85) -/

/-- The watch entries of a class. -/
def State.entriesOf (s : State) (cls : ClassNo) : List WatchEntry := s.watch.filter fun e => decide (e.cls = cls)

/-- The entries of a class removed, in all its lists and from the due queue; the unwatched count rises by their number when
the new budget is limited (R82, R106, R113). -/
def State.removeClass (s : State) (cls : ClassNo) (limited : Bool) : State :=
  { (if limited then s.raiseUnwatched (s.entriesOf cls).length else s) with
    watch := s.watch.filter fun e => decide (e.cls ≠ cls)
    dueQueue := s.dueQueue.filter fun p => !(s.entriesOf cls).any fun e => decide (e.position = p) }

/-- Steps 1 and 2 of a completion in success: the class VALID with the image's figures, its entries removed (R82). -/
def State.makeValid (s : State) (p : Programming) : State :=
  let f := figuresOf p.image
  { s with classes := s.classes.set p.cls (validClass f), prog := none }.removeClass p.cls (decide (f.budget ≠ 0))

/-- A completion in failure: the class INVALID with cause 3, its entries kept (R84). -/
def State.makeInvalid (s : State) (p : Programming) : State :=
  { s with classes := s.classes.set p.cls (.invalid .verifyFailed), prog := none }

/-- CLASS_PROGRAMMED (R82). -/
def programmedNotice (minute : Word) (p : Programming) (removed : Nat) : Notice :=
  ⟨.classProgrammed, p.cls.val, minute, word (worstRate (figuresOf p.image)), word removed⟩

/-- CLASS_FAULT (R73, R84). -/
def classFaultNotice (minute : Word) (cls : ClassNo) (cause : LoadCause) (live : Nat) : Notice :=
  ⟨.classFault, cls.val, minute, word cause.code, word live⟩

/-- The answer of a CLASSWRITE programmed in success (R82). Word 15, which section 10.3 does not name, is 0 (DESIGN CHOICE, log
entry 42). -/
def programmedAnswer (p : Programming) (removed live : Nat) : Answer :=
  ⟨.ok, word p.cls.val, word (worstRate (figuresOf p.image)), word removed, word live, 0⟩

/-- The answer of a CLASSWRITE whose programming failed: the class and the live count only (R84). Words 12, 13
and 15, of which R84 says nothing, are 0 (DESIGN CHOICE, log entry 42). -/
def programFailedAnswer (p : Programming) (live : Nat) : Answer := ⟨.programFailed, word p.cls.val, 0, 0, word live, 0⟩

/-- The completion applied. In FAULTED no notice is raised and no cell written (R85). -/
def applyCompletion (p : Programming) (success : Bool) : Act Unit := do
  let s ← get
  if success then do
    let removed := (s.entriesOf p.cls).length
    set (s.makeValid p)
    if s.engineState = .running then do
      reportNotices [programmedNotice s.minute p removed]
      completeCell p.cell (programmedAnswer p removed s.live[p.cls])
    else pure ()
  else do
    set (s.makeInvalid p)
    if s.engineState = .running then do
      reportNotices [classFaultNotice s.minute p.cls .verifyFailed s.live[p.cls]]
      completeCell p.cell (programFailedAnswer p s.live[p.cls])
    else pure ()

/-- The store's completion event is applied when programming has ended and the engine is FREE (R81), in RUNNING, a stop under
way included, or in FAULTED (R85). Otherwise it cannot occur. -/
def classCompletion : Act Unit := do
  let s ← get
  match s.prog with
  | none => pure ()
  | some p =>
    match p.ended with
    | none => pure ()
    | some success =>
      if s.engine = .free ∧ (s.engineState = .running ∨ s.engineState = .faulted) then applyCompletion p success
      else pure ()

/-- CLASS_COMPLETION (R81). -/
def execClassCompletion (s : State) : Host.Outcome State Fault Refusal := conclude classCompletion s

end Sys2Proof.Machine
end

