-- ==== Sys2Proof/Machine/Clock.lean ====
section
/-! DEFINITION. What the plant clock's events do: the minute boundary, gap accrual, and the corrections (spec/07). -/

namespace Sys2Proof.Machine

/-- The top value, at which the clock holds (R124). -/
def topMinute : Nat := 0xFFFFFFFE

/-- Stage 1 of a boundary to the next minute: the staleness check and the advance of every zone, and the plant minute, in one
change (R123). The stall count is kept. -/
def State.advanceMinute (s : State) (m : Word) (stall : Fin 16) : State :=
  { s with
    zones := Vector.ofFn fun z : Fin 64 => s.zones[z].boundary s.classes (m + 1).toNat
    clock := .held (m + 1) stall }

/-- The patrol's remaining count at a boundary: the batch size, or 0 while a stop is under way (R115). -/
def State.startBatch (s : State) : State := { s with remaining := if s.stopping then 0 else s.batch }

/-- Stages 1 to 3 of a minute boundary (R123): advance, the ZONE_STALE notices, examination, the patrol's count. -/
def boundary : Act Unit := do
  let s ← get
  match s.clock with
  | .unset => pure ()
  | .held m stall => do
    set (s.advanceMinute m stall)
    reportNotices (staleNotices s.zones (m + 1))
    modify fun t => t.examine s.zones
    modify State.startBatch

/-- CLOCK_GAP (R128). -/
def clockGapNotice (start : Word) (value : Word) (g : Nat) (cleared : Nat) : Notice :=
  ⟨.clockGap, start.toNat, value, word g, word cleared⟩

/-- A gap accrual of `g` minutes to a value (R127): tallies and marks, the clock, the staleness check, examination, CLOCK_GAP
and publication. The patrol waits for the next boundary (R119, R127): reads left over are dropped, an account it holds stays
(log entry 38). `start` is the minute the gap is charged from, `cleared` the stall count the correction clears (R128). -/
def gapAccrual (start value : Word) (g cleared : Nat) : Act Unit := do
  let s ← get
  let charged := Vector.ofFn fun z : Fin 64 => s.zones[z].gap s.classes g
  modify fun t =>
    { t with
      zones := Vector.ofFn fun z : Fin 64 => charged[z].checkStale value.toNat
      clock := .held value 0
      remaining := 0 }
  reportNotices (staleNotices charged value)
  modify fun t => t.examine s.zones
  reportNotices [clockGapNotice start value g cleared]
  publish

/-- What a CLOCKSET did, for its result words (R125). -/
structure ClockAnswer where
  done : Bool
  gap : Nat
  boundaries : Nat
deriving DecidableEq, Repr

/-- The correction carried out with no gap and no boundary. -/
def clockDone : ClockAnswer := ⟨true, 0, 0⟩

/-- The correction refused CLOCK_BACKWARD. -/
def clockRefused : ClockAnswer := ⟨false, 0, 0⟩

/-- A CLOCKSET applied while the clock is UNSET (R126). -/
def setFromUnset (v : Word) : Act ClockAnswer := do
  let s ← get
  if s.published = noWord ∨ v = s.published then do
    modify fun t => { t with clock := .held v 0 }
    publish
    pure clockDone
  else if v.toNat < s.published.toNat then pure clockRefused
  else do
    gapAccrual s.published v (v.toNat - s.published.toNat) 0
    pure ⟨true, v.toNat - s.published.toNat, 0⟩

/-- A small forward correction of step `k`: the stall count first, the rest as boundaries made at once with one publication
(R130). -/
def stepForward (m : Word) (stall : Fin 16) (k : Nat) : Act ClockAnswer := do
  let left := k - stall.val
  modify fun t => { t with clock := .held m (Fin.ofNat 16 (stall.val - k)) }
  if left = 0 then do
    writeClockWords
    pure clockDone
  else do
    repeatAct left boundary
    publish
    pure ⟨true, 0, left⟩

/-- A backward correction of `k` minutes raises the stall count (R131). -/
def stepBack (m : Word) (stall : Fin 16) (k : Nat) : Act ClockAnswer := do
  modify fun t => { t with clock := .held m (Fin.ofNat 16 (stall.val + k)) }
  writeClockWords
  pure clockDone

/-- A CLOCKSET applied while the clock is RUNNING or STALLED, by the step from the reckoned minute (R129). -/
def correct (m : Word) (stall : Fin 16) (v : Word) : Act ClockAnswer :=
  let step : Int := (v.toNat : Int) - ((m.toNat : Int) - (stall.val : Int))
  if step = 0 then pure clockDone
  else if 1 ≤ step ∧ step ≤ 15 then stepForward m stall step.toNat
  else if 15 < step then do
    gapAccrual m v (v.toNat - m.toNat) stall.val
    pure ⟨true, v.toNat - m.toNat, 0⟩
  else if -15 ≤ step ∧ (m.toNat : Int) - 15 ≤ (v.toNat : Int) then stepBack m stall (-step).toNat
  else pure clockRefused

/-- The accrual unit applies a CLOCKSET's value as one correction (R125), compared with the clock as it stands now. An expiry comes
before it or after it; where the minute that both leave differs from R125's closing sentence, R125's two cases and R129 to R131
govern (DEDUCED, log entry 50). -/
def applyClock (v : Word) : Act ClockAnswer := do
  finishPublication
  let s ← get
  match s.clock with
  | .unset => setFromUnset v
  | .held m stall => correct m stall v

end Sys2Proof.Machine
end

