-- ==== Sys2Proof/Machine/ClockKinds.lean ====
section
/-! DEFINITION. CLOCKSET and the timers: MINUTE_TIMER_EXPIRY, ZONE_PAGE_PUBLICATION, INTAKE_SCAN_TIMER_EXPIRY
(spec/07; spec/03 R66; spec/10 R162). -/

namespace Sys2Proof.Machine

/-! ## CLOCKSET (R125) -/

/-- The answer of a CLOCKSET: the clock as the correction leaves it, with the gap and the boundaries, or, for
CLOCK_BACKWARD, the published minute compared, 0xFFFFFFFF where the value was compared with none (R125; log entry 18). Bytes 2
and 3 of word 11, word 14 of CLOCK_BACKWARD and word 15, to which R125 and section 10.3 give no value, are 0 (DESIGN CHOICE, log
entry 42). -/
def clockAnswer (before after : State) (a : ClockAnswer) : Answer :=
  { result := if a.done then .ok else .clockBackward
    w11 := wordOfBytes (clockCode after.clock) (stallOf after.clock) 0 0
    w12 := minuteWord after.clock
    w13 := if a.done then word a.gap else if before.clockSet then noWord else before.published
    w14 := word a.boundaries
    w15 := 0 }

/-- The work of a CLOCKSET cell (R125). -/
def clocksetWork (c : TakenCell) : Act (Option Answer) := do
  let s ← get
  if c.clockValue = noWord then pure (some (refusedWith .badValue))
  else do
    let a ← applyClock c.clockValue
    let t ← get
    pure (some (clockAnswer s t a))

/-- CLOCKSET (R125). -/
def execClockset (s : State) : Host.Outcome State Fault Refusal := conclude (serveCell (· == 11) clocksetWork) s

/-! ## The minute timer (R122) -/

/-- An expiry while STALLED: the stall count falls by one, and the clock words are written (R121, R122). -/
def lowerStall (m : Word) (stall : Fin 16) : Act Unit := do
  modify fun t => { t with clock := .held m (Fin.ofNat 16 (stall.val - 1)) }
  writeClockWords

/-- An expiry of the minute timer. A publication still due from the boundary before is made first: an expiry that comes before
a boundary's stages are done is taken when they are done (R123; log entry 9). It meets the clock as a correction before it left it
(R125; DEDUCED, log entry 50). -/
def minuteExpiry : Act Unit := do
  finishPublication
  let s ← get
  match s.clock with
  | .unset => pure ()
  | .held m stall =>
    if stall ≠ 0 then lowerStall m stall
    else if m.toNat < topMinute then do
      boundary
      modify fun t => { t with publicationDue := true }
    else pure ()

/-- MINUTE_TIMER_EXPIRY (R122). -/
def execMinuteTimerExpiry (s : State) : Host.Outcome State Fault Refusal := conclude minuteExpiry s

/-- ZONE_PAGE_PUBLICATION (R66): the publication that a boundary left due. The publications of a CLOCKSET and of a stop are
made within those steps. -/
def execZonePagePublication (s : State) : Host.Outcome State Fault Refusal := conclude finishPublication s

/-! ## The scan timer (R162) -/

/-- An expiry of the scan timer, which runs only while the engine is RUNNING (R161): every list inspected in ascending number,
then T read (R147; the order is log entry 41's, DESIGN CHOICE). -/
def scanExpiry : Act Unit := do
  let s ← get
  if s.scanRunning then do
    forEach (List.finRange 8) inspect
    readTaken
  else pure ()

/-- INTAKE_SCAN_TIMER_EXPIRY (R162). -/
def execIntakeScanTimerExpiry (s : State) : Host.Outcome State Fault Refusal := conclude scanExpiry s

end Sys2Proof.Machine
end

