-- ==== Sys2Proof/Machine/Internal.lean ====
section
/-! DEFINITION. Internal work of the account engine and the patrol: WARNING_HANDOVER, EXPIRY_HANDOVER, PATROL_READ and
PATROL_WORK (spec/01 1.7; spec/06 6.2, 6.4). -/

namespace Sys2Proof.Machine

/-! ## Hand-overs (R27, R28, R109, R110) -/

/-- The hand-over the engine may take: the one the pool presents, at a stage (R10). -/
def State.handoverAt (s : State) (stage : Stage) : Option WatchEntry :=
  if s.mayWork then
    match s.handover with
    | some e => if e.stage = stage then some e else none
    | none => none
  else none

/-- Taking a hand-over takes its entry off the head of the due queue; the engine is BUSY with it (R9, R109). -/
def State.takeHandover (s : State) (e : WatchEntry) : State :=
  { s with dueQueue := s.dueQueue.tail, engine := .handover e.account e.zone e.cls e.stage }

/-- The engine FREE again after internal work. -/
def freeEngine : Act Unit := modify fun t => { t with engine := .free }

/-- The record is not in the entry's zone, not of its class, or has EXPIRED set (R27 step 3). -/
def WatchEntry.outdated (e : WatchEntry) (a : Account) : Bool :=
  decide (a.zone ≠ some e.zone) || decide (a.cls ≠ e.cls) || a.flags.expired

/-- Step 2 of R27: the entry of a faulty record removed and RECORD_FAULT raised. -/
def dropFaulty (e : WatchEntry) (what : Nat) : Act Unit := do
  modify fun t => t.removeEntry e.account
  let s ← get
  reportNotices [recordFault e.account s.minute what 2]

/-- Step 4 of R27: WARNED set, the record written and EXPIRY_WARNING raised if WARNED was clear; the entry re-inserted at
stage EXPIRE in either case. -/
def giveWarning (e : WatchEntry) (a : Account) : Act Unit := do
  let s ← get
  modify fun t => t.rewatch e a
  if a.flags.warned then pure ()
  else do
    let _ ← settleAccount e.account (a.warn true) id
      [exposureNotice .expiryWarning e.account s.minute (some e.zone) a.exposure]
    pure ()

/-- The service of a warning hand-over (R27). -/
def serveWarning (e : WatchEntry) : Act Unit := do
  modify fun t => t.takeHandover e
  let f ← fetchRecord e.account
  match f with
  | .corrupt => dropFaulty e 1
  | .malformed => dropFaulty e 2
  | .record a => if e.outdated a then modify fun t => t.removeEntry e.account else giveWarning e a
  freeEngine

/-- WARNING_HANDOVER where the pool presents one; otherwise the event cannot occur. -/
def warningHandover : Act Unit := do
  let s ← get
  match s.handoverAt .warn with
  | some e => serveWarning e
  | none => pure ()

/-- WARNING_HANDOVER (R27). -/
def execWarningHandover (s : State) : Host.Outcome State Fault Refusal := conclude warningHandover s

/-- The fault hold of a zone set (R57). -/
def State.setFaultHold (s : State) (z : ZoneNo) : State :=
  { s with zones := s.zones.set z { s.zones[z] with faultHold := true } }

/-- An expiry hand-over that meets a faulty record also sets the fault hold of the entry's zone (R28). -/
def expireFaulty (e : WatchEntry) (what : Nat) : Act Unit := do
  modify fun t => t.setFaultHold e.zone
  dropFaulty e what

/-- The expiry given (R28): EXPIRED and the expiry minute, the entry removed, the record written, the zone's expired-present
count raised, EXPIRED raised. -/
def giveExpiry (e : WatchEntry) (a : Account) : Act Unit := do
  let s ← get
  modify fun t => t.removeEntry e.account
  let _ ← settleAccount e.account (a.expire s.minute) (fun t => t.countZone e.zone 0 1)
    [exposureNotice .expired e.account s.minute (some e.zone) a.exposure]
  pure ()

/-- The service of an expiry hand-over (R28). -/
def serveExpiry (e : WatchEntry) : Act Unit := do
  modify fun t => t.takeHandover e
  let f ← fetchRecord e.account
  match f with
  | .corrupt => expireFaulty e 1
  | .malformed => expireFaulty e 2
  | .record a => if e.outdated a then modify fun t => t.removeEntry e.account else giveExpiry e a
  freeEngine

/-- EXPIRY_HANDOVER where the pool presents one; otherwise the event cannot occur. -/
def expiryHandover : Act Unit := do
  let s ← get
  match s.handoverAt .expire with
  | some e => serveExpiry e
  | none => pure ()

/-- EXPIRY_HANDOVER (R28). -/
def execExpiryHandover (s : State) : Host.Outcome State Fault Refusal := conclude expiryHandover s

/-! ## The patrol (R115 to R118) -/

/-- The clock is RUNNING: it holds a plant minute and no stall (R121). -/
def State.clockRuns (s : State) : Bool := decide (clockCode s.clock = 1)

/-- The patrol may read: the part RUNNING with no stop under way and its clock RUNNING (R119, R131), the remaining count above
0, no account held (R115). At the plant minute 0xFFFFFFFE the reads left over from the last boundary go on (R124; DEDUCED, log entry
51). -/
def State.mayPatrol (s : State) : Bool :=
  decide (s.engineState = .running) && !s.stopping && s.clockRuns && decide (0 < s.remaining) && s.heldAccount.isNone

/-- The remaining count lowered by one and the cursor advanced by one, wrapping at the table's end (R115). -/
def State.patrolStep (s : State) : State :=
  { s with
    remaining := s.remaining - 1
    cursor := if s.cursor + 1 < s.layout.tableSize then s.cursor + 1 else 0 }

/-- Steps 2 to 4 of R115 do not pass the record over: the account is in a zone that is not of type NONE, eligible for an
entry, and unwatched. -/
def State.patrolWants (s : State) (n : Nat) (a : Account) : Bool :=
  (match a.zone with
   | some z => s.zones[z].defined
   | none => false)
    && s.eligible a && !s.watched n

/-- What the patrol decides on the record read (R115). -/
def patrolDecide (n : Nat) (f : Fetched) : Act Unit := do
  let s ← get
  match f with
  | .corrupt => reportNotices [recordFault n s.minute 1 3]
  | .malformed => reportNotices [recordFault n s.minute 2 3]
  | .record a => if s.patrolWants n a then modify fun t => { t with heldAccount := some n } else pure ()

/-- One read of the patrol at its cursor (R115, R116). -/
def patrolReadOne : Act Unit := do
  let s ← get
  if s.mayPatrol then do
    let f ← patrolFetch s.cursor
    modify State.patrolStep
    patrolDecide s.cursor f
  else pure ()

/-- PATROL_READ (R115). -/
def execPatrolRead (s : State) : Host.Outcome State Fault Refusal := conclude patrolReadOne s

/-- The unwatched count falls by one, not below 0 (R113). -/
def State.oneLessUnwatched (s : State) : State := { s with unwatched := s.unwatched - 1 }

/-- An insertion by patrol work: the unwatched count falls by one when it is made, and stays when the free list is empty
(R113, R117). -/
def State.patrolWatch (s : State) (n : Nat) (a : Account) : State :=
  let (s', made) := s.tryWatch n a
  if made then s'.oneLessUnwatched else s'

/-- A late expiry (R118). -/
def lateExpiry (n : Nat) (z : ZoneNo) (a : Account) (now : Word) : Act Unit := do
  let s ← get
  modify State.oneLessUnwatched
  let _ ← settleAccount n (a.expire s.minute) (fun t => t.countZone z 0 1)
    [exposureNotice .expired n s.minute (some z) now]
  pure ()

/-- A warning given by patrol work, with the insertion at stage EXPIRE (R117 steps 5 and 7). -/
def lateWarning (n : Nat) (z : ZoneNo) (a : Account) (now : Word) : Act Unit := do
  let s ← get
  modify fun t => t.patrolWatch n (a.warn true)
  let _ ← settleAccount n (a.warn true) id [exposureNotice .expiryWarning n s.minute (some z) now]
  pure ()

/-- Steps 3 to 7 of R117 for an eligible, unwatched account in a zone. -/
def patrolSettle (n : Nat) (z : ZoneNo) (a : Account) : Act Unit := do
  let s ← get
  let f := s.inForce a.cls
  let now := currentExposure a s.zones[z].exposure[a.cls]
  if f.reached now.toNat then lateExpiry n z a now
  else if f.warnable now.toNat && !a.flags.warned then lateWarning n z a now
  else modify fun t => t.patrolWatch n a

/-- The service of patrol work for the held account (R117). -/
def servePatrol (n : Nat) : Act Unit := do
  modify fun t => { t with heldAccount := none, engine := .patrol n }
  let f ← fetchRecord n
  let s ← get
  match f with
  | .corrupt => reportNotices [recordFault n s.minute 1 3]
  | .malformed => reportNotices [recordFault n s.minute 2 3]
  | .record a =>
    match a.zone with
    | some z => if s.patrolWants n a then patrolSettle n z a else pure ()
    | none => pure ()
  freeEngine

/-- PATROL_WORK where the engine is FREE, the pool presents no hand-over and the patrol holds an account (R10, R115);
otherwise the event cannot occur. -/
def patrolWork : Act Unit := do
  let s ← get
  if s.mayWork && s.handover.isNone then
    match s.heldAccount with
    | some n => servePatrol n
    | none => pure ()
  else pure ()

/-- PATROL_WORK (R117). -/
def execPatrolWork (s : State) : Host.Outcome State Fault Refusal := conclude patrolWork s

end Sys2Proof.Machine
end

