-- ==== Sys2Proof/Machine/TuneKinds.lean ====
section
/-! DEFINITION. TUNE, UNKNOWN_KIND and CELL_NO_LONGER_POSTED (spec/10 10.4, 10.6). -/

namespace Sys2Proof.Machine

/-! ## Authority maps in the layout block (spec/10 Layout block) -/

/-- The authority map of list `k`, in the sixteen-byte entries of the layout block from byte 40 on. -/
def authMapOf (kindMask length lo hi : Word) : AuthMap := ⟨kindMask, length.toNat, dword lo hi⟩

/-- The eight maps in the 32 words of the layout block from byte 40 on. -/
def authMapsOf (ws : Vector Word 32) : Vector AuthMap 8 :=
  Vector.ofFn fun k : Fin 8 =>
    authMapOf (ws[4 * k.val]'(by omega)) (ws[4 * k.val + 1]'(by omega)) (ws[4 * k.val + 2]'(by omega))
      (ws[4 * k.val + 3]'(by omega))

/-- Every zone map length is 64 or less (R168, R170). -/
def mapsInRange (maps : Vector AuthMap 8) : Bool := maps.toList.all fun m => decide (m.zoneLen ≤ 64)

/-! ## TUNE (R168) -/

/-- Cache mode codes (spec/10 10.3). -/
def CacheMode.code : CacheMode → Nat
  | .normal => 0
  | .nofill => 1
  | .off => 2

/-- The cache mode a code names; the keep code names none (R168). -/
def cacheModeOf (n : Nat) : Option CacheMode :=
  match n with
  | 0 => some .normal
  | 1 => some .nofill
  | 2 => some .off
  | _ => none

/-- The keep code of a mode or a period. -/
def keepByte : Nat := 255

/-- A TUNE's fields lie in their ranges (R168). -/
def TakenCell.tuneInRange (c : TakenCell) : Bool :=
  (decide (c.tuneMode ≤ 2) || decide (c.tuneMode = keepByte))
    && (decide (c.tuneBatch.toNat ≤ 256) || decide (c.tuneBatch = noWord))
    && ((decide (1 ≤ c.tunePeriod) && decide (c.tunePeriod ≤ 60)) || decide (c.tunePeriod = keepByte))
    && decide (c.tuneReload ≤ 1)

/-- The cache mode set (R140): entering OFF invalidates every line and clears every order bit. -/
def State.setCacheMode (s : State) (m : CacheMode) : State :=
  { (if m = .off then s.invalidateCache else s) with cacheMode := m }

/-- The fields of a TUNE that passed its checks, applied together (R168). -/
def State.tuned (s : State) (c : TakenCell) (maps : Vector AuthMap 8) : State :=
  let s1 :=
    match cacheModeOf c.tuneMode with
    | some m => s.setCacheMode m
    | none => s
  { s1 with
    batch := if c.tuneBatch = noWord then s.batch else c.tuneBatch.toNat
    scanPeriod := if c.tunePeriod = keepByte then s.scanPeriod else c.tunePeriod
    maps := maps }

/-- The answer of a TUNE carried out: what is in force after it (R168). Words 14 and 15, which section 10.3 does not name, are 0
(DESIGN CHOICE, log entry 42). -/
def tuneAnswer (s : State) : Answer :=
  ⟨.ok, word s.cacheMode.code, word s.batch, word s.scanPeriod, 0, 0⟩

/-- A TUNE applied and answered. -/
def applyTune (c : TakenCell) (maps : Vector AuthMap 8) : Act (Option Answer) := do
  modify fun t => t.tuned c maps
  let t ← get
  pure (some (tuneAnswer t))

/-- The work of a TUNE cell (R168). The eight authority maps are read by one access (DESIGN CHOICE, log entry 23). -/
def tuneWork (c : TakenCell) : Act (Option Answer) := do
  let s ← get
  if !c.tuneInRange then pure (some (refusedWith .badValue))
  else if c.tuneReload = 1 then do
    let ws ← regionRead 40 32
    let maps := authMapsOf ws
    if mapsInRange maps then applyTune c maps else pure (some (refusedWith .badValue))
  else applyTune c s.maps

/-- TUNE (R168). -/
def execTune (s : State) : Host.Outcome State Fault Refusal := conclude (serveCell (· == 12) tuneWork) s

/-! ## UNKNOWN_KIND (R165) -/

/-- The work of a cell whose kind code is outside 1 to 12: none, since intake refuses it (R165). -/
def unknownWork (_c : TakenCell) : Act (Option Answer) := pure (some (refusedWith .unknownKind))

/-- UNKNOWN_KIND (R165): a taken cell whose kind code is outside 1 to 12 is completed at once. -/
def execUnknownKind (s : State) : Host.Outcome State Fault Refusal :=
  conclude (serveCell (fun k => decide (k < 1) || decide (12 < k)) unknownWork) s

/-! ## CELL_NO_LONGER_POSTED (R164) -/

/-- A take that finds the chosen list's next cell no longer POSTED: words 0 to 9 are read, nothing is written, the index
stays, and the list becomes not eligible; the choice is then made again (R163, R164). The last-served list stays: R162 sets this
read apart from a take (DEDUCED, log entry 47). -/
def cellNoLongerPosted : Act Unit := do
  let s ← get
  if s.mayTakeCell then
    match s.chosenList with
    | none => pure ()
    | some k =>
      if byteOf (s.peek (s.nextCell k)) 0 = cellPosted then pure ()
      else do
        let _ ← regionRead (s.nextCell k) 10
        modify fun t => t.setEligible k false

/-- CELL_NO_LONGER_POSTED (R164). -/
def execCellNoLongerPosted (s : State) : Host.Outcome State Fault Refusal := conclude cellNoLongerPosted s

end Sys2Proof.Machine
end

