-- ==== Sys2Proof/Machine/Attach.lean ====
section
/-! DEFINITION. Attachment: the layout block, the pages, the walk over the account table and the cells, and the end of an attach
(spec/11 11.2). -/

namespace Sys2Proof.Machine

/-! ## The layout block (R170, spec/10 Layout block) -/

/-- The fields of a layout block. -/
structure LayoutBlock where
  layout : Layout
  capacity : Nat
  batch : Nat
  scanPeriod : Nat
  fresh : Bool
  elevated : Nat
  rotation : Nat
  maps : Vector AuthMap 8
deriving DecidableEq, Repr

/-- The fields in the 42 words of a layout block. -/
def layoutBlockOf (w : Vector Word 42) : LayoutBlock where
  layout :=
    { regionSize := w[0].toNat
      controlPage := w[1].toNat
      zonePage := w[2].toNat
      accountTable := w[3].toNat
      noticeLog := w[4].toNat
      intakeLists := w[5].toNat
      tableSize := w[6].toNat
      cellsPerList := (lowHalf w[7]).toNat }
  capacity := (highHalf w[7]).toNat
  batch := (lowHalf w[8]).toNat
  scanPeriod := byteOf w[8] 2
  fresh := w[8].getLsbD 24
  elevated := byteOf w[9] 0
  rotation := byteOf w[9] 1
  maps := authMapsOf (Vector.ofFn fun i : Fin 32 => w[10 + i.val]'(by omega))

/-- The flag word of a layout block with FRESH clear (R170). -/
def freshCleared (w : Word) : Word := w &&& ~~~ (1#32 <<< 24)

/-- The sizes of the areas (spec/10 10.2). -/
def layoutBlockBytes : Nat := 168

@[inherit_doc layoutBlockBytes]
def controlPageBytes : Nat := 64

@[inherit_doc layoutBlockBytes]
def zonePageBytes : Nat := 12352

/-- The areas of the region, the layout block first: offset and size in bytes (spec/10 10.2). -/
def LayoutBlock.areas (b : LayoutBlock) : List (Nat × Nat) :=
  [(0, layoutBlockBytes), (b.layout.controlPage, controlPageBytes), (b.layout.zonePage, zonePageBytes),
   (b.layout.accountTable, 64 * b.layout.tableSize), (b.layout.noticeLog, 16 * b.capacity),
   (b.layout.intakeLists, 8 * b.layout.cellsPerList * 64)]

/-- Two areas share no byte. -/
def apart (x y : Nat × Nat) : Bool := decide (x.1 + x.2 ≤ y.1) || decide (y.1 + y.2 ≤ x.1)

/-- No two areas of a list overlap. -/
def allApart : List (Nat × Nat) → Bool
  | [] => true
  | x :: xs => xs.all (apart x) && allApart xs

/-- The powers of two from 8 to 256, and from 64 to 4,096 (spec/10 Layout block). -/
def cellCounts : List Nat := [8, 16, 32, 64, 128, 256]

@[inherit_doc cellCounts]
def logCapacities : List Nat := [64, 128, 256, 512, 1024, 2048, 4096]

/-- Every field of a layout block lies in its range, and the areas lie within the region and apart (R170). Bytes 38 and 39,
written 0, are not tested: a field given as 0 is not read (DEDUCED, log entry 44). -/
def LayoutBlock.valid (b : LayoutBlock) : Bool :=
  [b.layout.regionSize, b.layout.controlPage, b.layout.zonePage, b.layout.accountTable, b.layout.noticeLog,
      b.layout.intakeLists].all (fun n => decide (n % 64 = 0))
    && decide (1 ≤ b.layout.tableSize) && decide (b.layout.tableSize ≤ 32768)
    && decide (b.layout.cellsPerList ∈ cellCounts) && decide (b.capacity ∈ logCapacities)
    && decide (b.batch ≤ 256) && decide (1 ≤ b.scanPeriod) && decide (b.scanPeriod ≤ 60)
    && (decide (b.elevated ≤ 7) || decide (b.elevated = 255)) && decide (b.rotation ≤ 1)
    && mapsInRange b.maps
    && b.areas.tail.all (fun x => decide (x.1 + x.2 ≤ b.layout.regionSize)) && allApart b.areas

/-! ## Ends of an attach -/

/-- An attach that fails: its code, the zone table UNDEFINED, ATTACH_END, and IDLE again (R170; log entry 17). -/
def State.failAttach (s : State) (code : AttachFail) : State :=
  { s with
    attachFail := code
    zones := Vector.replicate 64 Zone.undefined
    published := noWord
    engineState := .idle }.raiseCause .attachEnd

/-! ## The region initialized or loaded (R69, R170) -/

/-- The whole control page of a FRESH attach (spec/10 Control page). -/
def State.freshControlPage (s : State) : List Word :=
  [0, 0, 0] ++ s.controlWords ++ [s.indexWord 0, s.indexWord 1] ++ List.replicate 7 0

/-- The intake lists at an attach: the indices given, no list eligible (R161). -/
def freshLists (next : Fin 8 → Nat) : Vector ListState 8 := Vector.ofFn fun k : Fin 8 => ⟨next k, false⟩

/-- FRESH set: zones UNDEFINED, W and T 0, indices 0; the zone page, the control page, and last the flag word written
(R69, R145, R161, R170). The control page is one access (DESIGN CHOICE, log entry 23). -/
def attachFresh (capacity : Nat) (flagWord : Word) : Act Unit := do
  modify fun s =>
    { s with
      zones := Vector.replicate 64 Zone.undefined
      published := noWord
      written := 0
      taken := 0
      capacity := capacity
      lists := freshLists fun _ => 0 }
  let s ← get
  writeZonePage s.zones s.published
  let s ← get
  regionWrite s.layout.controlPage s.freshControlPage
  regionWrite 32 [freshCleared flagWord]

/-- The index bytes of a control page: lists 0 to 3 in word 7, lists 4 to 7 in word 8. -/
def indexByte (page : Vector Word 16) (k : Fin 8) : Nat :=
  if k.val < 4 then byteOf page[7] k.val else byteOf page[8] (k.val - 4)

/-- What the page read at attach gives: the zones, if every entry passes and the check word is right (R67, R69). -/
def zonesOfPage (header : Vector Word 16) (entries : Vector (Vector Word 48) 64) : Option (Vector Zone 64) :=
  if header[1] = checkWord (header[0] :: 0 :: (header.toList.drop 2 ++ entries.toList.flatMap Vector.toList))
      ∧ entries.toList.all (fun e => (zoneOfEntry e).isSome) = true then
    some (Vector.ofFn fun z : Fin 64 => (zoneOfEntry entries[z]).getD Zone.undefined)
  else none

/-- The entries of the zone page, each read as one access (R159). -/
def readEntries : List (Fin 64) → Vector (Vector Word 48) 64 → Act (Vector (Vector Word 48) 64)
  | [], v => pure v
  | z :: zs, v => do
    let s ← get
    let ws ← regionRead (s.layout.zoneEntry z.val) 48
    readEntries zs (v.set z ws)

/-- FRESH clear: the zone page read, checked and loaded; then W, T and the indices from the control page (R69, R145, R147,
R161, R170). The header is read before the entries, and those in ascending zone number (DESIGN CHOICE, log entry 41). Answers whether
the page passed. -/
def attachLoaded (capacity : Nat) : Act Bool := do
  let s ← get
  let header ← regionRead s.layout.zonePage 16
  let entries ← readEntries (List.finRange 64) (Vector.replicate 64 (Vector.replicate 48 0))
  match zonesOfPage header entries with
  | none => do
    modify fun t => t.failAttach .zonePage
    pure false
  | some zones => do
    modify fun t => { t with zones := zones, published := header[0] }
    let page ← regionRead s.layout.controlPage 16
    modify fun t =>
      { t with
        written := page[1]
        taken := reckonTaken page[1] capacity page[0]
        capacity := capacity
        lists := freshLists fun k => indexByte page k % t.layout.cellsPerList }
    pure true

/-- The other blocks set up (R170): intake, patrol, watch pool, highest bake counts and counts. -/
def State.setUp (s : State) (b : LayoutBlock) : State :=
  { s.emptyPool with
    elevated := if b.elevated ≤ 7 then some (Fin.ofNat 8 b.elevated) else none
    rotation := if b.rotation = 1 then .rotating else .fixed
    scanPeriod := b.scanPeriod
    maps := b.maps
    lastServed := 7
    batch := b.batch
    cursor := 0
    highest := Vector.replicate 8 0
    live := Vector.replicate 8 0
    clock := .unset }

/-! ## The walk (R171, R172) -/

/-- Cases 3 to 5 of R171: the live count, and the class's highest bake count raised (R76). -/
def State.countWalked (s : State) (a : Account) : State := (s.countLive a.cls 1).raiseHighest a.cls a.bakeCount

/-- A record that is neither corrupt nor malformed, dealt with by the first case that applies (R171). Answers 1 for case 4. -/
def walkRecord (n : Nat) (a : Account) : Act Nat := do
  if !a.state.isLive then pure 0
  else do
    modify fun t => t.countWalked a
    match a.zone with
    | none => pure 0
    | some z => do
      let s ← get
      if s.zones[z].defined then do
        modify fun t => (t.countZone z 1 a.expiredCount).watchAccount n a
        pure 0
      else do
        reportNotices [recordFault n s.minute 3 4]
        pure 1

/-- One record of the attach walk (R171). Answers 1 for cases 1 and 4, which ATTACHED counts (R172). -/
def walkAccount (n : Nat) : Act Nat := do
  let f ← readUncached n
  let s ← get
  match f with
  | .corrupt => do
    reportNotices [recordFault n s.minute 1 4]
    pure 1
  | .malformed => do
    reportNotices [recordFault n s.minute 2 4]
    pure 1
  | .record a => walkRecord n a

/-- One cell of the attach walk: a TAKEN cell is completed ABANDONED (R172). Answers 1 for such a cell. The host tag is read by an
access of its own, which R172 does not name (DESIGN CHOICE, log entry 23). -/
def walkCell (k : ListNo) (i : Nat) : Act Nat := do
  let s ← get
  let at_ := s.layout.cell k i
  let w0 ← regionRead at_ 1
  if byteOf w0[0] 0 = cellTaken then do
    let w1 ← regionRead (at_ + 4) 1
    regionWrite (at_ + 4) [w1[0]]
    regionWrite (at_ + 40) [word Result.abandoned.code, 0, 0, 0, 0, 0]
    regionWriteWhole at_ [cellWord cellDone w0[0]]
    if w0[0].getLsbD 16 then modify fun t => t.raiseCause .cellDone
    pure 1
  else pure 0

/-- Every cell of every list, list 0 to list 7 (R172). -/
def walkCells : Act Nat := do
  let s ← get
  sumOver (List.finRange 8) fun k => sumOver (List.range' 0 s.layout.cellsPerList) fun i => walkCell k i

/-- ATTACHED (R172). -/
def attachedNotice (fresh : Bool) (minute : Word) (abandoned faulty : Nat) : Notice :=
  ⟨.attached, bit fresh, minute, word abandoned, word faulty⟩

/-- CLASS_FAULT for each INVALID class, in ascending class number (R73). -/
def State.classFaults (s : State) : List Notice :=
  (List.finRange 8).filterMap fun c =>
    match s.classes[c] with
    | .invalid cause => some (classFaultNotice s.minute c cause s.live[c])
    | .empty | .valid _ _ | .programming => none

/-- The end of a successful attach, in its order (R172). Bytes 12 to 35 of the control page are one access (DESIGN CHOICE, log
entry 23). -/
def endAttach (fresh : Bool) (abandoned faulty : Nat) : Act Unit := do
  let s ← get
  reportNotices (attachedNotice fresh s.minute abandoned faulty :: s.classFaults)
  modify fun t => { t with engineState := .running }
  let s ← get
  regionWrite (s.layout.controlPage + 12) (s.controlWords ++ [s.indexWord 0, s.indexWord 1])
  modify fun t => { t with scanRunning := true }.raiseCause .attachEnd

/-- The walk and the end of an attach, once the region is loaded or initialized (R170 to R172). -/
def finishAttach (b : LayoutBlock) : Act Unit := do
  modify fun t => t.setUp b
  let faulty ← sumOver (List.range' 0 b.layout.tableSize) walkAccount
  let abandoned ← walkCells
  endAttach b.fresh abandoned faulty

/-- An attach (R170). -/
def attach : Act Unit := do
  let w ← regionRead 0 42
  let b := layoutBlockOf w
  if b.valid then do
    modify fun t => { t with layout := b.layout }
    if b.fresh then do
      attachFresh b.capacity w[8]
      finishAttach b
    else do
      let passed ← attachLoaded b.capacity
      if passed then finishAttach b
  else modify fun t => t.failAttach .layout

/-- The command START: in IDLE every cache line is invalidated (R143) and an attach begins; in any other state it is ignored
(R169). -/
def startCommand : Act Unit := do
  let s ← get
  if s.engineState = .idle then do
    modify fun t => { t.invalidateCache with engineState := .attaching, attachFail := .ok }
    attach
  else pure ()

end Sys2Proof.Machine
end

