-- ==== Sys2Proof/Machine/Registers.lean ====
section
/-! DEFINITION. Resets, register writes, stop and failed accesses: POWER_ON_RESET, PIN_RESET, SOFT_RESET, START, STOP,
STOP_COMPLETION, REGISTER_WRITE, STATUS_WRITE, NUDGE, REGION_ACCESS_FAILURE (spec/10 10.1; spec/11). -/

namespace Sys2Proof.Machine

/-! ## Resets (R175) -/

/-- The three reset causes as bits: POWER_ON, PIN, SOFT. -/
def causePowerOn : BitVec 3 := 1

@[inherit_doc causePowerOn]
def causePin : BitVec 3 := 2

@[inherit_doc causePowerOn]
def causeSoft : BitVec 3 := 4

/-- A reset that leaves the given reset causes: every on-chip block takes its reset value and the class store is loaded
(R72, R175). Host memory and nonvolatile memory keep what they hold. The waiting commands and the count of messages already
sent are no state of the part. -/
def State.resetWith (s : State) (resetCauses : BitVec 3) : State :=
  { State.reset with
    resetCauses := resetCauses
    mem := s.mem
    nv := s.nv
    classes := loadClasses s.nv
    messages := s.messages
    pending := s.pending }

/-- POWER_ON_RESET (R175). -/
def execPowerOnReset (s : State) : Host.Outcome State Fault Refusal :=
  conclude (modify fun t => t.resetWith causePowerOn) s

/-- PIN_RESET (R175). -/
def execPinReset (s : State) : Host.Outcome State Fault Refusal :=
  conclude (modify fun t => t.resetWith (t.resetCauses ||| causePin)) s

/-- The command SOFT_RESET (R175). -/
def softResetCommand : Act Unit := modify fun t => t.resetWith (t.resetCauses ||| causeSoft)

/-- SOFT_RESET (R175): its enables are stored and then cleared by the reset (R158). -/
def execSoftReset (stores : HostStores) (s : State) : Host.Outcome State Fault Refusal :=
  conclude (do landStores stores; softResetCommand) s

/-! ## CONTROL (R158, R169) -/

/-- The enables of a CONTROL write, stored as written (R158). -/
def storeEnables (enables : BitVec 5) : Act Unit := modify fun t => { t with enables := enables }

/-- The command STOP: in RUNNING a stop begins, unless one is under way: no cell, hand-over or patrol work is taken from then
on, and the patrol drops its held account and its remaining count (R114, R169, R173). -/
def stopCommand : Act Unit :=
  modify fun t =>
    if t.engineState = .running ∧ t.stopping = false then
      { t with stopping := true, heldAccount := none, remaining := 0 }
    else t

/-- START (R170). -/
def execStart (stores : HostStores) (enables : BitVec 5) (s : State) : Host.Outcome State Fault Refusal :=
  conclude (do landStores stores; storeEnables enables; startCommand) s

/-- STOP (R173). -/
def execStop (stores : HostStores) (enables : BitVec 5) (s : State) : Host.Outcome State Fault Refusal :=
  conclude (do landStores stores; storeEnables enables; stopCommand) s

/-- Any word written to CONTROL (R158): SOFT_RESET alone where it is carried; otherwise the enables stored, and START or STOP
acted on unless both are carried. -/
def writeControl (value : Word) : Act Unit := do
  if value.getLsbD 2 then softResetCommand
  else do
    storeEnables (value.extractLsb' 8 5)
    if value.getLsbD 0 && !value.getLsbD 1 then startCommand
    else if value.getLsbD 1 && !value.getLsbD 0 then stopCommand
    else pure ()

/-- A write of BASE_LO, BASE_HI, ID or CONTROL (R158). BASE_LO and BASE_HI take a value only in IDLE; bits 11–0 of BASE_LO
stay 0. -/
def writeRegister (reg : RegName) (value : Word) : Act Unit :=
  match reg with
  | .id => pure ()
  | .baseLo =>
    modify fun t => if t.engineState = .idle then { t with baseLo := value &&& 0xFFFFF000 } else t
  | .baseHi => modify fun t => if t.engineState = .idle then { t with baseHi := value } else t
  | .control => writeControl value

/-- REGISTER_WRITE (R158). -/
def execRegisterWrite (stores : HostStores) (reg : RegName) (value : Word) (s : State) :
    Host.Outcome State Fault Refusal :=
  conclude (do landStores stores; writeRegister reg value) s

/-! ## STATUS (R158) -/

/-- A write of STATUS: a 1 clears an interrupt cause, a reset cause or NOTICES_DROPPED, and nothing else (R152, R158). -/
def State.clearStatus (s : State) (value : Word) : State :=
  { s with
    resetCauses := s.resetCauses &&& ~~~ value.extractLsb' 2 3
    causes := s.causes &&& ~~~ value.extractLsb' 8 5
    noticesDropped := s.noticesDropped && !value.getLsbD 17 }

/-- STATUS_WRITE (R158). -/
def execStatusWrite (stores : HostStores) (value : Word) (s : State) : Host.Outcome State Fault Refusal :=
  conclude (do landStores stores; modify fun t => t.clearStatus value) s

/-! ## NUDGE (R158, R162) -/

/-- A write of NUDGE: while RUNNING each list of the mask is inspected and T is read, the latter for a mask of 0 too (R158,
R162); in any other state it has no effect. The lists are inspected in ascending number and T is read after them: the spec
gives these accesses no order (DESIGN CHOICE, log entry 41). -/
def nudgeCommand (mask : BitVec 8) : Act Unit := do
  let s ← get
  if s.engineState = .running then do
    forEach ((List.finRange 8).filter fun k => mask.getLsbD k.val) inspect
    readTaken
  else pure ()

/-- NUDGE (R162). -/
def execNudge (stores : HostStores) (mask : BitVec 8) (s : State) : Host.Outcome State Fault Refusal :=
  conclude (do landStores stores; nudgeCommand mask) s

/-! ## STOP_COMPLETION (R173) -/

/-- No work is in flight: the engine FREE and no CLASSWRITE programming or waiting to be applied (R173). -/
def State.mayFinishStop (s : State) : Bool :=
  decide (s.engineState = .running) && s.stopping && decide (s.engine = .free) && s.prog.isNone

/-- Step 1 of R173: the notices still held are discarded, which sets NOTICES_DROPPED (R153); the queue is then empty, so
LOG_FULL is clear (R150; log entry 16). -/
def State.discardHeld (s : State) : State :=
  { s with
    noticesDropped := s.noticesDropped || !s.heldNotices.isEmpty
    heldNotices := []
    logFull := false }

/-- The rest of a stop (R173), in its order. Within its step 2 the pages and bytes 12 to 27 of the control page are written
first, and W with the held count 0 after them as one access (R153; DESIGN CHOICE, log entry 41), which leaves the old words when
it fails, like every write of W (log entry 7). Step 3's clock word and plant minute, bytes 12 to 19, are one access (DESIGN CHOICE,
log entry 23). -/
def finishStop : Act Unit := do
  readTaken
  modify State.discardHeld
  publish
  let s ← get
  regionWriteWhole (s.layout.controlPage + 4) [s.written, 0]
  modify fun t => { t with clock := .unset }
  let s ← get
  regionWrite (s.layout.controlPage + 12) [{ s with engineState := .idle }.controlClock, noWord]
  modify fun t =>
    { t with scanRunning := false, lists := clearEligible t.lists, engineState := .idle, stopping := false }

/-- STOP_COMPLETION where a stop is under way and no work is in flight; otherwise the event cannot occur. -/
def stopCompletion : Act Unit := do
  let s ← get
  if s.mayFinishStop then finishStop else pure ()

/-- STOP_COMPLETION (R173). -/
def execStopCompletion (s : State) : Host.Outcome State Fault Refusal := conclude stopCompletion s

/-! ## REGION_ACCESS_FAILURE (R174) -/

/-- The part is attached or attaching: only then is the region accessed (R169). -/
def State.attached (s : State) : Bool := decide (s.engineState = .running) || decide (s.engineState = .attaching)

/-- A failed access (R174; log entry 7). With `after` 0 the access of this moment fails and the part enters FAULTED. With
`after` n + 1 the n-th access from now on, counted from 0, is the one that fails, wherever in a step it falls; `written` bytes
of a write land. In FAULTED, and in IDLE where nothing is accessed, no access fails now. -/
def failAccess (after written : Nat) : Act Unit := fun s =>
  match after with
  | 0 => if s.attached then .error .accessFailed s else .ok () s
  | n + 1 => if s.engineState = .faulted then .ok () s else .ok () { s with failing := some ⟨n, written⟩ }

/-- REGION_ACCESS_FAILURE (R174). -/
def execRegionAccessFailure (after written : Nat) (s : State) : Host.Outcome State Fault Refusal :=
  conclude (failAccess after written) s

end Sys2Proof.Machine
end

