-- ==== Sys2Proof/Machine/ZoneKinds.lean ====
section
/-! DEFINITION. CLIMATE and ZONESET (spec/03 3.2 to 3.4). -/

namespace Sys2Proof.Machine

/-! ## CLIMATE (R58 to R63) -/

/-- Per-sample results, with their codes (spec/10 10.3). -/
inductive SampleResult where
  | accepted
  | clamped
  | noReading
  | denied
  | badZone
deriving DecidableEq, Repr

/-- Per-sample result codes. -/
def SampleResult.code : SampleResult → Nat
  | .accepted => 1
  | .clamped => 2
  | .noReading => 3
  | .denied => 4
  | .badZone => 5

/-- A temperature clamped to −400 to 1,500 (R60). -/
def clampTemp (t : BitVec 16) : BitVec 16 :=
  if t.toInt < -400 then BitVec.ofInt 16 (-400) else if 1500 < t.toInt then 1500 else t

/-- A humidity clamped to at most 1,000 (R60). -/
def clampHum (h : BitVec 16) : BitVec 16 := if 1000 < h.toNat then 1000 else h

/-- Either value of a sample lies outside the ranges of R60. -/
def Sample.outside (x : Sample) : Bool := decide (clampTemp x.temp ≠ x.temp) || decide (clampHum x.hum ≠ x.hum)

/-- A sample carries a no-reading code (R59). -/
def Sample.noReading (x : Sample) : Bool := decide (x.temp = 0x8000) || decide (x.hum = 0xFFFF)

/-- A zone with an accepted sample (R62). -/
def Zone.accept (z : Zone) (x : Sample) (minute : Word) : Zone :=
  { z with
    lastTemp := clampTemp x.temp
    lastHum := clampHum x.hum
    tempBand := tempBandOf (clampTemp x.temp).toInt
    humBand := humBandOf (clampHum x.hum).toNat
    clamped := x.outside
    lastSample := minute
    climate := .current }

/-- ZONE_RESTORED, raised by an accepted sample in a STALE zone (R62, R65). -/
def restoredNotices (i : ZoneNo) (z : Zone) (x : Sample) (minute : Word) : List Notice :=
  if z.climate = .stale then [⟨.zoneRestored, i.val, minute, z.lastSample, word (bit x.outside)⟩] else []

/-- What the samples examined so far have done: the zones, the results and the notices in sample order. -/
structure SampleRun where
  zones : Vector Zone 64
  results : List SampleResult
  notices : List Notice
deriving DecidableEq, Repr

/-- One sample examined (R59). -/
def examineSample (m : AuthMap) (minute : Word) (r : SampleRun) (x : Sample) : SampleRun :=
  let i : ZoneNo := Fin.ofNat 64 x.zone
  if !m.permitsZone x.zone then { r with results := r.results ++ [.denied] }
  else if r.zones[i].type = .typeNone then { r with results := r.results ++ [.badZone] }
  else if x.noReading then { r with results := r.results ++ [.noReading] }
  else
    { zones := r.zones.set i (r.zones[i].accept x minute)
      results := r.results ++ [if x.outside then .clamped else .accepted]
      notices := r.notices ++ restoredNotices i r.zones[i] x minute }

/-- All the samples of a cell, in their order (R58, R63). -/
def examineSamples (zones : Vector Zone 64) (m : AuthMap) (minute : Word) (xs : List Sample) : SampleRun :=
  xs.foldl (examineSample m minute) ⟨zones, [], []⟩

/-- The result code of a sample position, 0 beyond the count. -/
def sampleCode (rs : List SampleResult) (i : Nat) : Nat := ((rs[i]?).map SampleResult.code).getD 0

/-- The answer of a CLIMATE cell whose samples were examined (R58). Words 12 to 15, which section 10.3 does not name, are 0
(DESIGN CHOICE, log entry 42). -/
def climateAnswer (rs : List SampleResult) : Answer :=
  { result := if rs.any (fun r => decide (r = .accepted) || decide (r = .clamped)) then .ok else .noEffect
    w11 := wordOfBytes (sampleCode rs 0) (sampleCode rs 1) (sampleCode rs 2) (sampleCode rs 3)
    w12 := 0, w13 := 0, w14 := 0, w15 := 0 }

/-- The work of a CLIMATE cell (R58). -/
def climateWork (c : TakenCell) : Act (Option Answer) := do
  let s ← get
  if c.sampleCount = 0 ∨ 4 < c.sampleCount then pure (some (refusedWith .badValue))
  else do
    let r := examineSamples s.zones s.maps[c.list] s.minute (c.samples.take c.sampleCount)
    modify fun t => { t with zones := r.zones }
    reportNotices r.notices
    pure (some (climateAnswer r.results))

/-- CLIMATE (R58). -/
def execClimate (s : State) : Host.Outcome State Fault Refusal := conclude (serveCell (· == 8) climateWork) s

/-! ## ZONESET (R54, R55) -/

/-- A ZONESET's values lie in their ranges (R54 step 2). -/
def ZoneRequest.inRange (q : ZoneRequest) : Bool :=
  (zoneTypeOf q.type).isSome && decide (q.holdLine ≤ 8)
    && decide (1 ≤ q.staleLimit.toNat) && decide (q.staleLimit.toNat ≤ 1440)
    && decide (q.dryLimit ≤ 7) && decide (q.holdOnStale ≤ 1) && decide (q.clearFault ≤ 1)

/-- The zone record a ZONESET writes (R55). -/
def Zone.redefine (z : Zone) (type : ZoneType) (q : ZoneRequest) : Zone :=
  { z with
    type := type
    holdLine := if type = .typeNone then 0 else Fin.ofNat 9 q.holdLine
    staleLimit := q.staleLimit
    holdOnStale := decide (type ≠ .typeNone) && decide (q.holdOnStale = 1)
    dryLimitBand := Fin.ofNat 8 q.dryLimit
    climate := if type = z.type then z.climate else .noClimate
    clamped := if type = z.type then z.clamped else false
    faultHold := z.faultHold && decide (q.clearFault = 0) }

/-- The answer of a ZONESET carried out: the zone as it now stands (R55). Words 14 and 15, which section 10.3 does not name, are 0
(DESIGN CHOICE, log entry 42). -/
def zonesetAnswer (z : Zone) : Answer :=
  { result := .ok
    w11 := wordOfBytes z.type.code z.holdLine.val z.climate.code (bit z.faultHold)
    w12 := word z.occupancy
    w13 := word z.expiredPresent
    w14 := 0, w15 := 0 }

/-- The work of a ZONESET cell (R54, R55). -/
def zonesetWork (c : TakenCell) : Act (Option Answer) := do
  let s ← get
  let q := c.zoneRequest
  let i : ZoneNo := Fin.ofNat 64 q.zone
  if !s.maps[c.list].permitsZone q.zone then pure (some (refusedWith .denied))
  else if !q.inRange then pure (some (refusedWith .badValue))
  else
    let type := (zoneTypeOf q.type).getD .typeNone
    if type ≠ s.zones[i].type ∧ 0 < s.zones[i].occupancy then pure (some (refusedWith .zoneOccupied))
    else do
      let z := s.zones[i].redefine type q
      modify fun t => { t with zones := t.zones.set i z }
      pure (some (zonesetAnswer z))

/-- ZONESET (R55). -/
def execZoneset (s : State) : Host.Outcome State Fault Refusal := conclude (serveCell (· == 9) zonesetWork) s

end Sys2Proof.Machine
end

