-- ==== Sys2Proof/Machine/Dispatch.lean ====
section
/-! DEFINITION. One arm per command: each a direct call of its meaning. -/

namespace Sys2Proof.Machine

/-- A command's effect on everything but the queue. -/
def exec (i : Instr) (s : State) : Host.Outcome State Fault Refusal :=
  match i with
  | .powerOnReset => Sys2Proof.Machine.execPowerOnReset s
  | .pinReset => Sys2Proof.Machine.execPinReset s
  | .softReset stores => Sys2Proof.Machine.execSoftReset stores s
  | .start stores enables => Sys2Proof.Machine.execStart stores enables s
  | .stop stores enables => Sys2Proof.Machine.execStop stores enables s
  | .stopCompletion => Sys2Proof.Machine.execStopCompletion s
  | .registerWrite stores reg value => Sys2Proof.Machine.execRegisterWrite stores reg value s
  | .statusWrite stores value => Sys2Proof.Machine.execStatusWrite stores value s
  | .nudge stores mask => Sys2Proof.Machine.execNudge stores mask s
  | .intakeScanTimerExpiry => Sys2Proof.Machine.execIntakeScanTimerExpiry s
  | .minuteTimerExpiry => Sys2Proof.Machine.execMinuteTimerExpiry s
  | .zonePagePublication => Sys2Proof.Machine.execZonePagePublication s
  | .enrol => Sys2Proof.Machine.execEnrol s
  | .openInto => Sys2Proof.Machine.execOpen s
  | .move => Sys2Proof.Machine.execMove s
  | .bag => Sys2Proof.Machine.execBag s
  | .retire => Sys2Proof.Machine.execRetire s
  | .amend => Sys2Proof.Machine.execAmend s
  | .query => Sys2Proof.Machine.execQuery s
  | .climate => Sys2Proof.Machine.execClimate s
  | .zoneset => Sys2Proof.Machine.execZoneset s
  | .classwrite => Sys2Proof.Machine.execClasswrite s
  | .clockset => Sys2Proof.Machine.execClockset s
  | .tune => Sys2Proof.Machine.execTune s
  | .unknownKind => Sys2Proof.Machine.execUnknownKind s
  | .classProgrammingEnd defects => Sys2Proof.Machine.execClassProgrammingEnd defects s
  | .classCompletion => Sys2Proof.Machine.execClassCompletion s
  | .warningHandover => Sys2Proof.Machine.execWarningHandover s
  | .expiryHandover => Sys2Proof.Machine.execExpiryHandover s
  | .patrolRead => Sys2Proof.Machine.execPatrolRead s
  | .patrolWork => Sys2Proof.Machine.execPatrolWork s
  | .regionAccessFailure after written => Sys2Proof.Machine.execRegionAccessFailure after written s
  | .cellNoLongerPosted => Sys2Proof.Machine.execCellNoLongerPosted s

end Sys2Proof.Machine
end

