-- ==== Sys2Proof/Safety.lean ====
section
/-! DEFINITION. What counts as a safe run, in the terms the statements use: a part in service, a cell offered and completed, the
bytes and notices a command may touch, and the properties that every step keeps. -/

namespace Sys2Proof

/-- The host stores a command carries (log entry 1). -/
def Instr.hostStores : Instr → HostStores
  | .softReset stores | .start stores _ | .stop stores _ | .registerWrite stores _ _ | .statusWrite stores _
  | .nudge stores _ => stores
  | .powerOnReset | .pinReset | .stopCompletion | .intakeScanTimerExpiry | .minuteTimerExpiry | .zonePagePublication
  | .enrol | .openInto | .move | .bag | .retire | .amend | .query | .climate | .zoneset | .classwrite | .clockset | .tune
  | .unknownKind | .classProgrammingEnd _ | .classCompletion | .warningHandover | .expiryHandover | .patrolRead
  | .patrolWork | .regionAccessFailure _ _ | .cellNoLongerPosted => []

/-- The commands that reset the part (R175). -/
def Instr.isReset : Instr → Bool
  | .powerOnReset | .pinReset | .softReset _ => true
  | .start _ _ | .stop _ _ | .stopCompletion | .registerWrite _ _ _ | .statusWrite _ _ | .nudge _ _
  | .intakeScanTimerExpiry | .minuteTimerExpiry | .zonePagePublication | .enrol | .openInto | .move | .bag | .retire
  | .amend | .query | .climate | .zoneset | .classwrite | .clockset | .tune | .unknownKind | .classProgrammingEnd _
  | .classCompletion | .warningHandover | .expiryHandover | .patrolRead | .patrolWork | .regionAccessFailure _ _
  | .cellNoLongerPosted => false

/-- The commands that can complete a cell: those of the cells, the completion of a CLASSWRITE, and START, whose walk completes the
cells found TAKEN (R154). -/
def Instr.completesCells : Instr → Bool
  | .start _ _ | .enrol | .openInto | .move | .bag | .retire | .amend | .query | .climate | .zoneset | .classwrite | .clockset
  | .tune | .unknownKind | .classCompletion => true
  | .powerOnReset | .pinReset | .softReset _ | .stop _ _ | .stopCompletion | .registerWrite _ _ _ | .statusWrite _ _
  | .nudge _ _ | .intakeScanTimerExpiry | .minuteTimerExpiry | .zonePagePublication | .classProgrammingEnd _
  | .warningHandover | .expiryHandover | .patrolRead | .patrolWork | .regionAccessFailure _ _ | .cellNoLongerPosted => false

end Sys2Proof

namespace Sys2Proof.Machine

/-! ## A part in service -/

/-- The areas of the region as the part holds them since its attach, the layout block first: offset and size (R159, R170). -/
def State.areas (s : State) : List (Nat × Nat) :=
  [(0, layoutBlockBytes), (s.layout.controlPage, controlPageBytes), (s.layout.zonePage, zonePageBytes),
   (s.layout.accountTable, 64 * s.layout.tableSize), (s.layout.noticeLog, 16 * s.capacity),
   (s.layout.intakeLists, 8 * s.layout.cellsPerList * 64)]

/-- The region is one that attach has validated (R170), and the indices held lie within their lists (R161, R164). -/
structure RegionValid (s : State) : Prop where
  apart : allApart s.areas = true
  tableLow : 1 ≤ s.layout.tableSize
  tableHigh : s.layout.tableSize ≤ 32768
  cells : s.layout.cellsPerList ∈ cellCounts
  log : s.capacity ∈ logCapacities
  next : ∀ k : ListNo, s.lists[k].next < s.layout.cellsPerList
  flight : ∀ p, s.prog = some p → p.cell.index < s.layout.cellsPerList

/-- RUNNING over a valid region, with no region access about to fail. -/
structure InService (s : State) : Prop where
  running : s.engineState = .running
  region : RegionValid s
  sound : s.failing = none

/-! ## Bytes of host memory -/

/-- An address outside every one of a list of areas of the region (offset and size). -/
def State.outside (s : State) (areas : List (Nat × Nat)) (x : Nat) : Prop :=
  ∀ r ∈ areas, x < s.base + r.1 ∨ s.base + r.1 + r.2 ≤ x

/-- Every byte of host memory outside the given areas of the region reads as before. -/
def KeepsBytes (s t : State) (areas : List (Nat × Nat)) : Prop :=
  ∀ x, s.outside areas x → t.mem.read x = s.mem.read x

/-- What the notice unit may write: W and the held count, and the log (R146). -/
def State.noticeAreas (s : State) : List (Nat × Nat) :=
  [(s.layout.controlPage + 4, 8), (s.layout.noticeLog, 16 * s.capacity)]

/-- What a take and a completion of a cell write: words 0 and 1, and words 10 to 15 (R164, R166). -/
def cellAreas (off : Nat) : List (Nat × Nat) := [(off, 8), (off + 40, 24)]

/-- The control-page word that holds the index of a list (R164). -/
def State.indexArea (s : State) (k : ListNo) : Nat × Nat := (s.layout.controlPage + 28 + 4 * (k.val / 4), 4)

/-- What a publication writes: the zone page, and bytes 12 to 27 of the control page (R66). -/
def State.pageAreas (s : State) : List (Nat × Nat) :=
  [(s.layout.zonePage, zonePageBytes), (s.layout.controlPage + 12, 16)]

/-! ## Notices -/

/-- The notice unit of `v` and of `t` is one: W, T, the held queue, the two flags, the two causes, and every byte of the log and of
the control page's words for W and the held count, in the region of `s` (R145 to R152). -/
structure SameUnit (s v t : State) : Prop where
  counts : t.written = v.written ∧ t.taken = v.taken
  held : t.heldNotices = v.heldNotices
  flags : t.logFull = v.logFull ∧ t.noticesDropped = v.noticesDropped
  causes : ∀ i, i < 2 → t.causes.getLsbD i = v.causes.getLsbD i
  bytes : ∀ r ∈ s.noticeAreas, ∀ i, i < r.2 → t.mem.read (s.base + r.1 + i) = v.mem.read (s.base + r.1 + i)

/-- Notices handed to the unit between `s` and `t`. The unit of `t` is the one that stands when `s` has received them in order
(R148). Where none is handed over it stays as it was. Where none is held and the log has room for all, each is written in its
place, W rises by their number, and their causes are set (R146). `unmarked` says that the work's own record reads as malformed, so
that no NOTICE_MISSED can be written into it: a drop that would be recorded there then sets NOTICES_DROPPED (R151). -/
structure NoticesGo (s t : State) (ns : List Notice) (unmarked : Bool := false) : Prop where
  unit : ∃ missed v, handNotices ns s = .ok missed v
    ∧ SameUnit s { v with noticesDropped := v.noticesDropped || (missed && unmarked) } t
  idle : ns = [] →
    t.written = s.written ∧ t.taken = s.taken ∧ t.heldNotices = s.heldNotices ∧ t.logFull = s.logFull
      ∧ t.noticesDropped = s.noticesDropped
  count : s.heldNotices = [] → s.logOccupancy + ns.length ≤ s.capacity →
    t.written = s.written + word ns.length ∧ t.taken = s.taken ∧ t.heldNotices = [] ∧ t.noticesDropped = s.noticesDropped
  logged : s.heldNotices = [] → s.logOccupancy + ns.length ≤ s.capacity → ∀ (i : Nat) (h : i < ns.length),
    (t.peekWords (s.layout.noticeLog + 16 * ((s.written + word i).toNat % s.capacity)) 4).toList = ns[i].words
      ∧ t.causes.getLsbD ns[i].cause.index = true

/-! ## Cells -/

/-- The command of a cell by its kind code (R165). -/
def commandOfKind : Nat → Instr
  | 1 => .enrol
  | 2 => .openInto
  | 3 => .move
  | 4 => .bag
  | 5 => .retire
  | 6 => .amend
  | 7 => .query
  | 8 => .climate
  | 9 => .zoneset
  | 10 => .classwrite
  | 11 => .clockset
  | 12 => .tune
  | _ => .unknownKind

/-- The cell at a list's next-cell index, as a take reads it (R164). -/
def State.offered (s : State) (k : ListNo) : TakenCell := ⟨k, s.lists[k].next, s.peekWords (s.nextCell k) 10⟩

/-- The engine may take a cell, the arbitration chooses list `k`, and its next cell is POSTED with a kind code (R10, R163,
R164). -/
structure Offers (s : State) (k : ListNo) (kind : Nat) : Prop where
  service : InService s
  free : s.mayTakeCell = true
  chosen : s.chosenList = some k
  posted : byteOf (s.peek (s.nextCell k)) 0 = cellPosted
  kind : byteOf (s.peek (s.nextCell k)) 1 = kind

/-- An offered cell that passes the intake checks (R165). -/
structure Admits (s : State) (k : ListNo) (kind : Nat) : Prop where
  offers : Offers s k kind
  known : 1 ≤ kind ∧ kind ≤ 12
  permitted : s.maps[k].permitsKind kind = true
  timed : kind ∈ [1, 2, 3, 4, 5, 6, 8] → s.clockSet = true

/-- Between `s` and `t` the take has moved list `k` past its cell: the index advanced and shown in the control page, the other
lists as they were, and the last-served list set (R163, R164). -/
structure TakenFrom (s t : State) (k : ListNo) : Prop where
  index : t.lists[k].next = (s.lists[k].next + 1) % s.layout.cellsPerList
  shown : t.peek (s.layout.controlPage + 28 + 4 * (k.val / 4)) = t.indexWord (if k.val < 4 then 0 else 1)
  others : ∀ j : ListNo, j ≠ k → t.lists[j] = s.lists[j]
  served : t.lastServed = if s.elevated = some k then s.lastServed else k

/-- Between `s` and `t` the cell at an offset is completed with an answer: word 0 DONE with its kind and notify flag, the host tag,
the result words; CELL_DONE set if it was set or is asked for, ATTACH_END and FAULT as they were (R154, R166). -/
structure DoneCell (s t : State) (off : Nat) (c : TakenCell) (a : Answer) : Prop where
  state : t.peek off = wordOfBytes 3 (byteOf c.words[0] 1) (byteOf c.words[0] 2 % 2) 0
  hostTag : t.peek (off + 4) = c.words[1]
  result : t.peekWords (off + 40) 6 = #v[word a.result.code, a.w11, a.w12, a.w13, a.w14, a.w15]
  asked : t.causes.getLsbD 2 = (s.causes.getLsbD 2 || c.words[0].getLsbD 16)
  others : ∀ i, 3 ≤ i → t.causes.getLsbD i = s.causes.getLsbD i

/-- Between `s` and `t` the cell offered by list `k` was taken, completed with an answer, and its list inspected again (R164,
R166). -/
structure Served (s t : State) (k : ListNo) (a : Answer) : Prop where
  taken : TakenFrom s t k
  done : DoneCell s t (s.nextCell k) (s.offered k) a
  inspected : t.lists[k].eligible = decide (byteOf (t.peek (t.nextCell k)) 0 = cellPosted)

/-- The state right after the take of list `k`'s next cell (R164). -/
def State.afterTake (s : State) (k : ListNo) : State :=
  let u := { (s.poke (s.nextCell k) [cellWord cellTaken (s.offered k).words[0]]).advanceList k with
    engine := .cell (s.offered k) }
  u.poke (s.layout.controlPage + 28 + 4 * (k.val / 4)) [u.indexWord (if k.val < 4 then 0 else 1)]

/-! ## Minutes -/

/-- Stages 1 to 3 of a minute boundary but for the notices (R123). -/
def State.passMinute (s : State) : State :=
  match s.clock with
  | .unset => s
  | .held m stall => ((s.advanceMinute m stall).examine s.zones).startBatch

/-- The ZONE_STALE notices of a minute boundary (R65). -/
def State.minuteNotices (s : State) : List Notice :=
  match s.clock with
  | .unset => []
  | .held m _ => staleNotices s.zones (m + 1)

/-- A run of minute boundaries but for the notices (R130). -/
def State.passMinutes : Nat → State → State
  | 0, s => s
  | n + 1, s => State.passMinutes n s.passMinute

/-- The ZONE_STALE notices of a run of minute boundaries, in boundary order (R130). -/
def State.runNotices : Nat → State → List Notice
  | 0, _ => []
  | n + 1, s => s.minuteNotices ++ State.runNotices n s.passMinute

/-- In `t` the zone page stands as it was last written: the published minute and the zones of `t`, the rest of the header 0, and
the check word over them (R66, R67). -/
structure ZonePageShown (t : State) : Prop where
  minute : t.peek t.layout.zonePage = t.published
  header : t.peekWords (t.layout.zonePage + 8) 14 = Vector.replicate 14 0
  entries : ∀ z : ZoneNo, (t.peekWords (t.layout.zoneEntry z.val) 48).toList = t.zones[z].entryWords
  check : t.peek (t.layout.zonePage + 4)
    = checkWord (t.published :: 0 :: (List.replicate 14 0 ++ t.zones.toList.flatMap Zone.entryWords))

/-- The words at bytes 12 to 27 of the control page as `t` has them: states and reset causes, plant minute, free and unwatched
count (section 10.2, R113, R121). -/
def State.controlShown (t : State) : Vector Word 4 :=
  #v[wordOfBytes t.engineState.code (clockCode t.clock) (stallOf t.clock) t.resetCauses.toNat, minuteWord t.clock,
    word (poolSize - t.watch.length), word t.unwatched]

/-- In `t` the pages stand as a publication leaves them: the zone page, and the control page with the clock, the free count and the
unwatched count of `t` (R66, R67, R113, R121). -/
structure PageShown (t : State) : Prop extends ZonePageShown t where
  control : t.peekWords (t.layout.controlPage + 12) 4 = t.controlShown

/-- A zone after a gap of `g` minutes that ends at a plant minute: every defined zone charged its classes' gap rates, its
degraded marks at the new tallies, and its staleness judged at that minute (R40, R127). -/
def State.zoneAfterGap (s : State) (g : Nat) (value : Word) (z : ZoneNo) : Zone :=
  let zone := s.zones[z]
  if zone.type = .typeNone then zone
  else
    let tallies := Vector.ofFn fun c : ClassNo => sat64 (zone.exposure[c].toNat + g * gapRateOf s.classes[c])
    { zone with
      exposure := tallies
      degraded := tallies
      climate :=
        if zone.climate = .current
            ∧ (value.toNat < zone.lastSample.toNat ∨ zone.staleLimit.toNat ≤ value.toNat - zone.lastSample.toNat) then .stale
        else zone.climate }

/-- The notices of a gap accrual: ZONE_STALE for each zone it turns STALE, in ascending zone number, then CLOCK_GAP
(R65, R127, R128). -/
def State.gapNotices (s : State) (start value : Word) (g cleared : Nat) : List Notice :=
  ((List.finRange 64).filter fun z : ZoneNo =>
      decide (s.zones[z].climate = .current) && decide ((s.zoneAfterGap g value z).climate = .stale)).map
    (fun z => ⟨.zoneStale, z.val, value, s.zones[z].lastSample, word s.zones[z].staleLimit.toNat⟩)
  ++ [⟨.clockGap, start.toNat, value, word g, word cleared⟩]

/-! ## Layout blocks -/

/-- Every field of a layout block in its range, and its areas within the region and apart (R170). -/
structure LayoutBlock.InRange (b : LayoutBlock) : Prop where
  multiples : ∀ n ∈ [b.layout.regionSize, b.layout.controlPage, b.layout.zonePage, b.layout.accountTable,
    b.layout.noticeLog, b.layout.intakeLists], n % 64 = 0
  table : 1 ≤ b.layout.tableSize ∧ b.layout.tableSize ≤ 32768
  cells : ∃ i, 3 ≤ i ∧ i ≤ 8 ∧ b.layout.cellsPerList = 2 ^ i
  log : ∃ i, 6 ≤ i ∧ i ≤ 12 ∧ b.capacity = 2 ^ i
  batch : b.batch ≤ 256
  period : 1 ≤ b.scanPeriod ∧ b.scanPeriod ≤ 60
  elevated : b.elevated ≤ 7 ∨ b.elevated = 255
  rotation : b.rotation = 0 ∨ b.rotation = 1
  maps : ∀ k : ListNo, b.maps[k].zoneLen ≤ 64
  within : ∀ r ∈ b.areas.tail, r.1 + r.2 ≤ b.layout.regionSize
  apart : b.areas.Pairwise fun r q => r.1 + r.2 ≤ q.1 ∨ q.1 + q.2 ≤ r.1

/-- Every field of a class record in its range (spec/04 section 4.1). -/
structure Figures.InRange (f : Figures) : Prop where
  budget : f.budget ≤ 1000000
  margin : f.margin ≤ 65535
  rates : ∀ i : Fin 48, f.rates[i] ≤ 4095
  gapLow : ∀ i : Fin 48, f.rates[i] ≤ f.gapRate
  gapHigh : f.gapRate ≤ 4095
  recovery : f.recovery ≤ 4095
  ceilingLimited : f.budget ≠ 0 → f.ceiling < f.budget
  ceilingUnlimited : f.budget = 0 → f.ceiling ≤ 1000000
  setpoint : 400 ≤ f.setpoint ∧ f.setpoint ≤ 2000
  fullBake : 1 ≤ f.fullBake ∧ f.fullBake ≤ 10080
  minBake : 1 ≤ f.minBake ∧ f.minBake ≤ f.fullBake
  bakeLimit : f.bakeLimit ≤ 15

/-! ## Records -/

/-- The record of an account as a fetch finds it, in its line or in the table: none if corrupt or malformed (R2, R3, R134). -/
def State.recordOf (s : State) (n : Nat) : Option Account :=
  match s.cached n with
  | some ws => accountOf ws
  | none =>
    let ws := s.peekWords (s.layout.record n) 16
    if isCorrupt ws then none else accountOf ws

/-- What is wrong with a record that a fetch finds faulty: 1 its check word, 2 its fields (R144). -/
def State.faultOf (s : State) (n : Nat) : Nat :=
  match s.cached n with
  | some _ => 2
  | none => if isCorrupt (s.peekWords (s.layout.record n) 16) then 1 else 2

/-- In `t` the record of an account reads as the words given, in the table and in a line that holds it (R139). -/
structure Written (s t : State) (n : Nat) (a : Account) : Prop where
  table : t.peekWords (s.layout.record n) 16 = recordWords a
  line : ∀ ws, t.cached n = some ws → ws = recordWords a

/-- The cache sets other than an account's own are as they were. -/
def KeepsOtherSets (s t : State) (n : Nat) : Prop :=
  ∀ i : Fin 64, i ≠ setOf n → t.cacheSets[i] = s.cacheSets[i]

/-- The cache sets as the engine's fetch of an account leaves them (R134, R135, R137;
Obligations.EngineFetchFollowsTheLookupAndTheMode says how). -/
def State.fetchedSets (s : State) (n : Nat) : Vector CacheSet 64 :=
  match fetchRecord n s with
  | .ok _ u => u.cacheSets
  | .error _ u => u.cacheSets

/-- A set after a write-through of an account: a line that holds it takes the words, and no line is allocated (R139). -/
def CacheSet.updated (cs : CacheSet) (n : Nat) (ws : Vector Word 16) : CacheSet :=
  { cs with
    ways := cs.ways.map fun w =>
      match w with
      | some l => if l.tag = n / 64 then some ⟨n / 64, ws⟩ else some l
      | none => none }

/-- The cache after a work on an account: its set as the engine's fetch leaves it and, where a record is written, its line with that
record; the other sets as they were (R133, R135, R139). -/
structure CacheAfter (s t : State) (n : Nat) (written : Option Account) : Prop where
  own : t.cacheSets[setOf n] =
    match written with
    | none => (s.fetchedSets n)[setOf n]
    | some a => (s.fetchedSets n)[setOf n].updated n (recordWords a)
  others : KeepsOtherSets s t n

/-- The record of a work that writes `a` and raises notices, once they are handed over: NOTICE_MISSED set by one more write where a
notice that marks its account was dropped and the flag was clear, which raises the sequence once more. A record whose bake count is
above 15 reads as malformed and is not written again (R151, R3). -/
def State.afterNotices (s : State) (a : Account) (ns : List Notice) : Account :=
  match handNotices ns s with
  | .ok true _ =>
    if a.flags.noticeMissed = false ∧ a.bakeCount ≤ 15 then
      { a with flags := { a.flags with noticeMissed := true }, sequence := a.sequence + 1 }
    else a
  | .ok false _ => a
  | .error _ _ => a

/-- What a piece of account work leaves: its cell completed with an answer, the record of its account written, with NOTICE_MISSED
where a notice of it was dropped, its notices handed over, the cache as the fetch and the write leave it, and no other byte changed
(R4, R11, R151). -/
structure Settles (s t : State) (k : ListNo) (n : Nat) (a : Account) (answer : Answer) (raised : List Notice) : Prop where
  served : Served s t k answer
  written : Written s t n (s.afterNotices a raised)
  notices : NoticesGo s t raised (decide (15 < a.bakeCount))
  cache : CacheAfter s t n (some (s.afterNotices a raised))
  bytes : KeepsBytes s t (cellAreas (s.nextCell k) ++ [s.indexArea k, (s.layout.record n, 64)] ++ s.noticeAreas)

/-- What a cell that writes no record leaves: the cell completed with an answer, its notices handed over, and no other byte
changed. -/
structure Answers (s t : State) (k : ListNo) (answer : Answer) (notices : List Notice) : Prop where
  served : Served s t k answer
  notices : NoticesGo s t notices
  bytes : KeepsBytes s t (cellAreas (s.nextCell k) ++ [s.indexArea k] ++ s.noticeAreas)

/-- Account `n` of the table as the attach walk reads it in host memory: none if corrupt or malformed (R171). -/
def State.tableRecord (s : State) (l : Layout) (n : Nat) : Option Account :=
  let ws := s.peekWords (l.record n) 16
  if isCorrupt ws then none else accountOf ws

/-- How many records of the table satisfy a condition. -/
def State.countRecords (s : State) (l : Layout) (p : Account → Bool) : Nat :=
  ((List.range l.tableSize).filter fun n =>
    match s.tableRecord l n with
    | some a => p a
    | none => false).length

/-! ## The attach walk (R171, R172) -/

/-- What the walk finds wrong with record `n` of the table: 1 corrupt, 2 malformed, 3 in a zone whose type is NONE (R171, R144). -/
def State.walkFault (s : State) (l : Layout) (zones : Vector Zone 64) (n : Nat) : Option Nat :=
  let ws := s.peekWords (l.record n) 16
  if isCorrupt ws then some 1
  else
    match accountOf ws with
    | none => some 2
    | some a =>
      match a.zone with
      | some z => if zones[z].type = .typeNone then some 3 else none
      | none => none

/-- The cells that stand TAKEN, in the order the walk reads them (R172). -/
def State.takenCells (s : State) (l : Layout) : List (ListNo × Nat) :=
  ((List.finRange 8).flatMap fun k : ListNo => (List.range l.cellsPerList).map fun i => (k, i)).filter fun c =>
    decide (byteOf (s.peek (l.cell c.1 c.2)) 0 = cellTaken)

/-- The notices of an attach that succeeds, in order: RECORD_FAULT for each faulty record, ATTACHED with the cells abandoned and the
records found faulty, CLASS_FAULT for each INVALID class (R171, R172, R73). -/
def State.attachNotices (s : State) (b : LayoutBlock) (zones : Vector Zone 64) (live : Vector Nat 8) : List Notice :=
  let faults : List Notice := (List.range b.layout.tableSize).filterMap fun n =>
    (s.walkFault b.layout zones n).map fun what => ⟨.recordFault, n, 0, word what, 4⟩
  faults
    ++ ⟨.attached, if b.fresh then 1 else 0, 0, word (s.takenCells b.layout).length, word faults.length⟩
    :: (List.finRange 8).filterMap fun c : ClassNo =>
        match s.classes[c] with
        | .invalid cause => some ⟨.classFault, c.val, 0, word cause.code, word live[c]⟩
        | .empty | .valid _ _ | .programming => none

/-- The watch pool as the walk rebuilds it over the zones of `t`: emptied, then offered each record of the table that is in a
defined zone, in index order (R120, R171). -/
def State.walkedPool (s t : State) (l : Layout) : State :=
  (List.range l.tableSize).foldl
    (fun p n =>
      match s.tableRecord l n with
      | some a => if a.zone.any fun z => decide (t.zones[z].type ≠ .typeNone) then p.watchAccount n a else p
      | none => p)
    { t with watch := [], dueQueue := [], unwatched := 0 }

/-! ## Zone page entries (R69) -/

/-- An entry of the zone page whose fields lie in the ranges of R69. -/
structure EntryInRange (w : Vector Word 48) : Prop where
  type : byteOf w[0] 0 ≤ 3
  holdLine : byteOf w[0] 1 ≤ 8
  climate : byteOf w[0] 2 ≤ 2
  staleLimit : 1 ≤ (lowHalf w[1]).toNat ∧ (lowHalf w[1]).toNat ≤ 1440
  dryLimit : byteOf w[1] 2 ≤ 7
  temp : -400 ≤ (lowHalf w[2]).toInt ∧ (lowHalf w[2]).toInt ≤ 1500
  hum : (highHalf w[2]).toNat ≤ 1000
  undefined : byteOf w[0] 0 = 0 → byteOf w[0] 1 = 0 ∧ w[0].getLsbD 24 = false

/-- The bands of a zone are those of its readings (R61). -/
structure BandsAgree (z : Zone) : Prop where
  temp : ∀ b : Fin 6, z.tempBand = b ↔
    ([-400, 200, 250, 300, 350, 400][b] : Int) ≤ z.lastTemp.toInt ∧ z.lastTemp.toInt ≤ [199, 249, 299, 349, 399, 1500][b]
  hum : ∀ b : Fin 8, z.humBand = b ↔
    [0, 100, 200, 300, 400, 500, 600, 700][b] ≤ z.lastHum.toNat ∧ z.lastHum.toNat ≤ [99, 199, 299, 399, 499, 599, 699, 1000][b]

/-- A zone as an attach loads it from the 48 words of an entry (R69, section 10.2): every field from its place, the counts 0, the
fault hold clear, and the bands those of the readings. -/
structure LoadedFrom (w : Vector Word 48) (z : Zone) : Prop where
  type : z.type.code = byteOf w[0] 0
  holdLine : z.holdLine.val = byteOf w[0] 1
  climate : z.climate.code = byteOf w[0] 2
  flags : z.holdOnStale = w[0].getLsbD 24 ∧ z.clamped = w[0].getLsbD 25 ∧ z.faultHold = false
  limits : z.staleLimit = lowHalf w[1] ∧ z.dryLimitBand.val = byteOf w[1] 2
  readings : z.lastTemp = lowHalf w[2] ∧ z.lastHum = highHalf w[2] ∧ z.lastSample = w[3]
  bands : BandsAgree z
  counts : z.occupancy = 0 ∧ z.expiredPresent = 0
  dry : z.dry = w[5]
  exposure : ∀ c : ClassNo, z.exposure[c] = w[7 + 2 * c.val]'(by omega) ++ w[6 + 2 * c.val]'(by omega)
  degraded : ∀ c : ClassNo, z.degraded[c] = w[23 + 2 * c.val]'(by omega) ++ w[22 + 2 * c.val]'(by omega)
  bake : ∀ c : ClassNo, z.bake[c] = w[38 + c.val]'(by omega)

/-- Word `i` of a zone page, by its header and its entries (section 10.2). -/
def pageWord (header : Vector Word 16) (entries : Vector (Vector Word 48) 64) (i : Nat) : Word :=
  (header.toList ++ entries.toList.flatMap Vector.toList).getD i 0

/-! ## Refusals of account requests (R15) -/

/-- The zones that step 4 of R15 checks. -/
def zonesChecked (kind : Nat) (c : TakenCell) (a : Account) : List Nat :=
  match kind with
  | 2 => [c.zoneAsked]
  | 3 => a.presentZone ++ [c.zoneAsked]
  | 4 | 5 | 6 => a.presentZone
  | _ => []

/-- Why a class may not be named by ENROL or AMEND: BAD_CLASS above 7, CLASS_BUSY, CLASS_INVALID (R19, R24). -/
def State.classRefusal (s : State) (c : Nat) : Option Result :=
  if 7 < c then some .badClass
  else
    match s.classes[(Fin.ofNat 8 c : ClassNo)] with
    | .valid _ _ => none
    | .programming => some .classBusy
    | .empty | .invalid _ => some .classInvalid

/-- The bake limit of a class (0 unless VALID). -/
def State.bakeLimit (s : State) (c : Nat) : Nat :=
  match s.classes[(Fin.ofNat 8 c : ClassNo)].figures? with
  | some f => f.bakeLimit
  | none => 0

/-- Step 5 of R15: the refusals of the kinds, in the order of their tables. -/
def State.kindRefusal (s : State) (kind : Nat) (c : TakenCell) (a : Account) : Option Result :=
  match kind with
  | 1 =>
    if a.state ≠ .vacant ∧ a.state ≠ .retired then some .badState
    else if (s.classRefusal c.enrolClass).isSome then s.classRefusal c.enrolClass
    else if s.bakeLimit c.enrolClass < c.priorBakes then some .badValue
    else none
  | 2 =>
    if a.state ≠ .unopened ∧ a.state ≠ .bagged then some .badState
    else if s.zones[(Fin.ofNat 64 c.zoneAsked : ZoneNo)].type = .typeNone then some .badZone
    else none
  | 3 =>
    if a.state.inZone = false then some .badState
    else if s.zones[(Fin.ofNat 64 c.zoneAsked : ZoneNo)].type = .typeNone then some .badZone
    else none
  | 4 => if a.state.inZone = false then some .badState else none
  | 5 => if a.state.isLive = false then some .badState else none
  | 6 =>
    if a.state.isLive = false then some .badState
    else if c.clearMask % 4 ≠ 0 ∨ 32 ≤ c.clearMask then some .badValue
    else
      match c.newClass with
      | some k =>
        if (s.classRefusal k).isSome then s.classRefusal k
        else if s.bakeLimit k < a.bakeCount then some .badValue
        else none
      | none => if s.classes[a.cls] = .programming then some .classBusy else none
  | 7 => if a.state = .vacant then some .badState else none
  | _ => none

/-- The first check of R15 that an account request fails, in its order. -/
def State.accountRefusal (s : State) (kind : Nat) (c : TakenCell) : Option Result :=
  if s.layout.tableSize ≤ c.account then some .badAccount
  else
    match s.recordOf c.account with
    | none => some .recordFault
    | some a =>
      if kind ≠ 1 ∧ c.tag ≠ a.tag then some .tagMismatch
      else if (zonesChecked kind c a).any fun z => !s.maps[c.list].permitsZone z then some .denied
      else s.kindRefusal kind c a

/-- An account request that passes every check, for the account `n` whose record is `a`. -/
structure Reaches (s : State) (k : ListNo) (kind n : Nat) (a : Account) : Prop where
  admits : Admits s k kind
  account : (s.offered k).account = n
  record : s.recordOf n = some a
  passes : s.accountRefusal kind (s.offered k) = none

/-! ## Region accesses that fail (R174) -/

/-- Runs of bytes stored one after another, each from its address on. -/
def storedAll (m : Memory) (accesses : List (Nat × List Byte)) : Memory :=
  accesses.foldl (fun m x => m.store x.1 x.2) m

/-- What entry to FAULTED leaves of a part (R174, R169, R161): FAULTED with its clock UNSET, every line asserted, the scan timer
stopped, the eligibility marks clear, the engine FREE, FAULT set, no publication due and no stop under way. -/
structure FaultedState (t : State) : Prop where
  state : t.engineState = .faulted
  clock : t.clock = .unset ∧ t.publicationDue = false
  lines : t.lines = Vector.replicate 8 true
  scan : t.scanRunning = false
  eligible : ∀ k : ListNo, t.lists[k].eligible = false
  engine : t.engine = .free
  cause : t.causes.getLsbD 4 = true
  stop : t.stopping = false

/-! ## What every step keeps -/

/-- The exposure tally order of two entries in their lists (R103). -/
def WatchEntry.inOrder (x y : WatchEntry) : Prop :=
  x.list < y.list ∨ (x.list = y.list ∧ x.threshold.toNat ≤ y.threshold.toNat)

/-- The watch pool as R102, R103, R109 and R113 have it: one entry for an account, each position used once, lists in order of
threshold, every place in the due queue that of a due entry, once, and the unwatched count within its range. -/
structure PoolSound (s : State) : Prop where
  counted : s.unwatched ≤ 32768
  accounts : (s.watch.map WatchEntry.account).Nodup
  positions : (s.watch.map WatchEntry.position).Nodup
  range : ∀ e ∈ s.watch, e.position < poolSize
  order : s.watch.Pairwise WatchEntry.inOrder
  queued : s.dueQueue.Nodup
  due : ∀ p ∈ s.dueQueue, ∃ e ∈ s.watch, e.position = p ∧ e.due = true

/-- The notice unit as R145, R149 and R152 have it. -/
structure NoticesSound (s : State) : Prop where
  held : s.heldNotices.length ≤ heldMax
  keys : s.heldNotices.Pairwise fun m n => m.sameKey n = false
  flag : s.logFull = !s.heldNotices.isEmpty
  occupancy : s.logOccupancy ≤ s.capacity
  capacity : s.capacity ≤ 4096

/-- The part between steps (R9, R121, R156, R161, R173): the engine FREE, never ATTACHING; the clock, the scan timer, the
eligibility marks and a stop only while RUNNING; the hold lines as their conditions have them. -/
structure RestSound (s : State) : Prop where
  free : s.engine = .free
  state : s.engineState ≠ .attaching
  clock : s.clockSet = true → s.engineState = .running
  due : s.publicationDue = true → s.clockSet = true
  scan : s.scanRunning = true → s.engineState = .running
  eligible : ∀ k : ListNo, s.lists[k].eligible = true → s.engineState = .running
  stop : s.stopping = true → s.engineState = .running
  lines : ∀ i : Fin 8, s.lines[i] = s.lineHeld (i.val + 1)

/-- The account cache never holds two lines for one account, and none in mode OFF (R133, R140). -/
structure CacheSound (s : State) : Prop where
  single : ∀ (i : Fin 64) (v w : Fin 4) (x y : Line),
    s.cacheSets[i].ways[v] = some x → s.cacheSets[i].ways[w] = some y → x.tag = y.tag → v = w
  off : s.cacheMode = .off → ∀ (i : Fin 64) (w : Fin 4), s.cacheSets[i].ways[w] = none

/-- No tally of `t` lies below the same tally of `s`; a degraded mark that stood at or below its tally has not fallen either
(R31). -/
structure TalliesRise (s t : State) : Prop where
  exposure : ∀ (z : ZoneNo) (c : ClassNo), s.zones[z].exposure[c].toNat ≤ t.zones[z].exposure[c].toNat
  bake : ∀ (z : ZoneNo) (c : ClassNo), s.zones[z].bake[c].toNat ≤ t.zones[z].bake[c].toNat
  dry : ∀ z : ZoneNo, s.zones[z].dry.toNat ≤ t.zones[z].dry.toNat
  degraded : ∀ (z : ZoneNo) (c : ClassNo), s.zones[z].degraded[c].toNat ≤ s.zones[z].exposure[c].toNat →
    s.zones[z].degraded[c].toNat ≤ t.zones[z].degraded[c].toNat
      ∧ t.zones[z].degraded[c].toNat ≤ t.zones[z].exposure[c].toNat

/-- What a part in service rests on: the rest of R156 and R161; no CLASSWRITE in flight while IDLE (R173); a valid region while
RUNNING (R170). -/
structure ServiceSound (s : State) : Prop where
  rest : RestSound s
  idle : s.engineState = .idle → s.prog = none
  region : s.engineState = .running → RegionValid s

end Sys2Proof.Machine
end

