-- ==== Sys2Proof/WellFormed.lean ====
section
/-! DEFINITION. Which commands the sender can issue: operands within the ranges the spec gives them. -/

namespace Sys2Proof

/-- Every host store names an address of the 64-bit address space (R158: BASE_HI and BASE_LO form 64 bits). -/
def HostStores.wellFormed (stores : HostStores) : Bool :=
  stores.all fun c => decide (c.1 < 2 ^ 64)

/-- A CONTROL word that carries no command: neither SOFT_RESET, nor START or STOP alone (R158). Such words are the row
REGISTER_WRITE; the others are the rows SOFT_RESET, START and STOP. -/
def controlCarriesNoCommand (value : Word) : Bool :=
  !value.getLsbD 2 && (value.getLsbD 0 == value.getLsbD 1)

/-- A defect names one of the 30 words of a class record and at least one bit of it (R71). -/
def NvDefect.wellFormed (d : NvDefect) : Bool :=
  decide (d.word < 30) && decide (d.flips ≠ 0)

/-- The operands of a command are ones its row can carry. -/
def Instr.wellFormed : Instr → Bool
  | .powerOnReset => true
  | .pinReset => true
  | .softReset stores => stores.wellFormed
  | .start stores _ => stores.wellFormed
  | .stop stores _ => stores.wellFormed
  | .stopCompletion => true
  | .registerWrite stores .control value => stores.wellFormed && controlCarriesNoCommand value
  | .registerWrite stores _ _ => stores.wellFormed
  | .statusWrite stores _ => stores.wellFormed
  | .nudge stores _ => stores.wellFormed
  | .intakeScanTimerExpiry => true
  | .minuteTimerExpiry => true
  | .zonePagePublication => true
  | .enrol => true
  | .openInto => true
  | .move => true
  | .bag => true
  | .retire => true
  | .amend => true
  | .query => true
  | .climate => true
  | .zoneset => true
  | .classwrite => true
  | .clockset => true
  | .tune => true
  | .unknownKind => true
  | .classProgrammingEnd defects => defects.all NvDefect.wellFormed
  | .classCompletion => true
  | .warningHandover => true
  | .expiryHandover => true
  | .patrolRead => true
  | .patrolWork => true
  | .regionAccessFailure _ _ => true
  | .cellNoLongerPosted => true

end Sys2Proof
end

