-- ==== Sys2Proof/Certificates/Slice0/Obligations.lean ====
section
/-! DEFINITION. The statements for the provers: what each command does, what it leaves, and what every step keeps. Each docstring
names the rules of spec/ the statement rests on. -/

open Sys2Proof Sys2Proof.Machine

/-! ## Steps and resets -/

/-- A step runs the command at the front of the queue on the state with the queue's rest; an empty queue idles (log entry 6:
the queue and the idling are the model's). -/
def Obligations.StepRunsTheFrontCommand : Prop :=
  ∀ s : State,
    (∀ c rest, s.pending = c :: rest → step s = exec c { s with pending := rest })
      ∧ (s.pending = [] → step s = .next s)

/-- What the part holds right after a power-on reset, where the spec gives the value (R52, R72, R102, R114, R121, R133, R145,
R156, R158, R161, R169, R175); and that state has every property that the statements below say each step keeps. -/
def Obligations.ResetStateHoldsTheResetValuesAndIsSound : Prop :=
  let s := State.reset
  (s.baseLo = 0 ∧ s.baseHi = 0 ∧ s.control = 0 ∧ s.status = 4#32)
    ∧ (s.engineState = .idle ∧ s.engine = .free ∧ s.clock = .unset ∧ s.lines = Vector.replicate 8 true)
    ∧ (∀ z : ZoneNo, s.zones[z] = Zone.undefined) ∧ (∀ c : ClassNo, s.classes[c] = loadClass s.nv[c])
    ∧ (∀ c : ClassNo, s.live[c] = 0 ∧ s.highest[c] = 0)
    ∧ (s.watch = [] ∧ s.dueQueue = [] ∧ s.freeCount = 4096 ∧ s.unwatched = 0)
    ∧ (s.cursor = 0 ∧ s.batch = 0 ∧ s.remaining = 0 ∧ s.heldAccount = none)
    ∧ (s.cacheMode = .normal ∧ ∀ i : Fin 64, s.cacheSets[i] = CacheSet.invalid)
    ∧ (s.written = 0 ∧ s.taken = 0 ∧ s.capacity = 0 ∧ s.heldNotices = [])
    ∧ (∀ k : ListNo, s.lists[k].next = 0 ∧ s.lists[k].eligible = false)
    ∧ (s.lastServed = 7 ∧ s.elevated = none ∧ s.rotation = .fixed ∧ s.scanRunning = false)
    ∧ (∀ k : ListNo, s.maps[k].kindMask = 0 ∧ s.maps[k].zoneLen = 0)
    ∧ (s.mem.wf = true ∧ PoolSound s ∧ NoticesSound s ∧ CacheSound s ∧ ServiceSound s)

/-- The three resets return every on-chip block to its reset value with the class store loaded again, and differ only in the
reset causes; host memory and the nonvolatile memory keep what they hold (R175, R72, R13). That the count of messages sent and
the waiting commands stay is the model's choice (log entry 25). -/
def Obligations.ResetsDifferOnlyInTheirCauses : Prop :=
  ∀ (s : State) (stores : HostStores),
    let after (causes : BitVec 3) (mem : Memory) : State :=
      { State.reset with
        resetCauses := causes
        mem := mem
        nv := s.nv
        classes := loadClasses s.nv
        messages := s.messages
        pending := s.pending }
    exec .powerOnReset s = .next (after 0b001#3 s.mem)
      ∧ exec .pinReset s = .next (after (s.resetCauses ||| 0b010#3) s.mem)
      ∧ exec (.softReset stores) s = .next (after (s.resetCauses ||| 0b100#3) (s.mem.land stores))

/-- The class store's load: the first case of R72 that applies gives the class its state, and a VALID class its figures and the
largest rate of its table as its worst rate (R72, R70). That the words in the nonvolatile memory have the layout of the class image
is the model's reading (log entry 19). -/
def Obligations.ClassStoreLoadTakesTheFirstCase : Prop :=
  ∀ (nv : Vector NvClass 8) (c : ClassNo),
    let r := nv[c]
    let whole := (∀ i : Fin 30, r.complements[i] = ~~~ r.words[i]) ∧ (figuresOf r.words).InRange
    (r.inProgress = true → (loadClasses nv)[c] = .invalid .interrupted)
      ∧ (r.inProgress = false → r.writtenMarker = false → (loadClasses nv)[c] = .empty)
      ∧ (r.inProgress = false → r.writtenMarker = true → ¬ whole → (loadClasses nv)[c] = .invalid .damaged)
      ∧ (r.inProgress = false → r.writtenMarker = true → whole →
          ∃ worst, (loadClasses nv)[c] = .valid (figuresOf r.words) worst
            ∧ (∀ i : Fin 48, (figuresOf r.words).rates[i] ≤ worst) ∧ ∃ i : Fin 48, (figuresOf r.words).rates[i] = worst)

/-! ## Registers -/

/-- A read of a register gives the register at its offset (section 10.1): ID its part number, family code and revision (a free
value, log entry 12), BASE_LO and BASE_HI as held, CONTROL and STATUS each field at its place and every other bit 0, NUDGE 0.
STATUS_WRITE: a 1 clears an interrupt cause, a reset cause or NOTICES_DROPPED; a 0 leaves each as it is; LOG_FULL, the engine
state and the attach-failure code stay (R158, R152, R155). REGISTER_WRITE: BASE_LO and BASE_HI take a value only in IDLE, bits
11-0 of BASE_LO staying 0; a CONTROL word without a command stores its enables; a write to ID has no effect (R158). Nothing else
changes but by the host's own stores. -/
def Obligations.RegistersReadAndTakeWritesAsNamed : Prop :=
  ∀ (s : State) (stores : HostStores) (value : Word),
    let u := { s with mem := s.mem.land stores }
    (let id := s.readRegister 0x00
     let control := s.readRegister 0x0C
     let status := s.readRegister 0x10
     id.extractLsb' 16 16 = 0x6408#16 ∧ id.extractLsb' 8 8 = 0xB1#8 ∧ id.extractLsb' 0 8 = Config.revision
        ∧ s.readRegister 0x04 = s.baseLo ∧ s.readRegister 0x08 = s.baseHi ∧ s.readRegister 0x14 = 0
        ∧ control.extractLsb' 0 8 = 0 ∧ control.extractLsb' 8 5 = s.enables ∧ control.extractLsb' 13 19 = 0
        ∧ status.extractLsb' 0 2 = BitVec.ofNat 2 s.engineState.code ∧ status.extractLsb' 2 3 = s.resetCauses
        ∧ status.extractLsb' 5 3 = 0 ∧ status.extractLsb' 8 5 = s.causes ∧ status.extractLsb' 13 3 = 0
        ∧ status.getLsbD 16 = s.logFull ∧ status.getLsbD 17 = s.noticesDropped ∧ status.extractLsb' 18 6 = 0
        ∧ status.extractLsb' 24 2 = BitVec.ofNat 2 s.attachFail.code ∧ status.extractLsb' 26 6 = 0)
      ∧ (∃ t, exec (.statusWrite stores value) s = .next t
        ∧ (∀ i, i < 5 → t.causes.getLsbD i = (s.causes.getLsbD i && !value.getLsbD (8 + i)))
        ∧ (∀ i, i < 3 → t.resetCauses.getLsbD i = (s.resetCauses.getLsbD i && !value.getLsbD (2 + i)))
        ∧ t.noticesDropped = (s.noticesDropped && !value.getLsbD 17)
        ∧ t = { u with
                causes := t.causes
                resetCauses := t.resetCauses
                noticesDropped := t.noticesDropped
                lines := t.lines })
      ∧ (exec (.registerWrite stores .id value) s = .next u.drive)
      ∧ (s.engineState = .idle →
          exec (.registerWrite stores .baseLo value) s = .next { u with baseLo := (value >>> 12) <<< 12 }.drive
            ∧ exec (.registerWrite stores .baseHi value) s = .next { u with baseHi := value }.drive)
      ∧ (s.engineState ≠ .idle →
          exec (.registerWrite stores .baseLo value) s = .next u.drive
            ∧ exec (.registerWrite stores .baseHi value) s = .next u.drive)
      ∧ (controlCarriesNoCommand value = true →
          exec (.registerWrite stores .control value) s = .next { u with enables := value.extractLsb' 8 5 }.drive)

/-- A cause goes from clear to set once, sends one message exactly if its enable is set, and changes no other cause (R154, R155).
Over every command but a reset the messages sent rise by the number of causes that go from clear to set with their enable set. A
cause is cleared by STATUS_WRITE alone. Every other command sets FAULT exactly on entry to FAULTED, ATTACH_END only if it is START,
CELL_DONE only if it can complete a cell, and URGENT_NOTICE and NOTICE only with a rise of W, or if it is START (R154, R174). -/
def Obligations.CauseSendsOneMessageWhenItGoesFromClearToSet : Prop :=
  (∀ (s : State) (c : Cause),
      let t := s.raiseCause c
      t.causes.getLsbD c.index = true
        ∧ (∀ i, i ≠ c.index → t.causes.getLsbD i = s.causes.getLsbD i)
        ∧ t.messages = (if s.causes.getLsbD c.index = false ∧ s.enables.getLsbD c.index = true then s.messages + 1 else s.messages)
        ∧ t = { s with causes := t.causes, messages := t.messages })
    ∧ ∀ (s : State) (c : Instr), c.wellFormed = true → c.isReset = false →
        let start := ∃ stores enables, c = .start stores enables
        ∃ t, exec c s = .next t
          ∧ t.messages = s.messages + ((List.range 5).filter fun i =>
              !s.causes.getLsbD i && t.causes.getLsbD i && t.enables.getLsbD i).length
          ∧ ((∀ stores value, c ≠ .statusWrite stores value) →
              (∀ i, s.causes.getLsbD i = true → t.causes.getLsbD i = true)
                ∧ (s.engineState ≠ .faulted →
                    t.causes.getLsbD 4 = (s.causes.getLsbD 4 || decide (t.engineState = .faulted)))
                ∧ (s.engineState = .faulted → RestSound s → t.causes.getLsbD 4 = s.causes.getLsbD 4)
                ∧ (¬ start → t.causes.getLsbD 3 = s.causes.getLsbD 3)
                ∧ (c.completesCells = false → t.causes.getLsbD 2 = s.causes.getLsbD 2)
                ∧ (¬ start → NoticesSound s → t.written = s.written → ∀ i, i < 2 → t.causes.getLsbD i = s.causes.getLsbD i))

/-- The hold lines (R156, R157): line n, 1 to 8, is asserted exactly if some zone whose hold line is n has an expired-present
count above 0, or hold-on-stale set with its climate STALE or NO_CLIMATE, or its fault hold set, or the part is not ready, which
it is while RUNNING with its clock RUNNING or STALLED. Every command leaves each line as the state it leaves has it. -/
def Obligations.HoldLinesAreAssertedByTheirConditions : Prop :=
  let asserted (s : State) (n : Nat) : Prop :=
    ¬ (s.engineState = .running ∧ ∃ m stall, s.clock = .held m stall)
      ∨ ∃ z : ZoneNo, s.zones[z].holdLine.val = n
          ∧ (0 < s.zones[z].expiredPresent
              ∨ (s.zones[z].holdOnStale = true ∧ (s.zones[z].climate = .stale ∨ s.zones[z].climate = .noClimate))
              ∨ s.zones[z].faultHold = true)
  ∀ s : State,
    (∀ n : Fin 8, s.lineHeld (n.val + 1) = true ↔ asserted s (n.val + 1))
      ∧ ∀ c : Instr, ∃ t, exec c s = .next t ∧ ∀ n : Fin 8, t.lines[n] = true ↔ asserted t (n.val + 1)

/-- NUDGE in RUNNING inspects each list of its mask that is not eligible, and T is read, whatever the mask; in any other state it
has no effect. INTAKE_SCAN_TIMER_EXPIRY, while the scan timer runs, inspects every list that is not eligible and reads T
(R158, R161, R162, R147). That it changes nothing while the scan timer does not run is the model's choice: the event cannot occur
there (log entry 5). -/
def Obligations.NudgeAndScanInspectTheirListsAndReadTheTakenCount : Prop :=
  ∀ (s : State) (stores : HostStores) (mask : BitVec 8),
    let inspects (u t : State) (mask : BitVec 8) : Prop :=
      ∃ d, readTaken { u with lists := t.lists } = .ok () d
        ∧ (∀ k : ListNo, t.lists[k].next = u.lists[k].next
            ∧ t.lists[k].eligible = (u.lists[k].eligible
                || (mask.getLsbD k.val && decide (byteOf (u.peek (u.nextCell k)) 0 = cellPosted))))
        ∧ t = { d with lines := t.lines }
        ∧ (u.heldNotices = [] → d = { u with
            lists := t.lists, taken := reckonTaken u.written u.capacity (u.peek u.layout.controlPage) })
    let u := { s with mem := s.mem.land stores }
    (s.engineState ≠ .running → exec (.nudge stores mask) s = .next u.drive)
      ∧ (InService s → ∃ t, exec (.nudge stores mask) s = .next t ∧ inspects u t mask)
      ∧ (s.scanRunning = false → exec .intakeScanTimerExpiry s = .next s.drive)
      ∧ (InService s → s.scanRunning = true →
          ∃ t, exec .intakeScanTimerExpiry s = .next t ∧ inspects s t 0b11111111#8)

/-! ## Attach and detach -/

/-- The layout block an attach begun now would read, the host's stores made (R170). -/
def layoutBlockRead (s : State) (stores : HostStores) : LayoutBlock :=
  layoutBlockOf ({ s with mem := s.mem.land stores }.peekWords 0 42)

/-- What every attach that ends with success leaves (R143, R161, R170 to R172), from `u`, the part with the host's stores made, and
`v`, its notice unit as the attach sets it: RUNNING with its clock UNSET and every line asserted, ATTACH_END set, the blocks set up
from the layout block; the live counts, the highest bake counts (R76) and the watch pool (R120) of the records walked, no record
written; every cell found TAKEN completed ABANDONED and no other cell changed; the notices of the walk and of its end; the control
page's words; and nothing else changed. -/
structure Attached (u v t : State) (b : LayoutBlock) : Prop where
  running : t.engineState = .running
  code : t.attachFail = .ok
  ended : t.causes.getLsbD 3 = true
  clock : t.clock = .unset
  held : t.lines = Vector.replicate 8 true
  layout : t.layout = b.layout
  capacity : t.capacity = b.capacity
  valid : RegionValid t
  intake : t.elevated = (if h : b.elevated ≤ 7 then some ⟨b.elevated, by omega⟩ else none)
    ∧ t.rotation = (if b.rotation = 1 then .rotating else .fixed)
    ∧ t.scanPeriod = b.scanPeriod ∧ t.maps = b.maps ∧ t.lastServed = 7 ∧ t.scanRunning = true
    ∧ ∀ k : ListNo, t.lists[k].eligible = false
  patrol : t.batch = b.batch ∧ t.cursor = 0
  cache : t.cacheMode = u.cacheMode ∧ ∀ i : Fin 64, t.cacheSets[i] = CacheSet.invalid
  live : ∀ c : ClassNo, t.live[c] = t.countRecords b.layout fun a => a.state.isLive && decide (a.cls = c)
  highest : ∀ c : ClassNo,
    (∀ (n : Nat) (a : Account), n < b.layout.tableSize → u.tableRecord b.layout n = some a → a.state.isLive = true → a.cls = c →
        a.bakeCount ≤ t.highest[c])
      ∧ (t.highest[c] = 0 ∨ ∃ (n : Nat) (a : Account), n < b.layout.tableSize ∧ u.tableRecord b.layout n = some a
          ∧ a.state.isLive = true ∧ a.cls = c ∧ a.bakeCount = t.highest[c])
  watched : t.watch.length + t.unwatched
    = t.countRecords b.layout fun a =>
        (match a.zone with
         | some z => t.zones[z].defined
         | none => false) && t.eligible a
  pool : let p := u.walkedPool t b.layout
    t.watch = p.watch ∧ t.dueQueue = p.dueQueue ∧ t.unwatched = p.unwatched
  records : ∀ n, n < b.layout.tableSize → t.peekWords (b.layout.record n) 16 = u.peekWords (b.layout.record n) 16
  cells : ∀ (k : ListNo) (i : Nat), i < b.layout.cellsPerList →
    let off := b.layout.cell k i
    let w := u.peekWords off 16
    (byteOf w[0] 0 = 2 → ∀ j : Fin 16, (t.peekWords off 16)[j] =
        if j = 0 then wordOfBytes 3 (byteOf w[0] 1) (byteOf w[0] 2 % 2) 0
        else if j < 10 then w[j]
        else if j = 10 then 20 else 0)
      ∧ (byteOf w[0] 0 ≠ 2 → t.peekWords off 16 = w)
  cellDone : t.causes.getLsbD 2 = true ↔ u.causes.getLsbD 2 = true
    ∨ ∃ c ∈ u.takenCells b.layout, (u.peek (b.layout.cell c.1 c.2)).getLsbD 16 = true
  fault : t.causes.getLsbD 4 = u.causes.getLsbD 4
  notices : NoticesGo v t (u.attachNotices b t.zones t.live)
  shown : t.peekWords (b.layout.controlPage + 12) 6
    = #v[wordOfBytes 2 0 0 u.resetCauses.toNat, noWord, word (4096 - t.watch.length), word t.unwatched, t.indexWord 0, t.indexWord 1]
  kept : t = { u with
    engineState := t.engineState
    attachFail := t.attachFail
    causes := t.causes
    messages := t.messages
    logFull := t.logFull
    noticesDropped := t.noticesDropped
    lines := t.lines
    mem := t.mem
    layout := t.layout
    zones := t.zones
    published := t.published
    clock := t.clock
    live := t.live
    highest := t.highest
    watch := t.watch
    dueQueue := t.dueQueue
    unwatched := t.unwatched
    cursor := t.cursor
    batch := t.batch
    cacheSets := t.cacheSets
    written := t.written
    taken := t.taken
    capacity := t.capacity
    heldNotices := t.heldNotices
    lists := t.lists
    lastServed := t.lastServed
    elevated := t.elevated
    rotation := t.rotation
    scanPeriod := t.scanPeriod
    scanRunning := t.scanRunning
    maps := t.maps }

/-- START in IDLE with FRESH set, over a layout block in range: the attach succeeds with every zone UNDEFINED and no published
minute, the zone page written so with its check word, W, T and every index 0 before the walk's notices, FRESH cleared in the layout
block, and no record of the account table written (R69, R76, R145, R161, R170 to R172). That bytes 38 and 39 of the block are not
tested is the model's reading (log entry 44). That bits 1 to 7 of byte 2 of word 0 of a cell completed ABANDONED are 0 is its choice
(log entry 43), and the counts of the walk are held as log entry 21 says. -/
def Obligations.FreshAttachInitializesTheRegion : Prop :=
  ∀ (s : State) (stores : HostStores) (enables : BitVec 5),
    let b := layoutBlockRead s stores
    let u := { s with mem := s.mem.land stores, enables := enables }
    let v := { u with layout := b.layout, capacity := b.capacity, written := 0, taken := 0 }.poke b.layout.controlPage [0, 0, 0]
    s.engineState = .idle → s.failing = none → s.prog = none → b.InRange → b.fresh = true →
    ∃ t, exec (.start stores enables) s = .next t ∧ Attached u v t b
      ∧ (∀ z : ZoneNo, t.zones[z] = Zone.undefined) ∧ t.published = noWord ∧ ZonePageShown t
      ∧ (∀ k : ListNo, t.lists[k].next = 0)
      ∧ t.peek t.layout.controlPage = 0
      ∧ t.peekWords (t.layout.controlPage + 36) 7 = Vector.replicate 7 0
      ∧ t.peek 32 = u.peek 32 &&& ~~~ (1#32 <<< 24)
      ∧ KeepsBytes u t [(32, 4), (b.layout.controlPage, 64), (b.layout.zonePage, 12352), (b.layout.noticeLog, 16 * b.capacity),
          (b.layout.intakeLists, 8 * b.layout.cellsPerList * 64)]

/-- The words of the zone page in host memory: its header and its entries (R67, R69). -/
def pageRead (s : State) (l : Layout) : Option (Vector Zone 64) :=
  zonesOfPage (s.peekWords l.zonePage 16) (Vector.ofFn fun z : Fin 64 => s.peekWords (l.zoneEntry z.val) 48)

/-- The zone page (R66, R67, R69, section 10.2): a page passes exactly if its word 1 is the ones' complement of the sum of its other
words, each rotated left by its index modulo 32, and every entry lies in the ranges of R69; each zone is then loaded from its entry,
with the counts 0, the fault hold clear and the bands those of its readings. A page the part has written for zones in those ranges
reads back as those zones, so changed, and the published minute. -/
def Obligations.ZonePageReadsBackAsWritten : Prop :=
  (∀ w : Vector Word 48,
      ((zoneOfEntry w).isSome = true ↔ EntryInRange w) ∧ ∀ z, zoneOfEntry w = some z → LoadedFrom w z)
    ∧ (∀ (header : Vector Word 16) (entries : Vector (Vector Word 48) 64),
        ((zonesOfPage header entries).isSome = true ↔
          header[1] = ~~~ ((List.range 3088).map fun i =>
              if i = 1 then 0 else (pageWord header entries i).rotateLeft (i % 32)).sum
            ∧ ∀ z : ZoneNo, EntryInRange entries[z])
          ∧ ∀ zones, zonesOfPage header entries = some zones → ∀ z : ZoneNo, zoneOfEntry entries[z] = some zones[z])
    ∧ ∀ (s : State) (zones : Vector Zone 64) (published : Word), s.failing = none →
        (∀ z : ZoneNo, 1 ≤ zones[z].staleLimit.toNat ∧ zones[z].staleLimit.toNat ≤ 1440
          ∧ -400 ≤ zones[z].lastTemp.toInt ∧ zones[z].lastTemp.toInt ≤ 1500 ∧ zones[z].lastHum.toNat ≤ 1000
          ∧ (zones[z].type = .typeNone → zones[z].holdLine = 0 ∧ zones[z].holdOnStale = false)) →
        ∃ (t : State) (read : Vector Zone 64), writeZonePage zones published s = .ok () t ∧ t = { s with mem := t.mem }
          ∧ KeepsBytes s t [(s.layout.zonePage, zonePageBytes)]
          ∧ t.peek s.layout.zonePage = published ∧ pageRead t s.layout = some read
          ∧ ∀ z : ZoneNo, BandsAgree read[z] ∧ read[z] = { zones[z] with
              occupancy := 0
              expiredPresent := 0
              faultHold := false
              tempBand := read[z].tempBand
              humBand := read[z].humBand }

/-- START in IDLE with FRESH clear, over a layout block in range and a zone page that passes: the zones are loaded from the page
with the counts of the records walked, W continues from the control page with T tested against it, and the indices are taken modulo
the cells of a list; the zone page is not written (R69, R76, R145, R147, R161, R170 to R172). That bytes 38 and 39 of the block are
not tested is the model's reading (log entry 44). That bits 1 to 7 of byte 2 of word 0 of a cell completed ABANDONED are 0 is its
choice (log entry 43), and the counts of the walk are held as log entry 21 says. -/
def Obligations.LoadedAttachContinuesFromThePages : Prop :=
  ∀ (s : State) (stores : HostStores) (enables : BitVec 5) (zones : Vector Zone 64),
    let b := layoutBlockRead s stores
    let u := { s with mem := s.mem.land stores, enables := enables }
    let taken := u.peek b.layout.controlPage
    let written := u.peek (b.layout.controlPage + 4)
    let v := { u with
      layout := b.layout
      capacity := b.capacity
      written := written
      taken := if (written - taken).toNat ≤ b.capacity then taken else written - word b.capacity }
    s.engineState = .idle → s.failing = none → s.prog = none → b.InRange → b.fresh = false →
    pageRead u b.layout = some zones →
    ∃ t, exec (.start stores enables) s = .next t ∧ Attached u v t b
      ∧ (∀ z : ZoneNo, t.zones[z] =
          if zones[z].defined then
            { zones[z] with
              occupancy := u.countRecords b.layout fun a => decide (a.zone = some z)
              expiredPresent := u.countRecords b.layout fun a => decide (a.zone = some z) && a.flags.expired }
          else zones[z])
      ∧ t.published = u.peek b.layout.zonePage
      ∧ (∀ k : ListNo, t.lists[k].next
          = byteOf (u.peek (b.layout.controlPage + 28 + 4 * (k.val / 4))) (k.val % 4) % b.layout.cellsPerList)
      ∧ KeepsBytes u t [(b.layout.controlPage + 4, 32), (b.layout.noticeLog, 16 * b.capacity),
          (b.layout.intakeLists, 8 * b.layout.cellsPerList * 64)]

/-- START is ignored in every state but IDLE (R169), its enables stored (R158). In IDLE, over a layout block with any field out of
range, bytes 38 and 39 apart (log entry 44), it ends with code LAYOUT, and with FRESH clear over a zone page that fails its checks
with code ZONE_PAGE (R69, R170): the part IDLE again, ATTACH_END raised, the zone table UNDEFINED, every cache line and order bit
cleared (R143), no write made (R169), and no other cause changed. That the zone table is UNDEFINED also after an earlier attach
and stop, and every other block as it was, is the model's reading (log entry 17). -/
def Obligations.StartIsIgnoredOutsideIdleAndRefusesABadRegion : Prop :=
  ∀ (s : State) (stores : HostStores) (enables : BitVec 5),
    let b := layoutBlockRead s stores
    let u := { s with mem := s.mem.land stores }
    let refused (t : State) (code : AttachFail) (l : Layout) : Prop :=
      t.causes.getLsbD 3 = true ∧ (∀ i, i ≠ 3 → t.causes.getLsbD i = s.causes.getLsbD i)
        ∧ (∀ z : ZoneNo, t.zones[z] = Zone.undefined) ∧ t.published = noWord
        ∧ t = { u with
                engineState := .idle
                enables := enables
                attachFail := code
                layout := l
                zones := t.zones
                published := t.published
                cacheSets := Vector.replicate 64 CacheSet.invalid
                causes := t.causes
                messages := t.messages
                lines := t.lines }
    (s.engineState ≠ .idle →
        exec (.start stores enables) s = .next { s with mem := s.mem.land stores, enables := enables }.drive)
      ∧ (s.engineState = .idle → s.failing = none → ¬ b.InRange →
          ∃ t, exec (.start stores enables) s = .next t ∧ refused t .layout s.layout)
      ∧ (s.engineState = .idle → s.failing = none → b.InRange → b.fresh = false → pageRead u b.layout = none →
          ∃ t, exec (.start stores enables) s = .next t ∧ refused t .zonePage b.layout)

/-- STOP in RUNNING begins a stop: the patrol drops its held account and its remaining count. A STOP under way, and STOP in any
other state, is ignored (R169, R173, R114); its enables are stored (R158). The scan timer and the eligibility marks stand until the
end of the stop (log entry 30). STOP_COMPLETION: once no work is in flight, T is read and the log drained, the notices still held
are discarded with NOTICES_DROPPED and LOG_FULL clear (log entry 16), the pages are published, with W and a held count of 0, the
clock becomes UNSET and its words show it, every line is asserted, the scan timer stops, the eligibility marks are cleared, and the
part is IDLE (R173, R153, R132, R66, R67, R113). A publication still due is made by it (log entry 9). -/
def Obligations.StopBeginsInRunningAndHandsTheRegionBack : Prop :=
  ∀ s : State,
    (∀ (stores : HostStores) (enables : BitVec 5),
        let u := { s with mem := s.mem.land stores, enables := enables }
        (s.engineState = .running → s.stopping = false →
            exec (.stop stores enables) s = .next { u with stopping := true, heldAccount := none, remaining := 0 }.drive)
          ∧ (s.engineState ≠ .running ∨ s.stopping = true → exec (.stop stores enables) s = .next u.drive))
      ∧ (InService s → s.stopping = true → s.engine = .free → s.prog = none →
          ∃ t d, exec .stopCompletion s = .next t ∧ readTaken s = .ok () d
            ∧ t.engineState = .idle ∧ t.stopping = false ∧ t.clock = .unset ∧ t.lines = Vector.replicate 8 true
            ∧ t.scanRunning = false ∧ (∀ k : ListNo, t.lists[k] = ⟨s.lists[k].next, false⟩)
            ∧ t.heldNotices = [] ∧ t.logFull = false
            ∧ t.noticesDropped = (s.noticesDropped || !d.heldNotices.isEmpty)
            ∧ t.published = (if s.clockSet then s.minute else s.published) ∧ t.publicationDue = false
            ∧ ZonePageShown t
            ∧ t.peekWords (s.layout.controlPage + 4) 2 = #v[d.written, 0]
            ∧ t.peekWords (s.layout.controlPage + 12) 4
                = #v[wordOfBytes 0 0 0 s.resetCauses.toNat, noWord, word (4096 - s.watch.length), word s.unwatched]
            ∧ KeepsBytes s t (s.pageAreas ++ s.noticeAreas)
            ∧ t = { d with
                    engineState := t.engineState
                    mem := t.mem
                    clock := t.clock
                    lines := t.lines
                    scanRunning := t.scanRunning
                    stopping := t.stopping
                    lists := t.lists
                    heldNotices := t.heldNotices
                    logFull := t.logFull
                    noticesDropped := t.noticesDropped
                    published := t.published
                    publicationDue := t.publicationDue })

/-- REGION_ACCESS_FAILURE: an access that fails in ATTACHING or RUNNING makes the part FAULTED, its clock UNSET, every line
asserted, the scan timer stopped, the eligibility marks cleared, and the FAULT cause set (R174, R169, R161); host memory is not
touched, and every other block stands (log entry 36). In IDLE and FAULTED nothing is accessed and nothing happens. The failure can
be armed for a later access (the arming is the model's, log entry 7). Whatever the command, its accesses to the region are the
same with a failure armed as without, up to the one that fails: where the failure lies beyond them the command does what it does
anyway, with so many fewer to come; otherwise the part ends FAULTED, and host memory holds the accesses before the failed one
whole (R4, R174). That of the failed one the first bytes at most land, never the whole, is log entry 7's choice. -/
def Obligations.FailedAccessMakesThePartFaulted : Prop :=
  ∀ (s : State) (written : Nat),
    (s.engineState = .running ∨ s.engineState = .attaching →
        ∃ t, exec (.regionAccessFailure 0 written) s = .next t ∧ FaultedState t
          ∧ (∀ i, i ≠ 4 → t.causes.getLsbD i = s.causes.getLsbD i)
          ∧ (∀ k : ListNo, t.lists[k].next = s.lists[k].next)
          ∧ t = { s with
                  engineState := t.engineState
                  clock := t.clock
                  lines := t.lines
                  scanRunning := t.scanRunning
                  lists := t.lists
                  engine := t.engine
                  causes := t.causes
                  messages := t.messages
                  publicationDue := false
                  stopping := false })
      ∧ (s.engineState = .idle ∨ s.engineState = .faulted →
          exec (.regionAccessFailure 0 written) s = .next s.drive)
      ∧ (∀ k : Nat, s.engineState ≠ .faulted →
          exec (.regionAccessFailure (k + 1) written) s = .next { s with failing := some ⟨k, written⟩ }.drive)
      ∧ (s.engineState = .running →
          ∃ t u, exec (.regionAccessFailure 1 written) s = .next t ∧ exec (.nudge [] 0) t = .next u
            ∧ t = { s with failing := some ⟨0, written⟩, lines := t.lines }
            ∧ u.engineState = .faulted ∧ u.mem = s.mem ∧ u.causes.getLsbD 4 = true)
      ∧ (∀ c : Instr, c.wellFormed = true → c.isReset = false → (∀ k n, c ≠ .regionAccessFailure k n) → s.failing = none → s.mem.wf = true →
          ∃ (u : State) (accesses : List (Nat × List Byte)), exec c s = .next u ∧ u.failing = none
            ∧ u.mem = storedAll (s.mem.land c.hostStores) accesses
            ∧ ∀ k : Nat,
                let armed := { s with failing := some ⟨k, written⟩ }
                (accesses.length ≤ k →
                    exec c armed = .next { u with failing := some ⟨k - accesses.length, written⟩ })
                  ∧ ∀ h : k < accesses.length, ∃ (t : State) (part : List Byte), exec c armed = .next t
                      ∧ FaultedState t ∧ t.failing = none
                      ∧ part <+: accesses[k].2 ∧ part.length ≤ written
                      ∧ (accesses[k].2 ≠ [] → part.length < accesses[k].2.length)
                      ∧ t.mem = storedAll (s.mem.land c.hostStores) (accesses.take k ++ [(accesses[k].1, part)]))

/-! ## Cells: intake -/

/-- A cell refused at intake, by the first check of R165 it fails, is taken and completed with zero result words, and reaches no
record, zone, class or clock (R164 to R167). UNKNOWN_KIND is the command of every kind code outside 1 to 12. That such a code is
UNKNOWN_KIND also on a list whose kind mask is 0 is the model's reading (log entry 53). That bits 1 to 7 of byte 2 of the completed
cell's word 0 are 0 is the model's choice (log entry 43). -/
def Obligations.IntakeRefusesByTheFirstCheckFailed : Prop :=
  ∀ (s : State) (k : ListNo) (kind : Nat) (r : Result), Offers s k kind →
    (if kind < 1 ∨ 12 < kind then some .unknownKind
     else if s.maps[k].kindMask.getLsbD kind = false then some .denied
     else if kind ∈ [1, 2, 3, 4, 5, 6, 8] ∧ s.clock = .unset then some .clockUnset
     else none) = some r →
    ∃ t, exec (commandOfKind kind) s = .next t ∧ Answers s t k (refusedWith r) []
      ∧ t = { s with
              mem := t.mem
              lists := t.lists
              lastServed := t.lastServed
              causes := t.causes
              messages := t.messages
              lines := t.lines }

/-- The arbitration: the elevated list if eligible; otherwise in FIXED mode the lowest-numbered eligible list, and in ROTATING
mode the first eligible list after the last-served one, modulo 8, passing over the elevated list; none if no list is eligible
(R163). A command of a kind whose cell is not the one the engine may take next changes nothing: the event cannot occur (R10, R163,
R164; DESIGN CHOICE, log entry 5). CELL_NO_LONGER_POSTED: a take that finds the chosen list's next cell in any state but POSTED
writes nothing and leaves the index; the list becomes not eligible (R164, R163). That the last-served list stays is
the model's reading (log entry 47). -/
def Obligations.ArbitrationChoosesAndOnlyItsPostedCellIsTaken : Prop :=
  ∀ s : State,
    (s.chosenList = none ↔ ∀ j : ListNo, s.lists[j].eligible = false)
      ∧ (∀ k : ListNo,
          (s.chosenList = some k → s.lists[k].eligible = true)
            ∧ (s.elevated = some k → s.lists[k].eligible = true → s.chosenList = some k)
            ∧ (s.chosenList = some k → s.elevated ≠ some k →
                (∀ e, s.elevated = some e → s.lists[e].eligible = false)
                  ∧ (s.rotation = .fixed → ∀ j : ListNo, j < k → s.lists[j].eligible = false)
                  ∧ (s.rotation = .rotating → ∀ j : ListNo, s.elevated ≠ some j →
                      (j.val + 7 - s.lastServed.val) % 8 < (k.val + 7 - s.lastServed.val) % 8 → s.lists[j].eligible = false)))
      ∧ (∀ kind : Nat, 1 ≤ kind → kind ≤ 12 →
          (s.mayTakeCell = false ∨ s.chosenList = none
            ∨ ∃ k, s.chosenList = some k
                ∧ (byteOf (s.peek (s.nextCell k)) 0 ≠ cellPosted ∨ byteOf (s.peek (s.nextCell k)) 1 ≠ kind)) →
          exec (commandOfKind kind) s = .next s.drive)
      ∧ (∀ k : ListNo, InService s → s.mayTakeCell = true → s.chosenList = some k →
          byteOf (s.peek (s.nextCell k)) 0 ≠ cellPosted →
          exec .cellNoLongerPosted s = .next { s with lists := s.lists.set k ⟨s.lists[k].next, false⟩ }.drive)

/-! ## Account requests -/

/-- A request for an account that fails a check of R15, in the order the rule gives, is refused with the first failure: its cell
carries the result code and zero result words; no record, count or watch entry changes; the one notice is RECORD_FAULT; the cache is
as the fetch leaves it, where one is made (R15, R2, R3, R5, R144, R135). That the unwatched count stays too is the model's reading
(log entry 34). That bits 1 to 7 of byte 2 of the completed cell's word 0 are 0 is the model's choice (log entry 43). -/
def Obligations.RefusedAccountRequestsChangeNothing : Prop :=
  ∀ (s : State) (k : ListNo) (kind : Nat) (r : Result), Admits s k kind → kind ≤ 7 →
    s.accountRefusal kind (s.offered k) = some r →
    let n := (s.offered k).account
    let notices := if r = .recordFault then [⟨.recordFault, n, s.minute, word (s.faultOf n), 1⟩] else []
    ∃ t, exec (commandOfKind kind) s = .next t ∧ Answers s t k (refusedWith r) notices
      ∧ (if r = .badAccount then t.cacheSets = s.cacheSets else CacheAfter s t n none)
      ∧ t = { s with
              mem := t.mem
              lists := t.lists
              lastServed := t.lastServed
              cacheSets := t.cacheSets
              written := t.written
              taken := t.taken
              heldNotices := t.heldNotices
              logFull := t.logFull
              noticesDropped := t.noticesDropped
              causes := t.causes
              messages := t.messages
              lines := t.lines }

/-- ENROL writes the whole record from the request, EXPIRED set with its notice where the prior exposure has reached a limited
budget, and raises the live count and the highest bake count of the class (R19, R1, R8, R14, R76, R44). A notice dropped for want of
room sets NOTICE_MISSED by a second write (R151); the result's flags are those of the first (log entry 39). That bits 1 to 7 of byte
2 of the completed cell's word 0 are 0 is the model's choice (log entry 43). The counts are held as log entry 21 says. -/
def Obligations.EnrolWritesTheWholeRecord : Prop :=
  ∀ (s : State) (k : ListNo) (n : Nat) (a : Account), Reaches s k 1 n a →
    let c := s.offered k
    let cls : ClassNo := Fin.ofNat 8 c.enrolClass
    let hit := (s.inForce cls).reached c.priorExposure.toNat
    let e : Account :=
      { tag := c.tag
        cls := cls
        state := if c.priorExposure = 0 then .unopened else .bagged
        zone := none
        flags := ⟨hit, false, false, false, false⟩
        bakeCount := c.priorBakes
        exposure := c.priorExposure
        mark := 0
        aux := 0
        lastCredit := 0
        entryMinute := s.minute
        expiryMinute := if hit then s.minute else 0
        hostRef := c.hostRef
        sequence := a.sequence + 1 }
    let notices := if hit then [⟨.expired, n, s.minute, noWord, c.priorExposure⟩] else []
    ∃ t, exec .enrol s = .next t ∧ Settles s t k n e (accountAnswer .ok e.sequence e.exposure e.flags 0) notices
      ∧ (∀ j : ClassNo, t.live[j] = if j = cls then s.live[j] + 1 else s.live[j])
      ∧ (∀ j : ClassNo, t.highest[j] = if j = cls then max s.highest[j] c.priorBakes else s.highest[j])
      ∧ t = { s with
              mem := t.mem
              lists := t.lists
              lastServed := t.lastServed
              cacheSets := t.cacheSets
              live := t.live
              highest := t.highest
              written := t.written
              taken := t.taken
              heldNotices := t.heldNotices
              logFull := t.logFull
              noticesDropped := t.noticesDropped
              causes := t.causes
              messages := t.messages
              lines := t.lines }

/-- The zone entry and its tests (R16, R17, R99): the state by the zone's type, the marks from its tallies, EXPIRED where E has
reached a limited budget, else WARNED where it has reached the warning level, each with its notice, and BAKE_EXHAUSTED at an
oven when the bake count of a VALID class's account is at the limit. The zone exit of a MOVE or BAG (R18, R90): the account is
folded against its zone, the exit credit judged on it as folded, the fold's notices before the credit's; leaving a zone of type OPEN
gives no credit and changes nothing more. -/
def Obligations.ZoneEntryAndExitMarkTestAndCredit : Prop :=
  ∀ (s : State) (n : Nat) (z : ZoneNo) (a : Account),
    let f := s.inForce a.cls
    let zone := s.zones[z]
    let folded := foldAccount f s.minute n z zone.exposure[a.cls] zone.degraded[a.cls] a
    let credit := s.exitCredit n z folded.1
    s.foldIn n z a = folded ∧ s.leaveZone n z a = ⟨credit.account, credit.credit, folded.2 ++ credit.notices⟩
      ∧ (zone.type = .typeOpen → s.leaveZone n z a = ⟨folded.1, 0, folded.2⟩)
      ∧ (zone.type ≠ .typeNone →
      let expires := f.reached a.exposure.toNat && !a.flags.expired
      let warns := f.warnable a.exposure.toNat && !a.flags.warned && !a.flags.expired && !expires
      let exhausted := decide (zone.type = .typeBake) &&
        (match s.classes[a.cls].figures? with
         | some g => decide (a.bakeCount = g.bakeLimit)
         | none => false)
      s.enterZone n z a =
        ({ a with
            state := (match zone.type with
              | .typeDry => .dryheld
              | .typeBake => .baking
              | _ => .exposed)
            zone := some z
            mark := zone.exposure[a.cls]
            aux := (match zone.type with
              | .typeDry => zone.dry
              | .typeBake => zone.bake[a.cls]
              | _ => 0)
            entryMinute := s.minute
            expiryMinute := if expires then s.minute else a.expiryMinute
            flags := { a.flags with expired := a.flags.expired || expires, warned := a.flags.warned || warns } },
          (if expires then [⟨.expired, n, s.minute, word z.val, a.exposure⟩] else [])
            ++ (if warns then [⟨.expiryWarning, n, s.minute, word z.val, a.exposure⟩] else [])
            ++ (if exhausted then [⟨.bakeExhausted, n, s.minute, word z.val, word a.bakeCount⟩] else [])))

/-- OPEN enters the account into the zone named with E as stored, counts it there, and watches it if it is eligible and the pool has
room (R20, R16, R17, R14, R105, R113). A notice dropped for want of room sets NOTICE_MISSED by a second write (R151); the result's
flags are those of the first (log entry 39). That bits 1 to 7 of byte 2 of the completed cell's word 0 are 0 is the model's choice
(log entry 43). The counts are held as log entry 21 says. -/
def Obligations.OpenEntersTheZone : Prop :=
  ∀ (s : State) (k : ListNo) (n : Nat) (a : Account), Reaches s k 2 n a →
    let z : ZoneNo := Fin.ofNat 64 (s.offered k).zoneAsked
    let e := { (s.enterZone n z a).1 with sequence := a.sequence + 1 }
    let w := s.watchAccount n e
    ∃ t, exec .openInto s = .next t
      ∧ Settles s t k n e (accountAnswer .ok e.sequence e.exposure e.flags 0) (s.enterZone n z a).2
      ∧ e.exposure = a.exposure
      ∧ t.zones = (s.countZone z 1 (if e.flags.expired then 1 else 0)).zones
      ∧ t.watch = w.watch ∧ t.dueQueue = w.dueQueue ∧ t.unwatched = w.unwatched
      ∧ t = { s with
              mem := t.mem
              lists := t.lists
              lastServed := t.lastServed
              cacheSets := t.cacheSets
              zones := t.zones
              watch := t.watch
              dueQueue := t.dueQueue
              unwatched := t.unwatched
              written := t.written
              taken := t.taken
              heldNotices := t.heldNotices
              logFull := t.logFull
              noticesDropped := t.noticesDropped
              causes := t.causes
              messages := t.messages
              lines := t.lines }

/-- MOVE to the account's own zone answers OK_SAME_ZONE and changes nothing of it. MOVE to another zone folds the account, applies
the exit credit of the zone it leaves, enters it into the destination, writes the record once, and moves its count and its watch
entry (R21, R16 to R18, R14, R76, R113). That the first leaves the unwatched count as it was too is the model's reading of R113 (log
entry 34). A notice dropped for want of room sets NOTICE_MISSED by a second write (R151); the result's flags are those of the first
(log entry 39). That bits 1 to 7 of byte 2 of the completed cell's word 0 are 0 is the model's choice (log entry 43). The counts are
held as log entry 21 says. -/
def Obligations.MoveFoldsCreditsAndEnters : Prop :=
  ∀ (s : State) (k : ListNo) (n : Nat) (a : Account) (src : ZoneNo), Reaches s k 3 n a → a.zone = some src →
    let dst : ZoneNo := Fin.ofNat 64 (s.offered k).zoneAsked
    (dst = src →
      ∃ t, exec .move s = .next t
        ∧ Answers s t k (accountAnswer .okSameZone a.sequence a.exposure a.flags 0) [] ∧ CacheAfter s t n none
        ∧ t = { s with
                mem := t.mem
                lists := t.lists
                lastServed := t.lastServed
                cacheSets := t.cacheSets
                causes := t.causes
                messages := t.messages
                lines := t.lines })
    ∧ (dst ≠ src →
      let x := s.leaveZone n src a
      let e := { (s.enterZone n dst x.account).1 with sequence := a.sequence + 1 }
      let w := ((s.reachUnwatched n a).removeEntry n).watchAccount n e
      ∃ t, exec .move s = .next t
        ∧ Settles s t k n e (accountAnswer .ok e.sequence e.exposure e.flags x.credit)
            (x.notices ++ (s.enterZone n dst x.account).2)
        ∧ t.zones = ((s.countZone src (-1) (if a.flags.expired then -1 else 0)).countZone dst 1
            (if e.flags.expired then 1 else 0)).zones
        ∧ t.highest = (if e.bakeCount = a.bakeCount then s.highest
            else s.highest.set a.cls (max s.highest[a.cls] e.bakeCount))
        ∧ t.watch = w.watch ∧ t.dueQueue = w.dueQueue ∧ t.unwatched = w.unwatched
        ∧ t = { s with
                mem := t.mem
                lists := t.lists
                lastServed := t.lastServed
                cacheSets := t.cacheSets
                zones := t.zones
                highest := t.highest
                watch := t.watch
                dueQueue := t.dueQueue
                unwatched := t.unwatched
                written := t.written
                taken := t.taken
                heldNotices := t.heldNotices
                logFull := t.logFull
                noticesDropped := t.noticesDropped
                causes := t.causes
                messages := t.messages
                lines := t.lines })

/-- BAG folds the account, applies the exit credit of its zone, and takes it out: BAGGED, in no zone, both marks 0, its watch entry
removed and its counts lowered (R22, R18, R14, R76, R113). A notice dropped for want of room sets NOTICE_MISSED by a second write
(R151); the result's flags are those of the first (log entry 39). That bits 1 to 7 of byte 2 of the completed cell's word 0 are 0 is
the model's choice (log entry 43). The counts are held as log entry 21 says. -/
def Obligations.BagFoldsCreditsAndLeaves : Prop :=
  ∀ (s : State) (k : ListNo) (n : Nat) (a : Account) (z : ZoneNo), Reaches s k 4 n a → a.zone = some z →
    let x := s.leaveZone n z a
    let e := { x.account with
      state := .bagged, zone := none, mark := 0, aux := 0, entryMinute := s.minute, sequence := a.sequence + 1 }
    let w := (s.reachUnwatched n a).removeEntry n
    ∃ t, exec .bag s = .next t
      ∧ Settles s t k n e (accountAnswer .ok e.sequence e.exposure e.flags x.credit) x.notices
      ∧ t.zones = (s.countZone z (-1) (if a.flags.expired then -1 else 0)).zones
      ∧ t.highest = (if e.bakeCount = a.bakeCount then s.highest
          else s.highest.set a.cls (max s.highest[a.cls] e.bakeCount))
      ∧ t.watch = w.watch ∧ t.dueQueue = w.dueQueue ∧ t.unwatched = w.unwatched
      ∧ t = { s with
              mem := t.mem
              lists := t.lists
              lastServed := t.lastServed
              cacheSets := t.cacheSets
              zones := t.zones
              highest := t.highest
              watch := t.watch
              dueQueue := t.dueQueue
              unwatched := t.unwatched
              written := t.written
              taken := t.taken
              heldNotices := t.heldNotices
              logFull := t.logFull
              noticesDropped := t.noticesDropped
              causes := t.causes
              messages := t.messages
              lines := t.lines }

/-- RETIRE folds an account in a zone without credit and takes it out; an account in no zone keeps E and its flags. The record is
RETIRED with tag, class, E, flags, bake count, last credit, expiry minute and host reference kept, and the live count of its class
falls by one (R23, R18, R14, R1, R113). A notice dropped for want of room sets NOTICE_MISSED by a second write (R151); the result's
flags are those of the first (log entry 39). That bits 1 to 7 of byte 2 of the completed cell's word 0 are 0 is the model's choice
(log entry 43). The counts are held as log entry 21 says. -/
def Obligations.RetireLeavesWithoutCredit : Prop :=
  ∀ (s : State) (k : ListNo) (n : Nat) (a : Account), Reaches s k 5 n a →
    let fold := match a.zone with
      | some z => s.foldIn n z a
      | none => (a, [])
    let e := { fold.1 with
      state := .retired, zone := none, mark := 0, aux := 0, entryMinute := s.minute, sequence := a.sequence + 1 }
    let w := if a.zone = none then s else (s.reachUnwatched n a).removeEntry n
    ∃ t, exec .retire s = .next t ∧ Settles s t k n e (accountAnswer .ok e.sequence e.exposure e.flags 0) fold.2
      ∧ t.zones = (match a.zone with
          | some z => (s.countZone z (-1) (if a.flags.expired then -1 else 0)).zones
          | none => s.zones)
      ∧ (∀ j : ClassNo, t.live[j] = if j = a.cls then s.live[j] - 1 else s.live[j])
      ∧ t.watch = w.watch ∧ t.dueQueue = w.dueQueue ∧ t.unwatched = w.unwatched
      ∧ t = { s with
              mem := t.mem
              lists := t.lists
              lastServed := t.lastServed
              cacheSets := t.cacheSets
              zones := t.zones
              live := t.live
              watch := t.watch
              dueQueue := t.dueQueue
              unwatched := t.unwatched
              written := t.written
              taken := t.taken
              heldNotices := t.heldNotices
              logFull := t.logFull
              noticesDropped := t.noticesDropped
              causes := t.causes
              messages := t.messages
              lines := t.lines }

/-- The account an AMEND leaves (R25 steps 1 to 4): folded where it is in a zone; flags cleared by the mask, E, class and host
reference replaced unless kept, an UNOPENED account given exposure BAGGED; re-marked in its zone against the class now held; and
the tests made with that class. Where E has reached the budget and the margin is 0, R25 leaves WARNED open (log entry 14) and
nothing is said of it. That the expiry minute becomes 0 only where EXPIRED goes from set to clear is the model's reading (log entry
48). -/
def Obligations.AmendChangesRemarksAndTests : Prop :=
  ∀ (s : State) (c : TakenCell) (n : Nat) (a : Account),
    let fold := match a.zone with
      | some z => s.foldIn n z a
      | none => (a, [])
    let e := (s.amended c n a).1
    let cls : ClassNo := match c.newClass with
      | some j => Fin.ofNat 8 j
      | none => a.cls
    let exposure := c.newExposure.getD fold.1.exposure
    let f := s.inForce cls
    let hit := f.reached exposure.toNat
    let warn := f.warnable exposure.toNat && !hit
    e.cls = cls ∧ e.exposure = exposure ∧ e.hostRef = c.hostRef ∧ e.tag = a.tag ∧ e.zone = a.zone
      ∧ e.bakeCount = a.bakeCount ∧ e.lastCredit = a.lastCredit ∧ e.entryMinute = a.entryMinute ∧ e.sequence = a.sequence
      ∧ e.state = (if a.state = .unopened ∧ c.newExposure.getD 0 ≠ 0 then .bagged else a.state)
      ∧ e.mark = (match a.zone with
          | some z => s.zones[z].exposure[cls]
          | none => a.mark)
      ∧ e.aux = (match a.zone with
          | some z => if a.state = .baking ∧ cls ≠ a.cls then s.zones[z].bake[cls] else a.aux
          | none => a.aux)
      ∧ e.flags.saturated = (fold.1.flags.saturated && !c.clearMask.testBit 2)
      ∧ e.flags.degraded = (fold.1.flags.degraded && !c.clearMask.testBit 3)
      ∧ e.flags.noticeMissed = (fold.1.flags.noticeMissed && !c.clearMask.testBit 4)
      ∧ e.flags.expired = hit
      ∧ e.expiryMinute = (if hit then (if fold.1.flags.expired then fold.1.expiryMinute else s.minute)
          else if fold.1.flags.expired then 0 else fold.1.expiryMinute)
      ∧ (hit = true → f.margin ≠ 0 → e.flags.warned = fold.1.flags.warned)
      ∧ (hit = false → e.flags.warned = warn)
      ∧ (s.amended c n a).2 = fold.2
          ++ (if hit && !fold.1.flags.expired then [⟨.expired, n, s.minute, zoneDetail a.zone, exposure⟩] else [])
          ++ (if warn && !fold.1.flags.warned then [⟨.expiryWarning, n, s.minute, zoneDetail a.zone, exposure⟩] else [])

/-- AMEND writes the account as amended, re-watches an account in a zone, and changes the expired-present count of its zone and the
live and highest bake counts where EXPIRED and the class change (R25 step 5, R14, R76, R113). A notice dropped for want of room sets
NOTICE_MISSED by a second write (R151); the result's flags are those of the first (log entry 39). That an unwatched account that
stays unwatched brings an unwatched count of 0 to 1 is the model's reading (log entry 52). That bits 1 to 7 of byte 2 of the
completed cell's word 0 are 0 is the model's choice (log entry 43). The counts are held as log entry 21 says. -/
def Obligations.AmendWritesAndRewatches : Prop :=
  ∀ (s : State) (k : ListNo) (n : Nat) (a : Account), Reaches s k 6 n a →
    let e := { (s.amended (s.offered k) n a).1 with sequence := a.sequence + 1 }
    let w := if a.zone = none then s else ((s.reachUnwatched n a).removeEntry n).watchAccount n e
    ∃ t, exec .amend s = .next t
      ∧ Settles s t k n e (accountAnswer .ok e.sequence e.exposure e.flags 0) (s.amended (s.offered k) n a).2
      ∧ t.zones = (match a.zone with
          | some z => (s.countZone z 0 ((if e.flags.expired then 1 else 0) - (if a.flags.expired then 1 else 0))).zones
          | none => s.zones)
      ∧ (∀ j : ClassNo, t.live[j] =
          if e.cls = a.cls then s.live[j]
          else if j = e.cls then s.live[j] + 1
          else if j = a.cls then s.live[j] - 1
          else s.live[j])
      ∧ (∀ j : ClassNo, t.highest[j] = if e.cls ≠ a.cls ∧ j = e.cls then max s.highest[j] a.bakeCount else s.highest[j])
      ∧ t.watch = w.watch ∧ t.dueQueue = w.dueQueue ∧ t.unwatched = w.unwatched
      ∧ t = { s with
              mem := t.mem
              lists := t.lists
              lastServed := t.lastServed
              cacheSets := t.cacheSets
              zones := t.zones
              live := t.live
              highest := t.highest
              watch := t.watch
              dueQueue := t.dueQueue
              unwatched := t.unwatched
              written := t.written
              taken := t.taken
              heldNotices := t.heldNotices
              logFull := t.logFull
              noticesDropped := t.noticesDropped
              causes := t.causes
              messages := t.messages
              lines := t.lines }

/-- QUERY reports the state, the stored flags and bake count, the watched bit, the rate of the next boundary, the current and the
remaining exposure, the projection and the sequence, and changes nothing of the account (R26, R45, R50, R51). While the clock is
UNSET the rate rests on a free value (log entry 13) and is the model's. With the clock held at m the rate is that of R35 after the
staleness check for m + 1. That bits 1 to 7 of byte 2 of the completed cell's word 0 are 0 is the model's choice (log entry 43). -/
def Obligations.QueryReportsWithoutChange : Prop :=
  ∀ (s : State) (k : ListNo) (n : Nat) (a : Account), Reaches s k 7 n a →
    let f := s.inForce a.cls
    let now : Word := match a.zone with
      | some z => sat32 (a.exposure.toNat + (s.zones[z].exposure[a.cls].toNat - a.mark.toNat))
      | none => a.exposure
    let stale (zone : Zone) : Bool := match s.clock with
      | .held m _ => decide (m.toNat + 1 < zone.lastSample.toNat ∨ zone.staleLimit.toNat ≤ m.toNat + 1 - zone.lastSample.toNat)
      | .unset => Config.unsetStale zone.lastSample zone.staleLimit
    let rate : Nat := match a.zone with
      | none => 0
      | some z =>
        let zone := s.zones[z]
        if zone.type = .typeNone then 0
        else if zone.climate = .current ∧ stale zone = false then
          if zone.type = .typeBake ∨ (zone.type = .typeDry ∧ zone.humBand ≤ zone.dryLimitBand) then 0
          else
            match s.classes[a.cls] with
            | .valid f _ => f.rates[8 * zone.tempBand.val + zone.humBand.val]
            | _ => 4095
        else
          match s.classes[a.cls] with
          | .valid _ worst => worst
          | _ => 4095
    let answer : Answer :=
      { result := .ok
        w11 := word (a.state.code + 8 * a.flags.code + 256 * a.bakeCount + 32768 * bit (s.watched n) + 65536 * rate)
        w12 := now
        w13 := (match f.budget with
          | none => noWord
          | some b => word (b - now.toNat))
        w14 := s.projection f a now.toNat rate
        w15 := a.sequence }
    ∃ t, exec .query s = .next t ∧ Answers s t k answer [] ∧ CacheAfter s t n none
      ∧ t = { s with
              mem := t.mem
              lists := t.lists
              lastServed := t.lastServed
              cacheSets := t.cacheSets
              causes := t.causes
              messages := t.messages
              lines := t.lines }

/-! ## Exposure arithmetic and credits -/

/-- The fold (R41 to R43, R46): E takes the advance of the tally since the mark, saturating with SATURATED; DEGRADED where the
mark lies above the tally or below the degraded mark; EXPIRED where E has reached a limited budget; else WARNED where it has
reached the warning level of a budget with a margin; one notice at most; the mark takes the tally. -/
def Obligations.FoldTakesTheAdvanceAndTests : Prop :=
  ∀ (f : InForce) (minute : Word) (n : Nat) (z : ZoneNo) (tally degraded : DWord) (a : Account),
    let r := foldAccount f minute n z tally degraded a
    let sum := a.exposure.toNat + (tally.toNat - a.mark.toNat)
    let hit := match f.budget with
      | some b => decide (b ≤ min sum (2 ^ 32 - 1))
      | none => false
    let near := match f.budget with
      | some b => decide (f.margin ≠ 0) && decide (b - f.margin ≤ min sum (2 ^ 32 - 1))
      | none => false
    let expires := hit && !a.flags.expired
    let warns := near && !a.flags.warned && !a.flags.expired && !hit
    r.1.exposure.toNat = min sum (2 ^ 32 - 1) ∧ r.1.mark = tally
      ∧ r.1.flags = { a.flags with
          saturated := a.flags.saturated || decide (2 ^ 32 ≤ sum)
          degraded := a.flags.degraded || decide (tally.toNat < a.mark.toNat) || decide (a.mark.toNat < degraded.toNat)
          expired := a.flags.expired || expires
          warned := a.flags.warned || warns }
      ∧ r.1.expiryMinute = (if expires then minute else a.expiryMinute)
      ∧ r.2 = (if expires then [⟨.expired, n, minute, word z.val, r.1.exposure⟩]
          else if warns then [⟨.expiryWarning, n, minute, word z.val, r.1.exposure⟩] else [])
      ∧ r.1 = { a with
          exposure := r.1.exposure, mark := tally, flags := r.1.flags, expiryMinute := r.1.expiryMinute }

/-- Watch thresholds (R47): the base is the mark, or the tally if it is lower; below the budget the expiry threshold is the base
plus the remainder, saturating; at or above it, the base; the warning threshold is the expiry threshold less the margin, or 0.
With the mark at or below the tally each is the lowest tally value at which the current exposure reaches its level. The entry goes
in at stage EXPIRE if the margin is 0, WARNED is set or the warning threshold is at or below the tally, else at stage WARN
(R48). -/
def Obligations.ThresholdIsWhereTheBudgetIsReached : Prop :=
  ∀ (budget margin : Nat) (a : Account) (tally : DWord),
    let base := min a.mark.toNat tally.toNat
    let e := expiryThreshold budget a tally
    let w := warningThreshold margin e
    (a.exposure.toNat < budget → e.toNat = min (base + (budget - a.exposure.toNat)) (2 ^ 64 - 1))
      ∧ (budget ≤ a.exposure.toNat → e.toNat = base)
      ∧ w.toNat = e.toNat - margin
      ∧ (a.mark.toNat ≤ tally.toNat → a.mark.toNat + budget < 2 ^ 64 → a.exposure.toNat < budget →
          (∀ v : DWord, e.toNat ≤ v.toNat ↔ budget ≤ a.exposure.toNat + (v.toNat - a.mark.toNat))
            ∧ (a.exposure.toNat < budget - margin →
                ∀ v : DWord, w.toNat ≤ v.toNat ↔ budget - margin ≤ a.exposure.toNat + (v.toNat - a.mark.toNat)))
      ∧ (watchPoint budget margin a tally =
          if margin = 0 ∨ a.flags.warned = true ∨ w.toNat ≤ tally.toNat then (e, .expire) else (w, .warn))

/-- The projected expiry (R51): 0 once the budget is reached; none for an unlimited class, a rate of 0 or no zone; otherwise the
current minute plus the remaining exposure divided by the rate, rounded up, or none above 0xFFFFFFFE. It is the first minute
whose boundary brings the exposure to the budget. While the clock is UNSET it is 0 at the budget and none below it (R26). -/
def Obligations.ProjectionIsTheFirstMinuteThatReachesTheBudget : Prop :=
  ∀ (s : State) (f : InForce) (a : Account) (now rate : Nat),
    (f.budget = none → s.projection f a now rate = noWord)
      ∧ ∀ b, f.budget = some b →
          (b ≤ now → s.projection f a now rate = 0)
            ∧ (now < b → s.clock = .unset → s.projection f a now rate = noWord)
            ∧ (now < b → (rate = 0 ∨ a.zone = none) → s.projection f a now rate = noWord)
            ∧ (∀ (m : Word) (stall : Fin 16), s.clock = .held m stall → now < b → rate ≠ 0 → a.zone ≠ none →
                ∃ d, 0 < d ∧ b ≤ now + d * rate ∧ (∀ d', d' < d → now + d' * rate < b)
                  ∧ s.projection f a now rate = (if m.toNat + d ≤ 0xFFFFFFFE then word (m.toNat + d) else noWord))

/-- Dry recovery (R92, R93): an account leaving a DRY zone with its class VALID is recovered when f is above 0, EXPIRED is clear,
E is above 0 and at or below the ceiling, and the dry minutes reach f × E / 4,096 rounded up; then E is the credit and becomes
0, WARNED is cleared and RECOVERED raised. Otherwise nothing of it changes. -/
def Obligations.DryRecoveryIsAllOrNothing : Prop :=
  ∀ (s : State) (n : Nat) (z : ZoneNo) (a : Account) (f : Figures) (worst : Nat),
    s.classes[a.cls] = .valid f worst → s.zones[z].type = .typeDry →
    let minutes := s.zones[z].dry.toNat - a.aux.toNat
    let eligible := 0 < f.recovery ∧ a.flags.expired = false ∧ 0 < a.exposure.toNat
      ∧ a.exposure.toNat ≤ f.ceiling * 256 ∧ f.recovery * a.exposure.toNat ≤ minutes * 4096
    (eligible → s.exitCredit n z a =
        ⟨{ a with exposure := 0, lastCredit := a.exposure, flags := { a.flags with warned := false } }, a.exposure,
          [⟨.recovered, n, s.minute, a.exposure, word minutes⟩]⟩)
      ∧ (¬ eligible → s.exitCredit n z a = ⟨a, 0, []⟩)

/-- Bake credit (R95 to R97): none at the bake limit or below the minimum bake; all of E at the full bake; else E × minutes / full
bake rounded down. A bake raises the count, sets the last credit, raises BAKE_CREDIT, and clears EXPIRED below the budget and
WARNED below the warning level. That the expiry minute becomes 0 only where EXPIRED goes from set to clear is the model's reading
(log entry 48), as it is that a count of 15 under a lower limit rises to 16 (log entry 49) and that a count above the limit is not at
it (log entry 22). -/
def Obligations.BakeCreditByTheFirstCaseThatApplies : Prop :=
  ∀ (s : State) (n : Nat) (z : ZoneNo) (a : Account) (f : Figures) (worst : Nat),
    s.classes[a.cls] = .valid f worst → s.zones[z].type = .typeBake →
    let minutes := s.zones[z].bake[a.cls].toNat - a.aux.toNat
    let none_ := a.bakeCount = f.bakeLimit ∨ (minutes < f.fullBake ∧ minutes < f.minBake)
    let credit := if f.fullBake ≤ minutes then a.exposure.toNat else a.exposure.toNat * minutes / f.fullBake
    let left := a.exposure.toNat - credit
    let below := f.budget = 0 ∨ left < f.budget * 256
    let belowWarning := f.budget = 0 ∨ (f.margin ≠ 0 ∧ left < f.budget * 256 - f.margin * 256)
    (none_ → s.exitCredit n z a = ⟨a, 0, []⟩)
      ∧ (¬ none_ → credit ≤ a.exposure.toNat ∧ s.exitCredit n z a =
          ⟨{ a with
              bakeCount := a.bakeCount + 1
              exposure := word left
              lastCredit := word credit
              expiryMinute := if below ∧ a.flags.expired = true then 0 else a.expiryMinute
              flags := { a.flags with
                expired := a.flags.expired && !decide below
                warned := a.flags.warned && !decide belowWarning } },
            word credit, [⟨.bakeCredit, n, s.minute, word credit, word minutes⟩]⟩)

/-- The figures of a class that is not VALID (R74, R29, R35, R127): the smallest limited budget among the VALID classes, or 1
minute, with margin 0; rate, worst rate and gap rate 4,095; no exit credit. A VALID class has its own figures: its budget × 256,
unlimited where it is 0, and its margin × 256. The tests are made against the budget of a limited class, and against the budget
less the margin where the margin is above 0 (R29, R42, R43). -/
def Obligations.FiguresInForceAreTheClassesOrTheFallbacks : Prop :=
  (∀ (s : State) (c : ClassNo), (∀ f worst, s.classes[c] ≠ .valid f worst) →
      (∃ b, (s.inForce c).budget = some (b * 256) ∧ (s.inForce c).margin = 0
          ∧ ((∃ (j : ClassNo) (f : Figures) (worst : Nat), s.classes[j] = .valid f worst ∧ f.budget = b ∧ b ≠ 0
                ∧ ∀ (i : ClassNo) (g : Figures) (w : Nat), s.classes[i] = .valid g w → g.budget ≠ 0 → b ≤ g.budget)
            ∨ (b = 1 ∧ ∀ (i : ClassNo) (g : Figures) (w : Nat), s.classes[i] = .valid g w → g.budget = 0)))
        ∧ (∀ t h, tableRate s.classes[c] t h = 4095) ∧ worstOf s.classes[c] = 4095 ∧ gapRateOf s.classes[c] = 4095
        ∧ ∀ (n : Nat) (z : ZoneNo) (a : Account), a.cls = c → s.exitCredit n z a = ⟨a, 0, []⟩)
    ∧ (∀ (s : State) (c : ClassNo) (f : Figures) (worst : Nat), s.classes[c] = .valid f worst →
        (s.inForce c).budget = (if f.budget = 0 then none else some (f.budget * 256)) ∧ (s.inForce c).margin = f.margin * 256)
    ∧ ∀ (f : InForce) (e : Nat),
        (f.reached e = true ↔ ∃ b, f.budget = some b ∧ b ≤ e)
          ∧ (f.warnable e = true ↔ ∃ b, f.budget = some b ∧ f.margin ≠ 0 ∧ b - f.margin ≤ e)

/-- A zone at a minute boundary to a minute: the staleness check first (R64); then each exposure tally rises by the applied rate of
R35, with the degraded mark at its new value where the zone is STALE or NO_CLIMATE (R36, R39); a CURRENT DRY zone at or below its
dry limit band adds 1 to its dry tally, once (R37); a CURRENT BAKE zone adds 1 to the bake tally of each VALID class whose setpoint
is at or below its last temperature (R38). A zone of type NONE is passed over (R34). -/
def Obligations.ZoneBoundaryAdvancesItsTallies : Prop :=
  ∀ (z : Zone) (classes : Vector ClassState 8) (minute : Nat),
    let t := z.boundary classes minute
    let stale := z.climate = .current ∧ (minute < z.lastSample.toNat ∨ z.staleLimit.toNat ≤ minute - z.lastSample.toNat)
    let current := z.climate = .current ∧ ¬ stale
    (z.type = .typeNone → t = z)
      ∧ (z.type ≠ .typeNone →
          (t.climate = if stale then .stale else z.climate)
            ∧ (∀ c : ClassNo,
                let within := z.type = .typeDry ∧ z.humBand ≤ z.dryLimitBand
                let rate :=
                  if current then
                    if z.type = .typeBake ∨ within then 0
                    else
                      match classes[c] with
                      | .valid f _ => f.rates[8 * z.tempBand.val + z.humBand.val]
                      | _ => 4095
                  else
                    match classes[c] with
                    | .valid _ worst => worst
                    | _ => 4095
                t.exposure[c].toNat = min (z.exposure[c].toNat + rate) (2 ^ 64 - 1)
                  ∧ t.degraded[c] = (if current then z.degraded[c] else t.exposure[c])
                  ∧ t.bake[c].toNat =
                      (match classes[c] with
                       | .valid f _ =>
                         if current ∧ z.type = .typeBake ∧ (f.setpoint : Int) ≤ z.lastTemp.toInt then
                           min (z.bake[c].toNat + 1) (2 ^ 32 - 1)
                         else z.bake[c].toNat
                       | _ => z.bake[c].toNat))
            ∧ t.dry.toNat =
                (if current ∧ z.type = .typeDry ∧ z.humBand ≤ z.dryLimitBand then min (z.dry.toNat + 1) (2 ^ 32 - 1)
                 else z.dry.toNat)
            ∧ t = { z with
                    climate := t.climate, exposure := t.exposure, degraded := t.degraded, bake := t.bake, dry := t.dry })

/-! ## Climate, zones, classes and the other cells -/

/-- A sample (R59 to R62): DENIED where the map denies its zone, a number above 63 included; else BAD_ZONE for a zone of type NONE;
else NO_READING for either no-reading code; else accepted with its values clamped to −400 to 1,500 and to at most 1,000, the bands
those of the clamped values, the sample minute the plant minute, and the zone CURRENT; ZONE_RESTORED if it was STALE. -/
def Obligations.SampleIsCheckedClampedAndBanded : Prop :=
  ∀ (zones : Vector Zone 64) (m : AuthMap) (minute : Word) (x : Sample),
    let r := examineSample m minute ⟨zones, [], []⟩ x
    let permits := x.zone < 64 ∧ x.zone < m.zoneLen ∧ m.bitmap.getLsbD x.zone = true
    let i : ZoneNo := Fin.ofNat 64 x.zone
    let z := zones[i]
    let noReading := x.temp.toInt = -32768 ∨ x.hum.toNat = 65535
    let temp : Int := max (-400) (min 1500 x.temp.toInt)
    let hum := min 1000 x.hum.toNat
    let clamped := decide (temp ≠ x.temp.toInt ∨ hum ≠ x.hum.toNat)
    (¬ permits → r = ⟨zones, [.denied], []⟩)
      ∧ (permits → z.type = .typeNone → r = ⟨zones, [.badZone], []⟩)
      ∧ (permits → z.type ≠ .typeNone → noReading → r = ⟨zones, [.noReading], []⟩)
      ∧ (permits → z.type ≠ .typeNone → ¬ noReading →
          ∃ t : Zone, r.zones = zones.set i t
            ∧ r.results = [if clamped = true then .clamped else .accepted]
            ∧ r.notices = (if z.climate = .stale then
                [⟨.zoneRestored, i.val, minute, z.lastSample, if clamped = true then 1 else 0⟩] else [])
            ∧ t.lastTemp.toInt = temp ∧ t.lastHum.toNat = hum
            ∧ (∀ b : Fin 6, t.tempBand = b ↔
                ([-400, 200, 250, 300, 350, 400][b] : Int) ≤ temp ∧ temp ≤ [199, 249, 299, 349, 399, 1500][b])
            ∧ (∀ b : Fin 8, t.humBand = b ↔
                [0, 100, 200, 300, 400, 500, 600, 700][b] ≤ hum ∧ hum ≤ [99, 199, 299, 399, 499, 599, 699, 1000][b])
            ∧ t.clamped = clamped ∧ t.lastSample = minute ∧ t.climate = .current
            ∧ t = { z with
                    lastTemp := t.lastTemp, lastHum := t.lastHum, tempBand := t.tempBand, humBand := t.humBand
                    clamped := t.clamped, lastSample := t.lastSample, climate := t.climate })

/-- CLIMATE with a sample count of 1 to 4 examines its samples in order, each against the zones as the ones before left them, and
answers OK if any was accepted, else NO_EFFECT, with a result code for each; any other count is refused BAD_VALUE (R58, R59, R63,
R65). That the result words 12 to 15 are 0 is the model's choice (log entry 42). That bits 1 to 7 of byte 2 of the completed cell's
word 0 are 0 is the model's choice (log entry 43). -/
def Obligations.ClimateExaminesItsSamples : Prop :=
  ∀ (s : State) (k : ListNo), Admits s k 8 →
    let c := s.offered k
    let r := (c.samples.take c.sampleCount).foldl (examineSample s.maps[k] s.minute) ⟨s.zones, [], []⟩
    let code (i : Nat) : Nat := ((r.results.map SampleResult.code)[i]?).getD 0
    let answer : Answer :=
      ⟨if r.results.any (fun x => decide (x = .accepted ∨ x = .clamped)) then .ok else .noEffect,
        wordOfBytes (code 0) (code 1) (code 2) (code 3), 0, 0, 0, 0⟩
    (c.sampleCount = 0 ∨ 4 < c.sampleCount →
        ∃ t, exec .climate s = .next t ∧ Answers s t k (refusedWith .badValue) []
          ∧ t = { s with
                  mem := t.mem
                  lists := t.lists
                  lastServed := t.lastServed
                  causes := t.causes
                  messages := t.messages
                  lines := t.lines })
      ∧ (1 ≤ c.sampleCount → c.sampleCount ≤ 4 →
          ∃ t, exec .climate s = .next t ∧ Answers s t k answer r.notices
            ∧ r.results.length = c.sampleCount
            ∧ t = { s with
                    mem := t.mem
                    lists := t.lists
                    lastServed := t.lastServed
                    zones := r.zones
                    written := t.written
                    taken := t.taken
                    heldNotices := t.heldNotices
                    logFull := t.logFull
                    noticesDropped := t.noticesDropped
                    causes := t.causes
                    messages := t.messages
                    lines := t.lines })

/-- ZONESET: refused DENIED, BAD_VALUE or ZONE_OCCUPIED, in that order (R54); otherwise it writes the zone's definition, a changed
type clearing climate state and clamped field and NONE clearing hold line and hold-on-stale, and answers with the zone as it now
stands; tallies, readings and counts stay (R55, R31). That the result words 14 and 15 are 0 is the model's choice (log entry 42).
That bits 1 to 7 of byte 2 of the completed cell's word 0 are 0 is the model's choice (log entry 43). -/
def Obligations.ZonesetRefusesOrRedefines : Prop :=
  ∀ (s : State) (k : ListNo), Admits s k 9 →
    let q := (s.offered k).zoneRequest
    let m := s.maps[k]
    let i : ZoneNo := Fin.ofNat 64 q.zone
    let z := s.zones[i]
    let refusal : Option Result :=
      if ¬ (q.zone < 64 ∧ q.zone < m.zoneLen ∧ m.bitmap.getLsbD q.zone = true) then some .denied
      else if 3 < q.type ∨ 8 < q.holdLine ∨ q.staleLimit.toNat < 1 ∨ 1440 < q.staleLimit.toNat ∨ 7 < q.dryLimit
          ∨ 1 < q.holdOnStale ∨ 1 < q.clearFault then some .badValue
      else if q.type ≠ z.type.code ∧ 0 < z.occupancy then some .zoneOccupied
      else none
    (∀ r, refusal = some r →
        ∃ t, exec .zoneset s = .next t ∧ Answers s t k (refusedWith r) []
          ∧ t = { s with
                  mem := t.mem
                  lists := t.lists
                  lastServed := t.lastServed
                  causes := t.causes
                  messages := t.messages
                  lines := t.lines })
      ∧ (refusal = none →
          ∃ (t : State) (d : Zone), exec .zoneset s = .next t
            ∧ d.type.code = q.type
            ∧ d.holdLine.val = (if q.type = 0 then 0 else q.holdLine)
            ∧ d.staleLimit = q.staleLimit
            ∧ d.holdOnStale = decide (q.type ≠ 0 ∧ q.holdOnStale = 1)
            ∧ d.dryLimitBand.val = q.dryLimit
            ∧ d.climate = (if d.type = z.type then z.climate else .noClimate)
            ∧ d.clamped = (if d.type = z.type then z.clamped else false)
            ∧ d.faultHold = (if q.clearFault = 1 then false else z.faultHold)
            ∧ d = { z with
                    type := d.type, holdLine := d.holdLine, staleLimit := d.staleLimit, holdOnStale := d.holdOnStale
                    dryLimitBand := d.dryLimitBand, climate := d.climate, clamped := d.clamped, faultHold := d.faultHold }
            ∧ Answers s t k
                ⟨.ok, wordOfBytes d.type.code d.holdLine.val d.climate.code (bit d.faultHold), word d.occupancy,
                  word d.expiredPresent, 0, 0⟩ []
            ∧ t = { s with
                    mem := t.mem
                    lists := t.lists
                    lastServed := t.lastServed
                    zones := s.zones.set i d
                    causes := t.causes
                    messages := t.messages
                    lines := t.lines })

/-- CLASSWRITE (R77, R78): refused BAD_CLASS, BAD_IMAGE, CLASS_BUSY, CLASS_IN_USE or BAD_IMAGE by the first check that fails;
otherwise the class is PROGRAMMING with its in-progress marker written, the image held on chip, and the cell left TAKEN with nothing
answered. That bits 1 to 7 of byte 2 of the cell's word 0, TAKEN or DONE, are 0 is the model's choice (log entry 43), and that
nothing else of the nonvolatile memory changes yet is its reading (log entry 20). -/
def Obligations.ClasswriteRefusesOrBeginsProgramming : Prop :=
  ∀ (s : State) (k : ListNo), Admits s k 10 →
    let c := s.offered k
    let cls : ClassNo := Fin.ofNat 8 c.classAsked
    let image := (s.afterTake k).peekWords c.imageOffset 30
    let f := figuresOf image
    let refusal : Option Result :=
      if 7 < c.classAsked then some .badClass
      else if c.imageOffset % 4 ≠ 0 ∨ s.layout.regionSize < c.imageOffset + 120 then some .badImage
      else if f.inRange = false then some .badImage
      else if ∃ j : ClassNo, s.classes[j] = .programming then some .classBusy
      else if (∃ j : ClassNo, j = cls ∧ (s.classes[j].figures?).isSome = true) ∧ 0 < s.live[cls] then some .classInUse
      else if 0 < s.live[cls] ∧ f.bakeLimit < s.highest[cls] then some .badImage
      else none
    (f.inRange = true ↔ f.InRange)
      ∧ (∀ r, refusal = some r →
          ∃ t, exec .classwrite s = .next t ∧ Answers s t k (refusedWith r) []
            ∧ t = { s with
                    mem := t.mem
                    lists := t.lists
                    lastServed := t.lastServed
                    causes := t.causes
                    messages := t.messages
                    lines := t.lines })
      ∧ (refusal = none →
          ∃ t, exec .classwrite s = .next t ∧ TakenFrom s t k ∧ t.lists[k].eligible = false
            ∧ t.peek (s.nextCell k) = wordOfBytes 2 10 (byteOf c.words[0] 2 % 2) 0
            ∧ KeepsBytes s t [(s.nextCell k, 4), s.indexArea k]
            ∧ t = { s with
                    mem := t.mem
                    lists := t.lists
                    lastServed := t.lastServed
                    classes := s.classes.set cls .programming
                    nv := s.nv.set cls { s.nv[cls] with inProgress := true }
                    prog := some ⟨cls, image, c, none⟩
                    lines := t.lines })

/-- CLASS_PROGRAMMING_END (R79), in any engine state (R85): the nonvolatile record takes the image's words with their complements
but for the bits the verify finds wrong (the command's operand, log entry 8), the written marker is written, and the in-progress
marker is erased exactly if every comparison and every range check holds. Where nothing is being programmed nothing happens: the
event cannot occur there, which is the model's choice (log entry 5). That the words are erased and written here, in the layout of
the class image, is the model's reading (log entries 19 and 20). -/
def Obligations.ProgrammingEndWritesAndVerifies : Prop :=
  ∀ (s : State) (defects : List NvDefect),
    ((∀ p, s.prog = some p → p.ended ≠ none) → exec (.classProgrammingEnd defects) s = .next s.drive)
      ∧ ∀ p, s.prog = some p → p.ended = none →
          ∃ (t : State) (r : NvClass), exec (.classProgrammingEnd defects) s = .next t
            ∧ (defects = [] → r.words = p.image)
            ∧ (∀ i : Fin 30, r.words[i] = p.image[i] ^^^ defectBits defects false i.val
                ∧ r.complements[i] = ~~~ p.image[i] ^^^ defectBits defects true i.val)
            ∧ r.writtenMarker = true
            ∧ (r.inProgress = false ↔
                (∀ i : Fin 30, r.words[i] = p.image[i] ∧ r.complements[i] = ~~~ p.image[i]) ∧ (figuresOf p.image).InRange)
            ∧ t = { s with
                    nv := s.nv.set p.cls r
                    prog := some { p with ended := some (!r.inProgress) }
                    lines := t.lines }

/-- CLASS_COMPLETION (R81 to R85). In success the class is VALID with the image's figures and worst rate, its watch entries leave
the pool, CLASS_PROGRAMMED is raised and the cell answered OK. In failure it is INVALID with cause 3, its entries kept, CLASS_FAULT
raised and the cell answered PROGRAM_FAILED, its other words 0 (log entry 42). In FAULTED only the class and the entries change. The
unwatched count rises by the entries removed, within its range (log entry 21). Where no end waits, or the engine is not FREE, or the
part is IDLE or ATTACHING, nothing happens: the event cannot occur there, which is the model's choice (log entry 5). That word 15 of
the OK result is 0 is the model's choice too (log entry 42). That bits 1 to 7 of byte 2 of the completed cell's word 0 are 0 is the
model's choice (log entry 43). -/
def Obligations.CompletionAppliesTheOutcome : Prop :=
  ∀ s : State, ((∀ p, s.prog = some p → p.ended = none) → exec .classCompletion s = .next s.drive)
    ∧ ∀ (p : Programming) (success : Bool), s.prog = some p → p.ended = some success →
    let f := figuresOf p.image
    let mine := s.watch.filter fun e => decide (e.cls = p.cls)
    let off := s.layout.cell p.cell.list p.cell.index
    let shape (t : State) (worst : Nat) : Prop :=
      (∀ i : Fin 48, f.rates[i] ≤ worst) ∧ (∃ i : Fin 48, f.rates[i] = worst)
        ∧ t.classes = s.classes.set p.cls (if success then .valid f worst else .invalid .verifyFailed)
        ∧ t.watch = (if success then s.watch.filter fun e => decide (e.cls ≠ p.cls) else s.watch)
        ∧ t.dueQueue = (if success then s.dueQueue.filter fun q => !mine.any fun e => decide (e.position = q) else s.dueQueue)
        ∧ t.unwatched = (if success = true ∧ f.budget ≠ 0 then min 32768 (s.unwatched + mine.length) else s.unwatched)
    (InService s → s.engine = .free →
        ∃ t worst, exec .classCompletion s = .next t ∧ shape t worst
          ∧ NoticesGo s t (if success then [⟨.classProgrammed, p.cls.val, s.minute, word worst, word mine.length⟩]
              else [⟨.classFault, p.cls.val, s.minute, 3, word s.live[p.cls]⟩])
          ∧ DoneCell s t off p.cell
              (if success then ⟨.ok, word p.cls.val, word worst, word mine.length, word s.live[p.cls], 0⟩
               else ⟨.programFailed, word p.cls.val, 0, 0, word s.live[p.cls], 0⟩)
          ∧ (∀ j : ListNo, t.lists[j].next = s.lists[j].next
              ∧ t.lists[j].eligible = (s.lists[j].eligible
                  || (decide (j = p.cell.list) && decide (byteOf (t.peek (t.nextCell j)) 0 = cellPosted))))
          ∧ KeepsBytes s t (cellAreas off ++ s.noticeAreas)
          ∧ t = { s with
                  mem := t.mem
                  lists := t.lists
                  classes := t.classes
                  prog := none
                  watch := t.watch
                  dueQueue := t.dueQueue
                  unwatched := t.unwatched
                  written := t.written
                  taken := t.taken
                  heldNotices := t.heldNotices
                  logFull := t.logFull
                  noticesDropped := t.noticesDropped
                  causes := t.causes
                  messages := t.messages
                  lines := t.lines })
      ∧ (s.engineState = .faulted → s.engine = .free →
          ∃ t worst, exec .classCompletion s = .next t ∧ shape t worst
            ∧ t = { s with
                    classes := t.classes
                    prog := none
                    watch := t.watch
                    dueQueue := t.dueQueue
                    unwatched := t.unwatched
                    lines := t.lines })
      ∧ (s.engine ≠ .free ∨ s.engineState = .idle ∨ s.engineState = .attaching →
          exec .classCompletion s = .next s.drive)

/-- CLOCKSET while the clock is UNSET (R125 to R128): BAD_VALUE for 0xFFFFFFFF; with no published minute, or the value equal to it,
the clock RUNNING at the value with no accrual; below it CLOCK_BACKWARD (its plant minute words are the model's, log entry 18);
above it a gap accrual of the difference, the patrol then waiting for the next boundary (R119; that it drops the reads left over is
log entry 38). Where the clock is set the pages are published with the value. That the result words R125 leaves open are 0 is the
model's choice (log entry 42). That bits 1 to 7 of byte 2 of the completed cell's word 0 are 0 is the model's choice (log entry 43).
-/
def Obligations.ClocksetFromUnsetComparesThePublishedMinute : Prop :=
  ∀ (s : State) (k : ListNo), Admits s k 11 → s.clock = .unset → s.publicationDue = false →
    let v := (s.offered k).clockValue
    let l := s.published
    let g := v.toNat - l.toNat
    let refused (t : State) : Prop :=
      t = { s with
            mem := t.mem
            lists := t.lists
            lastServed := t.lastServed
            causes := t.causes
            messages := t.messages
            lines := t.lines }
    let areas := cellAreas (s.nextCell k) ++ [s.indexArea k] ++ s.pageAreas
    (v = noWord → ∃ t, exec .clockset s = .next t ∧ Answers s t k (refusedWith .badValue) [] ∧ refused t)
      ∧ (v ≠ noWord → l ≠ noWord → v.toNat < l.toNat →
          ∃ t, exec .clockset s = .next t ∧ Answers s t k ⟨.clockBackward, 0, noWord, l, 0, 0⟩ [] ∧ refused t)
      ∧ (v ≠ noWord → (l = noWord ∨ v = l) →
          ∃ t, exec .clockset s = .next t ∧ Served s t k ⟨.ok, 1, v, 0, 0, 0⟩ ∧ PageShown t ∧ KeepsBytes s t areas
            ∧ t = { s with
                    mem := t.mem
                    lists := t.lists
                    lastServed := t.lastServed
                    clock := .held v 0
                    published := v
                    causes := t.causes
                    messages := t.messages
                    lines := t.lines })
      ∧ (v ≠ noWord → l ≠ noWord → l.toNat < v.toNat →
          ∃ t, exec .clockset s = .next t ∧ Served s t k ⟨.ok, 1, v, word g, 0, 0⟩ ∧ PageShown t
            ∧ NoticesGo s t (s.gapNotices l v g 0) ∧ KeepsBytes s t (areas ++ s.noticeAreas)
            ∧ (∀ z : ZoneNo, t.zones[z] = s.zoneAfterGap g v z)
            ∧ (let w := { s with zones := t.zones }.examine s.zones
               t.watch = w.watch ∧ t.dueQueue = w.dueQueue)
            ∧ t = { s with
                    mem := t.mem
                    lists := t.lists
                    lastServed := t.lastServed
                    zones := t.zones
                    clock := .held v 0
                    published := v
                    watch := t.watch
                    dueQueue := t.dueQueue
                    remaining := 0
                    written := t.written
                    taken := t.taken
                    heldNotices := t.heldNotices
                    logFull := t.logFull
                    noticesDropped := t.noticesDropped
                    causes := t.causes
                    messages := t.messages
                    lines := t.lines })

/-- CLOCKSET while the clock is RUNNING or STALLED, by the step from the reckoned minute (R129 to R131, R128): 0 changes nothing; 1
to 15 lowers the stall count and makes the rest as boundaries with one publication; above 15 a gap accrual from the plant minute,
the stall cleared; −1 to −15 down to the plant minute less 15 raises the stall count; anything else is refused CLOCK_BACKWARD.
0xFFFFFFFF is refused BAD_VALUE and changes nothing (R125). Otherwise a publication still due from the last boundary is made first
(log entry 9). Within a forward run the patrol reads nothing, and its cursor and held account stand (log entry 26); after a gap
accrual it waits for the next boundary, the reads left over dropped and a held account kept (R119; log entry 38). That word 13 of
CLOCK_BACKWARD is 0xFFFFFFFF here is the model's reading (log entry 18), and that the result words R125 leaves open are 0 its choice
(log entry 42). That bits 1 to 7 of byte 2 of the completed cell's word 0 are 0 is the model's choice (log entry 43). -/
def Obligations.ClocksetCorrectsByTheStep : Prop :=
  ∀ (s : State) (k : ListNo) (m : Word) (stall : Fin 16), Admits s k 11 → s.clock = .held m stall →
    let v := (s.offered k).clockValue
    let d : Int := (v.toNat : Int) - ((m.toNat : Int) - stall.val)
    let published := if s.publicationDue then m else s.published
    let areas := cellAreas (s.nextCell k) ++ [s.indexArea k] ++ s.pageAreas
    let still (t : State) : Prop :=
      t = { s with
            mem := t.mem
            lists := t.lists
            lastServed := t.lastServed
            clock := t.clock
            published := published
            publicationDue := false
            causes := t.causes
            messages := t.messages
            lines := t.lines }
    let moved (t : State) : Prop :=
      t = { s with
            mem := t.mem
            lists := t.lists
            lastServed := t.lastServed
            zones := t.zones
            clock := .held v 0
            published := v
            publicationDue := false
            watch := t.watch
            dueQueue := t.dueQueue
            remaining := t.remaining
            written := t.written
            taken := t.taken
            heldNotices := t.heldNotices
            logFull := t.logFull
            noticesDropped := t.noticesDropped
            causes := t.causes
            messages := t.messages
            lines := t.lines }
    (v = noWord →
        ∃ t, exec .clockset s = .next t ∧ Answers s t k (refusedWith .badValue) []
          ∧ t = { s with
                  mem := t.mem
                  lists := t.lists
                  lastServed := t.lastServed
                  causes := t.causes
                  messages := t.messages
                  lines := t.lines })
      ∧ (v ≠ noWord → d = 0 →
        ∃ t, exec .clockset s = .next t ∧ still t ∧ t.clock = s.clock ∧ KeepsBytes s t areas
          ∧ Served s t k ⟨.ok, wordOfBytes (clockCode s.clock) stall.val 0 0, m, 0, 0, 0⟩)
      ∧ (∀ n : Fin 16, v ≠ noWord → n.val ≤ stall.val → 1 ≤ d → d = (stall.val : Int) - n.val →
          ∃ t, exec .clockset s = .next t ∧ still t ∧ t.clock = .held m n ∧ KeepsBytes s t areas
            ∧ t.peekWords (s.layout.controlPage + 12) 2
                = #v[wordOfBytes 2 (clockCode t.clock) n.val s.resetCauses.toNat, m]
            ∧ Served s t k ⟨.ok, wordOfBytes (clockCode t.clock) n.val 0 0, m, 0, 0, 0⟩)
      ∧ (v ≠ noWord → stall.val < d → d ≤ 15 →
          let left := (d - stall.val).toNat
          let u := { s with clock := .held m 0 }
          let w := State.passMinutes left u
          ∃ t, exec .clockset s = .next t ∧ moved t ∧ PageShown t ∧ KeepsBytes s t (areas ++ s.noticeAreas)
            ∧ t.zones = w.zones ∧ t.watch = w.watch ∧ t.dueQueue = w.dueQueue ∧ t.remaining = s.batch
            ∧ NoticesGo s t (State.runNotices left u)
            ∧ Served s t k ⟨.ok, 1, v, 0, word left, 0⟩)
      ∧ (v ≠ noWord → 15 < d →
          let g := v.toNat - m.toNat
          ∃ t, exec .clockset s = .next t ∧ moved t ∧ PageShown t ∧ KeepsBytes s t (areas ++ s.noticeAreas)
            ∧ (∀ z : ZoneNo, t.zones[z] = s.zoneAfterGap g v z) ∧ t.remaining = 0
            ∧ (let w := { s with zones := t.zones }.examine s.zones
               t.watch = w.watch ∧ t.dueQueue = w.dueQueue)
            ∧ NoticesGo s t (s.gapNotices m v g stall.val)
            ∧ Served s t k ⟨.ok, 1, v, word g, 0, 0⟩)
      ∧ (∀ n : Fin 16, v ≠ noWord → d < 0 → (n.val : Int) = stall.val - d →
          ∃ t, exec .clockset s = .next t ∧ still t ∧ t.clock = .held m n ∧ KeepsBytes s t areas
            ∧ t.peekWords (s.layout.controlPage + 12) 2 = #v[wordOfBytes 2 2 n.val s.resetCauses.toNat, m]
            ∧ Served s t k ⟨.ok, wordOfBytes 2 n.val 0 0, m, 0, 0, 0⟩)
      ∧ (v ≠ noWord → d < 0 → (d < -15 ∨ (v.toNat : Int) < (m.toNat : Int) - 15) →
          ∃ t, exec .clockset s = .next t ∧ still t ∧ t.clock = s.clock ∧ KeepsBytes s t areas
            ∧ Served s t k ⟨.clockBackward, wordOfBytes (clockCode s.clock) stall.val 0 0, m, noWord, 0, 0⟩)

/-- TUNE (R168, R140): BAD_VALUE where any field, or with reload-authority 1 any zone map length in the layout block, is out of
range; otherwise every field without the keep code applies, entering OFF invalidates every line, and the answer gives what is in
force. That the result words 14 and 15 are 0 is the model's choice (log entry 42). That bits 1 to 7 of byte 2 of the completed
cell's word 0 are 0 is the model's choice (log entry 43). -/
def Obligations.TuneSetsWhatItNames : Prop :=
  ∀ (s : State) (k : ListNo), Admits s k 12 →
    let c := s.offered k
    let maps : Vector AuthMap 8 :=
      if c.tuneReload = 1 then
        Vector.ofFn fun j : ListNo =>
          ⟨s.peek (40 + 16 * j.val), (s.peek (44 + 16 * j.val)).toNat,
            dword (s.peek (48 + 16 * j.val)) (s.peek (52 + 16 * j.val))⟩
      else s.maps
    let passes := (c.tuneMode ≤ 2 ∨ c.tuneMode = 255) ∧ (c.tuneBatch.toNat ≤ 256 ∨ c.tuneBatch = noWord)
      ∧ (1 ≤ c.tunePeriod ∧ c.tunePeriod ≤ 60 ∨ c.tunePeriod = 255) ∧ c.tuneReload ≤ 1
      ∧ (c.tuneReload = 1 → ∀ j : ListNo, maps[j].zoneLen ≤ 64)
    (¬ passes →
        ∃ t, exec .tune s = .next t ∧ Answers s t k (refusedWith .badValue) []
          ∧ t = { s with
                  mem := t.mem
                  lists := t.lists
                  lastServed := t.lastServed
                  causes := t.causes
                  messages := t.messages
                  lines := t.lines })
      ∧ (passes →
          ∃ t, exec .tune s = .next t
            ∧ (if c.tuneMode = 255 then t.cacheMode = s.cacheMode else t.cacheMode.code = c.tuneMode)
            ∧ t.cacheSets = (if c.tuneMode = 2 then Vector.replicate 64 CacheSet.invalid else s.cacheSets)
            ∧ t.batch = (if c.tuneBatch = noWord then s.batch else c.tuneBatch.toNat)
            ∧ t.scanPeriod = (if c.tunePeriod = 255 then s.scanPeriod else c.tunePeriod)
            ∧ Answers s t k ⟨.ok, word t.cacheMode.code, word t.batch, word t.scanPeriod, 0, 0⟩ []
            ∧ t = { s with
                    mem := t.mem
                    lists := t.lists
                    lastServed := t.lastServed
                    cacheMode := t.cacheMode
                    cacheSets := t.cacheSets
                    batch := t.batch
                    scanPeriod := t.scanPeriod
                    maps := maps
                    causes := t.causes
                    messages := t.messages
                    lines := t.lines })

/-! ## Time -/

/-- MINUTE_TIMER_EXPIRY (R122 to R124): ignored while UNSET and at 0xFFFFFFFE; while STALLED the stall count falls by one and the
clock words show it (R121); otherwise one boundary: every zone advanced, the plant minute raised, ZONE_STALE handed over, the lists
examined, the patrol's remaining count set, and a publication left due. A publication due from the boundary before is made first
(log entry 9). -/
def Obligations.MinuteExpiryMakesOneBoundary : Prop :=
  ∀ s : State, InService s →
    let published (m : Word) := if s.publicationDue then m else s.published
    let pages := if s.publicationDue then s.pageAreas else []
    (s.clock = .unset → s.publicationDue = false → exec .minuteTimerExpiry s = .next s.drive)
      ∧ (∀ (m : Word) (stall n : Fin 16), s.clock = .held m stall → stall.val = n.val + 1 →
          ∃ t, exec .minuteTimerExpiry s = .next t ∧ t.clock = .held m n ∧ KeepsBytes s t s.pageAreas
            ∧ t.peekWords (s.layout.controlPage + 12) 2
                = #v[wordOfBytes 2 (if n.val = 0 then 1 else 2) n.val s.resetCauses.toNat, m]
            ∧ t = { s with
                    mem := t.mem, clock := t.clock, published := published m, publicationDue := false, lines := t.lines })
      ∧ (∀ m : Word, s.clock = .held m 0 → m.toNat = 0xFFFFFFFE →
          ∃ t, exec .minuteTimerExpiry s = .next t ∧ KeepsBytes s t pages
            ∧ t = { s with mem := t.mem, published := published m, publicationDue := false, lines := t.lines })
      ∧ (∀ m : Word, s.clock = .held m 0 → m.toNat < 0xFFFFFFFE →
          ∃ t, exec .minuteTimerExpiry s = .next t
            ∧ (∀ z : ZoneNo, t.zones[z] = s.zones[z].boundary s.classes (m.toNat + 1))
            ∧ (let w := { s with zones := t.zones }.examine s.zones
               t.watch = w.watch ∧ t.dueQueue = w.dueQueue)
            ∧ NoticesGo s t
                (((List.finRange 64).filter fun z : ZoneNo =>
                    decide (s.zones[z].climate = .current) && decide (t.zones[z].climate = .stale)).map
                  fun z => ⟨.zoneStale, z.val, m + 1, s.zones[z].lastSample, word s.zones[z].staleLimit.toNat⟩)
            ∧ KeepsBytes s t (pages ++ s.noticeAreas)
            ∧ t = { s with
                    mem := t.mem
                    zones := t.zones
                    clock := .held (m + 1) 0
                    published := published m
                    publicationDue := true
                    watch := t.watch
                    dueQueue := t.dueQueue
                    remaining := if s.stopping then 0 else s.batch
                    written := t.written
                    taken := t.taken
                    heldNotices := t.heldNotices
                    logFull := t.logFull
                    noticesDropped := t.noticesDropped
                    causes := t.causes
                    messages := t.messages
                    lines := t.lines })

/-- ZONE_PAGE_PUBLICATION (R66, R67, R113, R121): the publication that a boundary left due writes the zone page with every zone and
the current plant minute, its check word, and the control page's words; nothing else changes. Where none is due nothing happens: the
event cannot occur there, which is the model's choice (log entry 5). -/
def Obligations.PublicationWritesThePages : Prop :=
  ∀ s : State, InService s →
    (s.publicationDue = false → exec .zonePagePublication s = .next s.drive)
      ∧ (s.publicationDue = true →
          ∃ t, exec .zonePagePublication s = .next t ∧ PageShown t ∧ KeepsBytes s t s.pageAreas
            ∧ t = { s with
                    mem := t.mem
                    published := if s.clockSet then s.minute else s.published
                    publicationDue := false
                    lines := t.lines })

/-! ## The watch pool -/

/-- The operations of the watch pool. An insertion first removes the account's entry, takes the lowest free position, places the
entry after every entry of its list at or below its threshold and before the others, and has it join the due queue's tail exactly
if the threshold is at or below the tally; with no position free it is not made (R102 to R106). An examination marks due each
entry not yet due whose list's tally changed and reached its threshold, and queues them in list order (R107, R108). An eligible
account is inserted at the thresholds of R47 and R48, and counted unwatched where no position was free; one that a work reaches
unwatched lowers the count (R113; it saturates at 32,768, log entry 21). The head of the due queue is presented while the part is
RUNNING with its clock set, and taken at its stage when the engine may work (R109, R10, R81). -/
def Obligations.WatchPoolInsertsRemovesAndExamines : Prop :=
  ∀ s : State, PoolSound s →
    let tally (e : WatchEntry) : Nat := s.zones[e.zone].exposure[e.cls].toNat
    let stands (x e : WatchEntry) : Prop :=
      8 * x.zone.val + x.cls.val < 8 * e.zone.val + e.cls.val
        ∨ (x.zone = e.zone ∧ x.cls = e.cls ∧ x.threshold.toNat ≤ e.threshold.toNat)
    let placed (e : WatchEntry) (old new : List WatchEntry) : Prop :=
      ∃ before after, old = before ++ after ∧ new = before ++ e :: after
        ∧ (∀ x ∈ before, stands x e) ∧ ∀ x ∈ after, ¬ stands x e
    let others (n : Nat) := s.watch.filter fun e => decide (e.account ≠ n)
    let left (n : Nat) := s.dueQueue.filter fun p => !s.watch.any fun e => decide (e.account = n ∧ e.position = p)
    (∀ n : Nat, s.removeEntry n = { s with watch := others n, dueQueue := left n }
        ∧ (s.watched n = true ↔ ∃ e ∈ s.watch, e.account = n))
      ∧ (∀ e : WatchEntry, placed e s.watch (placeEntry e s.watch))
      ∧ (∀ (n : Nat) (z : ZoneNo) (c : ClassNo) (th : DWord) (stage : Stage),
          let r := s.insertEntry n z c th stage
          ((others n).length = 4096 → r = ({ s with watch := others n, dueQueue := left n }, false))
            ∧ ((others n).length < 4096 →
                ∃ p, p < 4096 ∧ (∀ e ∈ others n, e.position ≠ p) ∧ (∀ q, q < p → ∃ e ∈ others n, e.position = q)
                  ∧ (let due := decide (th.toNat ≤ s.zones[z].exposure[c].toNat)
                     placed ⟨p, n, z, c, th, stage, due⟩ (others n) r.1.watch
                      ∧ r = ({ s with
                              watch := r.1.watch
                              dueQueue := if due then left n ++ [p] else left n }, true))))
      ∧ (∀ before : Vector Zone 64,
          let due (e : WatchEntry) : Bool :=
            decide (before[e.zone].exposure[e.cls] ≠ s.zones[e.zone].exposure[e.cls]) && decide (e.threshold.toNat ≤ tally e)
          s.examine before = { s with
            watch := s.watch.map fun e => { e with due := e.due || due e }
            dueQueue := s.dueQueue ++ (s.watch.filter fun e => !e.due && due e).map WatchEntry.position })
      ∧ (∀ (n : Nat) (a : Account),
          let f := s.inForce a.cls
          ((a.zone = none ∨ f.budget = none ∨ a.flags.expired = true) →
              s.tryWatch n a = (s, false) ∧ s.watchAccount n a = s ∧ s.reachUnwatched n a = s)
            ∧ ∀ z b, a.zone = some z → f.budget = some b → a.flags.expired = false →
                let point := watchPoint b f.margin a s.zones[z].exposure[a.cls]
                let r := s.insertEntry n z a.cls point.1 point.2
                s.tryWatch n a = r
                  ∧ s.watchAccount n a = (if r.2 then r.1 else { r.1 with unwatched := min 32768 (s.unwatched + 1) })
                  ∧ s.reachUnwatched n a = (if s.watched n then s else { s with unwatched := s.unwatched - 1 }))
      ∧ ∀ e : WatchEntry,
          (s.handover = some e ↔ s.engineState = .running ∧ (∃ m stall, s.clock = .held m stall)
            ∧ e ∈ s.watch ∧ s.dueQueue.head? = some e.position)
          ∧ ∀ stage, s.handoverAt stage = some e ↔ s.handover = some e ∧ e.stage = stage ∧ s.stopping = false
              ∧ s.engine = .free ∧ ∀ p, s.prog = some p → p.ended = none

/-! ## Hand-overs and the patrol -/

/-- WARNING_HANDOVER (R27, R109): the entry leaves the due queue. A faulty record's entry is removed with RECORD_FAULT; so is,
without a notice, that of a record elsewhere, of another class or EXPIRED. Otherwise WARNED is set, written and notified unless
set already, and the entry goes in again at stage EXPIRE in its own position (under a limited budget: log entry 31). Where no
warning is presented nothing happens: the event cannot occur there, which is the model's choice (log entry 5). A notice dropped
for want of room sets NOTICE_MISSED by a second write, or NOTICES_DROPPED if it is RECORD_FAULT (R151). -/
def Obligations.WarningHandoverWarnsAndRewatches : Prop :=
  ∀ s : State,
    (s.handoverAt .warn = none → exec .warningHandover s = .next s.drive)
      ∧ ∀ e, InService s → s.handoverAt .warn = some e → e.account < s.layout.tableSize →
          let n := e.account
          let u := { s with dueQueue := s.dueQueue.tail }
          let out := u.removeEntry n
          let frame (t w : State) (written : Option Account) : Prop :=
            CacheAfter s t n written
              ∧ t = { s with
                      mem := t.mem
                      cacheSets := t.cacheSets
                      watch := w.watch
                      dueQueue := w.dueQueue
                      written := t.written
                      taken := t.taken
                      heldNotices := t.heldNotices
                      logFull := t.logFull
                      noticesDropped := t.noticesDropped
                      causes := t.causes
                      messages := t.messages
                      lines := t.lines }
          (s.recordOf n = none →
              ∃ t, exec .warningHandover s = .next t ∧ frame t out none ∧ KeepsBytes s t s.noticeAreas
                ∧ NoticesGo s t [⟨.recordFault, n, s.minute, word (s.faultOf n), 2⟩])
            ∧ ∀ a, s.recordOf n = some a →
                let outdated := a.zone ≠ some e.zone ∨ a.cls ≠ e.cls ∨ a.flags.expired = true
                (outdated →
                    ∃ t, exec .warningHandover s = .next t ∧ frame t out none ∧ t.mem = s.mem ∧ NoticesGo s t [])
                  ∧ (¬ outdated → ∀ b, (s.inForce a.cls).budget = some b →
                      let th := expiryThreshold b a s.zones[e.zone].exposure[e.cls]
                      let due := decide (th.toNat ≤ s.zones[e.zone].exposure[e.cls].toNat)
                      let w := { out with
                        watch := placeEntry { e with threshold := th, stage := .expire, due := due } out.watch
                        dueQueue := if due then out.dueQueue ++ [e.position] else out.dueQueue }
                      let notices : List Notice := [⟨.expiryWarning, n, s.minute, word e.zone.val, a.exposure⟩]
                      let b := s.afterNotices
                        { a with flags := { a.flags with warned := true }, sequence := a.sequence + 1 } notices
                      ∃ t, exec .warningHandover s = .next t
                        ∧ (a.flags.warned = true → frame t w none ∧ t.mem = s.mem ∧ NoticesGo s t [])
                        ∧ (a.flags.warned = false →
                            frame t w (some b) ∧ Written s t n b ∧ NoticesGo s t notices
                              ∧ KeepsBytes s t ((s.layout.record n, 64) :: s.noticeAreas)))

/-- EXPIRY_HANDOVER (R28, R57, R14): the entry leaves the pool. A faulty record raises RECORD_FAULT and sets the fault hold of the
entry's zone; a record elsewhere, of another class or EXPIRED changes nothing more. Otherwise EXPIRED and the expiry minute are
written, the zone's expired-present count rises by one, and EXPIRED is raised. Where no expiry is presented nothing happens: the
event cannot occur there, which is the model's choice (log entry 5). A notice dropped for want of room sets NOTICE_MISSED by a
second write, or NOTICES_DROPPED if it is RECORD_FAULT (R151). -/
def Obligations.ExpiryHandoverExpiresTheAccount : Prop :=
  ∀ s : State,
    (s.handoverAt .expire = none → exec .expiryHandover s = .next s.drive)
      ∧ ∀ e, InService s → s.handoverAt .expire = some e → e.account < s.layout.tableSize →
          let n := e.account
          let out := { s with dueQueue := s.dueQueue.tail }.removeEntry n
          let frame (t : State) (zones : Vector Zone 64) (written : Option Account) : Prop :=
            CacheAfter s t n written
              ∧ t = { s with
                      mem := t.mem
                      cacheSets := t.cacheSets
                      zones := zones
                      watch := out.watch
                      dueQueue := out.dueQueue
                      written := t.written
                      taken := t.taken
                      heldNotices := t.heldNotices
                      logFull := t.logFull
                      noticesDropped := t.noticesDropped
                      causes := t.causes
                      messages := t.messages
                      lines := t.lines }
          (s.recordOf n = none →
              ∃ t, exec .expiryHandover s = .next t
                ∧ frame t (s.zones.set e.zone { s.zones[e.zone] with faultHold := true }) none ∧ KeepsBytes s t s.noticeAreas
                ∧ NoticesGo s t [⟨.recordFault, n, s.minute, word (s.faultOf n), 2⟩])
            ∧ ∀ a, s.recordOf n = some a →
                let outdated := a.zone ≠ some e.zone ∨ a.cls ≠ e.cls ∨ a.flags.expired = true
                (outdated →
                    ∃ t, exec .expiryHandover s = .next t ∧ frame t s.zones none ∧ t.mem = s.mem ∧ NoticesGo s t [])
                  ∧ (¬ outdated →
                      let notices : List Notice := [⟨.expired, n, s.minute, word e.zone.val, a.exposure⟩]
                      let b := s.afterNotices
                        { a with
                          flags := { a.flags with expired := true }, expiryMinute := s.minute, sequence := a.sequence + 1 } notices
                      ∃ t, exec .expiryHandover s = .next t
                        ∧ frame t (s.zones.set e.zone
                            { s.zones[e.zone] with expiredPresent := s.zones[e.zone].expiredPresent + 1 }) (some b)
                        ∧ Written s t n b ∧ NoticesGo s t notices
                        ∧ KeepsBytes s t ((s.layout.record n, 64) :: s.noticeAreas))

/-- PATROL_READ (R115, R116, R119, R138): one record read at the cursor, which moves on, wrapping at the table's end, with the
remaining count lowered; RECORD_FAULT for a faulty record; the account held if it is in a defined zone, eligible and unwatched. The
cache stays as it was. That reads left over go on at the plant minute 0xFFFFFFFE is the model's reading (log entry 51). Where the
patrol may not read nothing happens: the event cannot occur there, which is the model's choice (log
entry 5). -/
def Obligations.PatrolReadHoldsAnUnwatchedAccount : Prop :=
  ∀ s : State, InService s →
    let n := s.cursor
    let ready := s.stopping = false ∧ (∃ m, s.clock = .held m 0) ∧ 0 < s.remaining ∧ s.heldAccount = none
    (¬ ready → exec .patrolRead s = .next s.drive)
      ∧ (ready →
          ∃ t, exec .patrolRead s = .next t
            ∧ NoticesGo s t (match s.recordOf n with
                | none => [⟨.recordFault, n, s.minute, word (s.faultOf n), 3⟩]
                | some _ => [])
            ∧ KeepsBytes s t s.noticeAreas
            ∧ t.heldAccount = (match s.recordOf n with
                | some a =>
                  (match a.zone with
                   | some z =>
                     if s.zones[z].type ≠ .typeNone ∧ (s.inForce a.cls).budget ≠ none ∧ a.flags.expired = false
                         ∧ (∀ e ∈ s.watch, e.account ≠ n) then some n
                     else none
                   | none => none)
                | none => none)
            ∧ t = { s with
                    mem := t.mem
                    cursor := if n + 1 < s.layout.tableSize then n + 1 else 0
                    remaining := s.remaining - 1
                    heldAccount := t.heldAccount
                    written := t.written
                    taken := t.taken
                    heldNotices := t.heldNotices
                    logFull := t.logFull
                    noticesDropped := t.noticesDropped
                    causes := t.causes
                    messages := t.messages
                    lines := t.lines })

/-- PATROL_WORK (R117, R118, R113): the held account is fetched again. A faulty record raises RECORD_FAULT; one no longer wanting
a watch entry is passed over; otherwise its current exposure decides: at the budget a late expiry, at the warning level with
WARNED clear a warning with an entry, else an entry alone. Each expiry and each entry made lowers the unwatched count by one.
Where the engine may not work, a hand-over is presented or no account is held, nothing happens: the event cannot occur there,
which is the model's choice (log entry 5). A notice dropped for want of room sets NOTICE_MISSED by a second write, or
NOTICES_DROPPED if it is RECORD_FAULT (R151). -/
def Obligations.PatrolWorkExpiresWarnsOrWatches : Prop :=
  ∀ s : State,
    (s.mayWork = false ∨ s.handover ≠ none ∨ s.heldAccount = none → exec .patrolWork s = .next s.drive)
      ∧ ∀ n, InService s → s.mayWork = true → s.handover = none → s.heldAccount = some n → n < s.layout.tableSize →
          let frame (t w : State) (zones : Vector Zone 64) (written : Option Account) : Prop :=
            CacheAfter s t n written
              ∧ t = { s with
                      mem := t.mem
                      cacheSets := t.cacheSets
                      zones := zones
                      heldAccount := none
                      watch := w.watch
                      dueQueue := w.dueQueue
                      unwatched := w.unwatched
                      written := t.written
                      taken := t.taken
                      heldNotices := t.heldNotices
                      logFull := t.logFull
                      noticesDropped := t.noticesDropped
                      causes := t.causes
                      messages := t.messages
                      lines := t.lines }
          (s.recordOf n = none →
              ∃ t, exec .patrolWork s = .next t ∧ frame t s s.zones none ∧ KeepsBytes s t s.noticeAreas
                ∧ NoticesGo s t [⟨.recordFault, n, s.minute, word (s.faultOf n), 3⟩])
            ∧ ∀ a, s.recordOf n = some a →
                (s.patrolWants n a = false →
                    ∃ t, exec .patrolWork s = .next t ∧ frame t s s.zones none ∧ t.mem = s.mem ∧ NoticesGo s t [])
                  ∧ ∀ z, a.zone = some z → s.patrolWants n a = true →
                      let f := s.inForce a.cls
                      let now := sat32 (a.exposure.toNat + (s.zones[z].exposure[a.cls].toNat - a.mark.toNat))
                      let entered (b : Account) : State :=
                        let p := s.tryWatch n b
                        if p.2 then { p.1 with unwatched := s.unwatched - 1 } else p.1
                      let expiry : List Notice := [⟨.expired, n, s.minute, word z.val, now⟩]
                      let expired := s.afterNotices
                        { a with
                          flags := { a.flags with expired := true }, expiryMinute := s.minute, sequence := a.sequence + 1 } expiry
                      let warning : List Notice := [⟨.expiryWarning, n, s.minute, word z.val, now⟩]
                      let warned := { a with flags := { a.flags with warned := true } }
                      let warnedLast := s.afterNotices { warned with sequence := a.sequence + 1 } warning
                      (f.reached now.toNat = true →
                          ∃ t, exec .patrolWork s = .next t
                            ∧ frame t { s with unwatched := s.unwatched - 1 }
                                (s.zones.set z { s.zones[z] with expiredPresent := s.zones[z].expiredPresent + 1 }) (some expired)
                            ∧ Written s t n expired ∧ NoticesGo s t expiry
                            ∧ KeepsBytes s t ((s.layout.record n, 64) :: s.noticeAreas))
                        ∧ (f.reached now.toNat = false → f.warnable now.toNat = true → a.flags.warned = false →
                            ∃ t, exec .patrolWork s = .next t ∧ frame t (entered warned) s.zones (some warnedLast)
                              ∧ Written s t n warnedLast ∧ NoticesGo s t warning
                              ∧ KeepsBytes s t ((s.layout.record n, 64) :: s.noticeAreas))
                        ∧ (f.reached now.toNat = false → (f.warnable now.toNat = false ∨ a.flags.warned = true) →
                            ∃ t, exec .patrolWork s = .next t ∧ frame t (entered a) s.zones none ∧ t.mem = s.mem
                              ∧ NoticesGo s t [])

/-! ## The notice unit -/

/-- A notice that reaches the unit (R147 to R151): written where none is held and the log has room, by the T read if need be;
otherwise held, LOG_FULL set; merged with a held one of its kind and subject, in its place; added at the tail; or dropped where 64
are held, which sets NOTICES_DROPPED but for the five kinds that mark their account. The drain takes the oldest URGENT notice,
else the oldest, and stops where the log is full or none is held. Where notices are held, T is read after the merge, the addition or
the drop, and room found starts the drain; that it is read at a drop too is the model's reading (log entry 15). A drop is marked by
NOTICE_MISSED in the record, fetched again, unless set already, and by NOTICES_DROPPED where the record is faulty. -/
def Obligations.ReceivedNoticeIsWrittenHeldMergedOrDropped : Prop :=
  ∀ s : State, InService s →
    let read := reckonTaken s.written s.capacity (s.peek s.layout.controlPage)
    let room := (s.written - read).toNat < s.capacity
    let held := s.heldNotices
    let place := s.layout.noticeLog + 16 * (s.written.toNat % s.capacity)
    let logs (t : State) (n : Notice) : Prop :=
      (t.peekWords place 4).toList = n.words ∧ t.written = s.written + 1
        ∧ t.peek (s.layout.controlPage + 4) = t.written ∧ t.peek (s.layout.controlPage + 8) = word t.heldNotices.length
        ∧ t.causes.getLsbD n.cause.index = true ∧ KeepsBytes s t s.noticeAreas
    (∀ n : Notice,
        let alike (m : Notice) : Prop := m.kind = n.kind ∧ m.subject = n.subject
        let wrote (t : State) (taken : Word) : Prop :=
          logs t n ∧ t = { s with
            mem := t.mem, written := t.written, taken := taken, logFull := false, causes := t.causes, messages := t.messages }
        (held = [] → s.logHasRoom = true → ∃ t, receiveNotice n s = .ok false t ∧ wrote t s.taken)
          ∧ (held = [] → s.logHasRoom = false → room → ∃ t, receiveNotice n s = .ok false t ∧ wrote t read)
          ∧ (held = [] → s.logHasRoom = false → ¬ room →
              receiveNotice n s = .ok false { s with taken := read, heldNotices := [n], logFull := true })
          ∧ (held ≠ [] → ¬ room → (∃ m ∈ held, alike m) →
              ∃ t, receiveNotice n s = .ok false t ∧ t = { s with taken := read, heldNotices := t.heldNotices }
                ∧ t.heldNotices.length = held.length
                ∧ ∀ (i : Nat) (m : Notice), held[i]? = some m →
                    (alike m → t.heldNotices[i]? = some n) ∧ (¬ alike m → t.heldNotices[i]? = some m))
          ∧ (held ≠ [] → ¬ room → (∀ m ∈ held, ¬ alike m) → held.length < 64 →
              receiveNotice n s = .ok false { s with taken := read, heldNotices := held ++ [n] })
          ∧ (¬ room → (∀ m ∈ held, ¬ alike m) → 64 ≤ held.length →
              handNotices [n] s = .ok n.kind.marksAccount
                { s with taken := read, noticesDropped := s.noticesDropped || !n.kind.marksAccount })
          ∧ (held ≠ [] → room → (∃ m ∈ held, alike m) →
              ∃ (next : List Notice) (t : State), receiveNotice n s = .ok false t
                ∧ drain held.length { s with taken := read, heldNotices := next } = .ok () t
                ∧ next.length = held.length
                ∧ ∀ (i : Nat) (m : Notice), held[i]? = some m →
                    (alike m → next[i]? = some n) ∧ (¬ alike m → next[i]? = some m))
          ∧ (held ≠ [] → room → (∀ m ∈ held, ¬ alike m) → held.length < 64 →
              ∃ t, receiveNotice n s = .ok false t
                ∧ drain (held.length + 1) { s with taken := read, heldNotices := held ++ [n] } = .ok () t)
          ∧ (room → (∀ m ∈ held, ¬ alike m) → 64 ≤ held.length →
              ∃ t, drain held.length { s with taken := read } = .ok () t
                ∧ handNotices [n] s = .ok n.kind.marksAccount
                    { t with noticesDropped := t.noticesDropped || !n.kind.marksAccount }))
      ∧ (∀ k : Nat, held = [] ∨ s.logHasRoom = false → drain k s = .ok () s)
      ∧ (∀ (k : Nat) (before after : List Notice) (m : Notice), s.logHasRoom = true → held = before ++ m :: after →
          (∀ x ∈ before, x.kind.urgent = false) →
          (m.kind.urgent = true ∨ (before = [] ∧ ∀ x ∈ after, x.kind.urgent = false)) →
          ∃ t, drain (k + 1) s = drain k t ∧ logs t m
            ∧ t = { s with
                    mem := t.mem
                    written := t.written
                    heldNotices := before ++ after
                    logFull := s.logFull && !(before ++ after).isEmpty
                    causes := t.causes
                    messages := t.messages })
      ∧ ∀ n : Nat,
          (s.recordOf n = none → ∃ t, markMissed n true s = .ok () t ∧ CacheAfter s t n none
            ∧ t = { s with cacheSets := t.cacheSets, noticesDropped := true })
          ∧ ∀ a, s.recordOf n = some a →
              let b := { a with flags := { a.flags with noticeMissed := true }, sequence := a.sequence + 1 }
              ∃ t, markMissed n true s = .ok () t
              ∧ t = { s with mem := t.mem, cacheSets := t.cacheSets }
              ∧ (a.flags.noticeMissed = true → t.mem = s.mem ∧ CacheAfter s t n none)
              ∧ (a.flags.noticeMissed = false →
                  Written s t n b ∧ CacheAfter s t n (some b) ∧ KeepsBytes s t [(s.layout.record n, 64)])

/-! ## The account cache and the records -/

/-- The replacement order (R136): the three bits name the victim; every fill and every engine fetch that hits makes them point away
from the way it used; they are consulted only when all four ways are valid, the lowest invalid way being taken otherwise. -/
def Obligations.CacheOrderBitsPointAwayFromTheWayUsed : Prop :=
  (∀ cs : CacheSet,
      cs.victim = (if cs.pairBit = false then (if cs.bit01 = false then 0 else 1)
        else if cs.bit23 = false then 2 else 3)
        ∧ cs.use 0 = { cs with pairBit := true, bit01 := true } ∧ cs.use 1 = { cs with pairBit := true, bit01 := false }
        ∧ cs.use 2 = { cs with pairBit := false, bit23 := true } ∧ cs.use 3 = { cs with pairBit := false, bit23 := false }
        ∧ (∀ w : Fin 4, (cs.use w).victim.val / 2 ≠ w.val / 2)
        ∧ (∀ (n : Nat) (ws : Vector Word 16), ∃ w : Fin 4,
            (∀ v : Fin 4, v < w → cs.ways[v] ≠ none ∨ ∀ u : Fin 4, cs.ways[u] ≠ none)
              ∧ (cs.ways[w] = none ∨ (w = cs.victim ∧ ∀ u : Fin 4, cs.ways[u] ≠ none))
              ∧ cs.fill n ws = { cs with ways := cs.ways.set w (some ⟨n / 64, ws⟩) }.use w))
    ∧ ∀ (s : State) (n : Nat) (w : Fin 4) (l : Line),
        s.cacheSets[setOf n].ways[w] = some l → l.tag = n / 64 →
        (∀ (v : Fin 4) (x : Line), s.cacheSets[setOf n].ways[v] = some x → x.tag = n / 64 → v = w) →
        ∃ f, fetchRecord n s = .ok f
          { s with cacheSets := s.cacheSets.set (setOf n) (s.cacheSets[setOf n].use w) }

/-- A lookup (R133 to R135, R137 to R139). A hit serves the line's words: to the engine with the order bits made to point away
from the way used, to the patrol with nothing changed. A miss reads the record from the table: a corrupt one (R2) is returned as
corrupt and changes nothing; one that passes is filled into the set and served in NORMAL, and served with nothing changed in
NOFILL and OFF and to the patrol in every mode. What is served is put to the malformed test. A write-through writes the record to
the table with its sequence raised by one, and a line that holds the account takes the same words; none is allocated, and the
order bits stay. -/
def Obligations.EngineFetchFollowsTheLookupAndTheMode : Prop :=
  ∀ (s : State) (n : Nat), s.failing = none → CacheSound s →
    let cs := s.cacheSets[setOf n]
    let table := s.peekWords (s.layout.record n) 16
    let served (ws : Vector Word 16) : Fetched := match accountOf ws with
      | some a => .record a
      | none => .malformed
    let holds (w : Fin 4) : Prop := ∃ l, cs.ways[w] = some l ∧ l.tag = n / 64
    (isCorrupt table = true ↔ (∃ i : Fin 16, table[i] ≠ 0)
        ∧ table[15] ≠ ~~~ ((List.finRange 15).map fun i => (table[i.val]'(by omega)).rotateLeft i.val).sum)
      ∧ (∀ (w : Fin 4) (l : Line), cs.ways[w] = some l → l.tag = n / 64 →
          fetchRecord n s = .ok (served l.words) { s with cacheSets := s.cacheSets.set (setOf n) (cs.use w) }
            ∧ patrolFetch n s = .ok (served l.words) s)
      ∧ ((∀ w, ¬ holds w) →
          patrolFetch n s = .ok (if isCorrupt table then .corrupt else served table) s
            ∧ (isCorrupt table = true → fetchRecord n s = .ok .corrupt s)
            ∧ (isCorrupt table = false → s.cacheMode ≠ .normal → fetchRecord n s = .ok (served table) s)
            ∧ (isCorrupt table = false → s.cacheMode = .normal → fetchRecord n s = .ok (served table)
                { s with cacheSets := s.cacheSets.set (setOf n) (cs.fill n table) }))
      ∧ ∀ a : Account, ∃ t, writeThrough n a s = .ok (a.sequence + 1) t
          ∧ t = { s with mem := t.mem, cacheSets := t.cacheSets } ∧ KeepsOtherSets s t n
          ∧ KeepsBytes s t [(s.layout.record n, 64)]
          ∧ (let ws := recordWords { a with sequence := a.sequence + 1 }
             t.peekWords (s.layout.record n) 16 = ws
              ∧ t.cacheSets[setOf n] = { cs with ways := t.cacheSets[setOf n].ways }
              ∧ ∀ w : Fin 4, (holds w → t.cacheSets[setOf n].ways[w] = some ⟨n / 64, ws⟩)
                  ∧ (¬ holds w → t.cacheSets[setOf n].ways[w] = cs.ways[w]))

/-- A record the part writes reads back as what it wrote: never corrupt, never malformed, every field as its state has it written
(R1 to R3, R7; section 10.2, Account record). An account in a zone keeps every field, an EXPOSED one with its auxiliary mark 0. -/
def Obligations.RecordsReadBackAsWritten : Prop :=
  ∀ a : Account, a.bakeCount ≤ 15 → (a.state.inZone = true → a.zone ≠ none) →
    isCorrupt (recordWords a) = false
      ∧ accountOf (recordWords a) = some a.asWritten
      ∧ (a.state.inZone = true → (a.state = .exposed → a.aux = 0) → a.asWritten = a)

/-! ## What every step keeps -/

/-- Host memory stays in its one canonical form (log entry 2). -/
def Obligations.EveryStepKeepsMemoryCanonical : Prop :=
  ∀ s t : State, s.mem.wf = true → step s = .next t → t.mem.wf = true

/-- The watch pool stays sound: one entry for an account, each position in use once, every list in order of threshold, and the due
queue holding due entries alone, each once; and the unwatched count stays within 0 to 32,768 (R102, R103, R105, R106, R109, R113;
that it saturates there is log entry 21). -/
def Obligations.EveryStepKeepsThePoolSound : Prop :=
  ∀ s t : State, PoolSound s → step s = .next t → PoolSound t

/-- The notice unit stays sound: at most 64 notices held, no two of one kind and subject, LOG_FULL set exactly while any is held,
the log never over its capacity (R145, R147 to R150, R152). Over a STOP_COMPLETION that LOG_FULL is clear with the queue rests on
the model's reading that the discard clears it (log entry 16). -/
def Obligations.EveryStepKeepsTheNoticeUnitSound : Prop :=
  ∀ s t : State, NoticesSound s → step s = .next t → NoticesSound t

/-- The account cache never holds two lines for one account, and holds none in mode OFF (R133, R135, R139, R140). -/
def Obligations.EveryStepKeepsTheCacheSound : Prop :=
  ∀ s t : State, CacheSound s → step s = .next t → CacheSound t

/-- Between steps the engine is FREE and the part never ATTACHING; the clock, the scan timer, the eligibility marks and a stop are
on only while RUNNING; the hold lines are as their conditions have them; and while RUNNING the region held is a valid one (R9, R81,
R121, R156, R157, R161, R169, R170, R173). That the engine is FREE between steps, and that the lines are driven at the end of each,
come of the grain of the steps (log entries 4 and 28). -/
def Obligations.EveryStepKeepsTheServiceSound : Prop :=
  ∀ s t : State, ServiceSound s → step s = .next t → ServiceSound t

/-- From one attach to the next detach, reset or fault no exposure tally, bake tally or dry tally decreases, no degraded mark that
stands at or below its tally does, and the plant minute never falls (R31, R129). A mark above its tally, which only a page the host
wrote can load, is not spoken of (log entry 40). -/
def Obligations.NoTallyAndNoPlantMinuteFalls : Prop :=
  ∀ (s t : State) (c : Instr) (rest : List Instr), s.pending = c :: rest → c.wellFormed = true → c.isReset = false →
    s.engineState ≠ .idle → step s = .next t →
    TalliesRise s t ∧ (s.clockSet = true → t.clockSet = true → s.minute.toNat ≤ t.minute.toNat)

/-- FAULTED is left only by a reset; until then, and in IDLE until a START, the part touches no byte of host memory and serves
nothing (R169, R174). The nonvolatile memory changes only by a CLASSWRITE accepted and by the end of its programming (R71, R78,
R79). -/
def Obligations.OnlyTheirCommandsLeaveFaultedAndChangeTheStore : Prop :=
  ∀ (s t : State) (c : Instr) (rest : List Instr), s.pending = c :: rest → c.wellFormed = true → step s = .next t →
    (RestSound s → c.isReset = false →
        (s.engineState = .faulted ∨ (s.engineState = .idle ∧ ∀ stores enables, c ≠ .start stores enables)) →
        t.engineState = s.engineState ∧ t.mem = s.mem.land c.hostStores ∧ t.zones = s.zones ∧ t.clock = .unset)
      ∧ (t.nv ≠ s.nv → c = .classwrite ∨ ∃ defects, c = .classProgrammingEnd defects)
end

