-- ==== Sys2Proof/Laws/Memory.lean ====
section
/-! SUPPORT. Laws of host memory: a read after a store, the canonical form, and runs of words. -/

namespace Sys2Proof.Machine

/-! ## The canonical form -/

/-- The cells to list start at the run's address. -/
theorem Memory.listed_ge {a : Nat} {bs : List Byte} {c : Host.Cell} (h : c ∈ Memory.listed a bs) : a ≤ c.1 := by
  induction bs generalizing a with
  | nil => simp [Memory.listed] at h
  | cons b bs ih =>
    simp only [Memory.listed] at h
    split at h
    · exact Nat.le_of_succ_le (ih h)
    · rcases List.mem_cons.1 h with rfl | h
      · exact Nat.le_refl _
      · exact Nat.le_of_succ_le (ih h)

/-- The cells to list end with the run. -/
theorem Memory.listed_lt {a : Nat} {bs : List Byte} {c : Host.Cell} (h : c ∈ Memory.listed a bs) :
    c.1 < a + bs.length := by
  induction bs generalizing a with
  | nil => simp [Memory.listed] at h
  | cons b bs ih =>
    simp only [Memory.listed] at h
    split at h
    · have := ih h; simp only [List.length_cons]; omega
    · rcases List.mem_cons.1 h with rfl | h
      · simp
      · have := ih h; simp only [List.length_cons]; omega

/-- The canonical form of a memory with one more cell in front. -/
theorem Memory.wf_cons (c : Host.Cell) (m : Memory) :
    Memory.wf (c :: m) = true ↔ c.2 ≠ unlistedByte ∧ (∀ d ∈ m, c.1 < d.1) ∧ Memory.wf m = true := by
  simp only [Memory.wf, Bool.and_eq_true, decide_eq_true_eq, List.all_eq_true, and_assoc]

/-- The cells listed for a run are in canonical form. -/
theorem Memory.listed_wf (a : Nat) (bs : List Byte) : Memory.wf (Memory.listed a bs) = true := by
  induction bs generalizing a with
  | nil => rfl
  | cons b bs ih =>
    simp only [Memory.listed]
    split
    · exact ih _
    · next h => exact (Memory.wf_cons _ _).2 ⟨h, fun d hd => Memory.listed_ge hd, ih _⟩

/-- A part of a memory in canonical form is in canonical form. -/
theorem Memory.filter_wf {m : Memory} (h : Memory.wf m = true) (p : Host.Cell → Bool) : Memory.wf (m.filter p) = true := by
  induction m with
  | nil => rfl
  | cons c m ih =>
    obtain ⟨h1, h2, h3⟩ := (Memory.wf_cons _ _).1 h
    rw [List.filter_cons]
    split
    · exact (Memory.wf_cons _ _).2 ⟨h1, fun d hd => h2 d (List.mem_filter.1 hd).1, ih h3⟩
    · exact ih h3

/-- Two memories in canonical form, the first wholly below the second, join to one. -/
theorem Memory.append_wf {m n : Memory} (hm : Memory.wf m = true) (hn : Memory.wf n = true)
    (h : ∀ c ∈ m, ∀ d ∈ n, c.1 < d.1) : Memory.wf (m ++ n) = true := by
  induction m with
  | nil => exact hn
  | cons c m ih =>
    obtain ⟨h1, h2, h3⟩ := (Memory.wf_cons _ _).1 hm
    refine (Memory.wf_cons _ _).2 ⟨h1, fun d hd => ?_, ih h3 fun x hx => h x (List.mem_cons_of_mem _ hx)⟩
    rcases List.mem_append.1 hd with hd | hd
    · exact h2 d hd
    · exact h c List.mem_cons_self d hd

/-- A store keeps the canonical form. -/
theorem Memory.store_wf {m : Memory} (h : m.wf = true) (a : Nat) (bs : List Byte) : (m.store a bs).wf = true := by
  refine Memory.append_wf (Memory.append_wf (Memory.filter_wf h _) (Memory.listed_wf a bs) ?_) (Memory.filter_wf h _) ?_
  · intro c hc d hd
    have := of_decide_eq_true (List.mem_filter.1 hc).2
    have := Memory.listed_ge hd
    omega
  · intro c hc d hd
    have := of_decide_eq_true (List.mem_filter.1 hd).2
    rcases List.mem_append.1 hc with hc | hc
    · have := of_decide_eq_true (List.mem_filter.1 hc).2
      omega
    · have := Memory.listed_lt hc
      omega

/-- The host's stores keep the canonical form. -/
theorem Memory.land_wf {m : Memory} (h : m.wf = true) (cs : HostStores) : (m.land cs).wf = true := by
  induction cs generalizing m with
  | nil => exact h
  | cons c cs ih => exact ih (Memory.store_wf h _ _)

/-! ## Reading -/

/-- What two memories one after the other read as. -/
theorem Memory.read_append (m n : Memory) (x : Nat) :
    Memory.read (m ++ n) x = if (m.any fun c => c.1 == x) then m.read x else n.read x := by
  induction m with
  | nil => simp
  | cons c m ih =>
    simp only [Memory.read, List.cons_append, List.find?_cons, List.any_cons]
    by_cases h : c.1 == x
    · simp [h]
    · simp only [h, Bool.false_or]
      exact ih

/-- A memory that lists no cell at an address reads as an unlisted byte there. -/
theorem Memory.read_none {m : Memory} {x : Nat} (h : ∀ c ∈ m, c.1 ≠ x) : m.read x = unlistedByte := by
  have : m.find? (fun c => c.1 == x) = none := by
    rw [List.find?_eq_none]
    intro c hc
    simp [h c hc]
  simp [Memory.read, this]

/-- Cells that hold an address decide what is read there. -/
theorem Memory.read_filter {m : Memory} {x : Nat} {p : Host.Cell → Bool} (h : ∀ b, p (x, b) = true) :
    Memory.read (m.filter p) x = m.read x := by
  induction m with
  | nil => rfl
  | cons c m ih =>
    rw [List.filter_cons]
    by_cases hc : c.1 = x
    · have : p c = true := by have := h c.2; rwa [← hc] at this
      simp [this, Memory.read, hc]
    · have hx : (c.1 == x) = false := by simpa using hc
      split
      · simp only [Memory.read, List.find?_cons, hx] at *
        exact ih
      · rw [ih]
        simp [Memory.read, hx]

/-- What the cells listed for a run read as. -/
theorem Memory.read_listed (a : Nat) (bs : List Byte) (x : Nat) :
    Memory.read (Memory.listed a bs) x = if a ≤ x then bs.getD (x - a) unlistedByte else unlistedByte := by
  induction bs generalizing a with
  | nil => simp [Memory.listed, Memory.read]
  | cons b bs ih =>
    simp only [Memory.listed]
    by_cases hx : x = a
    · subst hx
      split
      · next hb =>
        rw [ih, if_neg (by omega)]
        simp [hb]
      · simp [Memory.read]
    · have hne : ((a, b).1 == x) = false := by simpa using fun h => hx h.symm
      have key : Memory.read (Memory.listed (a + 1) bs) x
          = if a ≤ x then (b :: bs).getD (x - a) unlistedByte else unlistedByte := by
        rw [ih]
        by_cases h : a + 1 ≤ x
        · rw [if_pos h, if_pos (by omega), show x - a = (x - (a + 1)) + 1 by omega, List.getD_cons_succ]
        · rw [if_neg h, if_neg (by omega)]
      split
      · exact key
      · rw [← key]
        simp only [Memory.read, List.find?_cons, hne]

/-- A byte read after a store: the stored byte inside the run, the byte from before outside it. -/
theorem Memory.read_store (m : Memory) (a : Nat) (bs : List Byte) (x : Nat) :
    (m.store a bs).read x = if a ≤ x ∧ x < a + bs.length then bs.getD (x - a) unlistedByte else m.read x := by
  unfold Memory.store
  by_cases hlo : x < a
  · rw [if_neg (by omega), List.append_assoc, Memory.read_append]
    split
    · exact Memory.read_filter (by simp [hlo])
    · next h =>
      have hm : m.read x = unlistedByte := by
        refine Memory.read_none fun c hc hx => ?_
        refine absurd (List.any_eq_true.2 ⟨c, List.mem_filter.2 ⟨hc, ?_⟩, by simp [hx]⟩) h
        simp [hx, hlo]
      rw [hm]
      refine Memory.read_none fun c hc hx => ?_
      rcases List.mem_append.1 hc with hc | hc
      · have := Memory.listed_ge hc; omega
      · have := of_decide_eq_true (List.mem_filter.1 hc).2; omega
  · rw [List.append_assoc, Memory.read_append, if_neg, Memory.read_append]
    · by_cases hin : x < a + bs.length
      · have hr : Memory.read (Memory.listed a bs) x = bs.getD (x - a) unlistedByte := by
          rw [Memory.read_listed, if_pos (by omega)]
        rw [if_pos (show a ≤ x ∧ x < a + bs.length from ⟨by omega, hin⟩)]
        by_cases h : ((Memory.listed a bs).any fun c => c.1 == x) = true
        · rw [if_pos h, hr]
        · have h2 : Memory.read (Memory.listed a bs) x = unlistedByte :=
            Memory.read_none fun c hc hx => h (List.any_eq_true.2 ⟨c, hc, by simp [hx]⟩)
          rw [if_neg h, ← hr, h2]
          refine Memory.read_none fun c hc hx => ?_
          have := of_decide_eq_true (List.mem_filter.1 hc).2
          omega
      · rw [if_neg (show ¬ (a ≤ x ∧ x < a + bs.length) by omega), if_neg]
        · exact Memory.read_filter (by simp; omega)
        · intro h
          obtain ⟨c, hc, hx⟩ := List.any_eq_true.1 h
          have := Memory.listed_lt hc
          simp only [beq_iff_eq] at hx
          omega
    · intro h
      obtain ⟨c, hc, hx⟩ := List.any_eq_true.1 h
      have := of_decide_eq_true (List.mem_filter.1 hc).2
      simp only [beq_iff_eq] at hx
      omega

/-- A store changes no byte outside its run. -/
theorem Memory.read_store_apart {m : Memory} {a x : Nat} {bs : List Byte} (h : x < a ∨ a + bs.length ≤ x) :
    (m.store a bs).read x = m.read x := by
  rw [Memory.read_store, if_neg (by omega)]

/-! ## Words -/

@[simp] theorem wordBytes_length (w : Word) : (wordBytes w).length = 4 := rfl

/-- A run of words takes four bytes each. -/
@[simp] theorem wordsBytes_length (ws : List Word) : (wordsBytes ws).length = 4 * ws.length := by
  induction ws with
  | nil => rfl
  | cons w ws ih =>
    have : wordsBytes (w :: ws) = wordBytes w ++ wordsBytes ws := rfl
    rw [this, List.length_append, ih, wordBytes_length, List.length_cons]
    omega

/-- The bytes of a word spell the word. -/
theorem bytesWord_wordBytes (w : Word) (d : Byte) :
    bytesWord ((wordBytes w).getD 0 d) ((wordBytes w).getD 1 d) ((wordBytes w).getD 2 d) ((wordBytes w).getD 3 d) = w := by
  apply BitVec.eq_of_getLsbD_eq
  intro i hi
  simp only [wordBytes, bytesWord, List.getD_cons_zero, List.getD_cons_succ, BitVec.getLsbD_append, BitVec.getLsbD_extractLsb']
  by_cases h1 : i < 8
  · simp [h1]
  · by_cases h2 : i < 16
    · have : i - 8 < 8 := by omega
      simp [h1, this, show 8 + (i - 8) = i by omega]
    · by_cases h3 : i < 24
      · have a1 : ¬ i - 8 < 8 := by omega
        have a2 : i - 8 - 8 < 8 := by omega
        simp [h1, a1, a2, show 16 + (i - 8 - 8) = i by omega]
      · have a1 : ¬ i - 8 < 8 := by omega
        have a2 : ¬ i - 8 - 8 < 8 := by omega
        have a3 : i - 8 - 8 - 8 < 8 := by omega
        simp [h1, a1, a2, a3, show 24 + (i - 8 - 8 - 8) = i by omega]

/-- Byte `j` of word `i` in a run of words. -/
theorem wordsBytes_getD (ws : List Word) (i j : Nat) (hj : j < 4) (d : Byte) (hi : i < ws.length) :
    (wordsBytes ws).getD (4 * i + j) d = (wordBytes (ws.getD i 0)).getD j d := by
  induction ws generalizing i with
  | nil => simp at hi
  | cons w ws ih =>
    have : wordsBytes (w :: ws) = wordBytes w ++ wordsBytes ws := rfl
    rw [this]
    cases i with
    | zero =>
      rw [List.getD_append _ _ _ _ (by simp; omega)]
      simp
    | succ i =>
      rw [List.getD_append_right _ _ _ _ (by simp; omega), wordBytes_length,
        show 4 * (i + 1) + j - 4 = 4 * i + j by omega, ih i (by simpa using hi), List.getD_cons_succ]

/-- The word read where a run of words was stored. -/
theorem Memory.word_store (m : Memory) (a : Nat) (ws : List Word) (i : Nat) (hi : i < ws.length) :
    (m.store a (wordsBytes ws)).word (a + 4 * i) = ws.getD i 0 := by
  have key : ∀ j, j < 4 → (m.store a (wordsBytes ws)).read (a + 4 * i + j)
      = (wordBytes (ws.getD i 0)).getD j unlistedByte := by
    intro j hj
    rw [Memory.read_store, if_pos (by rw [wordsBytes_length]; omega), show a + 4 * i + j - a = 4 * i + j by omega,
      wordsBytes_getD ws i j hj unlistedByte hi]
  have k0 := key 0 (by omega)
  rw [Nat.add_zero] at k0
  simp only [Memory.word, k0, key 1 (by omega), key 2 (by omega), key 3 (by omega)]
  exact bytesWord_wordBytes _ _

/-- A word read apart from a store is as before. -/
theorem Memory.word_store_apart {m : Memory} {a x : Nat} {bs : List Byte} (h : x + 4 ≤ a ∨ a + bs.length ≤ x) :
    (m.store a bs).word x = m.word x := by
  simp only [Memory.word]
  rw [Memory.read_store_apart (by omega), Memory.read_store_apart (by omega), Memory.read_store_apart (by omega),
    Memory.read_store_apart (by omega)]

/-- A run of words read apart from a store is as before. -/
theorem Memory.words_store_apart {m : Memory} {a x n : Nat} {bs : List Byte} (h : x + 4 * n ≤ a ∨ a + bs.length ≤ x) :
    (m.store a bs).words x n = m.words x n := by
  simp only [Memory.words]
  congr 1
  funext i
  exact Memory.word_store_apart (by have := i.isLt; omega)

/-- The run of words read where it was stored. -/
theorem Memory.words_store (m : Memory) (a n : Nat) (ws : Vector Word n) :
    (m.store a (wordsBytes ws.toList)).words a n = ws := by
  apply Vector.ext
  intro i hi
  simp only [Memory.words, Vector.getElem_ofFn]
  rw [Memory.word_store _ _ _ _ (by simpa using hi)]
  simp [List.getD_eq_getElem?_getD, hi]

/-- Memories that read alike over a run of words hold the same words. -/
theorem Memory.words_congr {m m' : Memory} {a n : Nat} (h : ∀ x, a ≤ x → x < a + 4 * n → m'.read x = m.read x) :
    m'.words a n = m.words a n := by
  simp only [Memory.words]
  congr 1
  funext i
  have := i.isLt
  simp only [Memory.word]
  rw [h _ (by omega) (by omega), h _ (by omega) (by omega), h _ (by omega) (by omega), h _ (by omega) (by omega)]

/-- Memories that read alike at a word hold the same word. -/
theorem Memory.word_congr {m m' : Memory} {a : Nat} (h : ∀ x, a ≤ x → x < a + 4 → m'.read x = m.read x) :
    m'.word a = m.word a := by
  simp only [Memory.word]
  rw [h _ (by omega) (by omega), h _ (by omega) (by omega), h _ (by omega) (by omega), h _ (by omega) (by omega)]

/-! ## Halves and bytes -/

@[simp] theorem loWord_dword (lo hi : Word) : loWord (dword lo hi) = lo := by
  apply BitVec.eq_of_getLsbD_eq
  intro i h
  simp only [loWord, dword, BitVec.getLsbD_setWidth, BitVec.getLsbD_append, h, decide_true, Bool.true_and, if_true]

@[simp] theorem hiWord_dword (lo hi : Word) : hiWord (dword lo hi) = hi := by
  apply BitVec.eq_of_getLsbD_eq
  intro i h
  simp only [hiWord, dword, BitVec.getLsbD_setWidth, BitVec.getLsbD_ushiftRight, BitVec.getLsbD_append, h, decide_true,
    Bool.true_and, show ¬ 32 + i < 32 by omega, if_false, show 32 + i - 32 = i by omega]

/-- A two-word quantity is its two words. -/
@[simp] theorem dword_halves (d : DWord) : dword (loWord d) (hiWord d) = d := by
  apply BitVec.eq_of_getLsbD_eq
  intro i h
  simp only [dword, loWord, hiWord, BitVec.getLsbD_append, BitVec.getLsbD_setWidth, BitVec.getLsbD_ushiftRight]
  by_cases h1 : i < 32
  · simp [h1]
  · simp [h1, show 32 + (i - 32) = i by omega, show i - 32 < 32 by omega]

end Sys2Proof.Machine
end

