-- ==== Sys2Proof/Laws/State.lean ====
section
/-! SUPPORT. One lemma per field per shared update: what the update leaves as it was. -/

namespace Sys2Proof.Machine

/-! ## poke -/

@[simp] theorem State.poke_baseLo (s : State) (off : Nat) (ws : List Word) : (s.poke off ws).baseLo = s.baseLo := rfl
@[simp] theorem State.poke_baseHi (s : State) (off : Nat) (ws : List Word) : (s.poke off ws).baseHi = s.baseHi := rfl
@[simp] theorem State.poke_enables (s : State) (off : Nat) (ws : List Word) : (s.poke off ws).enables = s.enables := rfl
@[simp] theorem State.poke_engineState (s : State) (off : Nat) (ws : List Word) : (s.poke off ws).engineState = s.engineState := rfl
@[simp] theorem State.poke_resetCauses (s : State) (off : Nat) (ws : List Word) : (s.poke off ws).resetCauses = s.resetCauses := rfl
@[simp] theorem State.poke_causes (s : State) (off : Nat) (ws : List Word) : (s.poke off ws).causes = s.causes := rfl
@[simp] theorem State.poke_logFull (s : State) (off : Nat) (ws : List Word) : (s.poke off ws).logFull = s.logFull := rfl
@[simp] theorem State.poke_noticesDropped (s : State) (off : Nat) (ws : List Word) : (s.poke off ws).noticesDropped = s.noticesDropped := rfl
@[simp] theorem State.poke_attachFail (s : State) (off : Nat) (ws : List Word) : (s.poke off ws).attachFail = s.attachFail := rfl
@[simp] theorem State.poke_lines (s : State) (off : Nat) (ws : List Word) : (s.poke off ws).lines = s.lines := rfl
@[simp] theorem State.poke_messages (s : State) (off : Nat) (ws : List Word) : (s.poke off ws).messages = s.messages := rfl
@[simp] theorem State.poke_layout (s : State) (off : Nat) (ws : List Word) : (s.poke off ws).layout = s.layout := rfl
@[simp] theorem State.poke_zones (s : State) (off : Nat) (ws : List Word) : (s.poke off ws).zones = s.zones := rfl
@[simp] theorem State.poke_published (s : State) (off : Nat) (ws : List Word) : (s.poke off ws).published = s.published := rfl
@[simp] theorem State.poke_clock (s : State) (off : Nat) (ws : List Word) : (s.poke off ws).clock = s.clock := rfl
@[simp] theorem State.poke_publicationDue (s : State) (off : Nat) (ws : List Word) : (s.poke off ws).publicationDue = s.publicationDue := rfl
@[simp] theorem State.poke_classes (s : State) (off : Nat) (ws : List Word) : (s.poke off ws).classes = s.classes := rfl
@[simp] theorem State.poke_nv (s : State) (off : Nat) (ws : List Word) : (s.poke off ws).nv = s.nv := rfl
@[simp] theorem State.poke_prog (s : State) (off : Nat) (ws : List Word) : (s.poke off ws).prog = s.prog := rfl
@[simp] theorem State.poke_live (s : State) (off : Nat) (ws : List Word) : (s.poke off ws).live = s.live := rfl
@[simp] theorem State.poke_highest (s : State) (off : Nat) (ws : List Word) : (s.poke off ws).highest = s.highest := rfl
@[simp] theorem State.poke_watch (s : State) (off : Nat) (ws : List Word) : (s.poke off ws).watch = s.watch := rfl
@[simp] theorem State.poke_dueQueue (s : State) (off : Nat) (ws : List Word) : (s.poke off ws).dueQueue = s.dueQueue := rfl
@[simp] theorem State.poke_unwatched (s : State) (off : Nat) (ws : List Word) : (s.poke off ws).unwatched = s.unwatched := rfl
@[simp] theorem State.poke_cursor (s : State) (off : Nat) (ws : List Word) : (s.poke off ws).cursor = s.cursor := rfl
@[simp] theorem State.poke_batch (s : State) (off : Nat) (ws : List Word) : (s.poke off ws).batch = s.batch := rfl
@[simp] theorem State.poke_remaining (s : State) (off : Nat) (ws : List Word) : (s.poke off ws).remaining = s.remaining := rfl
@[simp] theorem State.poke_heldAccount (s : State) (off : Nat) (ws : List Word) : (s.poke off ws).heldAccount = s.heldAccount := rfl
@[simp] theorem State.poke_cacheSets (s : State) (off : Nat) (ws : List Word) : (s.poke off ws).cacheSets = s.cacheSets := rfl
@[simp] theorem State.poke_cacheMode (s : State) (off : Nat) (ws : List Word) : (s.poke off ws).cacheMode = s.cacheMode := rfl
@[simp] theorem State.poke_written (s : State) (off : Nat) (ws : List Word) : (s.poke off ws).written = s.written := rfl
@[simp] theorem State.poke_taken (s : State) (off : Nat) (ws : List Word) : (s.poke off ws).taken = s.taken := rfl
@[simp] theorem State.poke_capacity (s : State) (off : Nat) (ws : List Word) : (s.poke off ws).capacity = s.capacity := rfl
@[simp] theorem State.poke_heldNotices (s : State) (off : Nat) (ws : List Word) : (s.poke off ws).heldNotices = s.heldNotices := rfl
@[simp] theorem State.poke_lists (s : State) (off : Nat) (ws : List Word) : (s.poke off ws).lists = s.lists := rfl
@[simp] theorem State.poke_lastServed (s : State) (off : Nat) (ws : List Word) : (s.poke off ws).lastServed = s.lastServed := rfl
@[simp] theorem State.poke_elevated (s : State) (off : Nat) (ws : List Word) : (s.poke off ws).elevated = s.elevated := rfl
@[simp] theorem State.poke_rotation (s : State) (off : Nat) (ws : List Word) : (s.poke off ws).rotation = s.rotation := rfl
@[simp] theorem State.poke_scanPeriod (s : State) (off : Nat) (ws : List Word) : (s.poke off ws).scanPeriod = s.scanPeriod := rfl
@[simp] theorem State.poke_scanRunning (s : State) (off : Nat) (ws : List Word) : (s.poke off ws).scanRunning = s.scanRunning := rfl
@[simp] theorem State.poke_maps (s : State) (off : Nat) (ws : List Word) : (s.poke off ws).maps = s.maps := rfl
@[simp] theorem State.poke_engine (s : State) (off : Nat) (ws : List Word) : (s.poke off ws).engine = s.engine := rfl
@[simp] theorem State.poke_stopping (s : State) (off : Nat) (ws : List Word) : (s.poke off ws).stopping = s.stopping := rfl
@[simp] theorem State.poke_failing (s : State) (off : Nat) (ws : List Word) : (s.poke off ws).failing = s.failing := rfl
@[simp] theorem State.poke_pending (s : State) (off : Nat) (ws : List Word) : (s.poke off ws).pending = s.pending := rfl

/-! ## pokePart -/

@[simp] theorem State.pokePart_baseLo (s : State) (off : Nat) (ws : List Word) (n : Nat) : (s.pokePart off ws n).baseLo = s.baseLo := rfl
@[simp] theorem State.pokePart_baseHi (s : State) (off : Nat) (ws : List Word) (n : Nat) : (s.pokePart off ws n).baseHi = s.baseHi := rfl
@[simp] theorem State.pokePart_enables (s : State) (off : Nat) (ws : List Word) (n : Nat) : (s.pokePart off ws n).enables = s.enables := rfl
@[simp] theorem State.pokePart_engineState (s : State) (off : Nat) (ws : List Word) (n : Nat) : (s.pokePart off ws n).engineState = s.engineState := rfl
@[simp] theorem State.pokePart_resetCauses (s : State) (off : Nat) (ws : List Word) (n : Nat) : (s.pokePart off ws n).resetCauses = s.resetCauses := rfl
@[simp] theorem State.pokePart_causes (s : State) (off : Nat) (ws : List Word) (n : Nat) : (s.pokePart off ws n).causes = s.causes := rfl
@[simp] theorem State.pokePart_logFull (s : State) (off : Nat) (ws : List Word) (n : Nat) : (s.pokePart off ws n).logFull = s.logFull := rfl
@[simp] theorem State.pokePart_noticesDropped (s : State) (off : Nat) (ws : List Word) (n : Nat) : (s.pokePart off ws n).noticesDropped = s.noticesDropped := rfl
@[simp] theorem State.pokePart_attachFail (s : State) (off : Nat) (ws : List Word) (n : Nat) : (s.pokePart off ws n).attachFail = s.attachFail := rfl
@[simp] theorem State.pokePart_lines (s : State) (off : Nat) (ws : List Word) (n : Nat) : (s.pokePart off ws n).lines = s.lines := rfl
@[simp] theorem State.pokePart_messages (s : State) (off : Nat) (ws : List Word) (n : Nat) : (s.pokePart off ws n).messages = s.messages := rfl
@[simp] theorem State.pokePart_layout (s : State) (off : Nat) (ws : List Word) (n : Nat) : (s.pokePart off ws n).layout = s.layout := rfl
@[simp] theorem State.pokePart_zones (s : State) (off : Nat) (ws : List Word) (n : Nat) : (s.pokePart off ws n).zones = s.zones := rfl
@[simp] theorem State.pokePart_published (s : State) (off : Nat) (ws : List Word) (n : Nat) : (s.pokePart off ws n).published = s.published := rfl
@[simp] theorem State.pokePart_clock (s : State) (off : Nat) (ws : List Word) (n : Nat) : (s.pokePart off ws n).clock = s.clock := rfl
@[simp] theorem State.pokePart_publicationDue (s : State) (off : Nat) (ws : List Word) (n : Nat) : (s.pokePart off ws n).publicationDue = s.publicationDue := rfl
@[simp] theorem State.pokePart_classes (s : State) (off : Nat) (ws : List Word) (n : Nat) : (s.pokePart off ws n).classes = s.classes := rfl
@[simp] theorem State.pokePart_nv (s : State) (off : Nat) (ws : List Word) (n : Nat) : (s.pokePart off ws n).nv = s.nv := rfl
@[simp] theorem State.pokePart_prog (s : State) (off : Nat) (ws : List Word) (n : Nat) : (s.pokePart off ws n).prog = s.prog := rfl
@[simp] theorem State.pokePart_live (s : State) (off : Nat) (ws : List Word) (n : Nat) : (s.pokePart off ws n).live = s.live := rfl
@[simp] theorem State.pokePart_highest (s : State) (off : Nat) (ws : List Word) (n : Nat) : (s.pokePart off ws n).highest = s.highest := rfl
@[simp] theorem State.pokePart_watch (s : State) (off : Nat) (ws : List Word) (n : Nat) : (s.pokePart off ws n).watch = s.watch := rfl
@[simp] theorem State.pokePart_dueQueue (s : State) (off : Nat) (ws : List Word) (n : Nat) : (s.pokePart off ws n).dueQueue = s.dueQueue := rfl
@[simp] theorem State.pokePart_unwatched (s : State) (off : Nat) (ws : List Word) (n : Nat) : (s.pokePart off ws n).unwatched = s.unwatched := rfl
@[simp] theorem State.pokePart_cursor (s : State) (off : Nat) (ws : List Word) (n : Nat) : (s.pokePart off ws n).cursor = s.cursor := rfl
@[simp] theorem State.pokePart_batch (s : State) (off : Nat) (ws : List Word) (n : Nat) : (s.pokePart off ws n).batch = s.batch := rfl
@[simp] theorem State.pokePart_remaining (s : State) (off : Nat) (ws : List Word) (n : Nat) : (s.pokePart off ws n).remaining = s.remaining := rfl
@[simp] theorem State.pokePart_heldAccount (s : State) (off : Nat) (ws : List Word) (n : Nat) : (s.pokePart off ws n).heldAccount = s.heldAccount := rfl
@[simp] theorem State.pokePart_cacheSets (s : State) (off : Nat) (ws : List Word) (n : Nat) : (s.pokePart off ws n).cacheSets = s.cacheSets := rfl
@[simp] theorem State.pokePart_cacheMode (s : State) (off : Nat) (ws : List Word) (n : Nat) : (s.pokePart off ws n).cacheMode = s.cacheMode := rfl
@[simp] theorem State.pokePart_written (s : State) (off : Nat) (ws : List Word) (n : Nat) : (s.pokePart off ws n).written = s.written := rfl
@[simp] theorem State.pokePart_taken (s : State) (off : Nat) (ws : List Word) (n : Nat) : (s.pokePart off ws n).taken = s.taken := rfl
@[simp] theorem State.pokePart_capacity (s : State) (off : Nat) (ws : List Word) (n : Nat) : (s.pokePart off ws n).capacity = s.capacity := rfl
@[simp] theorem State.pokePart_heldNotices (s : State) (off : Nat) (ws : List Word) (n : Nat) : (s.pokePart off ws n).heldNotices = s.heldNotices := rfl
@[simp] theorem State.pokePart_lists (s : State) (off : Nat) (ws : List Word) (n : Nat) : (s.pokePart off ws n).lists = s.lists := rfl
@[simp] theorem State.pokePart_lastServed (s : State) (off : Nat) (ws : List Word) (n : Nat) : (s.pokePart off ws n).lastServed = s.lastServed := rfl
@[simp] theorem State.pokePart_elevated (s : State) (off : Nat) (ws : List Word) (n : Nat) : (s.pokePart off ws n).elevated = s.elevated := rfl
@[simp] theorem State.pokePart_rotation (s : State) (off : Nat) (ws : List Word) (n : Nat) : (s.pokePart off ws n).rotation = s.rotation := rfl
@[simp] theorem State.pokePart_scanPeriod (s : State) (off : Nat) (ws : List Word) (n : Nat) : (s.pokePart off ws n).scanPeriod = s.scanPeriod := rfl
@[simp] theorem State.pokePart_scanRunning (s : State) (off : Nat) (ws : List Word) (n : Nat) : (s.pokePart off ws n).scanRunning = s.scanRunning := rfl
@[simp] theorem State.pokePart_maps (s : State) (off : Nat) (ws : List Word) (n : Nat) : (s.pokePart off ws n).maps = s.maps := rfl
@[simp] theorem State.pokePart_engine (s : State) (off : Nat) (ws : List Word) (n : Nat) : (s.pokePart off ws n).engine = s.engine := rfl
@[simp] theorem State.pokePart_stopping (s : State) (off : Nat) (ws : List Word) (n : Nat) : (s.pokePart off ws n).stopping = s.stopping := rfl
@[simp] theorem State.pokePart_failing (s : State) (off : Nat) (ws : List Word) (n : Nat) : (s.pokePart off ws n).failing = s.failing := rfl
@[simp] theorem State.pokePart_pending (s : State) (off : Nat) (ws : List Word) (n : Nat) : (s.pokePart off ws n).pending = s.pending := rfl

/-! ## raiseCause -/

@[simp] theorem State.raiseCause_baseLo (s : State) (c : Cause) : (s.raiseCause c).baseLo = s.baseLo := by unfold State.raiseCause; split <;> rfl
@[simp] theorem State.raiseCause_baseHi (s : State) (c : Cause) : (s.raiseCause c).baseHi = s.baseHi := by unfold State.raiseCause; split <;> rfl
@[simp] theorem State.raiseCause_enables (s : State) (c : Cause) : (s.raiseCause c).enables = s.enables := by unfold State.raiseCause; split <;> rfl
@[simp] theorem State.raiseCause_engineState (s : State) (c : Cause) : (s.raiseCause c).engineState = s.engineState := by unfold State.raiseCause; split <;> rfl
@[simp] theorem State.raiseCause_resetCauses (s : State) (c : Cause) : (s.raiseCause c).resetCauses = s.resetCauses := by unfold State.raiseCause; split <;> rfl
@[simp] theorem State.raiseCause_logFull (s : State) (c : Cause) : (s.raiseCause c).logFull = s.logFull := by unfold State.raiseCause; split <;> rfl
@[simp] theorem State.raiseCause_noticesDropped (s : State) (c : Cause) : (s.raiseCause c).noticesDropped = s.noticesDropped := by unfold State.raiseCause; split <;> rfl
@[simp] theorem State.raiseCause_attachFail (s : State) (c : Cause) : (s.raiseCause c).attachFail = s.attachFail := by unfold State.raiseCause; split <;> rfl
@[simp] theorem State.raiseCause_lines (s : State) (c : Cause) : (s.raiseCause c).lines = s.lines := by unfold State.raiseCause; split <;> rfl
@[simp] theorem State.raiseCause_mem (s : State) (c : Cause) : (s.raiseCause c).mem = s.mem := by unfold State.raiseCause; split <;> rfl
@[simp] theorem State.raiseCause_layout (s : State) (c : Cause) : (s.raiseCause c).layout = s.layout := by unfold State.raiseCause; split <;> rfl
@[simp] theorem State.raiseCause_zones (s : State) (c : Cause) : (s.raiseCause c).zones = s.zones := by unfold State.raiseCause; split <;> rfl
@[simp] theorem State.raiseCause_published (s : State) (c : Cause) : (s.raiseCause c).published = s.published := by unfold State.raiseCause; split <;> rfl
@[simp] theorem State.raiseCause_clock (s : State) (c : Cause) : (s.raiseCause c).clock = s.clock := by unfold State.raiseCause; split <;> rfl
@[simp] theorem State.raiseCause_publicationDue (s : State) (c : Cause) : (s.raiseCause c).publicationDue = s.publicationDue := by unfold State.raiseCause; split <;> rfl
@[simp] theorem State.raiseCause_classes (s : State) (c : Cause) : (s.raiseCause c).classes = s.classes := by unfold State.raiseCause; split <;> rfl
@[simp] theorem State.raiseCause_nv (s : State) (c : Cause) : (s.raiseCause c).nv = s.nv := by unfold State.raiseCause; split <;> rfl
@[simp] theorem State.raiseCause_prog (s : State) (c : Cause) : (s.raiseCause c).prog = s.prog := by unfold State.raiseCause; split <;> rfl
@[simp] theorem State.raiseCause_live (s : State) (c : Cause) : (s.raiseCause c).live = s.live := by unfold State.raiseCause; split <;> rfl
@[simp] theorem State.raiseCause_highest (s : State) (c : Cause) : (s.raiseCause c).highest = s.highest := by unfold State.raiseCause; split <;> rfl
@[simp] theorem State.raiseCause_watch (s : State) (c : Cause) : (s.raiseCause c).watch = s.watch := by unfold State.raiseCause; split <;> rfl
@[simp] theorem State.raiseCause_dueQueue (s : State) (c : Cause) : (s.raiseCause c).dueQueue = s.dueQueue := by unfold State.raiseCause; split <;> rfl
@[simp] theorem State.raiseCause_unwatched (s : State) (c : Cause) : (s.raiseCause c).unwatched = s.unwatched := by unfold State.raiseCause; split <;> rfl
@[simp] theorem State.raiseCause_cursor (s : State) (c : Cause) : (s.raiseCause c).cursor = s.cursor := by unfold State.raiseCause; split <;> rfl
@[simp] theorem State.raiseCause_batch (s : State) (c : Cause) : (s.raiseCause c).batch = s.batch := by unfold State.raiseCause; split <;> rfl
@[simp] theorem State.raiseCause_remaining (s : State) (c : Cause) : (s.raiseCause c).remaining = s.remaining := by unfold State.raiseCause; split <;> rfl
@[simp] theorem State.raiseCause_heldAccount (s : State) (c : Cause) : (s.raiseCause c).heldAccount = s.heldAccount := by unfold State.raiseCause; split <;> rfl
@[simp] theorem State.raiseCause_cacheSets (s : State) (c : Cause) : (s.raiseCause c).cacheSets = s.cacheSets := by unfold State.raiseCause; split <;> rfl
@[simp] theorem State.raiseCause_cacheMode (s : State) (c : Cause) : (s.raiseCause c).cacheMode = s.cacheMode := by unfold State.raiseCause; split <;> rfl
@[simp] theorem State.raiseCause_written (s : State) (c : Cause) : (s.raiseCause c).written = s.written := by unfold State.raiseCause; split <;> rfl
@[simp] theorem State.raiseCause_taken (s : State) (c : Cause) : (s.raiseCause c).taken = s.taken := by unfold State.raiseCause; split <;> rfl
@[simp] theorem State.raiseCause_capacity (s : State) (c : Cause) : (s.raiseCause c).capacity = s.capacity := by unfold State.raiseCause; split <;> rfl
@[simp] theorem State.raiseCause_heldNotices (s : State) (c : Cause) : (s.raiseCause c).heldNotices = s.heldNotices := by unfold State.raiseCause; split <;> rfl
@[simp] theorem State.raiseCause_lists (s : State) (c : Cause) : (s.raiseCause c).lists = s.lists := by unfold State.raiseCause; split <;> rfl
@[simp] theorem State.raiseCause_lastServed (s : State) (c : Cause) : (s.raiseCause c).lastServed = s.lastServed := by unfold State.raiseCause; split <;> rfl
@[simp] theorem State.raiseCause_elevated (s : State) (c : Cause) : (s.raiseCause c).elevated = s.elevated := by unfold State.raiseCause; split <;> rfl
@[simp] theorem State.raiseCause_rotation (s : State) (c : Cause) : (s.raiseCause c).rotation = s.rotation := by unfold State.raiseCause; split <;> rfl
@[simp] theorem State.raiseCause_scanPeriod (s : State) (c : Cause) : (s.raiseCause c).scanPeriod = s.scanPeriod := by unfold State.raiseCause; split <;> rfl
@[simp] theorem State.raiseCause_scanRunning (s : State) (c : Cause) : (s.raiseCause c).scanRunning = s.scanRunning := by unfold State.raiseCause; split <;> rfl
@[simp] theorem State.raiseCause_maps (s : State) (c : Cause) : (s.raiseCause c).maps = s.maps := by unfold State.raiseCause; split <;> rfl
@[simp] theorem State.raiseCause_engine (s : State) (c : Cause) : (s.raiseCause c).engine = s.engine := by unfold State.raiseCause; split <;> rfl
@[simp] theorem State.raiseCause_stopping (s : State) (c : Cause) : (s.raiseCause c).stopping = s.stopping := by unfold State.raiseCause; split <;> rfl
@[simp] theorem State.raiseCause_failing (s : State) (c : Cause) : (s.raiseCause c).failing = s.failing := by unfold State.raiseCause; split <;> rfl
@[simp] theorem State.raiseCause_pending (s : State) (c : Cause) : (s.raiseCause c).pending = s.pending := by unfold State.raiseCause; split <;> rfl

/-! ## drive -/

@[simp] theorem State.drive_baseLo (s : State) : (s.drive).baseLo = s.baseLo := rfl
@[simp] theorem State.drive_baseHi (s : State) : (s.drive).baseHi = s.baseHi := rfl
@[simp] theorem State.drive_enables (s : State) : (s.drive).enables = s.enables := rfl
@[simp] theorem State.drive_engineState (s : State) : (s.drive).engineState = s.engineState := rfl
@[simp] theorem State.drive_resetCauses (s : State) : (s.drive).resetCauses = s.resetCauses := rfl
@[simp] theorem State.drive_causes (s : State) : (s.drive).causes = s.causes := rfl
@[simp] theorem State.drive_logFull (s : State) : (s.drive).logFull = s.logFull := rfl
@[simp] theorem State.drive_noticesDropped (s : State) : (s.drive).noticesDropped = s.noticesDropped := rfl
@[simp] theorem State.drive_attachFail (s : State) : (s.drive).attachFail = s.attachFail := rfl
@[simp] theorem State.drive_messages (s : State) : (s.drive).messages = s.messages := rfl
@[simp] theorem State.drive_mem (s : State) : (s.drive).mem = s.mem := rfl
@[simp] theorem State.drive_layout (s : State) : (s.drive).layout = s.layout := rfl
@[simp] theorem State.drive_zones (s : State) : (s.drive).zones = s.zones := rfl
@[simp] theorem State.drive_published (s : State) : (s.drive).published = s.published := rfl
@[simp] theorem State.drive_clock (s : State) : (s.drive).clock = s.clock := rfl
@[simp] theorem State.drive_publicationDue (s : State) : (s.drive).publicationDue = s.publicationDue := rfl
@[simp] theorem State.drive_classes (s : State) : (s.drive).classes = s.classes := rfl
@[simp] theorem State.drive_nv (s : State) : (s.drive).nv = s.nv := rfl
@[simp] theorem State.drive_prog (s : State) : (s.drive).prog = s.prog := rfl
@[simp] theorem State.drive_live (s : State) : (s.drive).live = s.live := rfl
@[simp] theorem State.drive_highest (s : State) : (s.drive).highest = s.highest := rfl
@[simp] theorem State.drive_watch (s : State) : (s.drive).watch = s.watch := rfl
@[simp] theorem State.drive_dueQueue (s : State) : (s.drive).dueQueue = s.dueQueue := rfl
@[simp] theorem State.drive_unwatched (s : State) : (s.drive).unwatched = s.unwatched := rfl
@[simp] theorem State.drive_cursor (s : State) : (s.drive).cursor = s.cursor := rfl
@[simp] theorem State.drive_batch (s : State) : (s.drive).batch = s.batch := rfl
@[simp] theorem State.drive_remaining (s : State) : (s.drive).remaining = s.remaining := rfl
@[simp] theorem State.drive_heldAccount (s : State) : (s.drive).heldAccount = s.heldAccount := rfl
@[simp] theorem State.drive_cacheSets (s : State) : (s.drive).cacheSets = s.cacheSets := rfl
@[simp] theorem State.drive_cacheMode (s : State) : (s.drive).cacheMode = s.cacheMode := rfl
@[simp] theorem State.drive_written (s : State) : (s.drive).written = s.written := rfl
@[simp] theorem State.drive_taken (s : State) : (s.drive).taken = s.taken := rfl
@[simp] theorem State.drive_capacity (s : State) : (s.drive).capacity = s.capacity := rfl
@[simp] theorem State.drive_heldNotices (s : State) : (s.drive).heldNotices = s.heldNotices := rfl
@[simp] theorem State.drive_lists (s : State) : (s.drive).lists = s.lists := rfl
@[simp] theorem State.drive_lastServed (s : State) : (s.drive).lastServed = s.lastServed := rfl
@[simp] theorem State.drive_elevated (s : State) : (s.drive).elevated = s.elevated := rfl
@[simp] theorem State.drive_rotation (s : State) : (s.drive).rotation = s.rotation := rfl
@[simp] theorem State.drive_scanPeriod (s : State) : (s.drive).scanPeriod = s.scanPeriod := rfl
@[simp] theorem State.drive_scanRunning (s : State) : (s.drive).scanRunning = s.scanRunning := rfl
@[simp] theorem State.drive_maps (s : State) : (s.drive).maps = s.maps := rfl
@[simp] theorem State.drive_engine (s : State) : (s.drive).engine = s.engine := rfl
@[simp] theorem State.drive_stopping (s : State) : (s.drive).stopping = s.stopping := rfl
@[simp] theorem State.drive_failing (s : State) : (s.drive).failing = s.failing := rfl
@[simp] theorem State.drive_pending (s : State) : (s.drive).pending = s.pending := rfl

/-! ## countZone -/

@[simp] theorem State.countZone_baseLo (s : State) (z : ZoneNo) (o e : Int) : (s.countZone z o e).baseLo = s.baseLo := rfl
@[simp] theorem State.countZone_baseHi (s : State) (z : ZoneNo) (o e : Int) : (s.countZone z o e).baseHi = s.baseHi := rfl
@[simp] theorem State.countZone_enables (s : State) (z : ZoneNo) (o e : Int) : (s.countZone z o e).enables = s.enables := rfl
@[simp] theorem State.countZone_engineState (s : State) (z : ZoneNo) (o e : Int) : (s.countZone z o e).engineState = s.engineState := rfl
@[simp] theorem State.countZone_resetCauses (s : State) (z : ZoneNo) (o e : Int) : (s.countZone z o e).resetCauses = s.resetCauses := rfl
@[simp] theorem State.countZone_causes (s : State) (z : ZoneNo) (o e : Int) : (s.countZone z o e).causes = s.causes := rfl
@[simp] theorem State.countZone_logFull (s : State) (z : ZoneNo) (o e : Int) : (s.countZone z o e).logFull = s.logFull := rfl
@[simp] theorem State.countZone_noticesDropped (s : State) (z : ZoneNo) (o e : Int) : (s.countZone z o e).noticesDropped = s.noticesDropped := rfl
@[simp] theorem State.countZone_attachFail (s : State) (z : ZoneNo) (o e : Int) : (s.countZone z o e).attachFail = s.attachFail := rfl
@[simp] theorem State.countZone_lines (s : State) (z : ZoneNo) (o e : Int) : (s.countZone z o e).lines = s.lines := rfl
@[simp] theorem State.countZone_messages (s : State) (z : ZoneNo) (o e : Int) : (s.countZone z o e).messages = s.messages := rfl
@[simp] theorem State.countZone_mem (s : State) (z : ZoneNo) (o e : Int) : (s.countZone z o e).mem = s.mem := rfl
@[simp] theorem State.countZone_layout (s : State) (z : ZoneNo) (o e : Int) : (s.countZone z o e).layout = s.layout := rfl
@[simp] theorem State.countZone_published (s : State) (z : ZoneNo) (o e : Int) : (s.countZone z o e).published = s.published := rfl
@[simp] theorem State.countZone_clock (s : State) (z : ZoneNo) (o e : Int) : (s.countZone z o e).clock = s.clock := rfl
@[simp] theorem State.countZone_publicationDue (s : State) (z : ZoneNo) (o e : Int) : (s.countZone z o e).publicationDue = s.publicationDue := rfl
@[simp] theorem State.countZone_classes (s : State) (z : ZoneNo) (o e : Int) : (s.countZone z o e).classes = s.classes := rfl
@[simp] theorem State.countZone_nv (s : State) (z : ZoneNo) (o e : Int) : (s.countZone z o e).nv = s.nv := rfl
@[simp] theorem State.countZone_prog (s : State) (z : ZoneNo) (o e : Int) : (s.countZone z o e).prog = s.prog := rfl
@[simp] theorem State.countZone_live (s : State) (z : ZoneNo) (o e : Int) : (s.countZone z o e).live = s.live := rfl
@[simp] theorem State.countZone_highest (s : State) (z : ZoneNo) (o e : Int) : (s.countZone z o e).highest = s.highest := rfl
@[simp] theorem State.countZone_watch (s : State) (z : ZoneNo) (o e : Int) : (s.countZone z o e).watch = s.watch := rfl
@[simp] theorem State.countZone_dueQueue (s : State) (z : ZoneNo) (o e : Int) : (s.countZone z o e).dueQueue = s.dueQueue := rfl
@[simp] theorem State.countZone_unwatched (s : State) (z : ZoneNo) (o e : Int) : (s.countZone z o e).unwatched = s.unwatched := rfl
@[simp] theorem State.countZone_cursor (s : State) (z : ZoneNo) (o e : Int) : (s.countZone z o e).cursor = s.cursor := rfl
@[simp] theorem State.countZone_batch (s : State) (z : ZoneNo) (o e : Int) : (s.countZone z o e).batch = s.batch := rfl
@[simp] theorem State.countZone_remaining (s : State) (z : ZoneNo) (o e : Int) : (s.countZone z o e).remaining = s.remaining := rfl
@[simp] theorem State.countZone_heldAccount (s : State) (z : ZoneNo) (o e : Int) : (s.countZone z o e).heldAccount = s.heldAccount := rfl
@[simp] theorem State.countZone_cacheSets (s : State) (z : ZoneNo) (o e : Int) : (s.countZone z o e).cacheSets = s.cacheSets := rfl
@[simp] theorem State.countZone_cacheMode (s : State) (z : ZoneNo) (o e : Int) : (s.countZone z o e).cacheMode = s.cacheMode := rfl
@[simp] theorem State.countZone_written (s : State) (z : ZoneNo) (o e : Int) : (s.countZone z o e).written = s.written := rfl
@[simp] theorem State.countZone_taken (s : State) (z : ZoneNo) (o e : Int) : (s.countZone z o e).taken = s.taken := rfl
@[simp] theorem State.countZone_capacity (s : State) (z : ZoneNo) (o e : Int) : (s.countZone z o e).capacity = s.capacity := rfl
@[simp] theorem State.countZone_heldNotices (s : State) (z : ZoneNo) (o e : Int) : (s.countZone z o e).heldNotices = s.heldNotices := rfl
@[simp] theorem State.countZone_lists (s : State) (z : ZoneNo) (o e : Int) : (s.countZone z o e).lists = s.lists := rfl
@[simp] theorem State.countZone_lastServed (s : State) (z : ZoneNo) (o e : Int) : (s.countZone z o e).lastServed = s.lastServed := rfl
@[simp] theorem State.countZone_elevated (s : State) (z : ZoneNo) (o e : Int) : (s.countZone z o e).elevated = s.elevated := rfl
@[simp] theorem State.countZone_rotation (s : State) (z : ZoneNo) (o e : Int) : (s.countZone z o e).rotation = s.rotation := rfl
@[simp] theorem State.countZone_scanPeriod (s : State) (z : ZoneNo) (o e : Int) : (s.countZone z o e).scanPeriod = s.scanPeriod := rfl
@[simp] theorem State.countZone_scanRunning (s : State) (z : ZoneNo) (o e : Int) : (s.countZone z o e).scanRunning = s.scanRunning := rfl
@[simp] theorem State.countZone_maps (s : State) (z : ZoneNo) (o e : Int) : (s.countZone z o e).maps = s.maps := rfl
@[simp] theorem State.countZone_engine (s : State) (z : ZoneNo) (o e : Int) : (s.countZone z o e).engine = s.engine := rfl
@[simp] theorem State.countZone_stopping (s : State) (z : ZoneNo) (o e : Int) : (s.countZone z o e).stopping = s.stopping := rfl
@[simp] theorem State.countZone_failing (s : State) (z : ZoneNo) (o e : Int) : (s.countZone z o e).failing = s.failing := rfl
@[simp] theorem State.countZone_pending (s : State) (z : ZoneNo) (o e : Int) : (s.countZone z o e).pending = s.pending := rfl

/-! ## countLive -/

@[simp] theorem State.countLive_baseLo (s : State) (c : ClassNo) (d : Int) : (s.countLive c d).baseLo = s.baseLo := rfl
@[simp] theorem State.countLive_baseHi (s : State) (c : ClassNo) (d : Int) : (s.countLive c d).baseHi = s.baseHi := rfl
@[simp] theorem State.countLive_enables (s : State) (c : ClassNo) (d : Int) : (s.countLive c d).enables = s.enables := rfl
@[simp] theorem State.countLive_engineState (s : State) (c : ClassNo) (d : Int) : (s.countLive c d).engineState = s.engineState := rfl
@[simp] theorem State.countLive_resetCauses (s : State) (c : ClassNo) (d : Int) : (s.countLive c d).resetCauses = s.resetCauses := rfl
@[simp] theorem State.countLive_causes (s : State) (c : ClassNo) (d : Int) : (s.countLive c d).causes = s.causes := rfl
@[simp] theorem State.countLive_logFull (s : State) (c : ClassNo) (d : Int) : (s.countLive c d).logFull = s.logFull := rfl
@[simp] theorem State.countLive_noticesDropped (s : State) (c : ClassNo) (d : Int) : (s.countLive c d).noticesDropped = s.noticesDropped := rfl
@[simp] theorem State.countLive_attachFail (s : State) (c : ClassNo) (d : Int) : (s.countLive c d).attachFail = s.attachFail := rfl
@[simp] theorem State.countLive_lines (s : State) (c : ClassNo) (d : Int) : (s.countLive c d).lines = s.lines := rfl
@[simp] theorem State.countLive_messages (s : State) (c : ClassNo) (d : Int) : (s.countLive c d).messages = s.messages := rfl
@[simp] theorem State.countLive_mem (s : State) (c : ClassNo) (d : Int) : (s.countLive c d).mem = s.mem := rfl
@[simp] theorem State.countLive_layout (s : State) (c : ClassNo) (d : Int) : (s.countLive c d).layout = s.layout := rfl
@[simp] theorem State.countLive_zones (s : State) (c : ClassNo) (d : Int) : (s.countLive c d).zones = s.zones := rfl
@[simp] theorem State.countLive_published (s : State) (c : ClassNo) (d : Int) : (s.countLive c d).published = s.published := rfl
@[simp] theorem State.countLive_clock (s : State) (c : ClassNo) (d : Int) : (s.countLive c d).clock = s.clock := rfl
@[simp] theorem State.countLive_publicationDue (s : State) (c : ClassNo) (d : Int) : (s.countLive c d).publicationDue = s.publicationDue := rfl
@[simp] theorem State.countLive_classes (s : State) (c : ClassNo) (d : Int) : (s.countLive c d).classes = s.classes := rfl
@[simp] theorem State.countLive_nv (s : State) (c : ClassNo) (d : Int) : (s.countLive c d).nv = s.nv := rfl
@[simp] theorem State.countLive_prog (s : State) (c : ClassNo) (d : Int) : (s.countLive c d).prog = s.prog := rfl
@[simp] theorem State.countLive_highest (s : State) (c : ClassNo) (d : Int) : (s.countLive c d).highest = s.highest := rfl
@[simp] theorem State.countLive_watch (s : State) (c : ClassNo) (d : Int) : (s.countLive c d).watch = s.watch := rfl
@[simp] theorem State.countLive_dueQueue (s : State) (c : ClassNo) (d : Int) : (s.countLive c d).dueQueue = s.dueQueue := rfl
@[simp] theorem State.countLive_unwatched (s : State) (c : ClassNo) (d : Int) : (s.countLive c d).unwatched = s.unwatched := rfl
@[simp] theorem State.countLive_cursor (s : State) (c : ClassNo) (d : Int) : (s.countLive c d).cursor = s.cursor := rfl
@[simp] theorem State.countLive_batch (s : State) (c : ClassNo) (d : Int) : (s.countLive c d).batch = s.batch := rfl
@[simp] theorem State.countLive_remaining (s : State) (c : ClassNo) (d : Int) : (s.countLive c d).remaining = s.remaining := rfl
@[simp] theorem State.countLive_heldAccount (s : State) (c : ClassNo) (d : Int) : (s.countLive c d).heldAccount = s.heldAccount := rfl
@[simp] theorem State.countLive_cacheSets (s : State) (c : ClassNo) (d : Int) : (s.countLive c d).cacheSets = s.cacheSets := rfl
@[simp] theorem State.countLive_cacheMode (s : State) (c : ClassNo) (d : Int) : (s.countLive c d).cacheMode = s.cacheMode := rfl
@[simp] theorem State.countLive_written (s : State) (c : ClassNo) (d : Int) : (s.countLive c d).written = s.written := rfl
@[simp] theorem State.countLive_taken (s : State) (c : ClassNo) (d : Int) : (s.countLive c d).taken = s.taken := rfl
@[simp] theorem State.countLive_capacity (s : State) (c : ClassNo) (d : Int) : (s.countLive c d).capacity = s.capacity := rfl
@[simp] theorem State.countLive_heldNotices (s : State) (c : ClassNo) (d : Int) : (s.countLive c d).heldNotices = s.heldNotices := rfl
@[simp] theorem State.countLive_lists (s : State) (c : ClassNo) (d : Int) : (s.countLive c d).lists = s.lists := rfl
@[simp] theorem State.countLive_lastServed (s : State) (c : ClassNo) (d : Int) : (s.countLive c d).lastServed = s.lastServed := rfl
@[simp] theorem State.countLive_elevated (s : State) (c : ClassNo) (d : Int) : (s.countLive c d).elevated = s.elevated := rfl
@[simp] theorem State.countLive_rotation (s : State) (c : ClassNo) (d : Int) : (s.countLive c d).rotation = s.rotation := rfl
@[simp] theorem State.countLive_scanPeriod (s : State) (c : ClassNo) (d : Int) : (s.countLive c d).scanPeriod = s.scanPeriod := rfl
@[simp] theorem State.countLive_scanRunning (s : State) (c : ClassNo) (d : Int) : (s.countLive c d).scanRunning = s.scanRunning := rfl
@[simp] theorem State.countLive_maps (s : State) (c : ClassNo) (d : Int) : (s.countLive c d).maps = s.maps := rfl
@[simp] theorem State.countLive_engine (s : State) (c : ClassNo) (d : Int) : (s.countLive c d).engine = s.engine := rfl
@[simp] theorem State.countLive_stopping (s : State) (c : ClassNo) (d : Int) : (s.countLive c d).stopping = s.stopping := rfl
@[simp] theorem State.countLive_failing (s : State) (c : ClassNo) (d : Int) : (s.countLive c d).failing = s.failing := rfl
@[simp] theorem State.countLive_pending (s : State) (c : ClassNo) (d : Int) : (s.countLive c d).pending = s.pending := rfl

/-! ## raiseHighest -/

@[simp] theorem State.raiseHighest_baseLo (s : State) (c : ClassNo) (n : Nat) : (s.raiseHighest c n).baseLo = s.baseLo := rfl
@[simp] theorem State.raiseHighest_baseHi (s : State) (c : ClassNo) (n : Nat) : (s.raiseHighest c n).baseHi = s.baseHi := rfl
@[simp] theorem State.raiseHighest_enables (s : State) (c : ClassNo) (n : Nat) : (s.raiseHighest c n).enables = s.enables := rfl
@[simp] theorem State.raiseHighest_engineState (s : State) (c : ClassNo) (n : Nat) : (s.raiseHighest c n).engineState = s.engineState := rfl
@[simp] theorem State.raiseHighest_resetCauses (s : State) (c : ClassNo) (n : Nat) : (s.raiseHighest c n).resetCauses = s.resetCauses := rfl
@[simp] theorem State.raiseHighest_causes (s : State) (c : ClassNo) (n : Nat) : (s.raiseHighest c n).causes = s.causes := rfl
@[simp] theorem State.raiseHighest_logFull (s : State) (c : ClassNo) (n : Nat) : (s.raiseHighest c n).logFull = s.logFull := rfl
@[simp] theorem State.raiseHighest_noticesDropped (s : State) (c : ClassNo) (n : Nat) : (s.raiseHighest c n).noticesDropped = s.noticesDropped := rfl
@[simp] theorem State.raiseHighest_attachFail (s : State) (c : ClassNo) (n : Nat) : (s.raiseHighest c n).attachFail = s.attachFail := rfl
@[simp] theorem State.raiseHighest_lines (s : State) (c : ClassNo) (n : Nat) : (s.raiseHighest c n).lines = s.lines := rfl
@[simp] theorem State.raiseHighest_messages (s : State) (c : ClassNo) (n : Nat) : (s.raiseHighest c n).messages = s.messages := rfl
@[simp] theorem State.raiseHighest_mem (s : State) (c : ClassNo) (n : Nat) : (s.raiseHighest c n).mem = s.mem := rfl
@[simp] theorem State.raiseHighest_layout (s : State) (c : ClassNo) (n : Nat) : (s.raiseHighest c n).layout = s.layout := rfl
@[simp] theorem State.raiseHighest_zones (s : State) (c : ClassNo) (n : Nat) : (s.raiseHighest c n).zones = s.zones := rfl
@[simp] theorem State.raiseHighest_published (s : State) (c : ClassNo) (n : Nat) : (s.raiseHighest c n).published = s.published := rfl
@[simp] theorem State.raiseHighest_clock (s : State) (c : ClassNo) (n : Nat) : (s.raiseHighest c n).clock = s.clock := rfl
@[simp] theorem State.raiseHighest_publicationDue (s : State) (c : ClassNo) (n : Nat) : (s.raiseHighest c n).publicationDue = s.publicationDue := rfl
@[simp] theorem State.raiseHighest_classes (s : State) (c : ClassNo) (n : Nat) : (s.raiseHighest c n).classes = s.classes := rfl
@[simp] theorem State.raiseHighest_nv (s : State) (c : ClassNo) (n : Nat) : (s.raiseHighest c n).nv = s.nv := rfl
@[simp] theorem State.raiseHighest_prog (s : State) (c : ClassNo) (n : Nat) : (s.raiseHighest c n).prog = s.prog := rfl
@[simp] theorem State.raiseHighest_live (s : State) (c : ClassNo) (n : Nat) : (s.raiseHighest c n).live = s.live := rfl
@[simp] theorem State.raiseHighest_watch (s : State) (c : ClassNo) (n : Nat) : (s.raiseHighest c n).watch = s.watch := rfl
@[simp] theorem State.raiseHighest_dueQueue (s : State) (c : ClassNo) (n : Nat) : (s.raiseHighest c n).dueQueue = s.dueQueue := rfl
@[simp] theorem State.raiseHighest_unwatched (s : State) (c : ClassNo) (n : Nat) : (s.raiseHighest c n).unwatched = s.unwatched := rfl
@[simp] theorem State.raiseHighest_cursor (s : State) (c : ClassNo) (n : Nat) : (s.raiseHighest c n).cursor = s.cursor := rfl
@[simp] theorem State.raiseHighest_batch (s : State) (c : ClassNo) (n : Nat) : (s.raiseHighest c n).batch = s.batch := rfl
@[simp] theorem State.raiseHighest_remaining (s : State) (c : ClassNo) (n : Nat) : (s.raiseHighest c n).remaining = s.remaining := rfl
@[simp] theorem State.raiseHighest_heldAccount (s : State) (c : ClassNo) (n : Nat) : (s.raiseHighest c n).heldAccount = s.heldAccount := rfl
@[simp] theorem State.raiseHighest_cacheSets (s : State) (c : ClassNo) (n : Nat) : (s.raiseHighest c n).cacheSets = s.cacheSets := rfl
@[simp] theorem State.raiseHighest_cacheMode (s : State) (c : ClassNo) (n : Nat) : (s.raiseHighest c n).cacheMode = s.cacheMode := rfl
@[simp] theorem State.raiseHighest_written (s : State) (c : ClassNo) (n : Nat) : (s.raiseHighest c n).written = s.written := rfl
@[simp] theorem State.raiseHighest_taken (s : State) (c : ClassNo) (n : Nat) : (s.raiseHighest c n).taken = s.taken := rfl
@[simp] theorem State.raiseHighest_capacity (s : State) (c : ClassNo) (n : Nat) : (s.raiseHighest c n).capacity = s.capacity := rfl
@[simp] theorem State.raiseHighest_heldNotices (s : State) (c : ClassNo) (n : Nat) : (s.raiseHighest c n).heldNotices = s.heldNotices := rfl
@[simp] theorem State.raiseHighest_lists (s : State) (c : ClassNo) (n : Nat) : (s.raiseHighest c n).lists = s.lists := rfl
@[simp] theorem State.raiseHighest_lastServed (s : State) (c : ClassNo) (n : Nat) : (s.raiseHighest c n).lastServed = s.lastServed := rfl
@[simp] theorem State.raiseHighest_elevated (s : State) (c : ClassNo) (n : Nat) : (s.raiseHighest c n).elevated = s.elevated := rfl
@[simp] theorem State.raiseHighest_rotation (s : State) (c : ClassNo) (n : Nat) : (s.raiseHighest c n).rotation = s.rotation := rfl
@[simp] theorem State.raiseHighest_scanPeriod (s : State) (c : ClassNo) (n : Nat) : (s.raiseHighest c n).scanPeriod = s.scanPeriod := rfl
@[simp] theorem State.raiseHighest_scanRunning (s : State) (c : ClassNo) (n : Nat) : (s.raiseHighest c n).scanRunning = s.scanRunning := rfl
@[simp] theorem State.raiseHighest_maps (s : State) (c : ClassNo) (n : Nat) : (s.raiseHighest c n).maps = s.maps := rfl
@[simp] theorem State.raiseHighest_engine (s : State) (c : ClassNo) (n : Nat) : (s.raiseHighest c n).engine = s.engine := rfl
@[simp] theorem State.raiseHighest_stopping (s : State) (c : ClassNo) (n : Nat) : (s.raiseHighest c n).stopping = s.stopping := rfl
@[simp] theorem State.raiseHighest_failing (s : State) (c : ClassNo) (n : Nat) : (s.raiseHighest c n).failing = s.failing := rfl
@[simp] theorem State.raiseHighest_pending (s : State) (c : ClassNo) (n : Nat) : (s.raiseHighest c n).pending = s.pending := rfl

/-! ## setFaultHold -/

@[simp] theorem State.setFaultHold_baseLo (s : State) (z : ZoneNo) : (s.setFaultHold z).baseLo = s.baseLo := rfl
@[simp] theorem State.setFaultHold_baseHi (s : State) (z : ZoneNo) : (s.setFaultHold z).baseHi = s.baseHi := rfl
@[simp] theorem State.setFaultHold_enables (s : State) (z : ZoneNo) : (s.setFaultHold z).enables = s.enables := rfl
@[simp] theorem State.setFaultHold_engineState (s : State) (z : ZoneNo) : (s.setFaultHold z).engineState = s.engineState := rfl
@[simp] theorem State.setFaultHold_resetCauses (s : State) (z : ZoneNo) : (s.setFaultHold z).resetCauses = s.resetCauses := rfl
@[simp] theorem State.setFaultHold_causes (s : State) (z : ZoneNo) : (s.setFaultHold z).causes = s.causes := rfl
@[simp] theorem State.setFaultHold_logFull (s : State) (z : ZoneNo) : (s.setFaultHold z).logFull = s.logFull := rfl
@[simp] theorem State.setFaultHold_noticesDropped (s : State) (z : ZoneNo) : (s.setFaultHold z).noticesDropped = s.noticesDropped := rfl
@[simp] theorem State.setFaultHold_attachFail (s : State) (z : ZoneNo) : (s.setFaultHold z).attachFail = s.attachFail := rfl
@[simp] theorem State.setFaultHold_lines (s : State) (z : ZoneNo) : (s.setFaultHold z).lines = s.lines := rfl
@[simp] theorem State.setFaultHold_messages (s : State) (z : ZoneNo) : (s.setFaultHold z).messages = s.messages := rfl
@[simp] theorem State.setFaultHold_mem (s : State) (z : ZoneNo) : (s.setFaultHold z).mem = s.mem := rfl
@[simp] theorem State.setFaultHold_layout (s : State) (z : ZoneNo) : (s.setFaultHold z).layout = s.layout := rfl
@[simp] theorem State.setFaultHold_published (s : State) (z : ZoneNo) : (s.setFaultHold z).published = s.published := rfl
@[simp] theorem State.setFaultHold_clock (s : State) (z : ZoneNo) : (s.setFaultHold z).clock = s.clock := rfl
@[simp] theorem State.setFaultHold_publicationDue (s : State) (z : ZoneNo) : (s.setFaultHold z).publicationDue = s.publicationDue := rfl
@[simp] theorem State.setFaultHold_classes (s : State) (z : ZoneNo) : (s.setFaultHold z).classes = s.classes := rfl
@[simp] theorem State.setFaultHold_nv (s : State) (z : ZoneNo) : (s.setFaultHold z).nv = s.nv := rfl
@[simp] theorem State.setFaultHold_prog (s : State) (z : ZoneNo) : (s.setFaultHold z).prog = s.prog := rfl
@[simp] theorem State.setFaultHold_live (s : State) (z : ZoneNo) : (s.setFaultHold z).live = s.live := rfl
@[simp] theorem State.setFaultHold_highest (s : State) (z : ZoneNo) : (s.setFaultHold z).highest = s.highest := rfl
@[simp] theorem State.setFaultHold_watch (s : State) (z : ZoneNo) : (s.setFaultHold z).watch = s.watch := rfl
@[simp] theorem State.setFaultHold_dueQueue (s : State) (z : ZoneNo) : (s.setFaultHold z).dueQueue = s.dueQueue := rfl
@[simp] theorem State.setFaultHold_unwatched (s : State) (z : ZoneNo) : (s.setFaultHold z).unwatched = s.unwatched := rfl
@[simp] theorem State.setFaultHold_cursor (s : State) (z : ZoneNo) : (s.setFaultHold z).cursor = s.cursor := rfl
@[simp] theorem State.setFaultHold_batch (s : State) (z : ZoneNo) : (s.setFaultHold z).batch = s.batch := rfl
@[simp] theorem State.setFaultHold_remaining (s : State) (z : ZoneNo) : (s.setFaultHold z).remaining = s.remaining := rfl
@[simp] theorem State.setFaultHold_heldAccount (s : State) (z : ZoneNo) : (s.setFaultHold z).heldAccount = s.heldAccount := rfl
@[simp] theorem State.setFaultHold_cacheSets (s : State) (z : ZoneNo) : (s.setFaultHold z).cacheSets = s.cacheSets := rfl
@[simp] theorem State.setFaultHold_cacheMode (s : State) (z : ZoneNo) : (s.setFaultHold z).cacheMode = s.cacheMode := rfl
@[simp] theorem State.setFaultHold_written (s : State) (z : ZoneNo) : (s.setFaultHold z).written = s.written := rfl
@[simp] theorem State.setFaultHold_taken (s : State) (z : ZoneNo) : (s.setFaultHold z).taken = s.taken := rfl
@[simp] theorem State.setFaultHold_capacity (s : State) (z : ZoneNo) : (s.setFaultHold z).capacity = s.capacity := rfl
@[simp] theorem State.setFaultHold_heldNotices (s : State) (z : ZoneNo) : (s.setFaultHold z).heldNotices = s.heldNotices := rfl
@[simp] theorem State.setFaultHold_lists (s : State) (z : ZoneNo) : (s.setFaultHold z).lists = s.lists := rfl
@[simp] theorem State.setFaultHold_lastServed (s : State) (z : ZoneNo) : (s.setFaultHold z).lastServed = s.lastServed := rfl
@[simp] theorem State.setFaultHold_elevated (s : State) (z : ZoneNo) : (s.setFaultHold z).elevated = s.elevated := rfl
@[simp] theorem State.setFaultHold_rotation (s : State) (z : ZoneNo) : (s.setFaultHold z).rotation = s.rotation := rfl
@[simp] theorem State.setFaultHold_scanPeriod (s : State) (z : ZoneNo) : (s.setFaultHold z).scanPeriod = s.scanPeriod := rfl
@[simp] theorem State.setFaultHold_scanRunning (s : State) (z : ZoneNo) : (s.setFaultHold z).scanRunning = s.scanRunning := rfl
@[simp] theorem State.setFaultHold_maps (s : State) (z : ZoneNo) : (s.setFaultHold z).maps = s.maps := rfl
@[simp] theorem State.setFaultHold_engine (s : State) (z : ZoneNo) : (s.setFaultHold z).engine = s.engine := rfl
@[simp] theorem State.setFaultHold_stopping (s : State) (z : ZoneNo) : (s.setFaultHold z).stopping = s.stopping := rfl
@[simp] theorem State.setFaultHold_failing (s : State) (z : ZoneNo) : (s.setFaultHold z).failing = s.failing := rfl
@[simp] theorem State.setFaultHold_pending (s : State) (z : ZoneNo) : (s.setFaultHold z).pending = s.pending := rfl

/-! ## setEligible -/

@[simp] theorem State.setEligible_baseLo (s : State) (k : ListNo) (e : Bool) : (s.setEligible k e).baseLo = s.baseLo := rfl
@[simp] theorem State.setEligible_baseHi (s : State) (k : ListNo) (e : Bool) : (s.setEligible k e).baseHi = s.baseHi := rfl
@[simp] theorem State.setEligible_enables (s : State) (k : ListNo) (e : Bool) : (s.setEligible k e).enables = s.enables := rfl
@[simp] theorem State.setEligible_engineState (s : State) (k : ListNo) (e : Bool) : (s.setEligible k e).engineState = s.engineState := rfl
@[simp] theorem State.setEligible_resetCauses (s : State) (k : ListNo) (e : Bool) : (s.setEligible k e).resetCauses = s.resetCauses := rfl
@[simp] theorem State.setEligible_causes (s : State) (k : ListNo) (e : Bool) : (s.setEligible k e).causes = s.causes := rfl
@[simp] theorem State.setEligible_logFull (s : State) (k : ListNo) (e : Bool) : (s.setEligible k e).logFull = s.logFull := rfl
@[simp] theorem State.setEligible_noticesDropped (s : State) (k : ListNo) (e : Bool) : (s.setEligible k e).noticesDropped = s.noticesDropped := rfl
@[simp] theorem State.setEligible_attachFail (s : State) (k : ListNo) (e : Bool) : (s.setEligible k e).attachFail = s.attachFail := rfl
@[simp] theorem State.setEligible_lines (s : State) (k : ListNo) (e : Bool) : (s.setEligible k e).lines = s.lines := rfl
@[simp] theorem State.setEligible_messages (s : State) (k : ListNo) (e : Bool) : (s.setEligible k e).messages = s.messages := rfl
@[simp] theorem State.setEligible_mem (s : State) (k : ListNo) (e : Bool) : (s.setEligible k e).mem = s.mem := rfl
@[simp] theorem State.setEligible_layout (s : State) (k : ListNo) (e : Bool) : (s.setEligible k e).layout = s.layout := rfl
@[simp] theorem State.setEligible_zones (s : State) (k : ListNo) (e : Bool) : (s.setEligible k e).zones = s.zones := rfl
@[simp] theorem State.setEligible_published (s : State) (k : ListNo) (e : Bool) : (s.setEligible k e).published = s.published := rfl
@[simp] theorem State.setEligible_clock (s : State) (k : ListNo) (e : Bool) : (s.setEligible k e).clock = s.clock := rfl
@[simp] theorem State.setEligible_publicationDue (s : State) (k : ListNo) (e : Bool) : (s.setEligible k e).publicationDue = s.publicationDue := rfl
@[simp] theorem State.setEligible_classes (s : State) (k : ListNo) (e : Bool) : (s.setEligible k e).classes = s.classes := rfl
@[simp] theorem State.setEligible_nv (s : State) (k : ListNo) (e : Bool) : (s.setEligible k e).nv = s.nv := rfl
@[simp] theorem State.setEligible_prog (s : State) (k : ListNo) (e : Bool) : (s.setEligible k e).prog = s.prog := rfl
@[simp] theorem State.setEligible_live (s : State) (k : ListNo) (e : Bool) : (s.setEligible k e).live = s.live := rfl
@[simp] theorem State.setEligible_highest (s : State) (k : ListNo) (e : Bool) : (s.setEligible k e).highest = s.highest := rfl
@[simp] theorem State.setEligible_watch (s : State) (k : ListNo) (e : Bool) : (s.setEligible k e).watch = s.watch := rfl
@[simp] theorem State.setEligible_dueQueue (s : State) (k : ListNo) (e : Bool) : (s.setEligible k e).dueQueue = s.dueQueue := rfl
@[simp] theorem State.setEligible_unwatched (s : State) (k : ListNo) (e : Bool) : (s.setEligible k e).unwatched = s.unwatched := rfl
@[simp] theorem State.setEligible_cursor (s : State) (k : ListNo) (e : Bool) : (s.setEligible k e).cursor = s.cursor := rfl
@[simp] theorem State.setEligible_batch (s : State) (k : ListNo) (e : Bool) : (s.setEligible k e).batch = s.batch := rfl
@[simp] theorem State.setEligible_remaining (s : State) (k : ListNo) (e : Bool) : (s.setEligible k e).remaining = s.remaining := rfl
@[simp] theorem State.setEligible_heldAccount (s : State) (k : ListNo) (e : Bool) : (s.setEligible k e).heldAccount = s.heldAccount := rfl
@[simp] theorem State.setEligible_cacheSets (s : State) (k : ListNo) (e : Bool) : (s.setEligible k e).cacheSets = s.cacheSets := rfl
@[simp] theorem State.setEligible_cacheMode (s : State) (k : ListNo) (e : Bool) : (s.setEligible k e).cacheMode = s.cacheMode := rfl
@[simp] theorem State.setEligible_written (s : State) (k : ListNo) (e : Bool) : (s.setEligible k e).written = s.written := rfl
@[simp] theorem State.setEligible_taken (s : State) (k : ListNo) (e : Bool) : (s.setEligible k e).taken = s.taken := rfl
@[simp] theorem State.setEligible_capacity (s : State) (k : ListNo) (e : Bool) : (s.setEligible k e).capacity = s.capacity := rfl
@[simp] theorem State.setEligible_heldNotices (s : State) (k : ListNo) (e : Bool) : (s.setEligible k e).heldNotices = s.heldNotices := rfl
@[simp] theorem State.setEligible_lastServed (s : State) (k : ListNo) (e : Bool) : (s.setEligible k e).lastServed = s.lastServed := rfl
@[simp] theorem State.setEligible_elevated (s : State) (k : ListNo) (e : Bool) : (s.setEligible k e).elevated = s.elevated := rfl
@[simp] theorem State.setEligible_rotation (s : State) (k : ListNo) (e : Bool) : (s.setEligible k e).rotation = s.rotation := rfl
@[simp] theorem State.setEligible_scanPeriod (s : State) (k : ListNo) (e : Bool) : (s.setEligible k e).scanPeriod = s.scanPeriod := rfl
@[simp] theorem State.setEligible_scanRunning (s : State) (k : ListNo) (e : Bool) : (s.setEligible k e).scanRunning = s.scanRunning := rfl
@[simp] theorem State.setEligible_maps (s : State) (k : ListNo) (e : Bool) : (s.setEligible k e).maps = s.maps := rfl
@[simp] theorem State.setEligible_engine (s : State) (k : ListNo) (e : Bool) : (s.setEligible k e).engine = s.engine := rfl
@[simp] theorem State.setEligible_stopping (s : State) (k : ListNo) (e : Bool) : (s.setEligible k e).stopping = s.stopping := rfl
@[simp] theorem State.setEligible_failing (s : State) (k : ListNo) (e : Bool) : (s.setEligible k e).failing = s.failing := rfl
@[simp] theorem State.setEligible_pending (s : State) (k : ListNo) (e : Bool) : (s.setEligible k e).pending = s.pending := rfl

/-! ## advanceList -/

@[simp] theorem State.advanceList_baseLo (s : State) (k : ListNo) : (s.advanceList k).baseLo = s.baseLo := rfl
@[simp] theorem State.advanceList_baseHi (s : State) (k : ListNo) : (s.advanceList k).baseHi = s.baseHi := rfl
@[simp] theorem State.advanceList_enables (s : State) (k : ListNo) : (s.advanceList k).enables = s.enables := rfl
@[simp] theorem State.advanceList_engineState (s : State) (k : ListNo) : (s.advanceList k).engineState = s.engineState := rfl
@[simp] theorem State.advanceList_resetCauses (s : State) (k : ListNo) : (s.advanceList k).resetCauses = s.resetCauses := rfl
@[simp] theorem State.advanceList_causes (s : State) (k : ListNo) : (s.advanceList k).causes = s.causes := rfl
@[simp] theorem State.advanceList_logFull (s : State) (k : ListNo) : (s.advanceList k).logFull = s.logFull := rfl
@[simp] theorem State.advanceList_noticesDropped (s : State) (k : ListNo) : (s.advanceList k).noticesDropped = s.noticesDropped := rfl
@[simp] theorem State.advanceList_attachFail (s : State) (k : ListNo) : (s.advanceList k).attachFail = s.attachFail := rfl
@[simp] theorem State.advanceList_lines (s : State) (k : ListNo) : (s.advanceList k).lines = s.lines := rfl
@[simp] theorem State.advanceList_messages (s : State) (k : ListNo) : (s.advanceList k).messages = s.messages := rfl
@[simp] theorem State.advanceList_mem (s : State) (k : ListNo) : (s.advanceList k).mem = s.mem := rfl
@[simp] theorem State.advanceList_layout (s : State) (k : ListNo) : (s.advanceList k).layout = s.layout := rfl
@[simp] theorem State.advanceList_zones (s : State) (k : ListNo) : (s.advanceList k).zones = s.zones := rfl
@[simp] theorem State.advanceList_published (s : State) (k : ListNo) : (s.advanceList k).published = s.published := rfl
@[simp] theorem State.advanceList_clock (s : State) (k : ListNo) : (s.advanceList k).clock = s.clock := rfl
@[simp] theorem State.advanceList_publicationDue (s : State) (k : ListNo) : (s.advanceList k).publicationDue = s.publicationDue := rfl
@[simp] theorem State.advanceList_classes (s : State) (k : ListNo) : (s.advanceList k).classes = s.classes := rfl
@[simp] theorem State.advanceList_nv (s : State) (k : ListNo) : (s.advanceList k).nv = s.nv := rfl
@[simp] theorem State.advanceList_prog (s : State) (k : ListNo) : (s.advanceList k).prog = s.prog := rfl
@[simp] theorem State.advanceList_live (s : State) (k : ListNo) : (s.advanceList k).live = s.live := rfl
@[simp] theorem State.advanceList_highest (s : State) (k : ListNo) : (s.advanceList k).highest = s.highest := rfl
@[simp] theorem State.advanceList_watch (s : State) (k : ListNo) : (s.advanceList k).watch = s.watch := rfl
@[simp] theorem State.advanceList_dueQueue (s : State) (k : ListNo) : (s.advanceList k).dueQueue = s.dueQueue := rfl
@[simp] theorem State.advanceList_unwatched (s : State) (k : ListNo) : (s.advanceList k).unwatched = s.unwatched := rfl
@[simp] theorem State.advanceList_cursor (s : State) (k : ListNo) : (s.advanceList k).cursor = s.cursor := rfl
@[simp] theorem State.advanceList_batch (s : State) (k : ListNo) : (s.advanceList k).batch = s.batch := rfl
@[simp] theorem State.advanceList_remaining (s : State) (k : ListNo) : (s.advanceList k).remaining = s.remaining := rfl
@[simp] theorem State.advanceList_heldAccount (s : State) (k : ListNo) : (s.advanceList k).heldAccount = s.heldAccount := rfl
@[simp] theorem State.advanceList_cacheSets (s : State) (k : ListNo) : (s.advanceList k).cacheSets = s.cacheSets := rfl
@[simp] theorem State.advanceList_cacheMode (s : State) (k : ListNo) : (s.advanceList k).cacheMode = s.cacheMode := rfl
@[simp] theorem State.advanceList_written (s : State) (k : ListNo) : (s.advanceList k).written = s.written := rfl
@[simp] theorem State.advanceList_taken (s : State) (k : ListNo) : (s.advanceList k).taken = s.taken := rfl
@[simp] theorem State.advanceList_capacity (s : State) (k : ListNo) : (s.advanceList k).capacity = s.capacity := rfl
@[simp] theorem State.advanceList_heldNotices (s : State) (k : ListNo) : (s.advanceList k).heldNotices = s.heldNotices := rfl
@[simp] theorem State.advanceList_elevated (s : State) (k : ListNo) : (s.advanceList k).elevated = s.elevated := rfl
@[simp] theorem State.advanceList_rotation (s : State) (k : ListNo) : (s.advanceList k).rotation = s.rotation := rfl
@[simp] theorem State.advanceList_scanPeriod (s : State) (k : ListNo) : (s.advanceList k).scanPeriod = s.scanPeriod := rfl
@[simp] theorem State.advanceList_scanRunning (s : State) (k : ListNo) : (s.advanceList k).scanRunning = s.scanRunning := rfl
@[simp] theorem State.advanceList_maps (s : State) (k : ListNo) : (s.advanceList k).maps = s.maps := rfl
@[simp] theorem State.advanceList_engine (s : State) (k : ListNo) : (s.advanceList k).engine = s.engine := rfl
@[simp] theorem State.advanceList_stopping (s : State) (k : ListNo) : (s.advanceList k).stopping = s.stopping := rfl
@[simp] theorem State.advanceList_failing (s : State) (k : ListNo) : (s.advanceList k).failing = s.failing := rfl
@[simp] theorem State.advanceList_pending (s : State) (k : ListNo) : (s.advanceList k).pending = s.pending := rfl

/-! ## mapSet -/

@[simp] theorem State.mapSet_baseLo (s : State) (n : Nat) (f : CacheSet → CacheSet) : (s.mapSet n f).baseLo = s.baseLo := rfl
@[simp] theorem State.mapSet_baseHi (s : State) (n : Nat) (f : CacheSet → CacheSet) : (s.mapSet n f).baseHi = s.baseHi := rfl
@[simp] theorem State.mapSet_enables (s : State) (n : Nat) (f : CacheSet → CacheSet) : (s.mapSet n f).enables = s.enables := rfl
@[simp] theorem State.mapSet_engineState (s : State) (n : Nat) (f : CacheSet → CacheSet) : (s.mapSet n f).engineState = s.engineState := rfl
@[simp] theorem State.mapSet_resetCauses (s : State) (n : Nat) (f : CacheSet → CacheSet) : (s.mapSet n f).resetCauses = s.resetCauses := rfl
@[simp] theorem State.mapSet_causes (s : State) (n : Nat) (f : CacheSet → CacheSet) : (s.mapSet n f).causes = s.causes := rfl
@[simp] theorem State.mapSet_logFull (s : State) (n : Nat) (f : CacheSet → CacheSet) : (s.mapSet n f).logFull = s.logFull := rfl
@[simp] theorem State.mapSet_noticesDropped (s : State) (n : Nat) (f : CacheSet → CacheSet) : (s.mapSet n f).noticesDropped = s.noticesDropped := rfl
@[simp] theorem State.mapSet_attachFail (s : State) (n : Nat) (f : CacheSet → CacheSet) : (s.mapSet n f).attachFail = s.attachFail := rfl
@[simp] theorem State.mapSet_lines (s : State) (n : Nat) (f : CacheSet → CacheSet) : (s.mapSet n f).lines = s.lines := rfl
@[simp] theorem State.mapSet_messages (s : State) (n : Nat) (f : CacheSet → CacheSet) : (s.mapSet n f).messages = s.messages := rfl
@[simp] theorem State.mapSet_mem (s : State) (n : Nat) (f : CacheSet → CacheSet) : (s.mapSet n f).mem = s.mem := rfl
@[simp] theorem State.mapSet_layout (s : State) (n : Nat) (f : CacheSet → CacheSet) : (s.mapSet n f).layout = s.layout := rfl
@[simp] theorem State.mapSet_zones (s : State) (n : Nat) (f : CacheSet → CacheSet) : (s.mapSet n f).zones = s.zones := rfl
@[simp] theorem State.mapSet_published (s : State) (n : Nat) (f : CacheSet → CacheSet) : (s.mapSet n f).published = s.published := rfl
@[simp] theorem State.mapSet_clock (s : State) (n : Nat) (f : CacheSet → CacheSet) : (s.mapSet n f).clock = s.clock := rfl
@[simp] theorem State.mapSet_publicationDue (s : State) (n : Nat) (f : CacheSet → CacheSet) : (s.mapSet n f).publicationDue = s.publicationDue := rfl
@[simp] theorem State.mapSet_classes (s : State) (n : Nat) (f : CacheSet → CacheSet) : (s.mapSet n f).classes = s.classes := rfl
@[simp] theorem State.mapSet_nv (s : State) (n : Nat) (f : CacheSet → CacheSet) : (s.mapSet n f).nv = s.nv := rfl
@[simp] theorem State.mapSet_prog (s : State) (n : Nat) (f : CacheSet → CacheSet) : (s.mapSet n f).prog = s.prog := rfl
@[simp] theorem State.mapSet_live (s : State) (n : Nat) (f : CacheSet → CacheSet) : (s.mapSet n f).live = s.live := rfl
@[simp] theorem State.mapSet_highest (s : State) (n : Nat) (f : CacheSet → CacheSet) : (s.mapSet n f).highest = s.highest := rfl
@[simp] theorem State.mapSet_watch (s : State) (n : Nat) (f : CacheSet → CacheSet) : (s.mapSet n f).watch = s.watch := rfl
@[simp] theorem State.mapSet_dueQueue (s : State) (n : Nat) (f : CacheSet → CacheSet) : (s.mapSet n f).dueQueue = s.dueQueue := rfl
@[simp] theorem State.mapSet_unwatched (s : State) (n : Nat) (f : CacheSet → CacheSet) : (s.mapSet n f).unwatched = s.unwatched := rfl
@[simp] theorem State.mapSet_cursor (s : State) (n : Nat) (f : CacheSet → CacheSet) : (s.mapSet n f).cursor = s.cursor := rfl
@[simp] theorem State.mapSet_batch (s : State) (n : Nat) (f : CacheSet → CacheSet) : (s.mapSet n f).batch = s.batch := rfl
@[simp] theorem State.mapSet_remaining (s : State) (n : Nat) (f : CacheSet → CacheSet) : (s.mapSet n f).remaining = s.remaining := rfl
@[simp] theorem State.mapSet_heldAccount (s : State) (n : Nat) (f : CacheSet → CacheSet) : (s.mapSet n f).heldAccount = s.heldAccount := rfl
@[simp] theorem State.mapSet_cacheMode (s : State) (n : Nat) (f : CacheSet → CacheSet) : (s.mapSet n f).cacheMode = s.cacheMode := rfl
@[simp] theorem State.mapSet_written (s : State) (n : Nat) (f : CacheSet → CacheSet) : (s.mapSet n f).written = s.written := rfl
@[simp] theorem State.mapSet_taken (s : State) (n : Nat) (f : CacheSet → CacheSet) : (s.mapSet n f).taken = s.taken := rfl
@[simp] theorem State.mapSet_capacity (s : State) (n : Nat) (f : CacheSet → CacheSet) : (s.mapSet n f).capacity = s.capacity := rfl
@[simp] theorem State.mapSet_heldNotices (s : State) (n : Nat) (f : CacheSet → CacheSet) : (s.mapSet n f).heldNotices = s.heldNotices := rfl
@[simp] theorem State.mapSet_lists (s : State) (n : Nat) (f : CacheSet → CacheSet) : (s.mapSet n f).lists = s.lists := rfl
@[simp] theorem State.mapSet_lastServed (s : State) (n : Nat) (f : CacheSet → CacheSet) : (s.mapSet n f).lastServed = s.lastServed := rfl
@[simp] theorem State.mapSet_elevated (s : State) (n : Nat) (f : CacheSet → CacheSet) : (s.mapSet n f).elevated = s.elevated := rfl
@[simp] theorem State.mapSet_rotation (s : State) (n : Nat) (f : CacheSet → CacheSet) : (s.mapSet n f).rotation = s.rotation := rfl
@[simp] theorem State.mapSet_scanPeriod (s : State) (n : Nat) (f : CacheSet → CacheSet) : (s.mapSet n f).scanPeriod = s.scanPeriod := rfl
@[simp] theorem State.mapSet_scanRunning (s : State) (n : Nat) (f : CacheSet → CacheSet) : (s.mapSet n f).scanRunning = s.scanRunning := rfl
@[simp] theorem State.mapSet_maps (s : State) (n : Nat) (f : CacheSet → CacheSet) : (s.mapSet n f).maps = s.maps := rfl
@[simp] theorem State.mapSet_engine (s : State) (n : Nat) (f : CacheSet → CacheSet) : (s.mapSet n f).engine = s.engine := rfl
@[simp] theorem State.mapSet_stopping (s : State) (n : Nat) (f : CacheSet → CacheSet) : (s.mapSet n f).stopping = s.stopping := rfl
@[simp] theorem State.mapSet_failing (s : State) (n : Nat) (f : CacheSet → CacheSet) : (s.mapSet n f).failing = s.failing := rfl
@[simp] theorem State.mapSet_pending (s : State) (n : Nat) (f : CacheSet → CacheSet) : (s.mapSet n f).pending = s.pending := rfl

/-! ## invalidateCache -/

@[simp] theorem State.invalidateCache_baseLo (s : State) : (s.invalidateCache).baseLo = s.baseLo := rfl
@[simp] theorem State.invalidateCache_baseHi (s : State) : (s.invalidateCache).baseHi = s.baseHi := rfl
@[simp] theorem State.invalidateCache_enables (s : State) : (s.invalidateCache).enables = s.enables := rfl
@[simp] theorem State.invalidateCache_engineState (s : State) : (s.invalidateCache).engineState = s.engineState := rfl
@[simp] theorem State.invalidateCache_resetCauses (s : State) : (s.invalidateCache).resetCauses = s.resetCauses := rfl
@[simp] theorem State.invalidateCache_causes (s : State) : (s.invalidateCache).causes = s.causes := rfl
@[simp] theorem State.invalidateCache_logFull (s : State) : (s.invalidateCache).logFull = s.logFull := rfl
@[simp] theorem State.invalidateCache_noticesDropped (s : State) : (s.invalidateCache).noticesDropped = s.noticesDropped := rfl
@[simp] theorem State.invalidateCache_attachFail (s : State) : (s.invalidateCache).attachFail = s.attachFail := rfl
@[simp] theorem State.invalidateCache_lines (s : State) : (s.invalidateCache).lines = s.lines := rfl
@[simp] theorem State.invalidateCache_messages (s : State) : (s.invalidateCache).messages = s.messages := rfl
@[simp] theorem State.invalidateCache_mem (s : State) : (s.invalidateCache).mem = s.mem := rfl
@[simp] theorem State.invalidateCache_layout (s : State) : (s.invalidateCache).layout = s.layout := rfl
@[simp] theorem State.invalidateCache_zones (s : State) : (s.invalidateCache).zones = s.zones := rfl
@[simp] theorem State.invalidateCache_published (s : State) : (s.invalidateCache).published = s.published := rfl
@[simp] theorem State.invalidateCache_clock (s : State) : (s.invalidateCache).clock = s.clock := rfl
@[simp] theorem State.invalidateCache_publicationDue (s : State) : (s.invalidateCache).publicationDue = s.publicationDue := rfl
@[simp] theorem State.invalidateCache_classes (s : State) : (s.invalidateCache).classes = s.classes := rfl
@[simp] theorem State.invalidateCache_nv (s : State) : (s.invalidateCache).nv = s.nv := rfl
@[simp] theorem State.invalidateCache_prog (s : State) : (s.invalidateCache).prog = s.prog := rfl
@[simp] theorem State.invalidateCache_live (s : State) : (s.invalidateCache).live = s.live := rfl
@[simp] theorem State.invalidateCache_highest (s : State) : (s.invalidateCache).highest = s.highest := rfl
@[simp] theorem State.invalidateCache_watch (s : State) : (s.invalidateCache).watch = s.watch := rfl
@[simp] theorem State.invalidateCache_dueQueue (s : State) : (s.invalidateCache).dueQueue = s.dueQueue := rfl
@[simp] theorem State.invalidateCache_unwatched (s : State) : (s.invalidateCache).unwatched = s.unwatched := rfl
@[simp] theorem State.invalidateCache_cursor (s : State) : (s.invalidateCache).cursor = s.cursor := rfl
@[simp] theorem State.invalidateCache_batch (s : State) : (s.invalidateCache).batch = s.batch := rfl
@[simp] theorem State.invalidateCache_remaining (s : State) : (s.invalidateCache).remaining = s.remaining := rfl
@[simp] theorem State.invalidateCache_heldAccount (s : State) : (s.invalidateCache).heldAccount = s.heldAccount := rfl
@[simp] theorem State.invalidateCache_cacheMode (s : State) : (s.invalidateCache).cacheMode = s.cacheMode := rfl
@[simp] theorem State.invalidateCache_written (s : State) : (s.invalidateCache).written = s.written := rfl
@[simp] theorem State.invalidateCache_taken (s : State) : (s.invalidateCache).taken = s.taken := rfl
@[simp] theorem State.invalidateCache_capacity (s : State) : (s.invalidateCache).capacity = s.capacity := rfl
@[simp] theorem State.invalidateCache_heldNotices (s : State) : (s.invalidateCache).heldNotices = s.heldNotices := rfl
@[simp] theorem State.invalidateCache_lists (s : State) : (s.invalidateCache).lists = s.lists := rfl
@[simp] theorem State.invalidateCache_lastServed (s : State) : (s.invalidateCache).lastServed = s.lastServed := rfl
@[simp] theorem State.invalidateCache_elevated (s : State) : (s.invalidateCache).elevated = s.elevated := rfl
@[simp] theorem State.invalidateCache_rotation (s : State) : (s.invalidateCache).rotation = s.rotation := rfl
@[simp] theorem State.invalidateCache_scanPeriod (s : State) : (s.invalidateCache).scanPeriod = s.scanPeriod := rfl
@[simp] theorem State.invalidateCache_scanRunning (s : State) : (s.invalidateCache).scanRunning = s.scanRunning := rfl
@[simp] theorem State.invalidateCache_maps (s : State) : (s.invalidateCache).maps = s.maps := rfl
@[simp] theorem State.invalidateCache_engine (s : State) : (s.invalidateCache).engine = s.engine := rfl
@[simp] theorem State.invalidateCache_stopping (s : State) : (s.invalidateCache).stopping = s.stopping := rfl
@[simp] theorem State.invalidateCache_failing (s : State) : (s.invalidateCache).failing = s.failing := rfl
@[simp] theorem State.invalidateCache_pending (s : State) : (s.invalidateCache).pending = s.pending := rfl

/-! ## putEntry -/

@[simp] theorem State.putEntry_baseLo (s : State) (e : WatchEntry) : (s.putEntry e).baseLo = s.baseLo := rfl
@[simp] theorem State.putEntry_baseHi (s : State) (e : WatchEntry) : (s.putEntry e).baseHi = s.baseHi := rfl
@[simp] theorem State.putEntry_enables (s : State) (e : WatchEntry) : (s.putEntry e).enables = s.enables := rfl
@[simp] theorem State.putEntry_engineState (s : State) (e : WatchEntry) : (s.putEntry e).engineState = s.engineState := rfl
@[simp] theorem State.putEntry_resetCauses (s : State) (e : WatchEntry) : (s.putEntry e).resetCauses = s.resetCauses := rfl
@[simp] theorem State.putEntry_causes (s : State) (e : WatchEntry) : (s.putEntry e).causes = s.causes := rfl
@[simp] theorem State.putEntry_logFull (s : State) (e : WatchEntry) : (s.putEntry e).logFull = s.logFull := rfl
@[simp] theorem State.putEntry_noticesDropped (s : State) (e : WatchEntry) : (s.putEntry e).noticesDropped = s.noticesDropped := rfl
@[simp] theorem State.putEntry_attachFail (s : State) (e : WatchEntry) : (s.putEntry e).attachFail = s.attachFail := rfl
@[simp] theorem State.putEntry_lines (s : State) (e : WatchEntry) : (s.putEntry e).lines = s.lines := rfl
@[simp] theorem State.putEntry_messages (s : State) (e : WatchEntry) : (s.putEntry e).messages = s.messages := rfl
@[simp] theorem State.putEntry_mem (s : State) (e : WatchEntry) : (s.putEntry e).mem = s.mem := rfl
@[simp] theorem State.putEntry_layout (s : State) (e : WatchEntry) : (s.putEntry e).layout = s.layout := rfl
@[simp] theorem State.putEntry_zones (s : State) (e : WatchEntry) : (s.putEntry e).zones = s.zones := rfl
@[simp] theorem State.putEntry_published (s : State) (e : WatchEntry) : (s.putEntry e).published = s.published := rfl
@[simp] theorem State.putEntry_clock (s : State) (e : WatchEntry) : (s.putEntry e).clock = s.clock := rfl
@[simp] theorem State.putEntry_publicationDue (s : State) (e : WatchEntry) : (s.putEntry e).publicationDue = s.publicationDue := rfl
@[simp] theorem State.putEntry_classes (s : State) (e : WatchEntry) : (s.putEntry e).classes = s.classes := rfl
@[simp] theorem State.putEntry_nv (s : State) (e : WatchEntry) : (s.putEntry e).nv = s.nv := rfl
@[simp] theorem State.putEntry_prog (s : State) (e : WatchEntry) : (s.putEntry e).prog = s.prog := rfl
@[simp] theorem State.putEntry_live (s : State) (e : WatchEntry) : (s.putEntry e).live = s.live := rfl
@[simp] theorem State.putEntry_highest (s : State) (e : WatchEntry) : (s.putEntry e).highest = s.highest := rfl
@[simp] theorem State.putEntry_unwatched (s : State) (e : WatchEntry) : (s.putEntry e).unwatched = s.unwatched := rfl
@[simp] theorem State.putEntry_cursor (s : State) (e : WatchEntry) : (s.putEntry e).cursor = s.cursor := rfl
@[simp] theorem State.putEntry_batch (s : State) (e : WatchEntry) : (s.putEntry e).batch = s.batch := rfl
@[simp] theorem State.putEntry_remaining (s : State) (e : WatchEntry) : (s.putEntry e).remaining = s.remaining := rfl
@[simp] theorem State.putEntry_heldAccount (s : State) (e : WatchEntry) : (s.putEntry e).heldAccount = s.heldAccount := rfl
@[simp] theorem State.putEntry_cacheSets (s : State) (e : WatchEntry) : (s.putEntry e).cacheSets = s.cacheSets := rfl
@[simp] theorem State.putEntry_cacheMode (s : State) (e : WatchEntry) : (s.putEntry e).cacheMode = s.cacheMode := rfl
@[simp] theorem State.putEntry_written (s : State) (e : WatchEntry) : (s.putEntry e).written = s.written := rfl
@[simp] theorem State.putEntry_taken (s : State) (e : WatchEntry) : (s.putEntry e).taken = s.taken := rfl
@[simp] theorem State.putEntry_capacity (s : State) (e : WatchEntry) : (s.putEntry e).capacity = s.capacity := rfl
@[simp] theorem State.putEntry_heldNotices (s : State) (e : WatchEntry) : (s.putEntry e).heldNotices = s.heldNotices := rfl
@[simp] theorem State.putEntry_lists (s : State) (e : WatchEntry) : (s.putEntry e).lists = s.lists := rfl
@[simp] theorem State.putEntry_lastServed (s : State) (e : WatchEntry) : (s.putEntry e).lastServed = s.lastServed := rfl
@[simp] theorem State.putEntry_elevated (s : State) (e : WatchEntry) : (s.putEntry e).elevated = s.elevated := rfl
@[simp] theorem State.putEntry_rotation (s : State) (e : WatchEntry) : (s.putEntry e).rotation = s.rotation := rfl
@[simp] theorem State.putEntry_scanPeriod (s : State) (e : WatchEntry) : (s.putEntry e).scanPeriod = s.scanPeriod := rfl
@[simp] theorem State.putEntry_scanRunning (s : State) (e : WatchEntry) : (s.putEntry e).scanRunning = s.scanRunning := rfl
@[simp] theorem State.putEntry_maps (s : State) (e : WatchEntry) : (s.putEntry e).maps = s.maps := rfl
@[simp] theorem State.putEntry_engine (s : State) (e : WatchEntry) : (s.putEntry e).engine = s.engine := rfl
@[simp] theorem State.putEntry_stopping (s : State) (e : WatchEntry) : (s.putEntry e).stopping = s.stopping := rfl
@[simp] theorem State.putEntry_failing (s : State) (e : WatchEntry) : (s.putEntry e).failing = s.failing := rfl
@[simp] theorem State.putEntry_pending (s : State) (e : WatchEntry) : (s.putEntry e).pending = s.pending := rfl

/-! ## removeEntry -/

@[simp] theorem State.removeEntry_baseLo (s : State) (n : Nat) : (s.removeEntry n).baseLo = s.baseLo := by unfold State.removeEntry; split <;> rfl
@[simp] theorem State.removeEntry_baseHi (s : State) (n : Nat) : (s.removeEntry n).baseHi = s.baseHi := by unfold State.removeEntry; split <;> rfl
@[simp] theorem State.removeEntry_enables (s : State) (n : Nat) : (s.removeEntry n).enables = s.enables := by unfold State.removeEntry; split <;> rfl
@[simp] theorem State.removeEntry_engineState (s : State) (n : Nat) : (s.removeEntry n).engineState = s.engineState := by unfold State.removeEntry; split <;> rfl
@[simp] theorem State.removeEntry_resetCauses (s : State) (n : Nat) : (s.removeEntry n).resetCauses = s.resetCauses := by unfold State.removeEntry; split <;> rfl
@[simp] theorem State.removeEntry_causes (s : State) (n : Nat) : (s.removeEntry n).causes = s.causes := by unfold State.removeEntry; split <;> rfl
@[simp] theorem State.removeEntry_logFull (s : State) (n : Nat) : (s.removeEntry n).logFull = s.logFull := by unfold State.removeEntry; split <;> rfl
@[simp] theorem State.removeEntry_noticesDropped (s : State) (n : Nat) : (s.removeEntry n).noticesDropped = s.noticesDropped := by unfold State.removeEntry; split <;> rfl
@[simp] theorem State.removeEntry_attachFail (s : State) (n : Nat) : (s.removeEntry n).attachFail = s.attachFail := by unfold State.removeEntry; split <;> rfl
@[simp] theorem State.removeEntry_lines (s : State) (n : Nat) : (s.removeEntry n).lines = s.lines := by unfold State.removeEntry; split <;> rfl
@[simp] theorem State.removeEntry_messages (s : State) (n : Nat) : (s.removeEntry n).messages = s.messages := by unfold State.removeEntry; split <;> rfl
@[simp] theorem State.removeEntry_mem (s : State) (n : Nat) : (s.removeEntry n).mem = s.mem := by unfold State.removeEntry; split <;> rfl
@[simp] theorem State.removeEntry_layout (s : State) (n : Nat) : (s.removeEntry n).layout = s.layout := by unfold State.removeEntry; split <;> rfl
@[simp] theorem State.removeEntry_zones (s : State) (n : Nat) : (s.removeEntry n).zones = s.zones := by unfold State.removeEntry; split <;> rfl
@[simp] theorem State.removeEntry_published (s : State) (n : Nat) : (s.removeEntry n).published = s.published := by unfold State.removeEntry; split <;> rfl
@[simp] theorem State.removeEntry_clock (s : State) (n : Nat) : (s.removeEntry n).clock = s.clock := by unfold State.removeEntry; split <;> rfl
@[simp] theorem State.removeEntry_publicationDue (s : State) (n : Nat) : (s.removeEntry n).publicationDue = s.publicationDue := by unfold State.removeEntry; split <;> rfl
@[simp] theorem State.removeEntry_classes (s : State) (n : Nat) : (s.removeEntry n).classes = s.classes := by unfold State.removeEntry; split <;> rfl
@[simp] theorem State.removeEntry_nv (s : State) (n : Nat) : (s.removeEntry n).nv = s.nv := by unfold State.removeEntry; split <;> rfl
@[simp] theorem State.removeEntry_prog (s : State) (n : Nat) : (s.removeEntry n).prog = s.prog := by unfold State.removeEntry; split <;> rfl
@[simp] theorem State.removeEntry_live (s : State) (n : Nat) : (s.removeEntry n).live = s.live := by unfold State.removeEntry; split <;> rfl
@[simp] theorem State.removeEntry_highest (s : State) (n : Nat) : (s.removeEntry n).highest = s.highest := by unfold State.removeEntry; split <;> rfl
@[simp] theorem State.removeEntry_unwatched (s : State) (n : Nat) : (s.removeEntry n).unwatched = s.unwatched := by unfold State.removeEntry; split <;> rfl
@[simp] theorem State.removeEntry_cursor (s : State) (n : Nat) : (s.removeEntry n).cursor = s.cursor := by unfold State.removeEntry; split <;> rfl
@[simp] theorem State.removeEntry_batch (s : State) (n : Nat) : (s.removeEntry n).batch = s.batch := by unfold State.removeEntry; split <;> rfl
@[simp] theorem State.removeEntry_remaining (s : State) (n : Nat) : (s.removeEntry n).remaining = s.remaining := by unfold State.removeEntry; split <;> rfl
@[simp] theorem State.removeEntry_heldAccount (s : State) (n : Nat) : (s.removeEntry n).heldAccount = s.heldAccount := by unfold State.removeEntry; split <;> rfl
@[simp] theorem State.removeEntry_cacheSets (s : State) (n : Nat) : (s.removeEntry n).cacheSets = s.cacheSets := by unfold State.removeEntry; split <;> rfl
@[simp] theorem State.removeEntry_cacheMode (s : State) (n : Nat) : (s.removeEntry n).cacheMode = s.cacheMode := by unfold State.removeEntry; split <;> rfl
@[simp] theorem State.removeEntry_written (s : State) (n : Nat) : (s.removeEntry n).written = s.written := by unfold State.removeEntry; split <;> rfl
@[simp] theorem State.removeEntry_taken (s : State) (n : Nat) : (s.removeEntry n).taken = s.taken := by unfold State.removeEntry; split <;> rfl
@[simp] theorem State.removeEntry_capacity (s : State) (n : Nat) : (s.removeEntry n).capacity = s.capacity := by unfold State.removeEntry; split <;> rfl
@[simp] theorem State.removeEntry_heldNotices (s : State) (n : Nat) : (s.removeEntry n).heldNotices = s.heldNotices := by unfold State.removeEntry; split <;> rfl
@[simp] theorem State.removeEntry_lists (s : State) (n : Nat) : (s.removeEntry n).lists = s.lists := by unfold State.removeEntry; split <;> rfl
@[simp] theorem State.removeEntry_lastServed (s : State) (n : Nat) : (s.removeEntry n).lastServed = s.lastServed := by unfold State.removeEntry; split <;> rfl
@[simp] theorem State.removeEntry_elevated (s : State) (n : Nat) : (s.removeEntry n).elevated = s.elevated := by unfold State.removeEntry; split <;> rfl
@[simp] theorem State.removeEntry_rotation (s : State) (n : Nat) : (s.removeEntry n).rotation = s.rotation := by unfold State.removeEntry; split <;> rfl
@[simp] theorem State.removeEntry_scanPeriod (s : State) (n : Nat) : (s.removeEntry n).scanPeriod = s.scanPeriod := by unfold State.removeEntry; split <;> rfl
@[simp] theorem State.removeEntry_scanRunning (s : State) (n : Nat) : (s.removeEntry n).scanRunning = s.scanRunning := by unfold State.removeEntry; split <;> rfl
@[simp] theorem State.removeEntry_maps (s : State) (n : Nat) : (s.removeEntry n).maps = s.maps := by unfold State.removeEntry; split <;> rfl
@[simp] theorem State.removeEntry_engine (s : State) (n : Nat) : (s.removeEntry n).engine = s.engine := by unfold State.removeEntry; split <;> rfl
@[simp] theorem State.removeEntry_stopping (s : State) (n : Nat) : (s.removeEntry n).stopping = s.stopping := by unfold State.removeEntry; split <;> rfl
@[simp] theorem State.removeEntry_failing (s : State) (n : Nat) : (s.removeEntry n).failing = s.failing := by unfold State.removeEntry; split <;> rfl
@[simp] theorem State.removeEntry_pending (s : State) (n : Nat) : (s.removeEntry n).pending = s.pending := by unfold State.removeEntry; split <;> rfl

/-! ## raiseUnwatched -/

@[simp] theorem State.raiseUnwatched_baseLo (s : State) (k : Nat) : (s.raiseUnwatched k).baseLo = s.baseLo := rfl
@[simp] theorem State.raiseUnwatched_baseHi (s : State) (k : Nat) : (s.raiseUnwatched k).baseHi = s.baseHi := rfl
@[simp] theorem State.raiseUnwatched_enables (s : State) (k : Nat) : (s.raiseUnwatched k).enables = s.enables := rfl
@[simp] theorem State.raiseUnwatched_engineState (s : State) (k : Nat) : (s.raiseUnwatched k).engineState = s.engineState := rfl
@[simp] theorem State.raiseUnwatched_resetCauses (s : State) (k : Nat) : (s.raiseUnwatched k).resetCauses = s.resetCauses := rfl
@[simp] theorem State.raiseUnwatched_causes (s : State) (k : Nat) : (s.raiseUnwatched k).causes = s.causes := rfl
@[simp] theorem State.raiseUnwatched_logFull (s : State) (k : Nat) : (s.raiseUnwatched k).logFull = s.logFull := rfl
@[simp] theorem State.raiseUnwatched_noticesDropped (s : State) (k : Nat) : (s.raiseUnwatched k).noticesDropped = s.noticesDropped := rfl
@[simp] theorem State.raiseUnwatched_attachFail (s : State) (k : Nat) : (s.raiseUnwatched k).attachFail = s.attachFail := rfl
@[simp] theorem State.raiseUnwatched_lines (s : State) (k : Nat) : (s.raiseUnwatched k).lines = s.lines := rfl
@[simp] theorem State.raiseUnwatched_messages (s : State) (k : Nat) : (s.raiseUnwatched k).messages = s.messages := rfl
@[simp] theorem State.raiseUnwatched_mem (s : State) (k : Nat) : (s.raiseUnwatched k).mem = s.mem := rfl
@[simp] theorem State.raiseUnwatched_layout (s : State) (k : Nat) : (s.raiseUnwatched k).layout = s.layout := rfl
@[simp] theorem State.raiseUnwatched_zones (s : State) (k : Nat) : (s.raiseUnwatched k).zones = s.zones := rfl
@[simp] theorem State.raiseUnwatched_published (s : State) (k : Nat) : (s.raiseUnwatched k).published = s.published := rfl
@[simp] theorem State.raiseUnwatched_clock (s : State) (k : Nat) : (s.raiseUnwatched k).clock = s.clock := rfl
@[simp] theorem State.raiseUnwatched_publicationDue (s : State) (k : Nat) : (s.raiseUnwatched k).publicationDue = s.publicationDue := rfl
@[simp] theorem State.raiseUnwatched_classes (s : State) (k : Nat) : (s.raiseUnwatched k).classes = s.classes := rfl
@[simp] theorem State.raiseUnwatched_nv (s : State) (k : Nat) : (s.raiseUnwatched k).nv = s.nv := rfl
@[simp] theorem State.raiseUnwatched_prog (s : State) (k : Nat) : (s.raiseUnwatched k).prog = s.prog := rfl
@[simp] theorem State.raiseUnwatched_live (s : State) (k : Nat) : (s.raiseUnwatched k).live = s.live := rfl
@[simp] theorem State.raiseUnwatched_highest (s : State) (k : Nat) : (s.raiseUnwatched k).highest = s.highest := rfl
@[simp] theorem State.raiseUnwatched_watch (s : State) (k : Nat) : (s.raiseUnwatched k).watch = s.watch := rfl
@[simp] theorem State.raiseUnwatched_dueQueue (s : State) (k : Nat) : (s.raiseUnwatched k).dueQueue = s.dueQueue := rfl
@[simp] theorem State.raiseUnwatched_cursor (s : State) (k : Nat) : (s.raiseUnwatched k).cursor = s.cursor := rfl
@[simp] theorem State.raiseUnwatched_batch (s : State) (k : Nat) : (s.raiseUnwatched k).batch = s.batch := rfl
@[simp] theorem State.raiseUnwatched_remaining (s : State) (k : Nat) : (s.raiseUnwatched k).remaining = s.remaining := rfl
@[simp] theorem State.raiseUnwatched_heldAccount (s : State) (k : Nat) : (s.raiseUnwatched k).heldAccount = s.heldAccount := rfl
@[simp] theorem State.raiseUnwatched_cacheSets (s : State) (k : Nat) : (s.raiseUnwatched k).cacheSets = s.cacheSets := rfl
@[simp] theorem State.raiseUnwatched_cacheMode (s : State) (k : Nat) : (s.raiseUnwatched k).cacheMode = s.cacheMode := rfl
@[simp] theorem State.raiseUnwatched_written (s : State) (k : Nat) : (s.raiseUnwatched k).written = s.written := rfl
@[simp] theorem State.raiseUnwatched_taken (s : State) (k : Nat) : (s.raiseUnwatched k).taken = s.taken := rfl
@[simp] theorem State.raiseUnwatched_capacity (s : State) (k : Nat) : (s.raiseUnwatched k).capacity = s.capacity := rfl
@[simp] theorem State.raiseUnwatched_heldNotices (s : State) (k : Nat) : (s.raiseUnwatched k).heldNotices = s.heldNotices := rfl
@[simp] theorem State.raiseUnwatched_lists (s : State) (k : Nat) : (s.raiseUnwatched k).lists = s.lists := rfl
@[simp] theorem State.raiseUnwatched_lastServed (s : State) (k : Nat) : (s.raiseUnwatched k).lastServed = s.lastServed := rfl
@[simp] theorem State.raiseUnwatched_elevated (s : State) (k : Nat) : (s.raiseUnwatched k).elevated = s.elevated := rfl
@[simp] theorem State.raiseUnwatched_rotation (s : State) (k : Nat) : (s.raiseUnwatched k).rotation = s.rotation := rfl
@[simp] theorem State.raiseUnwatched_scanPeriod (s : State) (k : Nat) : (s.raiseUnwatched k).scanPeriod = s.scanPeriod := rfl
@[simp] theorem State.raiseUnwatched_scanRunning (s : State) (k : Nat) : (s.raiseUnwatched k).scanRunning = s.scanRunning := rfl
@[simp] theorem State.raiseUnwatched_maps (s : State) (k : Nat) : (s.raiseUnwatched k).maps = s.maps := rfl
@[simp] theorem State.raiseUnwatched_engine (s : State) (k : Nat) : (s.raiseUnwatched k).engine = s.engine := rfl
@[simp] theorem State.raiseUnwatched_stopping (s : State) (k : Nat) : (s.raiseUnwatched k).stopping = s.stopping := rfl
@[simp] theorem State.raiseUnwatched_failing (s : State) (k : Nat) : (s.raiseUnwatched k).failing = s.failing := rfl
@[simp] theorem State.raiseUnwatched_pending (s : State) (k : Nat) : (s.raiseUnwatched k).pending = s.pending := rfl

/-! ## emptyPool -/

@[simp] theorem State.emptyPool_baseLo (s : State) : (s.emptyPool).baseLo = s.baseLo := rfl
@[simp] theorem State.emptyPool_baseHi (s : State) : (s.emptyPool).baseHi = s.baseHi := rfl
@[simp] theorem State.emptyPool_enables (s : State) : (s.emptyPool).enables = s.enables := rfl
@[simp] theorem State.emptyPool_engineState (s : State) : (s.emptyPool).engineState = s.engineState := rfl
@[simp] theorem State.emptyPool_resetCauses (s : State) : (s.emptyPool).resetCauses = s.resetCauses := rfl
@[simp] theorem State.emptyPool_causes (s : State) : (s.emptyPool).causes = s.causes := rfl
@[simp] theorem State.emptyPool_logFull (s : State) : (s.emptyPool).logFull = s.logFull := rfl
@[simp] theorem State.emptyPool_noticesDropped (s : State) : (s.emptyPool).noticesDropped = s.noticesDropped := rfl
@[simp] theorem State.emptyPool_attachFail (s : State) : (s.emptyPool).attachFail = s.attachFail := rfl
@[simp] theorem State.emptyPool_lines (s : State) : (s.emptyPool).lines = s.lines := rfl
@[simp] theorem State.emptyPool_messages (s : State) : (s.emptyPool).messages = s.messages := rfl
@[simp] theorem State.emptyPool_mem (s : State) : (s.emptyPool).mem = s.mem := rfl
@[simp] theorem State.emptyPool_layout (s : State) : (s.emptyPool).layout = s.layout := rfl
@[simp] theorem State.emptyPool_zones (s : State) : (s.emptyPool).zones = s.zones := rfl
@[simp] theorem State.emptyPool_published (s : State) : (s.emptyPool).published = s.published := rfl
@[simp] theorem State.emptyPool_clock (s : State) : (s.emptyPool).clock = s.clock := rfl
@[simp] theorem State.emptyPool_publicationDue (s : State) : (s.emptyPool).publicationDue = s.publicationDue := rfl
@[simp] theorem State.emptyPool_classes (s : State) : (s.emptyPool).classes = s.classes := rfl
@[simp] theorem State.emptyPool_nv (s : State) : (s.emptyPool).nv = s.nv := rfl
@[simp] theorem State.emptyPool_prog (s : State) : (s.emptyPool).prog = s.prog := rfl
@[simp] theorem State.emptyPool_live (s : State) : (s.emptyPool).live = s.live := rfl
@[simp] theorem State.emptyPool_highest (s : State) : (s.emptyPool).highest = s.highest := rfl
@[simp] theorem State.emptyPool_cursor (s : State) : (s.emptyPool).cursor = s.cursor := rfl
@[simp] theorem State.emptyPool_batch (s : State) : (s.emptyPool).batch = s.batch := rfl
@[simp] theorem State.emptyPool_remaining (s : State) : (s.emptyPool).remaining = s.remaining := rfl
@[simp] theorem State.emptyPool_heldAccount (s : State) : (s.emptyPool).heldAccount = s.heldAccount := rfl
@[simp] theorem State.emptyPool_cacheSets (s : State) : (s.emptyPool).cacheSets = s.cacheSets := rfl
@[simp] theorem State.emptyPool_cacheMode (s : State) : (s.emptyPool).cacheMode = s.cacheMode := rfl
@[simp] theorem State.emptyPool_written (s : State) : (s.emptyPool).written = s.written := rfl
@[simp] theorem State.emptyPool_taken (s : State) : (s.emptyPool).taken = s.taken := rfl
@[simp] theorem State.emptyPool_capacity (s : State) : (s.emptyPool).capacity = s.capacity := rfl
@[simp] theorem State.emptyPool_heldNotices (s : State) : (s.emptyPool).heldNotices = s.heldNotices := rfl
@[simp] theorem State.emptyPool_lists (s : State) : (s.emptyPool).lists = s.lists := rfl
@[simp] theorem State.emptyPool_lastServed (s : State) : (s.emptyPool).lastServed = s.lastServed := rfl
@[simp] theorem State.emptyPool_elevated (s : State) : (s.emptyPool).elevated = s.elevated := rfl
@[simp] theorem State.emptyPool_rotation (s : State) : (s.emptyPool).rotation = s.rotation := rfl
@[simp] theorem State.emptyPool_scanPeriod (s : State) : (s.emptyPool).scanPeriod = s.scanPeriod := rfl
@[simp] theorem State.emptyPool_scanRunning (s : State) : (s.emptyPool).scanRunning = s.scanRunning := rfl
@[simp] theorem State.emptyPool_maps (s : State) : (s.emptyPool).maps = s.maps := rfl
@[simp] theorem State.emptyPool_engine (s : State) : (s.emptyPool).engine = s.engine := rfl
@[simp] theorem State.emptyPool_stopping (s : State) : (s.emptyPool).stopping = s.stopping := rfl
@[simp] theorem State.emptyPool_failing (s : State) : (s.emptyPool).failing = s.failing := rfl
@[simp] theorem State.emptyPool_pending (s : State) : (s.emptyPool).pending = s.pending := rfl

/-! ## examine -/

@[simp] theorem State.examine_baseLo (s : State) (b : Vector Zone 64) : (s.examine b).baseLo = s.baseLo := rfl
@[simp] theorem State.examine_baseHi (s : State) (b : Vector Zone 64) : (s.examine b).baseHi = s.baseHi := rfl
@[simp] theorem State.examine_enables (s : State) (b : Vector Zone 64) : (s.examine b).enables = s.enables := rfl
@[simp] theorem State.examine_engineState (s : State) (b : Vector Zone 64) : (s.examine b).engineState = s.engineState := rfl
@[simp] theorem State.examine_resetCauses (s : State) (b : Vector Zone 64) : (s.examine b).resetCauses = s.resetCauses := rfl
@[simp] theorem State.examine_causes (s : State) (b : Vector Zone 64) : (s.examine b).causes = s.causes := rfl
@[simp] theorem State.examine_logFull (s : State) (b : Vector Zone 64) : (s.examine b).logFull = s.logFull := rfl
@[simp] theorem State.examine_noticesDropped (s : State) (b : Vector Zone 64) : (s.examine b).noticesDropped = s.noticesDropped := rfl
@[simp] theorem State.examine_attachFail (s : State) (b : Vector Zone 64) : (s.examine b).attachFail = s.attachFail := rfl
@[simp] theorem State.examine_lines (s : State) (b : Vector Zone 64) : (s.examine b).lines = s.lines := rfl
@[simp] theorem State.examine_messages (s : State) (b : Vector Zone 64) : (s.examine b).messages = s.messages := rfl
@[simp] theorem State.examine_mem (s : State) (b : Vector Zone 64) : (s.examine b).mem = s.mem := rfl
@[simp] theorem State.examine_layout (s : State) (b : Vector Zone 64) : (s.examine b).layout = s.layout := rfl
@[simp] theorem State.examine_zones (s : State) (b : Vector Zone 64) : (s.examine b).zones = s.zones := rfl
@[simp] theorem State.examine_published (s : State) (b : Vector Zone 64) : (s.examine b).published = s.published := rfl
@[simp] theorem State.examine_clock (s : State) (b : Vector Zone 64) : (s.examine b).clock = s.clock := rfl
@[simp] theorem State.examine_publicationDue (s : State) (b : Vector Zone 64) : (s.examine b).publicationDue = s.publicationDue := rfl
@[simp] theorem State.examine_classes (s : State) (b : Vector Zone 64) : (s.examine b).classes = s.classes := rfl
@[simp] theorem State.examine_nv (s : State) (b : Vector Zone 64) : (s.examine b).nv = s.nv := rfl
@[simp] theorem State.examine_prog (s : State) (b : Vector Zone 64) : (s.examine b).prog = s.prog := rfl
@[simp] theorem State.examine_live (s : State) (b : Vector Zone 64) : (s.examine b).live = s.live := rfl
@[simp] theorem State.examine_highest (s : State) (b : Vector Zone 64) : (s.examine b).highest = s.highest := rfl
@[simp] theorem State.examine_unwatched (s : State) (b : Vector Zone 64) : (s.examine b).unwatched = s.unwatched := rfl
@[simp] theorem State.examine_cursor (s : State) (b : Vector Zone 64) : (s.examine b).cursor = s.cursor := rfl
@[simp] theorem State.examine_batch (s : State) (b : Vector Zone 64) : (s.examine b).batch = s.batch := rfl
@[simp] theorem State.examine_remaining (s : State) (b : Vector Zone 64) : (s.examine b).remaining = s.remaining := rfl
@[simp] theorem State.examine_heldAccount (s : State) (b : Vector Zone 64) : (s.examine b).heldAccount = s.heldAccount := rfl
@[simp] theorem State.examine_cacheSets (s : State) (b : Vector Zone 64) : (s.examine b).cacheSets = s.cacheSets := rfl
@[simp] theorem State.examine_cacheMode (s : State) (b : Vector Zone 64) : (s.examine b).cacheMode = s.cacheMode := rfl
@[simp] theorem State.examine_written (s : State) (b : Vector Zone 64) : (s.examine b).written = s.written := rfl
@[simp] theorem State.examine_taken (s : State) (b : Vector Zone 64) : (s.examine b).taken = s.taken := rfl
@[simp] theorem State.examine_capacity (s : State) (b : Vector Zone 64) : (s.examine b).capacity = s.capacity := rfl
@[simp] theorem State.examine_heldNotices (s : State) (b : Vector Zone 64) : (s.examine b).heldNotices = s.heldNotices := rfl
@[simp] theorem State.examine_lists (s : State) (b : Vector Zone 64) : (s.examine b).lists = s.lists := rfl
@[simp] theorem State.examine_lastServed (s : State) (b : Vector Zone 64) : (s.examine b).lastServed = s.lastServed := rfl
@[simp] theorem State.examine_elevated (s : State) (b : Vector Zone 64) : (s.examine b).elevated = s.elevated := rfl
@[simp] theorem State.examine_rotation (s : State) (b : Vector Zone 64) : (s.examine b).rotation = s.rotation := rfl
@[simp] theorem State.examine_scanPeriod (s : State) (b : Vector Zone 64) : (s.examine b).scanPeriod = s.scanPeriod := rfl
@[simp] theorem State.examine_scanRunning (s : State) (b : Vector Zone 64) : (s.examine b).scanRunning = s.scanRunning := rfl
@[simp] theorem State.examine_maps (s : State) (b : Vector Zone 64) : (s.examine b).maps = s.maps := rfl
@[simp] theorem State.examine_engine (s : State) (b : Vector Zone 64) : (s.examine b).engine = s.engine := rfl
@[simp] theorem State.examine_stopping (s : State) (b : Vector Zone 64) : (s.examine b).stopping = s.stopping := rfl
@[simp] theorem State.examine_failing (s : State) (b : Vector Zone 64) : (s.examine b).failing = s.failing := rfl
@[simp] theorem State.examine_pending (s : State) (b : Vector Zone 64) : (s.examine b).pending = s.pending := rfl

/-! ## takeHandover -/

@[simp] theorem State.takeHandover_baseLo (s : State) (e : WatchEntry) : (s.takeHandover e).baseLo = s.baseLo := rfl
@[simp] theorem State.takeHandover_baseHi (s : State) (e : WatchEntry) : (s.takeHandover e).baseHi = s.baseHi := rfl
@[simp] theorem State.takeHandover_enables (s : State) (e : WatchEntry) : (s.takeHandover e).enables = s.enables := rfl
@[simp] theorem State.takeHandover_engineState (s : State) (e : WatchEntry) : (s.takeHandover e).engineState = s.engineState := rfl
@[simp] theorem State.takeHandover_resetCauses (s : State) (e : WatchEntry) : (s.takeHandover e).resetCauses = s.resetCauses := rfl
@[simp] theorem State.takeHandover_causes (s : State) (e : WatchEntry) : (s.takeHandover e).causes = s.causes := rfl
@[simp] theorem State.takeHandover_logFull (s : State) (e : WatchEntry) : (s.takeHandover e).logFull = s.logFull := rfl
@[simp] theorem State.takeHandover_noticesDropped (s : State) (e : WatchEntry) : (s.takeHandover e).noticesDropped = s.noticesDropped := rfl
@[simp] theorem State.takeHandover_attachFail (s : State) (e : WatchEntry) : (s.takeHandover e).attachFail = s.attachFail := rfl
@[simp] theorem State.takeHandover_lines (s : State) (e : WatchEntry) : (s.takeHandover e).lines = s.lines := rfl
@[simp] theorem State.takeHandover_messages (s : State) (e : WatchEntry) : (s.takeHandover e).messages = s.messages := rfl
@[simp] theorem State.takeHandover_mem (s : State) (e : WatchEntry) : (s.takeHandover e).mem = s.mem := rfl
@[simp] theorem State.takeHandover_layout (s : State) (e : WatchEntry) : (s.takeHandover e).layout = s.layout := rfl
@[simp] theorem State.takeHandover_zones (s : State) (e : WatchEntry) : (s.takeHandover e).zones = s.zones := rfl
@[simp] theorem State.takeHandover_published (s : State) (e : WatchEntry) : (s.takeHandover e).published = s.published := rfl
@[simp] theorem State.takeHandover_clock (s : State) (e : WatchEntry) : (s.takeHandover e).clock = s.clock := rfl
@[simp] theorem State.takeHandover_publicationDue (s : State) (e : WatchEntry) : (s.takeHandover e).publicationDue = s.publicationDue := rfl
@[simp] theorem State.takeHandover_classes (s : State) (e : WatchEntry) : (s.takeHandover e).classes = s.classes := rfl
@[simp] theorem State.takeHandover_nv (s : State) (e : WatchEntry) : (s.takeHandover e).nv = s.nv := rfl
@[simp] theorem State.takeHandover_prog (s : State) (e : WatchEntry) : (s.takeHandover e).prog = s.prog := rfl
@[simp] theorem State.takeHandover_live (s : State) (e : WatchEntry) : (s.takeHandover e).live = s.live := rfl
@[simp] theorem State.takeHandover_highest (s : State) (e : WatchEntry) : (s.takeHandover e).highest = s.highest := rfl
@[simp] theorem State.takeHandover_watch (s : State) (e : WatchEntry) : (s.takeHandover e).watch = s.watch := rfl
@[simp] theorem State.takeHandover_unwatched (s : State) (e : WatchEntry) : (s.takeHandover e).unwatched = s.unwatched := rfl
@[simp] theorem State.takeHandover_cursor (s : State) (e : WatchEntry) : (s.takeHandover e).cursor = s.cursor := rfl
@[simp] theorem State.takeHandover_batch (s : State) (e : WatchEntry) : (s.takeHandover e).batch = s.batch := rfl
@[simp] theorem State.takeHandover_remaining (s : State) (e : WatchEntry) : (s.takeHandover e).remaining = s.remaining := rfl
@[simp] theorem State.takeHandover_heldAccount (s : State) (e : WatchEntry) : (s.takeHandover e).heldAccount = s.heldAccount := rfl
@[simp] theorem State.takeHandover_cacheSets (s : State) (e : WatchEntry) : (s.takeHandover e).cacheSets = s.cacheSets := rfl
@[simp] theorem State.takeHandover_cacheMode (s : State) (e : WatchEntry) : (s.takeHandover e).cacheMode = s.cacheMode := rfl
@[simp] theorem State.takeHandover_written (s : State) (e : WatchEntry) : (s.takeHandover e).written = s.written := rfl
@[simp] theorem State.takeHandover_taken (s : State) (e : WatchEntry) : (s.takeHandover e).taken = s.taken := rfl
@[simp] theorem State.takeHandover_capacity (s : State) (e : WatchEntry) : (s.takeHandover e).capacity = s.capacity := rfl
@[simp] theorem State.takeHandover_heldNotices (s : State) (e : WatchEntry) : (s.takeHandover e).heldNotices = s.heldNotices := rfl
@[simp] theorem State.takeHandover_lists (s : State) (e : WatchEntry) : (s.takeHandover e).lists = s.lists := rfl
@[simp] theorem State.takeHandover_lastServed (s : State) (e : WatchEntry) : (s.takeHandover e).lastServed = s.lastServed := rfl
@[simp] theorem State.takeHandover_elevated (s : State) (e : WatchEntry) : (s.takeHandover e).elevated = s.elevated := rfl
@[simp] theorem State.takeHandover_rotation (s : State) (e : WatchEntry) : (s.takeHandover e).rotation = s.rotation := rfl
@[simp] theorem State.takeHandover_scanPeriod (s : State) (e : WatchEntry) : (s.takeHandover e).scanPeriod = s.scanPeriod := rfl
@[simp] theorem State.takeHandover_scanRunning (s : State) (e : WatchEntry) : (s.takeHandover e).scanRunning = s.scanRunning := rfl
@[simp] theorem State.takeHandover_maps (s : State) (e : WatchEntry) : (s.takeHandover e).maps = s.maps := rfl
@[simp] theorem State.takeHandover_stopping (s : State) (e : WatchEntry) : (s.takeHandover e).stopping = s.stopping := rfl
@[simp] theorem State.takeHandover_failing (s : State) (e : WatchEntry) : (s.takeHandover e).failing = s.failing := rfl
@[simp] theorem State.takeHandover_pending (s : State) (e : WatchEntry) : (s.takeHandover e).pending = s.pending := rfl

/-! ## startBatch -/

@[simp] theorem State.startBatch_baseLo (s : State) : (s.startBatch).baseLo = s.baseLo := rfl
@[simp] theorem State.startBatch_baseHi (s : State) : (s.startBatch).baseHi = s.baseHi := rfl
@[simp] theorem State.startBatch_enables (s : State) : (s.startBatch).enables = s.enables := rfl
@[simp] theorem State.startBatch_engineState (s : State) : (s.startBatch).engineState = s.engineState := rfl
@[simp] theorem State.startBatch_resetCauses (s : State) : (s.startBatch).resetCauses = s.resetCauses := rfl
@[simp] theorem State.startBatch_causes (s : State) : (s.startBatch).causes = s.causes := rfl
@[simp] theorem State.startBatch_logFull (s : State) : (s.startBatch).logFull = s.logFull := rfl
@[simp] theorem State.startBatch_noticesDropped (s : State) : (s.startBatch).noticesDropped = s.noticesDropped := rfl
@[simp] theorem State.startBatch_attachFail (s : State) : (s.startBatch).attachFail = s.attachFail := rfl
@[simp] theorem State.startBatch_lines (s : State) : (s.startBatch).lines = s.lines := rfl
@[simp] theorem State.startBatch_messages (s : State) : (s.startBatch).messages = s.messages := rfl
@[simp] theorem State.startBatch_mem (s : State) : (s.startBatch).mem = s.mem := rfl
@[simp] theorem State.startBatch_layout (s : State) : (s.startBatch).layout = s.layout := rfl
@[simp] theorem State.startBatch_zones (s : State) : (s.startBatch).zones = s.zones := rfl
@[simp] theorem State.startBatch_published (s : State) : (s.startBatch).published = s.published := rfl
@[simp] theorem State.startBatch_clock (s : State) : (s.startBatch).clock = s.clock := rfl
@[simp] theorem State.startBatch_publicationDue (s : State) : (s.startBatch).publicationDue = s.publicationDue := rfl
@[simp] theorem State.startBatch_classes (s : State) : (s.startBatch).classes = s.classes := rfl
@[simp] theorem State.startBatch_nv (s : State) : (s.startBatch).nv = s.nv := rfl
@[simp] theorem State.startBatch_prog (s : State) : (s.startBatch).prog = s.prog := rfl
@[simp] theorem State.startBatch_live (s : State) : (s.startBatch).live = s.live := rfl
@[simp] theorem State.startBatch_highest (s : State) : (s.startBatch).highest = s.highest := rfl
@[simp] theorem State.startBatch_watch (s : State) : (s.startBatch).watch = s.watch := rfl
@[simp] theorem State.startBatch_dueQueue (s : State) : (s.startBatch).dueQueue = s.dueQueue := rfl
@[simp] theorem State.startBatch_unwatched (s : State) : (s.startBatch).unwatched = s.unwatched := rfl
@[simp] theorem State.startBatch_cursor (s : State) : (s.startBatch).cursor = s.cursor := rfl
@[simp] theorem State.startBatch_batch (s : State) : (s.startBatch).batch = s.batch := rfl
@[simp] theorem State.startBatch_heldAccount (s : State) : (s.startBatch).heldAccount = s.heldAccount := rfl
@[simp] theorem State.startBatch_cacheSets (s : State) : (s.startBatch).cacheSets = s.cacheSets := rfl
@[simp] theorem State.startBatch_cacheMode (s : State) : (s.startBatch).cacheMode = s.cacheMode := rfl
@[simp] theorem State.startBatch_written (s : State) : (s.startBatch).written = s.written := rfl
@[simp] theorem State.startBatch_taken (s : State) : (s.startBatch).taken = s.taken := rfl
@[simp] theorem State.startBatch_capacity (s : State) : (s.startBatch).capacity = s.capacity := rfl
@[simp] theorem State.startBatch_heldNotices (s : State) : (s.startBatch).heldNotices = s.heldNotices := rfl
@[simp] theorem State.startBatch_lists (s : State) : (s.startBatch).lists = s.lists := rfl
@[simp] theorem State.startBatch_lastServed (s : State) : (s.startBatch).lastServed = s.lastServed := rfl
@[simp] theorem State.startBatch_elevated (s : State) : (s.startBatch).elevated = s.elevated := rfl
@[simp] theorem State.startBatch_rotation (s : State) : (s.startBatch).rotation = s.rotation := rfl
@[simp] theorem State.startBatch_scanPeriod (s : State) : (s.startBatch).scanPeriod = s.scanPeriod := rfl
@[simp] theorem State.startBatch_scanRunning (s : State) : (s.startBatch).scanRunning = s.scanRunning := rfl
@[simp] theorem State.startBatch_maps (s : State) : (s.startBatch).maps = s.maps := rfl
@[simp] theorem State.startBatch_engine (s : State) : (s.startBatch).engine = s.engine := rfl
@[simp] theorem State.startBatch_stopping (s : State) : (s.startBatch).stopping = s.stopping := rfl
@[simp] theorem State.startBatch_failing (s : State) : (s.startBatch).failing = s.failing := rfl
@[simp] theorem State.startBatch_pending (s : State) : (s.startBatch).pending = s.pending := rfl

/-! ## advanceMinute -/

@[simp] theorem State.advanceMinute_baseLo (s : State) (m : Word) (p : Fin 16) : (s.advanceMinute m p).baseLo = s.baseLo := by simp only [State.advanceMinute]
@[simp] theorem State.advanceMinute_baseHi (s : State) (m : Word) (p : Fin 16) : (s.advanceMinute m p).baseHi = s.baseHi := by simp only [State.advanceMinute]
@[simp] theorem State.advanceMinute_enables (s : State) (m : Word) (p : Fin 16) : (s.advanceMinute m p).enables = s.enables := by simp only [State.advanceMinute]
@[simp] theorem State.advanceMinute_engineState (s : State) (m : Word) (p : Fin 16) : (s.advanceMinute m p).engineState = s.engineState := by simp only [State.advanceMinute]
@[simp] theorem State.advanceMinute_resetCauses (s : State) (m : Word) (p : Fin 16) : (s.advanceMinute m p).resetCauses = s.resetCauses := by simp only [State.advanceMinute]
@[simp] theorem State.advanceMinute_causes (s : State) (m : Word) (p : Fin 16) : (s.advanceMinute m p).causes = s.causes := by simp only [State.advanceMinute]
@[simp] theorem State.advanceMinute_logFull (s : State) (m : Word) (p : Fin 16) : (s.advanceMinute m p).logFull = s.logFull := by simp only [State.advanceMinute]
@[simp] theorem State.advanceMinute_noticesDropped (s : State) (m : Word) (p : Fin 16) : (s.advanceMinute m p).noticesDropped = s.noticesDropped := by simp only [State.advanceMinute]
@[simp] theorem State.advanceMinute_attachFail (s : State) (m : Word) (p : Fin 16) : (s.advanceMinute m p).attachFail = s.attachFail := by simp only [State.advanceMinute]
@[simp] theorem State.advanceMinute_lines (s : State) (m : Word) (p : Fin 16) : (s.advanceMinute m p).lines = s.lines := by simp only [State.advanceMinute]
@[simp] theorem State.advanceMinute_messages (s : State) (m : Word) (p : Fin 16) : (s.advanceMinute m p).messages = s.messages := by simp only [State.advanceMinute]
@[simp] theorem State.advanceMinute_mem (s : State) (m : Word) (p : Fin 16) : (s.advanceMinute m p).mem = s.mem := by simp only [State.advanceMinute]
@[simp] theorem State.advanceMinute_layout (s : State) (m : Word) (p : Fin 16) : (s.advanceMinute m p).layout = s.layout := by simp only [State.advanceMinute]
@[simp] theorem State.advanceMinute_published (s : State) (m : Word) (p : Fin 16) : (s.advanceMinute m p).published = s.published := by simp only [State.advanceMinute]
@[simp] theorem State.advanceMinute_publicationDue (s : State) (m : Word) (p : Fin 16) : (s.advanceMinute m p).publicationDue = s.publicationDue := by simp only [State.advanceMinute]
@[simp] theorem State.advanceMinute_classes (s : State) (m : Word) (p : Fin 16) : (s.advanceMinute m p).classes = s.classes := by simp only [State.advanceMinute]
@[simp] theorem State.advanceMinute_nv (s : State) (m : Word) (p : Fin 16) : (s.advanceMinute m p).nv = s.nv := by simp only [State.advanceMinute]
@[simp] theorem State.advanceMinute_prog (s : State) (m : Word) (p : Fin 16) : (s.advanceMinute m p).prog = s.prog := by simp only [State.advanceMinute]
@[simp] theorem State.advanceMinute_live (s : State) (m : Word) (p : Fin 16) : (s.advanceMinute m p).live = s.live := by simp only [State.advanceMinute]
@[simp] theorem State.advanceMinute_highest (s : State) (m : Word) (p : Fin 16) : (s.advanceMinute m p).highest = s.highest := by simp only [State.advanceMinute]
@[simp] theorem State.advanceMinute_watch (s : State) (m : Word) (p : Fin 16) : (s.advanceMinute m p).watch = s.watch := by simp only [State.advanceMinute]
@[simp] theorem State.advanceMinute_dueQueue (s : State) (m : Word) (p : Fin 16) : (s.advanceMinute m p).dueQueue = s.dueQueue := by simp only [State.advanceMinute]
@[simp] theorem State.advanceMinute_unwatched (s : State) (m : Word) (p : Fin 16) : (s.advanceMinute m p).unwatched = s.unwatched := by simp only [State.advanceMinute]
@[simp] theorem State.advanceMinute_cursor (s : State) (m : Word) (p : Fin 16) : (s.advanceMinute m p).cursor = s.cursor := by simp only [State.advanceMinute]
@[simp] theorem State.advanceMinute_batch (s : State) (m : Word) (p : Fin 16) : (s.advanceMinute m p).batch = s.batch := by simp only [State.advanceMinute]
@[simp] theorem State.advanceMinute_remaining (s : State) (m : Word) (p : Fin 16) : (s.advanceMinute m p).remaining = s.remaining := by simp only [State.advanceMinute]
@[simp] theorem State.advanceMinute_heldAccount (s : State) (m : Word) (p : Fin 16) : (s.advanceMinute m p).heldAccount = s.heldAccount := by simp only [State.advanceMinute]
@[simp] theorem State.advanceMinute_cacheSets (s : State) (m : Word) (p : Fin 16) : (s.advanceMinute m p).cacheSets = s.cacheSets := by simp only [State.advanceMinute]
@[simp] theorem State.advanceMinute_cacheMode (s : State) (m : Word) (p : Fin 16) : (s.advanceMinute m p).cacheMode = s.cacheMode := by simp only [State.advanceMinute]
@[simp] theorem State.advanceMinute_written (s : State) (m : Word) (p : Fin 16) : (s.advanceMinute m p).written = s.written := by simp only [State.advanceMinute]
@[simp] theorem State.advanceMinute_taken (s : State) (m : Word) (p : Fin 16) : (s.advanceMinute m p).taken = s.taken := by simp only [State.advanceMinute]
@[simp] theorem State.advanceMinute_capacity (s : State) (m : Word) (p : Fin 16) : (s.advanceMinute m p).capacity = s.capacity := by simp only [State.advanceMinute]
@[simp] theorem State.advanceMinute_heldNotices (s : State) (m : Word) (p : Fin 16) : (s.advanceMinute m p).heldNotices = s.heldNotices := by simp only [State.advanceMinute]
@[simp] theorem State.advanceMinute_lists (s : State) (m : Word) (p : Fin 16) : (s.advanceMinute m p).lists = s.lists := by simp only [State.advanceMinute]
@[simp] theorem State.advanceMinute_lastServed (s : State) (m : Word) (p : Fin 16) : (s.advanceMinute m p).lastServed = s.lastServed := by simp only [State.advanceMinute]
@[simp] theorem State.advanceMinute_elevated (s : State) (m : Word) (p : Fin 16) : (s.advanceMinute m p).elevated = s.elevated := by simp only [State.advanceMinute]
@[simp] theorem State.advanceMinute_rotation (s : State) (m : Word) (p : Fin 16) : (s.advanceMinute m p).rotation = s.rotation := by simp only [State.advanceMinute]
@[simp] theorem State.advanceMinute_scanPeriod (s : State) (m : Word) (p : Fin 16) : (s.advanceMinute m p).scanPeriod = s.scanPeriod := by simp only [State.advanceMinute]
@[simp] theorem State.advanceMinute_scanRunning (s : State) (m : Word) (p : Fin 16) : (s.advanceMinute m p).scanRunning = s.scanRunning := by simp only [State.advanceMinute]
@[simp] theorem State.advanceMinute_maps (s : State) (m : Word) (p : Fin 16) : (s.advanceMinute m p).maps = s.maps := by simp only [State.advanceMinute]
@[simp] theorem State.advanceMinute_engine (s : State) (m : Word) (p : Fin 16) : (s.advanceMinute m p).engine = s.engine := by simp only [State.advanceMinute]
@[simp] theorem State.advanceMinute_stopping (s : State) (m : Word) (p : Fin 16) : (s.advanceMinute m p).stopping = s.stopping := by simp only [State.advanceMinute]
@[simp] theorem State.advanceMinute_failing (s : State) (m : Word) (p : Fin 16) : (s.advanceMinute m p).failing = s.failing := by simp only [State.advanceMinute]
@[simp] theorem State.advanceMinute_pending (s : State) (m : Word) (p : Fin 16) : (s.advanceMinute m p).pending = s.pending := by simp only [State.advanceMinute]

end Sys2Proof.Machine
end

