-- ==== Sys2Proof/Laws/Act.lean ====
section
/-! SUPPORT. How work runs: one equation per step of an `Act`, rules for what work keeps, and what a region access does. -/

namespace Sys2Proof.Machine

variable {α β : Type}

/-! ## Equations -/

theorem Act.pure_eq (x : α) (s : State) : (pure x : Act α) s = .ok x s := rfl

theorem Act.get_eq (s : State) : (get : Act State) s = .ok s s := rfl

theorem Act.set_eq (t s : State) : (set t : Act Unit) s = .ok () t := rfl

theorem Act.modify_eq (f : State → State) (s : State) : (modify f : Act Unit) s = .ok () (f s) := rfl

/-- Work that reads the state first. -/
theorem Act.get_bind (f : State → Act α) (s : State) : (get >>= f) s = f s s := rfl

/-- Work that changes the state first. -/
theorem Act.modify_bind (g : State → State) (f : Unit → Act α) (s : State) : (modify g >>= f) s = f () (g s) := rfl

/-- Work that replaces the state first. -/
theorem Act.set_bind (t : State) (f : Unit → Act α) (s : State) : (set t >>= f) s = f () t := rfl

/-- Work whose first part ends normally. -/
theorem Act.bind_ok {a : Act α} {f : α → Act β} {s t : State} {x : α} (h : a s = .ok x t) : (a >>= f) s = f x t := by
  show EStateM.bind a f s = _
  simp [EStateM.bind, h]

/-- Work whose first part is cut. -/
theorem Act.bind_error {a : Act α} {f : α → Act β} {s t : State} {e : Cut} (h : a s = .error e t) :
    (a >>= f) s = .error e t := by
  show EStateM.bind a f s = _
  simp [EStateM.bind, h]

/-! ## What work keeps -/

/-- Started where `P` holds, the work ends normally where `Q` holds of its answer and state, or is cut where `E` holds. -/
def Act.Does (P : State → Prop) (a : Act α) (Q : α → State → Prop) (E : State → Prop) : Prop :=
  ∀ s, P s → match a s with
    | .ok x t => Q x t
    | .error _ t => E t

/-- The work keeps a property, cut or not. -/
def Act.Keeps (I : State → Prop) (a : Act α) : Prop := Act.Does I a (fun _ t => I t) I

theorem Act.does_pure {P : State → Prop} {Q : α → State → Prop} {E : State → Prop} {x : α} (h : ∀ s, P s → Q x s) :
    Act.Does P (pure x) Q E := h

theorem Act.does_bind {P : State → Prop} {R : α → State → Prop} {Q : β → State → Prop} {E : State → Prop}
    {a : Act α} {f : α → Act β} (ha : Act.Does P a R E) (hf : ∀ x, Act.Does (R x) (f x) Q E) :
    Act.Does P (a >>= f) Q E := by
  intro s hs
  have h := ha s hs
  cases r : a s with
  | ok x t => rw [Act.bind_ok r]; rw [r] at h; exact hf x t h
  | error e t => rw [Act.bind_error r]; rw [r] at h; exact h

theorem Act.does_get {P : State → Prop} {Q : β → State → Prop} {E : State → Prop} {f : State → Act β}
    (h : ∀ s, P s → Act.Does (fun t => t = s ∧ P t) (f s) Q E) : Act.Does P (get >>= f) Q E :=
  fun s hs => h s hs s ⟨rfl, hs⟩

theorem Act.does_modify {P : State → Prop} {Q : Unit → State → Prop} {E : State → Prop} {f : State → State}
    (h : ∀ s, P s → Q () (f s)) : Act.Does P (modify f) Q E := h

theorem Act.does_set {P : State → Prop} {Q : Unit → State → Prop} {E : State → Prop} {t : State}
    (h : ∀ s, P s → Q () t) : Act.Does P (set t) Q E := h

theorem Act.does_weaken {P P' : State → Prop} {Q Q' : α → State → Prop} {E E' : State → Prop} {a : Act α}
    (ha : Act.Does P a Q E) (hp : ∀ s, P' s → P s) (hq : ∀ x s, Q x s → Q' x s) (he : ∀ s, E s → E' s) :
    Act.Does P' a Q' E' := by
  intro s hs
  have h := ha s (hp s hs)
  revert h
  cases a s with
  | ok x t => exact hq x t
  | error _ t => exact he t

theorem Act.keeps_pure {I : State → Prop} (x : α) : Act.Keeps I (pure x) := fun _ h => h

theorem Act.keeps_bind {I : State → Prop} {a : Act α} {f : α → Act β} (ha : Act.Keeps I a) (hf : ∀ x, Act.Keeps I (f x)) :
    Act.Keeps I (a >>= f) := Act.does_bind ha hf

theorem Act.keeps_get {I : State → Prop} {f : State → Act β} (h : ∀ s, I s → Act.Does (fun t => t = s ∧ I t) (f s) (fun _ t => I t) I) :
    Act.Keeps I (get >>= f) := Act.does_get h

/-- Work that reads the state and then keeps a property whatever it read. -/
theorem Act.keeps_get_any {I : State → Prop} {f : State → Act β} (h : ∀ s, Act.Keeps I (f s)) : Act.Keeps I (get >>= f) :=
  fun s hs => h s s hs

theorem Act.keeps_modify {I : State → Prop} {f : State → State} (h : ∀ s, I s → I (f s)) : Act.Keeps I (modify f) := h

theorem Act.keeps_ite {I : State → Prop} {c : Prop} [Decidable c] {a b : Act α} (ha : Act.Keeps I a) (hb : Act.Keeps I b) :
    Act.Keeps I (if c then a else b) := by
  split
  · exact ha
  · exact hb

theorem Act.keeps_forEach {I : State → Prop} {xs : List α} {f : α → Act Unit} (h : ∀ x ∈ xs, Act.Keeps I (f x)) :
    Act.Keeps I (forEach xs f) := by
  induction xs with
  | nil => exact Act.keeps_pure _
  | cons x xs ih =>
    exact Act.keeps_bind (h x List.mem_cons_self) fun _ => ih fun y hy => h y (List.mem_cons_of_mem _ hy)

theorem Act.keeps_sumOver {I : State → Prop} {xs : List α} {f : α → Act Nat} (h : ∀ x ∈ xs, Act.Keeps I (f x)) :
    Act.Keeps I (sumOver xs f) := by
  induction xs with
  | nil => exact Act.keeps_pure _
  | cons x xs ih =>
    exact Act.keeps_bind (h x List.mem_cons_self) fun _ =>
      Act.keeps_bind (ih fun y hy => h y (List.mem_cons_of_mem _ hy)) fun _ => Act.keeps_pure _

theorem Act.keeps_repeatAct {I : State → Prop} {a : Act Unit} (h : Act.Keeps I a) (n : Nat) : Act.Keeps I (repeatAct n a) := by
  induction n with
  | zero => exact Act.keeps_pure _
  | succ n ih => exact Act.keeps_bind h fun _ => ih

/-- What a command's work keeps, the command keeps, if driving the lines and the entry to FAULTED keep it. -/
theorem State.after_keeps {I : State → Prop} {a : Act Unit} {s : State} (ha : Act.Keeps I a) (hd : ∀ t, I t → I t.drive)
    (hf : ∀ t, I t → I t.enterFaulted) (hs : I s) : I (s.after a) := by
  have h := ha s hs
  unfold State.after
  cases r : a s with
  | ok _ t => rw [r] at h; exact hd t h
  | error _ t => rw [r] at h; exact hd _ (hf t h)

/-- A command whose work ends normally. -/
theorem conclude_ok {a : Act Unit} {s t : State} (h : a s = .ok () t) : conclude a s = .next t.drive := by
  simp [conclude, State.after, h]

/-- A command whose work is cut: the part is FAULTED. -/
theorem conclude_error {a : Act Unit} {s t : State} {e : Cut} (h : a s = .error e t) :
    conclude a s = .next t.enterFaulted.drive := by
  simp [conclude, State.after, h]

/-! ## Region accesses -/

/-- A read with no failure armed. -/
theorem regionRead_ok {s : State} (h : s.failing = none) (off n : Nat) : regionRead off n s = .ok (s.peekWords off n) s := by
  simp [regionRead, h]

/-- A write with no failure armed. -/
theorem regionWriteLanding_ok {s : State} (h : s.failing = none) (lands : Nat → Nat) (off : Nat) (ws : List Word) :
    regionWriteLanding lands off ws s = .ok () (s.poke off ws) := by
  simp [regionWriteLanding, h]

@[inherit_doc regionWriteLanding_ok]
theorem regionWrite_ok {s : State} (h : s.failing = none) (off : Nat) (ws : List Word) :
    regionWrite off ws s = .ok () (s.poke off ws) := regionWriteLanding_ok h _ off ws

@[inherit_doc regionWriteLanding_ok]
theorem regionWriteWhole_ok {s : State} (h : s.failing = none) (off : Nat) (ws : List Word) :
    regionWriteWhole off ws s = .ok () (s.poke off ws) := regionWriteLanding_ok h _ off ws

/-- Everything a read can do: it answers the words that stand there and changes nothing but the armed failure, or fails. -/
theorem regionRead_does (s : State) (off n : Nat) :
    (∃ f, regionRead off n s = .ok (s.peekWords off n) { s with failing := f }) ∨
      ∃ p, s.failing = some ⟨0, p⟩ ∧ regionRead off n s = .error .accessFailed { s with failing := none } := by
  unfold regionRead
  split
  · next h => exact .inl ⟨none, by rw [← h]⟩
  · next p h => exact .inr ⟨p, h, rfl⟩
  · exact .inl ⟨_, rfl⟩

/-- Everything a write can do: it stores its words, or the first bytes of them, and fails. -/
theorem regionWriteLanding_does (s : State) (lands : Nat → Nat) (off : Nat) (ws : List Word) :
    (∃ f, regionWriteLanding lands off ws s = .ok () { s.poke off ws with failing := f }) ∨
      ∃ p, s.failing = some ⟨0, p⟩ ∧
        regionWriteLanding lands off ws s = .error .accessFailed { s.pokePart off ws (lands p) with failing := none } := by
  unfold regionWriteLanding
  split
  · next h => exact .inl ⟨none, by show _ = EStateM.Result.ok () { s.poke off ws with failing := none }; rw [← h]; rfl⟩
  · next p h => exact .inr ⟨p, h, rfl⟩
  · exact .inl ⟨_, rfl⟩

/-- A read keeps what does not depend on the armed failure. -/
theorem regionRead_keeps {I : State → Prop} (h : ∀ s f, I s → I { s with failing := f }) (off n : Nat) :
    Act.Keeps I (regionRead off n) := by
  intro s hs
  rcases regionRead_does s off n with ⟨f, r⟩ | ⟨p, -, r⟩ <;> rw [r] <;> exact h _ _ hs

/-- A write keeps what neither depends on the armed failure nor is changed by a store into host memory. -/
theorem regionWriteLanding_keeps {I : State → Prop} (h : ∀ s f, I s → I { s with failing := f })
    (hm : ∀ s a bs, I s → I { s with mem := s.mem.store a bs }) (lands : Nat → Nat) (off : Nat) (ws : List Word) :
    Act.Keeps I (regionWriteLanding lands off ws) := by
  intro s hs
  rcases regionWriteLanding_does s lands off ws with ⟨f, r⟩ | ⟨p, -, r⟩ <;> rw [r]
  · exact h _ _ (hm s _ _ hs)
  · exact h _ _ (hm s _ _ hs)

@[inherit_doc regionWriteLanding_keeps]
theorem regionWrite_keeps {I : State → Prop} (h : ∀ s f, I s → I { s with failing := f })
    (hm : ∀ s a bs, I s → I { s with mem := s.mem.store a bs }) (off : Nat) (ws : List Word) :
    Act.Keeps I (regionWrite off ws) := regionWriteLanding_keeps h hm _ off ws

@[inherit_doc regionWriteLanding_keeps]
theorem regionWriteWhole_keeps {I : State → Prop} (h : ∀ s f, I s → I { s with failing := f })
    (hm : ∀ s a bs, I s → I { s with mem := s.mem.store a bs }) (off : Nat) (ws : List Word) :
    Act.Keeps I (regionWriteWhole off ws) := regionWriteLanding_keeps h hm _ off ws

/-- Every region access keeps host memory in canonical form. -/
theorem regionWrite_keeps_wf (off : Nat) (ws : List Word) : Act.Keeps (fun s => s.mem.wf = true) (regionWrite off ws) :=
  regionWrite_keeps (fun _ _ h => h) (fun _ _ _ h => Memory.store_wf h _ _) off ws

@[inherit_doc regionWrite_keeps_wf]
theorem regionWriteWhole_keeps_wf (off : Nat) (ws : List Word) :
    Act.Keeps (fun s => s.mem.wf = true) (regionWriteWhole off ws) :=
  regionWriteWhole_keeps (fun _ _ h => h) (fun _ _ _ h => Memory.store_wf h _ _) off ws

@[inherit_doc regionWrite_keeps_wf]
theorem regionRead_keeps_wf (off n : Nat) : Act.Keeps (fun s => s.mem.wf = true) (regionRead off n) :=
  regionRead_keeps (fun _ _ h => h) off n

/-- The host's stores keep host memory in canonical form. -/
theorem landStores_keeps_wf (stores : HostStores) : Act.Keeps (fun s => s.mem.wf = true) (landStores stores) :=
  Act.keeps_modify fun _ h => Memory.land_wf h _

/-- Right after reset host memory is in canonical form. -/
theorem reset_mem_wf : State.reset.mem.wf = true := rfl

/-! ## Reading after a write of the region -/

/-- Words read apart from a write are as before. -/
theorem State.peekWords_poke_apart {s : State} {off off' n : Nat} {ws : List Word}
    (h : off' + 4 * n ≤ off ∨ off + 4 * ws.length ≤ off') : (s.poke off ws).peekWords off' n = s.peekWords off' n := by
  show (s.mem.store _ _).words _ _ = _
  rw [Memory.words_store_apart (by rw [wordsBytes_length]; simp only [State.base, State.poke]; omega)]
  rfl

/-- A word read apart from a write is as before. -/
theorem State.peek_poke_apart {s : State} {off off' : Nat} {ws : List Word}
    (h : off' + 4 ≤ off ∨ off + 4 * ws.length ≤ off') : (s.poke off ws).peek off' = s.peek off' := by
  show (s.mem.store _ _).word _ = _
  rw [Memory.word_store_apart (by rw [wordsBytes_length]; simp only [State.base, State.poke]; omega)]
  rfl

/-- Words read where they were written. -/
theorem State.peekWords_poke (s : State) (off n : Nat) (ws : Vector Word n) : (s.poke off ws.toList).peekWords off n = ws :=
  Memory.words_store _ _ _ _

/-- A word read where a run was written. -/
theorem State.peek_poke (s : State) (off : Nat) (ws : List Word) (i : Nat) (h : i < ws.length) :
    (s.poke off ws).peek (off + 4 * i) = ws.getD i 0 := by
  show (s.mem.store _ _).word _ = _
  rw [← Memory.word_store s.mem (s.base + off) ws i h]
  simp only [State.base, State.poke, Nat.add_assoc]

end Sys2Proof.Machine
end

