-- ==== Sys2Proof/Laws/Cells.lean ====
section
/-! SUPPORT. What an inspection, a take and a completion of a cell do, each said once for a part with no failure armed, and how a
cell's command runs (R162, R164 to R166). -/

namespace Sys2Proof.Machine

/-- An inspection: a list that is not eligible becomes so if its next cell is POSTED (R162). -/
theorem inspect_ok {s : State} (h : s.failing = none) (k : ListNo) :
    inspect k s = .ok () (if s.lists[k].eligible = true then s
      else s.setEligible k (decide (byteOf (s.peek (s.nextCell k)) 0 = cellPosted))) := by
  unfold inspect
  rw [Act.get_bind]
  split
  · rfl
  · rw [Act.bind_ok (regionRead_ok h _ _), Act.modify_eq]
    rfl

/-- A take answers the cell as read and leaves the state `afterTake` (R164). -/
theorem takeCell_ok {s : State} (h : s.failing = none) (k : ListNo) : takeCell k s = .ok (s.offered k) (s.afterTake k) := by
  unfold takeCell
  rw [Act.get_bind, Act.bind_ok (regionRead_ok h _ _), Act.bind_ok (regionWrite_ok h _ _), Act.modify_bind, Act.get_bind,
    Act.bind_ok (regionWrite_ok (by exact h) _ _), Act.pure_eq]
  have index : ∀ h : Fin 2, h = (if k.val < 4 then 0 else 1) → 4 * h.val = 4 * (k.val / 4) := by
    intro h e
    have := k.isLt
    split at e <;> subst e <;> simp <;> omega
  rw [index _ rfl]
  rfl

/-- The state a completion leaves before its inspection (R166). -/
def State.completed (s : State) (c : TakenCell) (a : Answer) : State :=
  let at_ := s.layout.cell c.list c.index
  let t := { ((s.poke (at_ + 4) [c.hostTag]).poke (at_ + 40) [word a.result.code, a.w11, a.w12, a.w13, a.w14, a.w15]).poke at_
    [cellWord cellDone c.words[0]] with engine := .free }
  if c.notify then t.raiseCause .cellDone else t

@[simp] theorem State.completed_failing (s : State) (c : TakenCell) (a : Answer) : (s.completed c a).failing = s.failing := by
  unfold State.completed
  split
  · simp only [State.raiseCause]
    split <;> rfl
  · rfl

/-- A completion writes the host tag, the result words and word 0, frees the engine, sends CELL_DONE if asked, and inspects the
list (R166). -/
theorem completeCell_ok {s : State} (h : s.failing = none) (c : TakenCell) (a : Answer) :
    completeCell c a s = inspect c.list (s.completed c a) := by
  unfold completeCell State.completed
  rw [Act.get_bind, Act.bind_ok (regionWrite_ok h _ _), Act.bind_ok (regionWrite_ok (by exact h) _ _),
    Act.bind_ok (regionWriteWhole_ok (by exact h) _ _), Act.modify_bind]
  cases c.notify <;> rfl

/-- The command of a kind code that a list offers: the cell is taken and served from the state its take leaves (R163, R164). -/
theorem serveCell_offered {s : State} {k : ListNo} {kind : Nat} (h : Offers s k kind) {kinds : Nat → Bool}
    (hk : kinds kind = true) (work : TakenCell → Act (Option Answer)) :
    serveCell kinds work s = serveTaken (s.offered k) work (s.afterTake k) := by
  unfold serveCell
  rw [Act.get_bind, if_pos h.free, h.chosen]
  simp only
  rw [if_pos ⟨h.posted, by rw [h.kind]; exact hk⟩, Act.bind_ok (takeCell_ok h.service.sound k)]

/-- The command of a kind code that the chosen list does not offer does nothing (log entry 5). -/
theorem serveCell_idle {s : State} {kinds : Nat → Bool} {work : TakenCell → Act (Option Answer)}
    (h : ∀ k, s.mayTakeCell = true → s.chosenList = some k →
      ¬ (byteOf (s.peek (s.nextCell k)) 0 = cellPosted ∧ kinds (byteOf (s.peek (s.nextCell k)) 1) = true)) :
    serveCell kinds work s = .ok () s := by
  unfold serveCell
  rw [Act.get_bind]
  split
  · next free =>
    cases chosen : s.chosenList with
    | none => rfl
    | some k =>
      simp only
      rw [if_neg (h k free chosen), Act.pure_eq]
  · rfl

/-- The kind code of the cell a list offers. -/
theorem Offers.kind_eq {s : State} {k : ListNo} {kind : Nat} (h : Offers s k kind) : (s.offered k).kind = kind := by
  rw [← h.kind]
  show byteOf (s.peekWords (s.nextCell k) 10)[0] 1 = _
  simp only [State.peekWords, Memory.words, Vector.getElem_ofFn]
  rfl

/-- A taken cell refused at intake is completed with zero words (R165). -/
theorem serveTaken_refused {s : State} {c : TakenCell} {r : Result} (h : s.intakeRefusal c = some r)
    (work : TakenCell → Act (Option Answer)) : serveTaken c work s = completeCell c (refusedWith r) s := by
  unfold serveTaken
  rw [Act.get_bind, h]

/-- A taken cell whose work answers is completed with the answer (R166). -/
theorem serveTaken_answered {s t : State} {c : TakenCell} {a : Answer} (h : s.intakeRefusal c = none)
    {work : TakenCell → Act (Option Answer)} (hw : work c s = .ok (some a) t) : serveTaken c work s = completeCell c a t := by
  unfold serveTaken
  rw [Act.get_bind, h]
  exact Act.bind_ok hw

/-- A cell that passes intake is refused by no intake check after its take. -/
theorem Admits.not_refused {s : State} {k : ListNo} {kind : Nat} (h : Admits s k kind) :
    (s.afterTake k).intakeRefusal (s.offered k) = none := by
  unfold State.intakeRefusal
  rw [h.offers.kind_eq, if_neg (by have := h.known; omega)]
  have p : (s.afterTake k).maps[(s.offered k).list].permitsKind kind = true := h.permitted
  rw [p]
  have c : (needsTime kind && !(s.afterTake k).clockSet) = false := by
    cases hn : needsTime kind with
    | false => rfl
    | true =>
      have : s.clockSet = true := h.timed (by simpa [needsTime] using hn)
      have e : (s.afterTake k).clockSet = s.clockSet := rfl
      rw [e, this]
      rfl
  rw [c]
  rfl

end Sys2Proof.Machine
end

