-- ==== Sys2Proof/Laws/NoticeUnit.lean ====
section
/-! SUPPORT. What the notice unit does with a notice and what it leaves alone, each said once for a part with no failure armed
(R146 to R151). -/

namespace Sys2Proof.Machine

/-- Nothing has changed between two states but the notice unit, the causes, the messages sent and host memory. -/
def NoticeFrame (s t : State) : Prop :=
  t = { s with
        mem := t.mem
        written := t.written
        taken := t.taken
        heldNotices := t.heldNotices
        logFull := t.logFull
        noticesDropped := t.noticesDropped
        causes := t.causes
        messages := t.messages }

theorem NoticeFrame.refl (s : State) : NoticeFrame s s := rfl

theorem NoticeFrame.trans {s t u : State} (h : NoticeFrame s t) (g : NoticeFrame t u) : NoticeFrame s u := by
  unfold NoticeFrame at *
  rw [g, h]

theorem NoticeFrame.failing {s t : State} (h : NoticeFrame s t) : t.failing = s.failing := by
  rw [h]

theorem NoticeFrame.raise {s t : State} (h : NoticeFrame s t) (c : Cause) : NoticeFrame s (t.raiseCause c) := by
  refine h.trans ?_
  unfold NoticeFrame State.raiseCause
  split <;> rfl

/-- The state right after a notice's record is in the log, before W is written (R146). -/
def State.recorded (s : State) (n : Notice) (held : List Notice) : State :=
  { s.poke (s.layout.noticeLog + 16 * (s.written.toNat % s.capacity)) n.words with
    written := s.written + 1, heldNotices := held, logFull := s.logFull && !held.isEmpty }.raiseCause n.cause

/-- The state after a notice is written into the log (R146). -/
def State.logged (s : State) (n : Notice) (held : List Notice) : State :=
  let t := s.recorded n held
  t.poke (s.layout.controlPage + 4) [t.written, word t.heldNotices.length]

theorem State.recorded_frame (s : State) (n : Notice) (held : List Notice) : NoticeFrame s (s.recorded n held) :=
  NoticeFrame.raise (t := { s.poke (s.layout.noticeLog + 16 * (s.written.toNat % s.capacity)) n.words with
    written := s.written + 1, heldNotices := held, logFull := s.logFull && !held.isEmpty }) rfl n.cause

theorem State.logged_frame (s : State) (n : Notice) (held : List Notice) : NoticeFrame s (s.logged n held) :=
  (s.recorded_frame n held).trans rfl

/-- Writing a notice into the log (R146). -/
theorem writeNotice_ok {s : State} (h : s.failing = none) (n : Notice) (held : List Notice) :
    writeNotice n held s = .ok () (s.logged n held) := by
  have f : (s.recorded n held).failing = none := by rw [(s.recorded_frame n held).failing, h]
  have l : (s.recorded n held).layout = s.layout := by rw [s.recorded_frame n held]
  unfold writeNotice
  rw [Act.get_bind, Act.bind_ok (regionWrite_ok h _ _), Act.modify_bind, Act.get_bind]
  show regionWriteWhole ((s.recorded n held).layout.controlPage + 4) _ (s.recorded n held) = _
  rw [regionWriteWhole_ok f, l]
  rfl

/-- A drain ends normally and keeps the frame (R150). -/
theorem drain_frame (k : Nat) : ∀ {s : State}, s.failing = none → ∃ t, drain k s = .ok () t ∧ NoticeFrame s t := by
  induction k with
  | zero => exact fun {s} _ => ⟨s, rfl, NoticeFrame.refl s⟩
  | succ k ih =>
    intro s h
    unfold drain
    rw [Act.get_bind]
    split
    · cases hn : nextHeld s.heldNotices with
      | none => exact ⟨s, rfl, NoticeFrame.refl s⟩
      | some n =>
        simp only
        rw [Act.bind_ok (writeNotice_ok h n _)]
        obtain ⟨t, r, f⟩ := ih (s := s.logged n (s.heldNotices.erase n)) (by rw [(s.logged_frame n _).failing, h])
        exact ⟨t, r, (s.logged_frame n _).trans f⟩
    · exact ⟨s, rfl, NoticeFrame.refl s⟩

/-- A drain with nothing held does nothing. -/
theorem drain_empty {s : State} (h : s.heldNotices = []) : drain s.heldNotices.length s = .ok () s := by
  rw [h]
  rfl

/-- Reading T ends normally and keeps the frame (R147). -/
theorem readTaken_frame {s : State} (h : s.failing = none) : ∃ t, readTaken s = .ok () t ∧ NoticeFrame s t := by
  unfold readTaken
  rw [Act.get_bind, Act.bind_ok (regionRead_ok h _ _), Act.modify_bind, Act.get_bind]
  obtain ⟨t, r, f⟩ := drain_frame
    ({ s with taken := reckonTaken s.written s.capacity (s.peekWords s.layout.controlPage 1)[0] }).heldNotices.length
    (s := { s with taken := reckonTaken s.written s.capacity (s.peekWords s.layout.controlPage 1)[0] }) h
  exact ⟨t, r, NoticeFrame.trans (t := { s with
    taken := reckonTaken s.written s.capacity (s.peekWords s.layout.controlPage 1)[0] }) rfl f⟩

/-- Reading T with nothing held reckons with it and does no more (R147). -/
theorem readTaken_empty {s : State} (h : s.failing = none) (held : s.heldNotices = []) :
    readTaken s = .ok () { s with taken := reckonTaken s.written s.capacity (s.peek s.layout.controlPage) } := by
  unfold readTaken
  rw [Act.get_bind, Act.bind_ok (regionRead_ok h _ _), Act.modify_bind, Act.get_bind]
  have : (s.peekWords s.layout.controlPage 1)[0] = s.peek s.layout.controlPage := by
    simp only [State.peekWords, Memory.words, Vector.getElem_ofFn]
    rfl
  rw [this]
  exact drain_empty (s := { s with taken := reckonTaken s.written s.capacity (s.peek s.layout.controlPage) }) held

/-- A notice received with none held and room in the log is written there (R148 step 1). -/
theorem receiveNotice_logged {s : State} (h : s.failing = none) (held : s.heldNotices = []) (room : s.logHasRoom = true)
    (n : Notice) : receiveNotice n s = .ok false (s.logged n []) := by
  unfold receiveNotice
  rw [Act.get_bind, held]
  simp only [List.isEmpty_nil, ↓reduceIte, room]
  rw [Act.bind_ok (writeNotice_ok h n [])]
  rfl

/-- Receiving a notice ends normally and keeps the frame; it is dropped only with the held queue full (R148). -/
theorem receiveNotice_frame {s : State} (h : s.failing = none) (n : Notice) :
    ∃ dropped t, receiveNotice n s = .ok dropped t ∧ NoticeFrame s t ∧ (dropped = true → heldMax ≤ s.heldNotices.length) := by
  unfold receiveNotice
  rw [Act.get_bind]
  split
  · split
    · rw [Act.bind_ok (writeNotice_ok h n [])]
      exact ⟨_, _, rfl, s.logged_frame n [], fun e => absurd e (by decide)⟩
    · obtain ⟨t, r, f⟩ := readTaken_frame h
      rw [Act.bind_ok r, Act.get_bind]
      split
      · rw [Act.bind_ok (writeNotice_ok (by rw [f.failing, h]) n [])]
        exact ⟨_, _, rfl, f.trans (t.logged_frame n []), fun e => absurd e (by decide)⟩
      · exact ⟨_, { t with heldNotices := [n], logFull := true }, rfl, f.trans rfl, fun e => absurd e (by decide)⟩
  · split
    · rw [Act.modify_bind]
      obtain ⟨t, r, f⟩ := readTaken_frame (s := { s with heldNotices := mergeHeld n s.heldNotices }) h
      rw [Act.bind_ok r]
      exact ⟨_, _, rfl, NoticeFrame.trans (t := { s with heldNotices := mergeHeld n s.heldNotices }) rfl f,
        fun e => absurd e (by decide)⟩
    · split
      · rw [Act.modify_bind]
        obtain ⟨t, r, f⟩ := readTaken_frame (s := { s with heldNotices := s.heldNotices ++ [n] }) h
        rw [Act.bind_ok r]
        exact ⟨_, _, rfl, NoticeFrame.trans (t := { s with heldNotices := s.heldNotices ++ [n] }) rfl f,
          fun e => absurd e (by decide)⟩
      · next full =>
        obtain ⟨t, r, f⟩ := readTaken_frame h
        rw [Act.bind_ok r]
        exact ⟨_, _, rfl, f, fun _ => Nat.le_of_not_lt full⟩

/-- Handing notices over ends normally and keeps the frame (R151). -/
theorem handNotices_frame (ns : List Notice) :
    ∀ {s : State}, s.failing = none → ∃ missed t, handNotices ns s = .ok missed t ∧ NoticeFrame s t := by
  induction ns with
  | nil => exact fun {s} _ => ⟨false, s, rfl, NoticeFrame.refl s⟩
  | cons n ns ih =>
    intro s h
    unfold handNotices
    obtain ⟨dropped, t, r, f, -⟩ := receiveNotice_frame h n
    rw [Act.bind_ok r]
    have rest : ∀ u, NoticeFrame t u → ∃ missed v,
        (do
          let rest ← handNotices ns
          pure ((dropped && n.kind.marksAccount) || rest) : Act Bool) u = .ok missed v ∧ NoticeFrame s v := by
      intro u fu
      obtain ⟨missed, v, rv, fv⟩ := ih (s := u) (by rw [fu.failing, f.failing, h])
      rw [Act.bind_ok rv]
      exact ⟨_, v, rfl, (f.trans fu).trans fv⟩
    cases dropped && !n.kind.marksAccount with
    | true => exact rest { t with noticesDropped := true } rfl
    | false => exact rest t rfl

end Sys2Proof.Machine
end

