-- ==== Sys2Proof/Laws/Publication.lean ====
section
/-! SUPPORT. What a publication writes and leaves alone, said once for a part with no failure armed (R66). -/

namespace Sys2Proof.Machine

/-- The entries of a run of zones written into the zone page, in their order. -/
def State.pokeEntries (s : State) (zones : Vector Zone 64) : List ZoneNo → State
  | [] => s
  | z :: zs => State.pokeEntries (s.poke (s.layout.zoneEntry z.val) zones[z].entryWords) zones zs

/-- Writing entries changes host memory alone. -/
theorem State.pokeEntries_frame (zones : Vector Zone 64) (zs : List ZoneNo) :
    ∀ s : State, s.pokeEntries zones zs = { s with mem := (s.pokeEntries zones zs).mem } := by
  induction zs with
  | nil => exact fun _ => rfl
  | cons z zs ih =>
    intro s
    unfold State.pokeEntries
    rw [ih]
    rfl

/-- The entries of the zone page are written in their order. -/
theorem forEach_entries (zones : Vector Zone 64) (zs : List ZoneNo) :
    ∀ s : State, s.failing = none →
      forEach zs (fun z => regionWrite (s.layout.zoneEntry z.val) zones[z].entryWords) s = .ok () (s.pokeEntries zones zs) := by
  induction zs with
  | nil => exact fun _ _ => rfl
  | cons z zs ih =>
    intro s h
    unfold forEach State.pokeEntries
    rw [Act.bind_ok (regionWrite_ok h _ _)]
    exact ih (s.poke (s.layout.zoneEntry z.val) zones[z].entryWords) h

/-- The state after the entries of a run of zones and the header of the zone page are written (R66): the published minute, the
rest of the header, and last the check word over every zone's entry. -/
def State.pagePoked (s : State) (zones : Vector Zone 64) (published : Word) (zs : List ZoneNo) : State :=
  (((s.pokeEntries zones zs).poke s.layout.zonePage [published]).poke (s.layout.zonePage + 8) headerRest).poke
    (s.layout.zonePage + 4) [pageCheck published (entriesWords zones)]

theorem State.pagePoked_frame (s : State) (zones : Vector Zone 64) (published : Word) (zs : List ZoneNo) :
    s.pagePoked zones published zs = { s with mem := (s.pagePoked zones published zs).mem } := by
  unfold State.pagePoked
  rw [State.pokeEntries_frame zones zs s]
  rfl

theorem writePage_ok {s : State} (h : s.failing = none) (zones : Vector Zone 64) (published : Word) (zs : List ZoneNo) :
    (do
      forEach zs fun z => regionWrite (s.layout.zoneEntry z.val) zones[z].entryWords
      regionWrite s.layout.zonePage [published]
      regionWrite (s.layout.zonePage + 8) headerRest
      regionWriteWhole (s.layout.zonePage + 4) [pageCheck published (entriesWords zones)] : Act Unit) s
      = .ok () (s.pagePoked zones published zs) := by
  have f : (s.pokeEntries zones zs).failing = none := by
    rw [State.pokeEntries_frame zones zs s]
    exact h
  rw [Act.bind_ok (forEach_entries zones zs s h), Act.bind_ok (regionWrite_ok f _ _),
    Act.bind_ok (regionWrite_ok (by exact f) _ _), regionWriteWhole_ok (by exact f)]
  rfl

/-- The zone page written (R66). -/
theorem writeZonePage_ok {s : State} (h : s.failing = none) (zones : Vector Zone 64) (published : Word) :
    writeZonePage zones published s = .ok () (s.pagePoked zones published (List.finRange 64)) := by
  unfold writeZonePage
  rw [Act.get_bind]
  exact writePage_ok h zones published _

/-- The state a publication leaves. -/
def State.publishedState (s : State) : State :=
  let u := { s with published := if s.clockSet then s.minute else s.published, publicationDue := false }
  let v := u.pagePoked u.zones u.published (List.finRange 64)
  v.poke (u.layout.controlPage + 12) u.controlWords

/-- A publication (R66). -/
theorem publish_ok {s : State} (h : s.failing = none) : publish s = .ok () s.publishedState := by
  unfold publish State.publishedState
  rw [Act.modify_bind, Act.get_bind]
  generalize hu : { s with published := if s.clockSet then s.minute else s.published, publicationDue := false } = u
  have f : u.failing = none := by rw [← hu]; exact h
  rw [Act.bind_ok (writeZonePage_ok f _ _)]
  generalize List.finRange 64 = zs
  exact regionWrite_ok (by rw [State.pagePoked_frame]; exact f) _ _

/-- A publication changes host memory, the published minute and what is due, alone (R66). -/
theorem State.publishedState_frame (s : State) :
    s.publishedState = { s with
      mem := s.publishedState.mem
      published := if s.clockSet then s.minute else s.published
      publicationDue := false } := by
  unfold State.publishedState
  generalize List.finRange 64 = zs
  simp only
  rw [State.pagePoked_frame]
  rfl

/-- The publication a boundary left due is made; none is where none is due (R123). -/
theorem finishPublication_ok {s : State} (h : s.failing = none) :
    finishPublication s = .ok () (if s.publicationDue = true then s.publishedState else s) := by
  unfold finishPublication
  rw [Act.get_bind]
  split
  · exact publish_ok h
  · rfl

end Sys2Proof.Machine
end

