-- ==== Sys2Proof/Laws/Records.lean ====
section
/-! SUPPORT. What a fetch and a write-through of a record do, each said once for a part with no failure armed (R134 to R139), and
what the cache's sets keep. -/

namespace Sys2Proof.Machine

/-- What a fetch of an account returns: its line's words where the cache holds it, else the table's, judged (R2, R3, R134). -/
def State.fetched (s : State) (n : Nat) : Fetched :=
  match s.cached n with
  | some ws => judge ws
  | none => if isCorrupt (s.peekWords (s.layout.record n) 16) then .corrupt else judge (s.peekWords (s.layout.record n) 16)

/-- The set of an account after a fetch: used on a hit, filled on a miss in NORMAL that is not corrupt (R135, R136). -/
def State.setAfterFetch (s : State) (n : Nat) : CacheSet :=
  match s.hitWay n with
  | some w => s.cacheSets[setOf n].use w
  | none =>
    if s.cacheMode = .normal ∧ isCorrupt (s.peekWords (s.layout.record n) 16) = false then
      s.cacheSets[setOf n].fill n (s.peekWords (s.layout.record n) 16)
    else s.cacheSets[setOf n]

/-- One set set to what it holds already changes nothing. -/
theorem State.mapSet_self (s : State) (n : Nat) : s.mapSet n (fun _ => s.cacheSets[setOf n]) = s := by
  unfold State.mapSet
  have : s.cacheSets.set (setOf n) s.cacheSets[setOf n] = s.cacheSets := by
    ext i hi
    simp only [Vector.getElem_set]
    split
    · next h => subst h; rfl
    · rfl
  rw [this]

/-- The line that a hit way holds is a line. -/
theorem State.cached_of_hitWay {s : State} {n : Nat} {w : Fin 4} (h : s.hitWay n = some w) :
    ∃ ws, s.cached n = some ws := by
  unfold State.cached
  rw [h]
  have holds : wayHolds s.cacheSets[setOf n].ways[w] (tagOf n) = true := by
    have := List.find?_some h
    simpa using this
  simp only
  cases hw : s.cacheSets[setOf n].ways[w] with
  | none => rw [hw] at holds; simp [wayHolds] at holds
  | some l => exact ⟨l.words, rfl⟩

/-- A fetch answers `fetched` and changes the account's set alone (R134 to R138). -/
theorem fetchRecord_ok {s : State} (h : s.failing = none) (n : Nat) :
    fetchRecord n s = .ok (s.fetched n) (s.mapSet n fun _ => s.setAfterFetch n) := by
  unfold fetchRecord
  rw [Act.get_bind]
  cases hit : s.hitWay n with
  | some w =>
    obtain ⟨ws, hws⟩ := State.cached_of_hitWay hit
    simp only [hws]
    rw [Act.modify_bind, Act.pure_eq]
    simp only [State.fetched, hws, State.setAfterFetch, hit]
    rfl
  | none =>
    have miss : s.cached n = none := by
      unfold State.cached
      rw [hit]
    simp only
    have f : s.fetched n = if isCorrupt (s.peekWords (s.layout.record n) 16) then .corrupt
        else judge (s.peekWords (s.layout.record n) 16) := by
      unfold State.fetched
      rw [miss]
    split
    · next normal =>
      rw [Act.bind_ok (regionRead_ok h _ _)]
      cases c : isCorrupt (s.peekWords (s.layout.record n) 16) with
      | true =>
        simp only [↓reduceIte]
        rw [Act.pure_eq, f, c]
        simp only [↓reduceIte, State.setAfterFetch, hit, c, Bool.true_eq_false, and_false]
        rw [State.mapSet_self]
      | false =>
        simp only [Bool.false_eq_true, ↓reduceIte]
        rw [Act.modify_bind, Act.pure_eq, f, c]
        simp only [Bool.false_eq_true, ↓reduceIte, State.setAfterFetch, hit, c, and_self, normal]
        rfl
    · next normal =>
      unfold readUncached
      rw [Act.get_bind, Act.bind_ok (regionRead_ok h _ _), Act.pure_eq, f]
      simp only [State.setAfterFetch, hit, normal, false_and, ↓reduceIte]
      rw [State.mapSet_self]

/-- A fetch that finds a good record finds the one `recordOf` gives, and a faulty one where it gives none (R2, R3). -/
theorem State.fetched_eq (s : State) (n : Nat) :
    s.fetched n = match s.recordOf n with
      | some a => .record a
      | none => if s.faultOf n = 1 then .corrupt else .malformed := by
  unfold State.fetched State.recordOf State.faultOf
  cases s.cached n with
  | some ws =>
    simp only [judge]
    cases accountOf ws <;> simp
  | none =>
    simp only
    cases isCorrupt (s.peekWords (s.layout.record n) 16) with
    | true => simp
    | false =>
      simp only [Bool.false_eq_true, ↓reduceIte, judge]
      cases accountOf (s.peekWords (s.layout.record n) 16) <;> simp

/-- A patrol read answers `fetched` and changes nothing (R138). -/
theorem patrolFetch_ok {s : State} (h : s.failing = none) (n : Nat) : patrolFetch n s = .ok (s.fetched n) s := by
  unfold patrolFetch
  rw [Act.get_bind]
  cases hit : s.cached n with
  | some ws => simp only [Act.pure_eq, State.fetched, hit]
  | none =>
    unfold readUncached
    simp only
    rw [Act.get_bind, Act.bind_ok (regionRead_ok h _ _), Act.pure_eq]
    simp only [State.fetched, hit]

/-- A write-through puts the record, its sequence raised by one, into the line that holds it and into the table (R139). -/
theorem writeThrough_ok {s : State} (h : s.failing = none) (n : Nat) (a : Account) :
    let e := { a with sequence := a.sequence + 1 }
    writeThrough n a s = .ok e.sequence
      ((s.mapSet n fun cs => cs.rewrite n (recordWords e)).poke (s.layout.record n) (recordWords e).toList) := by
  intro e
  unfold writeThrough
  rw [Act.modify_bind, Act.get_bind, Act.bind_ok (regionWrite_ok (by exact h) _ _), Act.pure_eq]
  rfl

/-- A change of one set keeps the others. -/
theorem State.mapSet_keeps (s : State) (n : Nat) (f : CacheSet → CacheSet) : KeepsOtherSets s (s.mapSet n f) n := by
  intro i hi
  have : (setOf n).val ≠ i.val := fun e => hi (Fin.ext e.symm)
  show (s.cacheSets.set (setOf n) _)[i.val] = s.cacheSets[i.val]
  rw [Vector.getElem_set_ne _ _ this]

end Sys2Proof.Machine
end

