-- ==== Sys2Proof/Laws/WatchPool.lean ====
section
/-! SUPPORT. What insertion and removal do to the watch pool's list (R103, R105, R106). -/

namespace Sys2Proof.Machine

/-- `before` is the order of R103. -/
theorem WatchEntry.before_iff (x e : WatchEntry) : x.before e = true ↔ x.inOrder e := by
  simp [WatchEntry.before, WatchEntry.inOrder]

/-- What does not stand before an entry stands after it. -/
theorem WatchEntry.inOrder_of_not_before {x e : WatchEntry} (h : ¬ x.before e = true) : e.inOrder x := by
  rw [WatchEntry.before_iff] at h
  unfold WatchEntry.inOrder at *
  omega

theorem WatchEntry.inOrder_trans {x y z : WatchEntry} (h : x.inOrder y) (g : y.inOrder z) : x.inOrder z := by
  unfold WatchEntry.inOrder at *
  omega

/-- Placing an entry adds it and nothing else (R103). -/
theorem placeEntry_perm (e : WatchEntry) (xs : List WatchEntry) : (placeEntry e xs).Perm (e :: xs) := by
  induction xs with
  | nil => exact List.Perm.refl _
  | cons x xs ih =>
    unfold placeEntry
    split
    · exact (List.Perm.cons x ih).trans (List.Perm.swap e x xs)
    · exact List.Perm.refl _

/-- The entries after a placing are the entry and those before it. -/
theorem mem_placeEntry (e y : WatchEntry) (xs : List WatchEntry) : y ∈ placeEntry e xs ↔ y = e ∨ y ∈ xs := by
  rw [(placeEntry_perm e xs).mem_iff, List.mem_cons]

/-- Placing an entry keeps the lists in order of threshold (R103). -/
theorem placeEntry_order (e : WatchEntry) {xs : List WatchEntry} (h : xs.Pairwise WatchEntry.inOrder) :
    (placeEntry e xs).Pairwise WatchEntry.inOrder := by
  induction xs with
  | nil => exact List.pairwise_singleton _ _
  | cons x xs ih =>
    obtain ⟨hx, hxs⟩ := List.pairwise_cons.mp h
    unfold placeEntry
    split
    · next b =>
      refine List.pairwise_cons.mpr ⟨fun y hy => ?_, ih hxs⟩
      rcases (mem_placeEntry e y xs).mp hy with rfl | hy
      · exact (WatchEntry.before_iff _ _).mp b
      · exact hx y hy
    · next b =>
      have first := WatchEntry.inOrder_of_not_before b
      refine List.pairwise_cons.mpr ⟨fun y hy => ?_, h⟩
      rcases List.mem_cons.mp hy with rfl | hy
      · exact first
      · exact WatchEntry.inOrder_trans first (hx y hy)

/-- An account without an entry is named by none. -/
theorem State.entryOf_none {s : State} {n : Nat} (h : s.entryOf n = none) : ∀ e ∈ s.watch, e.account ≠ n := by
  intro e he
  simpa using List.find?_eq_none.mp h e he

/-- A removal takes out the entries of the account and leaves the order of the others (R106). -/
theorem State.removeEntry_watch (s : State) (n : Nat) :
    (s.removeEntry n).watch = s.watch.filter fun e => decide (e.account ≠ n) := by
  unfold State.removeEntry
  cases h : s.entryOf n with
  | some e => rfl
  | none =>
    exact (List.filter_eq_self.mpr fun e he => decide_eq_true (State.entryOf_none h e he)).symm

/-- A removal changes the watch list and the due queue alone. -/
theorem State.removeEntry_frame (s : State) (n : Nat) :
    s.removeEntry n = { s with watch := (s.removeEntry n).watch, dueQueue := (s.removeEntry n).dueQueue } := by
  unfold State.removeEntry
  cases s.entryOf n <;> rfl

/-- A position found free is used by no entry and lies in the pool (R102, R105). -/
theorem State.freePosition_spec {s : State} {p : Nat} (h : s.freePosition = some p) :
    p < poolSize ∧ ∀ e ∈ s.watch, e.position ≠ p := by
  have free := List.find?_some h
  have range := List.mem_of_find?_eq_some h
  refine ⟨by simpa [List.mem_range'_1] using range, fun e he => ?_⟩
  simp only [Bool.not_eq_true', List.any_eq_false] at free
  simpa using free e he

/-- An insertion changes the watch list and the due queue alone. -/
theorem State.insertEntry_frame (s : State) (n : Nat) (z : ZoneNo) (c : ClassNo) (threshold : DWord) (stage : Stage) :
    (s.insertEntry n z c threshold stage).1
      = { s with
          watch := (s.insertEntry n z c threshold stage).1.watch
          dueQueue := (s.insertEntry n z c threshold stage).1.dueQueue } := by
  have r := s.removeEntry_frame n
  simp only [State.insertEntry]
  cases (s.removeEntry n).freePosition with
  | none => exact r
  | some p =>
    simp only [State.putEntry]
    rw [r]

end Sys2Proof.Machine
end

