-- ==== Sys2Proof/Tests/Slice0.lean ====
section
/-! SUPPORT. Smoke tests of the well-formedness checks, small tests of the commands with results from the spec's own examples and
tables, and a witness for the hypotheses of each statement. -/

-- The kernel evaluations below run one at a time: each thread of its own would reserve its own stack.
set_option Elab.async false

namespace Sys2Proof.Tests

open Sys2Proof Sys2Proof.Machine

/-! ## Well-formedness -/

/-- A host store beyond the 64-bit address space is refused. -/
theorem test_wf_store : (Instr.nudge [(2 ^ 64, 1)] 0).wellFormed = false := by decide

/-- A REGISTER_WRITE of a CONTROL word that carries START, STOP alone or SOFT_RESET is refused. -/
theorem test_wf_control : (Instr.registerWrite [] .control 1).wellFormed = false
    ∧ (Instr.registerWrite [] .control 2).wellFormed = false ∧ (Instr.registerWrite [] .control 4).wellFormed = false
    ∧ (Instr.registerWrite [] .control 3).wellFormed = true := by decide

/-- A defect outside the 30 words of a record, or of no bit, is refused. -/
theorem test_wf_defect : (Instr.classProgrammingEnd [⟨30, false, 1⟩]).wellFormed = false
    ∧ (Instr.classProgrammingEnd [⟨0, true, 0⟩]).wellFormed = false
    ∧ (Instr.classProgrammingEnd [⟨29, true, 1⟩]).wellFormed = true := by decide

/-! ## A small part in service -/

/-- A layout: eight accounts, eight cells a list, 64 notices. -/
def layout : Layout := ⟨0x20000, 256, 512, 0x4000, 0x8000, 0x9000, 8, 8⟩

/-- RUNNING at plant minute 1000 over empty host memory, every kind and zone permitted. -/
def part : State :=
  { State.reset with
    engineState := .running
    layout := layout
    capacity := 64
    clock := .held 1000 0
    maps := Vector.replicate 8 ⟨0xFFFFFFFF, 64, 0xFFFFFFFFFFFFFFFF⟩
    scanPeriod := 5
    scanRunning := true
    batch := 4 }

/-- The part with a cell posted in list 0 and found by an inspection: its kind, then words 2 on. -/
def offering (s : State) (kind : Nat) (request : List Word) : State :=
  (s.poke (s.layout.cell 0 0) ([wordOfBytes 1 kind 1 0, 77] ++ request)).setEligible 0 true

/-- An OPEN zone, CURRENT since minute 999, with a stale limit of 10. -/
def openZone : Zone :=
  { Zone.undefined with type := .typeOpen, climate := .current, lastSample := 999, staleLimit := 10 }

/-- Figures of a class: budget 2 minutes, margin 1, rate 256 everywhere, full bake 5. -/
def figures : Figures := ⟨2, 1, 1, 300, 4095, 500, 5, 2, 3, Vector.replicate 48 256⟩

/-- An account in zone 1, class 0. -/
def account : Account :=
  { tag := 5, cls := 0, state := .exposed, zone := some 1, flags := .clear, bakeCount := 0, exposure := 0, mark := 0, aux := 0
    lastCredit := 0, entryMinute := 900, expiryMinute := 0, hostRef := 0, sequence := 4 }

/-- The part with zones 1 and 2 OPEN and class 0 VALID. -/
def furnished : State :=
  { part with
    zones := (part.zones.set 1 openZone).set 2 openZone
    classes := part.classes.set 0 (.valid figures 256) }

/-- The furnished part with an account in its table, as account 0. -/
def holding (a : Account) : State := furnished.poke (furnished.layout.record 0) (recordWords a).toList

/-! ## Checks of the hypotheses -/

/-- A check of `InService`. -/
def servesCheck (s : State) : Bool :=
  decide (s.engineState = .running) && decide (s.failing = none) && allApart s.areas
    && decide (1 ≤ s.layout.tableSize) && decide (s.layout.tableSize ≤ 32768) && decide (s.layout.cellsPerList ∈ cellCounts)
    && decide (s.capacity ∈ logCapacities) && decide (∀ k : ListNo, s.lists[k].next < s.layout.cellsPerList)
    && (match s.prog with
        | some p => decide (p.cell.index < s.layout.cellsPerList)
        | none => true)

theorem serves {s : State} (h : servesCheck s = true) : InService s := by
  simp only [servesCheck, Bool.and_eq_true, decide_eq_true_eq] at h
  obtain ⟨⟨⟨⟨⟨⟨⟨⟨run, fail⟩, apart⟩, low⟩, high⟩, cells⟩, log⟩, next⟩, flight⟩ := h
  exact ⟨run, ⟨apart, low, high, cells, log, next, fun p hp => by rw [hp] at flight; simpa using flight⟩, fail⟩

/-- A check of `Admits`. -/
def admitsCheck (s : State) (k : ListNo) (kind : Nat) : Bool :=
  servesCheck s && s.mayTakeCell && decide (s.chosenList = some k)
    && decide (byteOf (s.peek (s.nextCell k)) 0 = cellPosted) && decide (byteOf (s.peek (s.nextCell k)) 1 = kind)
    && decide (1 ≤ kind) && decide (kind ≤ 12) && s.maps[k].permitsKind kind && s.clockSet

theorem admits {s : State} {k : ListNo} {kind : Nat} (h : admitsCheck s k kind = true) : Admits s k kind := by
  simp only [admitsCheck, Bool.and_eq_true, decide_eq_true_eq] at h
  obtain ⟨⟨⟨⟨⟨⟨⟨⟨ok, free⟩, chosen⟩, posted⟩, is⟩, low⟩, high⟩, permits⟩, clock⟩ := h
  exact ⟨⟨serves ok, free, chosen, posted, is⟩, ⟨low, high⟩, permits, fun _ => clock⟩

/-- A check of `Reaches`. -/
def reachesCheck (s : State) (k : ListNo) (kind n : Nat) (a : Account) : Bool :=
  admitsCheck s k kind && decide ((s.offered k).account = n) && decide (s.recordOf n = some a)
    && decide (s.accountRefusal kind (s.offered k) = none)

theorem reaches {s : State} {k : ListNo} {kind n : Nat} {a : Account} (h : reachesCheck s k kind n a = true) :
    Reaches s k kind n a := by
  simp only [reachesCheck, Bool.and_eq_true, decide_eq_true_eq] at h
  obtain ⟨⟨⟨ok, named⟩, record⟩, passes⟩ := h
  exact ⟨admits ok, named, record, passes⟩

/-- The state a command leaves. -/
def ran (c : Instr) (s : State) : State :=
  match exec c s with
  | .next t => t
  | .fault _ => s
  | .refused _ => s

/-- Result word `i` of the offered cell after its command. -/
def answerWord (kind : Nat) (request : List Word) (s : State) (i : Nat) : Word :=
  (ran (commandOfKind kind) (offering s kind request)).peek (layout.cell 0 0 + 4 * i)

/-! ## Registers, attach and detach -/

/-- A PIN reset of a part just powered on leaves POWER_ON and PIN (R175). -/
theorem test_pin_reset_causes : (ran .pinReset State.reset).resetCauses = 0b011 := by decide +kernel

/-- A power-on reset clears every other cause, and every line is asserted after it (R175, R156). -/
theorem test_power_on_reset : (ran .powerOnReset furnished).resetCauses = 0b001
    ∧ (ran .powerOnReset furnished).lines = Vector.replicate 8 true := by decide +kernel

/-- A SOFT reset leaves IDLE (R175). -/
theorem test_soft_reset : (ran (.softReset []) furnished).engineState = .idle := by decide +kernel

/-- STATUS of a part just powered on: IDLE with POWER_ON (section 10.1). -/
theorem test_status_after_reset : State.reset.status = 4 := by decide +kernel

/-- Bits 11–0 of BASE_LO stay 0 (R158). -/
theorem test_base_lo_page_aligned : (ran (.registerWrite [] .baseLo 0x12345FFF) State.reset).baseLo = 0x12345000 := by
  decide +kernel

/-- A 1 at bit 2 of STATUS clears POWER_ON (R158). -/
theorem test_status_write_clears : (ran (.statusWrite [] 4) State.reset).resetCauses = 0 := by decide +kernel

/-- START over a blank layout block ends with code LAYOUT, in IDLE, with ATTACH_END (R170). -/
theorem test_start_bad_layout : (ran (.start [] 0) State.reset).status = 0x01000804 := by decide +kernel

/-- STOP in RUNNING begins a stop (R173). -/
theorem test_stop_begins : (ran (.stop [] 0) part).stopping = true := by decide +kernel

/-- STOP_COMPLETION leaves IDLE with the clock UNSET (R173). -/
theorem test_stop_completion : (ran .stopCompletion { part with stopping := true }).engineState = .idle
    ∧ (ran .stopCompletion { part with stopping := true }).clock = .unset := by decide +kernel

/-- A failed access makes the part FAULTED and sets FAULT (R174). -/
theorem test_region_access_failure : (ran (.regionAccessFailure 0 0) part).engineState = .faulted
    ∧ (ran (.regionAccessFailure 0 0) part).causes = 0b10000 := by decide +kernel

/-! ## Intake -/

/-- A NUDGE that names list 3 finds its POSTED cell, one that does not leaves it (R162). -/
theorem test_nudge_inspects : (ran (.nudge [(0x9000 + 8 * 64 * 3, 1)] 0b1000) part).lists[3].eligible = true
    ∧ (ran (.nudge [(0x9000 + 8 * 64 * 3, 1)] 0b0100) part).lists[3].eligible = false := by decide +kernel

/-- The scan timer inspects every list and reads T (R162, R147). -/
theorem test_scan_expiry : (ran .intakeScanTimerExpiry (part.poke (layout.cell 7 0) [1])).lists[7].eligible = true := by
  decide +kernel

/-- A kind code of 13 is answered UNKNOWN_KIND (R165, R166). -/
theorem test_unknown_kind : answerWord 13 [] part 10 = 3 := by decide +kernel

/-- A take that finds its cell FREE leaves the index and the list not eligible (R164). -/
theorem test_cell_no_longer_posted :
    (ran .cellNoLongerPosted ((offering part 7 []).poke (layout.cell 0 0) [0])).lists[0] = ⟨0, false⟩ := by decide +kernel

/-! ## Account requests -/

/-- ENROL with no prior exposure: UNOPENED, answered OK (R19). The record's word 2 holds class 0 and state code 1. -/
theorem test_enrol : answerWord 1 [0, 5, 0, 0, 0, 1, 0] furnished 10 = 0
    ∧ (ran .enrol (offering furnished 1 [0, 5, 0, 0, 0, 1, 0])).peek (0x4000 + 8) = 0x00000100 := by decide +kernel

/-- ENROL into a class that is EMPTY is refused CLASS_INVALID (R19, R166). -/
theorem test_enrol_class_invalid : answerWord 1 [0, 5, 0, 1, 0, 1, 0] furnished 10 = 14 := by decide +kernel

/-- OPEN into a zone of type NONE is refused BAD_ZONE (R20, R166). -/
theorem test_open_bad_zone : answerWord 2 [0, 5, 0, 3] (holding { account with state := .bagged, zone := none }) 10 = 12 := by
  decide +kernel

/-- MOVE folds: a tally of 300 against a mark of 0 makes E 300 (R21, R41). -/
theorem test_move_folds : answerWord 3 [0, 5, 0, 2]
    { holding account with zones := furnished.zones.set 1 { openZone with exposure := Vector.replicate 8 300 } } 12 = 300 := by
  decide +kernel

/-- MOVE into the account's own zone is answered OK_SAME_ZONE (R21, R166). -/
theorem test_move_same_zone : answerWord 3 [0, 5, 0, 1] (holding account) 10 = 1 := by decide +kernel

/-- BAG with an exposure at the budget of 2 × 256 eu sets EXPIRED (R22, R42). -/
theorem test_bag_expires : answerWord 4 [0, 5, 0]
    { holding account with zones := furnished.zones.set 1 { openZone with exposure := Vector.replicate 8 512 } } 13 = 1 := by
  decide +kernel

/-- RETIRE leaves state code 6 and no zone (R23). -/
theorem test_retire : byteOf ((ran .retire (offering (holding account) 5 [0, 5, 0])).peek (0x4000 + 8)) 1 = 6 := by
  decide +kernel

/-- AMEND with a bit below 2 in its mask is refused BAD_VALUE (R24). -/
theorem test_amend_bad_mask : answerWord 6 [0, 5, 0, noWord, 0x01FF, 0, 0] (holding account) 10 = 11 := by decide +kernel

/-- QUERY projects at rate 256 from minute 1000 against 512 eu: minute 1002 (R51). -/
theorem test_query_projects : answerWord 7 [0, 5, 0] (holding account) 14 = 1002 := by decide +kernel

/-! ## Climate, zones, classes, clock and TUNE -/

/-- A sample of 160.0 degrees is clamped: result code 2 (R60). -/
theorem test_climate_clamps : answerWord 8 [1, 1, 0x00641900] furnished 11 = 2 := by decide +kernel

/-- A sample of −40.0 degrees at 10.0 % lies in bands 0 and 1 (R61). -/
theorem test_climate_bands :
    (ran .climate (offering furnished 8 [1, 1, 0x0064FE70])).zones[1].tempBand = 0
      ∧ (ran .climate (offering furnished 8 [1, 1, 0x0064FE70])).zones[1].humBand = 1 := by decide +kernel

/-- ZONESET of a hold line above 8 is refused BAD_VALUE (R54). -/
theorem test_zoneset_bad_line : answerWord 9 [1, 0x000A0901, 0] furnished 10 = 11 := by decide +kernel

/-- CLASSWRITE of class 8 is refused BAD_CLASS (R77). -/
theorem test_classwrite_bad_class : answerWord 10 [8, 0x1000] part 10 = 10 := by decide +kernel

/-- CLOCKSET five minutes back stalls the clock by five (R131). -/
theorem test_clockset_back : (ran .clockset (offering part 11 [995])).clock = .held 1000 5 := by decide +kernel

/-- CLOCKSET sixteen minutes back is refused CLOCK_BACKWARD (R129). -/
theorem test_clockset_refused : answerWord 11 [984] part 10 = 17 := by decide +kernel

/-- TUNE of mode OFF with keep codes elsewhere answers with what is in force (R168). -/
theorem test_tune : answerWord 12 [2, noWord, 255, 0] part 11 = 2 ∧ answerWord 12 [2, noWord, 255, 0] part 13 = 5 := by
  decide +kernel

/-! ## Time and the pool -/

/-- A minute in an OPEN zone that is CURRENT adds the table's rate (R36). -/
theorem test_minute_charges : (ran .minuteTimerExpiry furnished).zones[1].exposure[0] = 256
    ∧ (ran .minuteTimerExpiry furnished).clock = .held 1001 0 := by decide +kernel

/-- While STALLED an expiry lowers the stall count alone (R122). -/
theorem test_minute_stalled : (ran .minuteTimerExpiry { part with clock := .held 1000 3 }).clock = .held 1000 2 := by
  decide +kernel

/-- A publication puts the plant minute into the zone page's first word (R66). -/
theorem test_publication : (ran .zonePagePublication { part with publicationDue := true }).peek 512 = 1000 := by decide +kernel

/-- An entry of account 0 in zone 1, class 0, due, at a stage. -/
def entry (stage : Stage) : WatchEntry := ⟨0, 0, 1, 0, 0, stage, true⟩

/-- The part holding an account whose entry is due at a stage. -/
def due (stage : Stage) : State := { holding account with watch := [entry stage], dueQueue := [0] }

/-- A warning hand-over sets WARNED, bit 1 of the flag byte (R27). -/
theorem test_warning_handover : byteOf ((ran .warningHandover (due .warn)).peek (0x4000 + 8)) 3 = 2 := by decide +kernel

/-- An expiry hand-over sets EXPIRED and raises the zone's expired-present count (R28). -/
theorem test_expiry_handover : byteOf ((ran .expiryHandover (due .expire)).peek (0x4000 + 8)) 3 = 1
    ∧ (ran .expiryHandover (due .expire)).zones[1].expiredPresent = 1 := by decide +kernel

/-- A patrol read of an unwatched account in a zone holds it and moves the cursor (R115). -/
theorem test_patrol_read : (ran .patrolRead { holding account with remaining := 1 }).heldAccount = some 0
    ∧ (ran .patrolRead { holding account with remaining := 1 }).cursor = 1 := by decide +kernel

/-- Patrol work watches the account it holds and lowers the unwatched count (R117, R113). -/
theorem test_patrol_work : (ran .patrolWork { holding account with heldAccount := some 0, unwatched := 1 }).watch.length = 1
    ∧ (ran .patrolWork { holding account with heldAccount := some 0, unwatched := 1 }).unwatched = 0 := by decide +kernel

/-- An image of figures in range: budget 2, margin 1, gap rate 300, rates 256. -/
def image : Vector Word 30 :=
  Vector.ofFn fun i : Fin 30 => [2, 1, 0x012C0001, 0x01F40FFF, 0x00020005, 3].getD i.val 0x01000100

/-- A CLASSWRITE of class 0 in flight, from list 0. -/
def programming (ended : Option Bool) : State :=
  { part with prog := some ⟨0, image, ⟨0, 0, (Vector.replicate 10 0).set 0 0x00010A01⟩, ended⟩ }

/-- A programming without defects ends in success, one whose verify meets a wrong bit in failure (R79). -/
theorem test_programming_end : ((ran (.classProgrammingEnd []) (programming none)).prog.bind Programming.ended) = some true
    ∧ ((ran (.classProgrammingEnd [⟨7, true, 1⟩]) (programming none)).prog.bind Programming.ended) = some false := by
  decide +kernel

/-- A completion in success leaves the class VALID with its worst rate (R82). -/
theorem test_completion : worstOf (ran .classCompletion (programming (some true))).classes[0] = 256 := by decide +kernel

/-- A part in IDLE over a blank region whose cache holds a line. -/
def cached : State :=
  { State.reset with cacheSets := State.reset.cacheSets.set 3 { CacheSet.invalid with
      ways := CacheSet.invalid.ways.set 2 (some ⟨1, Vector.replicate 16 0⟩), pairBit := true } }

/-- A START that ends with code LAYOUT invalidates every line and clears the order bits (R143). -/
theorem test_start_invalidates : (ran (.start [] 0) cached).attachFail = .layout
    ∧ (ran (.start [] 0) cached).cacheSets[3] = CacheSet.invalid := by decide +kernel

/-- After a gap accrual of 16 minutes the patrol waits for the next boundary (R119, R127). -/
theorem test_gap_stops_the_patrol : (ran .clockset (offering { part with remaining := 3 } 11 [1016])).remaining = 0
    ∧ (ran .clockset (offering { part with remaining := 3 } 11 [1016])).minute = 1016 := by decide +kernel

/-- A write of W that fails leaves the old W in the control page, with the record already in the log (R146). -/
theorem test_failed_write_of_w :
    (match receiveNotice ⟨.zoneStale, 1, 1000, 0, 0⟩ { part with failing := some ⟨1, 7⟩ } with
      | .ok _ _ => false
      | .error _ t => decide (t.peek 260 = 0) && decide (byteOf (t.peek 0x8000) 0 = 2)) = true := by decide +kernel

/-- CONTROL reads as the enables alone, at bits 12–8 (section 10.1). -/
theorem test_control_reads : ({ part with enables := 0b10011 }).readRegister 12 = 0x1300 := by decide

/-! ## Witnesses: states and operands that meet the hypotheses of each statement

Each theorem is named after its statement and gives, clause by clause, what the clause assumes, at a boundary of its range where
it has one. Statements without hypotheses have none. -/

theorem witness_StepRunsTheFrontCommand :
    ({ part with pending := [.query] }).pending = Instr.query :: [] ∧ part.pending = [] := by decide

/-- The nonvolatile record of an image programmed without a defect. -/
def programmedRecord : NvClass := programmed image []

theorem image_in_range : (figuresOf image).InRange := by
  constructor <;> decide +kernel

theorem witness_ClassStoreLoadTakesTheFirstCase :
    ({ NvClass.delivered with inProgress := true }).inProgress = true
      ∧ (NvClass.delivered.inProgress = false ∧ NvClass.delivered.writtenMarker = false)
      ∧ (({ programmedRecord with complements := programmedRecord.words }).inProgress = false
          ∧ ({ programmedRecord with complements := programmedRecord.words }).writtenMarker = true
          ∧ ¬ ((∀ i : Fin 30, ({ programmedRecord with complements := programmedRecord.words }).complements[i]
                = ~~~ ({ programmedRecord with complements := programmedRecord.words }).words[i])
              ∧ (figuresOf ({ programmedRecord with complements := programmedRecord.words }).words).InRange))
      ∧ (programmedRecord.inProgress = false ∧ programmedRecord.writtenMarker = true
          ∧ (∀ i : Fin 30, programmedRecord.complements[i] = ~~~ programmedRecord.words[i])
          ∧ (figuresOf programmedRecord.words).InRange) := by
  have words : programmedRecord.words = image := by decide +kernel
  refine ⟨rfl, ⟨rfl, rfl⟩, ⟨by decide +kernel, rfl, fun h => absurd (h.1 0) (by decide +kernel)⟩, by decide +kernel, rfl,
    by decide +kernel, ?_⟩
  rw [words]
  exact image_in_range

theorem witness_RegistersReadAndTakeWritesAsNamed :
    State.reset.engineState = .idle ∧ part.engineState ≠ .idle ∧ controlCarriesNoCommand 0x1F00 = true
      ∧ controlCarriesNoCommand 3 = true := by decide

theorem part_serves : InService part := serves (by decide +kernel)

theorem witness_NudgeAndScanInspectTheirListsAndReadTheTakenCount :
    State.reset.engineState ≠ .running ∧ InService part ∧ State.reset.scanRunning = false ∧ part.scanRunning = true :=
  ⟨by decide, part_serves, rfl, rfl⟩

/-! ### Attach and detach -/

/-- The words of a layout block with the layout of `part`: FRESH as given, the maps all zero. -/
def blockWords (fresh : Nat) : List Word :=
  [0x20000, 256, 512, 0x4000, 0x8000, 0x9000, 8, 0x00400008, wordOfBytes 4 0 5 fresh, 0x00FF]

/-- A part in IDLE whose host memory holds a layout block. -/
def blocked (fresh : Nat) : State := State.reset.poke 0 (blockWords fresh)

/-- The block as the part reads it. -/
def block (fresh : Bool) : LayoutBlock := ⟨layout, 64, 4, 5, fresh, 255, 0, Vector.replicate 8 ⟨0, 0, 0⟩⟩

theorem block_in_range (fresh : Bool) : (block fresh).InRange where
  multiples := by cases fresh <;> decide
  table := ⟨by show (1 : Nat) ≤ 8; decide, by show (8 : Nat) ≤ 32768; decide⟩
  cells := ⟨3, by decide, by decide, rfl⟩
  log := ⟨6, by decide, by decide, rfl⟩
  batch := by show (4 : Nat) ≤ 256; decide
  period := ⟨by show (1 : Nat) ≤ 5; decide, by show (5 : Nat) ≤ 60; decide⟩
  elevated := .inr rfl
  rotation := .inl rfl
  maps := by cases fresh <;> decide +kernel
  within := by cases fresh <;> decide
  apart := by cases fresh <;> decide

theorem reads_fresh : layoutBlockRead (blocked 1) [] = block true := by decide +kernel

theorem reads_loaded : layoutBlockRead (blocked 0) [] = block false := by decide +kernel

theorem witness_FreshAttachInitializesTheRegion :
    (blocked 1).engineState = .idle ∧ (blocked 1).failing = none ∧ (blocked 1).prog = none
      ∧ (layoutBlockRead (blocked 1) []).InRange ∧ (layoutBlockRead (blocked 1) []).fresh = true := by
  rw [reads_fresh]
  exact ⟨rfl, rfl, rfl, block_in_range true, rfl⟩

/-- The words of 64 zone entries, each of type NONE with a stale limit of 1. -/
def entryRun : List Word := (List.range 3072).map fun j => if j % 48 = 1 then 1 else 0

/-- A zone page with no published minute and its check word, over a block with FRESH clear. -/
def paged : State := ((blocked 0).poke 576 entryRun).poke 512 [noWord, 4290772928]

theorem reads_no_stores (s : State) : layoutBlockRead s [] = layoutBlockOf (s.peekWords 0 42) := rfl

theorem entryRun_length : entryRun.length = 3072 := by simp [entryRun]

theorem paged_reads_layout : layoutBlockRead paged [] = block false := by
  rw [reads_no_stores]
  unfold paged
  rw [State.peekWords_poke_apart (by left; decide), State.peekWords_poke_apart (by left; decide), ← reads_no_stores]
  exact reads_loaded

/-- The entry of zone `z`, word by word. -/
theorem paged_entry (z i : Nat) (hz : z < 64) (hi : i < 48) :
    paged.peek (layout.zoneEntry z + 4 * i) = if i = 1 then 1 else 0 := by
  have length := entryRun_length
  have at_ : layout.zoneEntry z + 4 * i = 576 + 4 * (48 * z + i) := by
    show 512 + 64 + 192 * z + 4 * i = _
    omega
  unfold paged
  rw [State.peek_poke_apart (by rw [at_]; simp only [List.length_cons, List.length_nil]; omega), at_,
    State.peek_poke _ _ _ _ (by omega)]
  have bound : 48 * z + i < entryRun.length := by omega
  rw [List.getD_eq_getElem _ _ bound]
  simp only [entryRun, List.getElem_map, List.getElem_range]
  have : (48 * z + i) % 48 = i := by omega
  rw [this]

/-- The header of the page. -/
def pageHeader : Vector Word 16 := (Vector.replicate 16 0).set 0 noWord |>.set 1 4290772928

/-- The words of an entry. -/
def entryWords : Vector Word 48 := (Vector.replicate 48 0).set 1 1

theorem paged_header : paged.peekWords 512 16 = pageHeader := by decide +kernel

theorem page_passes : (zonesOfPage pageHeader (Vector.ofFn fun _ : Fin 64 => entryWords)).isSome = true := by decide +kernel

theorem paged_entries : (Vector.ofFn fun z : Fin 64 => paged.peekWords (layout.zoneEntry z.val) 48)
    = Vector.ofFn fun _ : Fin 64 => entryWords := by
  refine congrArg Vector.ofFn (funext fun z => Vector.ext fun i hi => ?_)
  have h := paged_entry z.val i z.isLt hi
  rw [State.peek, ← Nat.add_assoc] at h
  rw [State.peekWords, Memory.words, Vector.getElem_ofFn, h, entryWords, Vector.getElem_set, Vector.getElem_replicate]
  simp only [eq_comm]

theorem page_read (s : State) (l : Layout) :
    pageRead s l = zonesOfPage (s.peekWords l.zonePage 16) (Vector.ofFn fun z : Fin 64 => s.peekWords (l.zoneEntry z.val) 48) :=
  rfl

theorem paged_passes : (pageRead paged layout).isSome = true := by
  rw [page_read, paged_entries]
  have h : paged.peekWords layout.zonePage 16 = pageHeader := paged_header
  rw [h]
  exact page_passes

/-- Zones at the ends of the ranges of R69: zone 0 of type NONE, zone 1 OPEN at the low ends, zone 2 BAKE at the high ends. -/
def edgeZones : Vector Zone 64 :=
  ((Vector.replicate 64 Zone.undefined).set 1
      { openZone with staleLimit := 1, lastTemp := BitVec.ofInt 16 (-400), lastHum := 0 }).set 2
    { openZone with type := .typeBake, holdLine := 8, staleLimit := 1440, lastTemp := 1500, lastHum := 1000 }

/-- Entries that pass and one that does not; a page that passes; and zones in range. -/
theorem witness_ZonePageReadsBackAsWritten :
    ((zoneOfEntry entryWords).isSome = true ∧ (zoneOfEntry (entryWords.set 1 1440)).isSome = true
        ∧ zoneOfEntry (entryWords.set 1 1441) = none ∧ zoneOfEntry (entryWords.set 0 4) = none)
      ∧ (∃ zones, zonesOfPage pageHeader (Vector.ofFn fun _ : Fin 64 => entryWords) = some zones)
      ∧ part.failing = none ∧ ∀ z : ZoneNo, 1 ≤ edgeZones[z].staleLimit.toNat ∧ edgeZones[z].staleLimit.toNat ≤ 1440
          ∧ -400 ≤ edgeZones[z].lastTemp.toInt ∧ edgeZones[z].lastTemp.toInt ≤ 1500 ∧ edgeZones[z].lastHum.toNat ≤ 1000
          ∧ (edgeZones[z].type = .typeNone → edgeZones[z].holdLine = 0 ∧ edgeZones[z].holdOnStale = false) :=
  ⟨by decide +kernel, Option.isSome_iff_exists.mp page_passes, rfl, by decide +kernel⟩

theorem witness_LoadedAttachContinuesFromThePages :
    ∃ zones, paged.engineState = .idle ∧ paged.failing = none ∧ paged.prog = none
      ∧ (layoutBlockRead paged []).InRange ∧ (layoutBlockRead paged []).fresh = false
      ∧ pageRead paged (layoutBlockRead paged []).layout = some zones := by
  rw [paged_reads_layout]
  obtain ⟨zones, h⟩ := Option.isSome_iff_exists.mp paged_passes
  exact ⟨zones, by decide, by decide, by decide, block_in_range false, rfl, h⟩

theorem witness_StartIsIgnoredOutsideIdleAndRefusesABadRegion :
    (part.engineState ≠ .idle ∧ State.reset.engineState = .idle ∧ State.reset.failing = none
        ∧ ¬ (layoutBlockRead State.reset []).InRange)
      ∧ (blocked 0).engineState = .idle ∧ (blocked 0).failing = none ∧ (layoutBlockRead (blocked 0) []).InRange
      ∧ (layoutBlockRead (blocked 0) []).fresh = false
      ∧ pageRead (blocked 0) (layoutBlockRead (blocked 0) []).layout = none := by
  refine ⟨⟨by decide, rfl, rfl, fun h => absurd h.table.1 (by decide +kernel)⟩, ?_⟩
  rw [reads_loaded]
  refine ⟨rfl, rfl, block_in_range false, rfl, ?_⟩
  unfold pageRead zonesOfPage
  exact if_neg fun h => absurd h.2 (by decide +kernel)

theorem witness_StopBeginsInRunningAndHandsTheRegionBack :
    ((part.engineState = .running ∧ part.stopping = false) ∧ State.reset.engineState ≠ .running
        ∧ ({ part with stopping := true }).stopping = true)
      ∧ InService { part with stopping := true } ∧ ({ part with stopping := true }).engine = .free
      ∧ ({ part with stopping := true }).prog = none := ⟨by decide, serves (by decide +kernel), rfl, rfl⟩

/-- A NUDGE makes one access: armed at 0 it fails, armed at 1 it does not. -/
theorem witness_FailedAccessMakesThePartFaulted :
    (part.engineState = .running ∧ ({ part with engineState := .attaching }).engineState = .attaching
        ∧ State.reset.engineState = .idle ∧ part.enterFaulted.engineState = .faulted)
      ∧ ((Instr.nudge [] 0).wellFormed = true ∧ (Instr.nudge [] 0).isReset = false
          ∧ (∀ k n, Instr.nudge [] 0 ≠ .regionAccessFailure k n) ∧ part.failing = none ∧ part.mem.wf = true)
      ∧ (ran (.nudge [] 0) { part with failing := some ⟨0, 0⟩ }).engineState = .faulted
      ∧ (ran (.nudge [] 0) { part with failing := some ⟨1, 0⟩ }).engineState = .running :=
  ⟨by decide, ⟨rfl, rfl, fun _ _ h => Instr.noConfusion h, rfl, rfl⟩, by decide +kernel, by decide +kernel⟩

/-! ### Cells -/

/-- A check of `Offers`. -/
def offersCheck (s : State) (k : ListNo) (kind : Nat) : Bool :=
  servesCheck s && s.mayTakeCell && decide (s.chosenList = some k)
    && decide (byteOf (s.peek (s.nextCell k)) 0 = cellPosted) && decide (byteOf (s.peek (s.nextCell k)) 1 = kind)

theorem offers {s : State} {k : ListNo} {kind : Nat} (h : offersCheck s k kind = true) : Offers s k kind := by
  simp only [offersCheck, Bool.and_eq_true, decide_eq_true_eq] at h
  obtain ⟨⟨⟨⟨ok, free⟩, chosen⟩, posted⟩, is⟩ := h
  exact ⟨serves ok, free, chosen, posted, is⟩

/-- The part with its clock UNSET. -/
def unset : State := { part with clock := .unset }

/-- Kinds 0 and 13 lie just outside the kinds; kind 1 is denied by an empty mask; kind 8 needs time. -/
theorem witness_IntakeRefusesByTheFirstCheckFailed :
    Offers (offering part 0 []) 0 0 ∧ Offers (offering part 13 []) 0 13
      ∧ (Offers (offering { part with maps := Vector.replicate 8 ⟨0, 0, 0⟩ } 1 []) 0 1
          ∧ (offering { part with maps := Vector.replicate 8 ⟨0, 0, 0⟩ } 1 []).maps[0].kindMask.getLsbD 1 = false)
      ∧ (Offers (offering unset 8 []) 0 8 ∧ (offering unset 8 []).maps[0].kindMask.getLsbD 8 = true
          ∧ (offering unset 8 []).clock = .unset) :=
  ⟨offers (by decide +kernel), offers (by decide +kernel), ⟨offers (by decide +kernel), by decide +kernel⟩,
    offers (by decide +kernel), by decide +kernel, rfl⟩

/-- The part with list 0 eligible and its next cell FREE. -/
def withdrawn : State := part.setEligible 0 true

/-- Lists 2 and 5 eligible, list 5 elevated or not, in a rotation mode. -/
def twoEligible (elevated : Option ListNo) (rotation : Rotation) : State :=
  { (part.setEligible 2 true).setEligible 5 true with elevated := elevated, rotation := rotation, lastServed := 2 }

theorem witness_ArbitrationChoosesAndOnlyItsPostedCellIsTaken :
    ((∀ j : ListNo, part.lists[j].eligible = false)
        ∧ (twoEligible none .fixed).chosenList = some 2 ∧ (twoEligible none .rotating).chosenList = some 5
        ∧ (twoEligible (some 5) .fixed).elevated = some 5 ∧ (twoEligible (some 5) .fixed).lists[(5 : ListNo)].eligible = true
        ∧ (twoEligible none .fixed).elevated ≠ some 2 ∧ (twoEligible none .rotating).elevated ≠ some 5)
      ∧ (State.reset.mayTakeCell = false ∧ part.chosenList = none ∧ (offering part 12 []).chosenList = some 0
          ∧ byteOf ((offering part 12 []).peek ((offering part 12 []).nextCell 0)) 1 ≠ 1)
      ∧ InService withdrawn ∧ withdrawn.mayTakeCell = true ∧ withdrawn.chosenList = some 0
      ∧ byteOf (withdrawn.peek (withdrawn.nextCell 0)) 0 ≠ cellPosted :=
  ⟨by decide +kernel, by decide +kernel, serves (by decide +kernel), by decide +kernel⟩

/-- Refusals of account requests: a number past the table, a corrupt record, another tag, a zone the map denies, a state. -/
theorem witness_RefusedAccountRequestsChangeNothing :
    (Admits (offering furnished 7 [8]) 0 7 ∧ (offering furnished 7 [8]).accountRefusal 7 ((offering furnished 7 [8]).offered 0)
        = some .badAccount)
      ∧ (Admits (offering ((holding account).poke 0x4000 [9]) 7 [0]) 0 7
          ∧ (offering ((holding account).poke 0x4000 [9]) 7 [0]).accountRefusal 7
              ((offering ((holding account).poke 0x4000 [9]) 7 [0]).offered 0) = some .recordFault)
      ∧ (Admits (offering (holding account) 7 [0, 6]) 0 7
          ∧ (offering (holding account) 7 [0, 6]).accountRefusal 7 ((offering (holding account) 7 [0, 6]).offered 0)
              = some .tagMismatch)
      ∧ (Admits (offering (holding account) 3 [0, 5, 0, 64]) 0 3
          ∧ (offering (holding account) 3 [0, 5, 0, 64]).accountRefusal 3 ((offering (holding account) 3 [0, 5, 0, 64]).offered 0)
              = some .denied)
      ∧ (Admits (offering (holding account) 1 [0, 5]) 0 1
          ∧ (offering (holding account) 1 [0, 5]).accountRefusal 1 ((offering (holding account) 1 [0, 5]).offered 0)
              = some .badState) :=
  ⟨⟨admits (by decide +kernel), by decide +kernel⟩, ⟨admits (by decide +kernel), by decide +kernel⟩,
    ⟨admits (by decide +kernel), by decide +kernel⟩, ⟨admits (by decide +kernel), by decide +kernel⟩,
    ⟨admits (by decide +kernel), by decide +kernel⟩⟩

/-- The account of a blank record. -/
def blank : Account :=
  { tag := 0, cls := 0, state := .vacant, zone := none, flags := .clear, bakeCount := 0, exposure := 0, mark := 0, aux := 0
    lastCredit := 0, entryMinute := 0, expiryMinute := 0, hostRef := 0, sequence := 0 }

/-- An ENROL with the bake limit as prior bakes and the budget as prior exposure. -/
theorem witness_EnrolWritesTheWholeRecord :
    Reaches (offering furnished 1 [0, 5, 0, 0x0300, 512]) 0 1 0 blank := reaches (by decide +kernel)

theorem witness_ZoneEntryAndExitMarkTestAndCredit :
    furnished.zones[(1 : ZoneNo)].type = .typeOpen ∧ furnished.zones[(1 : ZoneNo)].type ≠ .typeNone := by decide +kernel

/-- The account BAGGED. -/
def bagged : Account := { account with state := .bagged, zone := none }

/-- A part with its log full, T at 0, and 64 EXPIRED notices held, of accounts 1 to 64. -/
def shut (s : State) : State :=
  { s with written := 64, logFull := true, heldNotices := (List.range 64).map fun i => ⟨.expired, i + 1, 900, 1, 0⟩ }

/-- The account BAGGED with its exposure at the budget. -/
def spent : Account := { bagged with exposure := 512 }

/-- An OPEN with room for its notices, and one whose EXPIRED is dropped. -/
theorem witness_OpenEntersTheZone :
    Reaches (offering (holding bagged) 2 [0, 5, 0, 1]) 0 2 0 bagged
      ∧ Reaches (offering (shut (holding spent)) 2 [0, 5, 0, 1]) 0 2 0 spent := ⟨reaches (by decide +kernel), reaches (by decide +kernel)⟩

/-- The EXPIRED of an OPEN dropped: the record has NOTICE_MISSED beside EXPIRED and a sequence one above the one in the result, whose
flags are those of the first write (R151). -/
theorem test_dropped_notice_marks_its_account :
    byteOf ((ran .openInto (offering (shut (holding spent)) 2 [0, 5, 0, 1])).peek (0x4000 + 8)) 3 = 17
      ∧ (ran .openInto (offering (shut (holding spent)) 2 [0, 5, 0, 1])).peek (0x4000 + 56) = 6
      ∧ answerWord 2 [0, 5, 0, 1] (shut (holding spent)) 11 = 5 ∧ answerWord 2 [0, 5, 0, 1] (shut (holding spent)) 13 = 1 := by
  decide +kernel

/-- A MOVE to zone 2, and one to the account's own zone 1. -/
theorem witness_MoveFoldsCreditsAndEnters :
    (Reaches (offering (holding account) 3 [0, 5, 0, 2]) 0 3 0 account)
      ∧ (Reaches (offering (holding account) 3 [0, 5, 0, 1]) 0 3 0 account)
      ∧ account.zone = some 1 := ⟨reaches (by decide +kernel), reaches (by decide +kernel), rfl⟩

theorem witness_BagFoldsCreditsAndLeaves :
    (Reaches (offering (holding account) 4 [0, 5, 0]) 0 4 0 account)
      ∧ account.zone = some 1 := ⟨reaches (by decide +kernel), rfl⟩

/-- An account in a zone, and one in none. -/
theorem witness_RetireLeavesWithoutCredit :
    (Reaches (offering (holding account) 5 [0, 5, 0]) 0 5 0 account)
      ∧ (Reaches (offering (holding bagged) 5 [0, 5, 0]) 0 5 0 bagged) := ⟨reaches (by decide +kernel), reaches (by decide +kernel)⟩

/-- Where E has reached the budget with a margin, and where it has not. -/
theorem witness_AmendChangesRemarksAndTests :
    ((furnished.inForce 0).reached 512 = true ∧ (furnished.inForce 0).margin ≠ 0) ∧ (furnished.inForce 0).reached 511 = false := by
  decide +kernel

/-- Everything kept, in a zone; the mask of every flag it may clear, in none. -/
theorem witness_AmendWritesAndRewatches :
    (Reaches (offering (holding account) 6 [0, 5, 0, noWord, 0x00FF]) 0 6 0 account)
      ∧ (Reaches (offering (holding bagged) 6 [0, 5, 0, 512, 0x1C00]) 0 6 0 bagged) :=
  ⟨reaches (by decide +kernel), reaches (by decide +kernel)⟩

theorem witness_QueryReportsWithoutChange :
    Reaches (offering (holding account) 7 [0, 5, 0]) 0 7 0 account :=
  reaches (by decide +kernel)

/-! ### Exposure arithmetic and credits -/

/-- A budget of 512 eu: E one below it, at it, and below the warning level. -/
theorem witness_ThresholdIsWhereTheBudgetIsReached :
    ({ account with exposure := 511 }).exposure.toNat < 512 ∧ 512 ≤ ({ account with exposure := 512 }).exposure.toNat
      ∧ account.mark.toNat ≤ (0 : DWord).toNat ∧ account.mark.toNat + 512 < 2 ^ 64 ∧ account.exposure.toNat < 512
      ∧ ({ account with exposure := 255 }).exposure.toNat < 512 - 256 := by decide

/-- An exposure at the budget, one below it at rate 0, one below it at a rate in a zone, and a clock that is UNSET. -/
theorem witness_ProjectionIsTheFirstMinuteThatReachesTheBudget :
    furnished.clock = .held 1000 0 ∧ (furnished.inForce 0).budget = some 512 ∧ (512 ≤ 512) ∧ (511 < 512) ∧ account.zone ≠ none
      ∧ unset.clock = .unset ∧ (⟨none, 0⟩ : InForce).budget = none := by decide +kernel

/-- A DRY zone 1 at a dry tally of 1, and a BAKE zone 2 at bake tallies of 5. -/
def cabinets : State :=
  { furnished with
    zones := (furnished.zones.set 1 { openZone with type := .typeDry, dry := 1 }).set 2
      { openZone with type := .typeBake, bake := Vector.replicate 8 5 } }

/-- Factor 4,095 recovers 1 eu in one dry minute (R92), with 1 eu eligible and 0 eu not; both class and zone are as the
statement asks. -/
theorem witness_DryRecoveryIsAllOrNothing :
    cabinets.classes[(0 : ClassNo)] = .valid figures 256 ∧ cabinets.zones[(1 : ZoneNo)].type = .typeDry
      ∧ (0 < figures.recovery ∧ account.flags.expired = false ∧ 0 < ({ account with exposure := 1 }).exposure.toNat
          ∧ ({ account with exposure := 1 }).exposure.toNat ≤ figures.ceiling * 256
          ∧ figures.recovery * ({ account with exposure := 1 }).exposure.toNat
              ≤ (cabinets.zones[(1 : ZoneNo)].dry.toNat - account.aux.toNat) * 4096)
      ∧ ¬ 0 < account.exposure.toNat := by decide +kernel

/-- A stay of exactly the full bake counts; an account at the bake limit earns nothing. -/
theorem witness_BakeCreditByTheFirstCaseThatApplies :
    cabinets.classes[(0 : ClassNo)] = .valid figures 256 ∧ cabinets.zones[(2 : ZoneNo)].type = .typeBake
      ∧ ({ account with bakeCount := 3 }).bakeCount = figures.bakeLimit
      ∧ ¬ (account.bakeCount = figures.bakeLimit ∨ ((5 : Nat) < figures.fullBake ∧ (5 : Nat) < figures.minBake)) := by
  decide +kernel

theorem witness_FiguresInForceAreTheClassesOrTheFallbacks :
    (∀ f worst, furnished.classes[(1 : ClassNo)] ≠ .valid f worst) ∧ furnished.classes[(0 : ClassNo)] = .valid figures 256 := by
  have h : furnished.classes[(1 : ClassNo)] = .empty := by decide +kernel
  refine ⟨fun f worst => ?_, by decide +kernel⟩
  rw [h]
  exact ClassState.noConfusion

theorem witness_ZoneBoundaryAdvancesItsTallies : Zone.undefined.type = .typeNone ∧ openZone.type ≠ .typeNone := by decide

/-! ### The other cells -/

/-- Zone 64 is past every map; zone 3 is of type NONE; a no-reading temperature and humidity; and values at the clamps. -/
theorem witness_SampleIsCheckedClampedAndBanded :
    (¬ ((64 : Nat) < 64)) ∧ ((3 : Nat) < 64 ∧ 3 < part.maps[(0 : ListNo)].zoneLen
        ∧ part.maps[(0 : ListNo)].bitmap.getLsbD 3 = true ∧ furnished.zones[(3 : ZoneNo)].type = .typeNone)
      ∧ ((1 : Nat) < 64 ∧ 1 < part.maps[(0 : ListNo)].zoneLen ∧ part.maps[(0 : ListNo)].bitmap.getLsbD 1 = true
          ∧ furnished.zones[(1 : ZoneNo)].type ≠ .typeNone)
      ∧ (0x8000#16).toInt = -32768 ∧ (0xFFFF#16).toNat = 65535
      ∧ ¬ ((0xFE70#16).toInt = -32768 ∨ (1000#16).toNat = 65535) := by decide +kernel

/-- Sample counts 0 and 5 just outside the range, 1 and 4 at its ends. -/
theorem witness_ClimateExaminesItsSamples :
    (Admits (offering furnished 8 [1, 0]) 0 8
        ∧ ((offering furnished 8 [1, 0]).offered 0).sampleCount = 0)
      ∧ (Admits (offering furnished 8 [1, 5]) 0 8 ∧ ((offering furnished 8 [1, 5]).offered 0).sampleCount = 5)
      ∧ (Admits (offering furnished 8 [1, 1]) 0 8 ∧ ((offering furnished 8 [1, 1]).offered 0).sampleCount = 1)
      ∧ (Admits (offering furnished 8 [1, 4]) 0 8 ∧ ((offering furnished 8 [1, 4]).offered 0).sampleCount = 4) :=
  ⟨⟨admits (by decide +kernel), by decide +kernel⟩,
    ⟨admits (by decide +kernel), by decide +kernel⟩, ⟨admits (by decide +kernel), by decide +kernel⟩,
    ⟨admits (by decide +kernel), by decide +kernel⟩⟩

/-- A zone number of 64 is refused; zone 63 is redefined. -/
theorem witness_ZonesetRefusesOrRedefines :
    (Admits (offering furnished 9 [64, 0x05A00001, 0]) 0 9
        ∧ ((offering furnished 9 [64, 0x05A00001, 0]).offered 0).zoneRequest.zone = 64)
      ∧ (Admits (offering furnished 9 [63, 0x05A00803, 0x0701]) 0 9
          ∧ ((offering furnished 9 [63, 0x05A00803, 0x0701]).offered 0).zoneRequest = ⟨63, 3, 8, 1440, 1, 7, 0⟩
          ∧ furnished.zones[(63 : ZoneNo)].occupancy = 0) :=
  ⟨⟨admits (by decide +kernel), by decide +kernel⟩, admits (by decide +kernel), by decide +kernel, by decide +kernel⟩

/-- The part with an image at offset 0x10000. -/
def imaged : State := part.poke 0x10000 image.toList

/-- Class 8 is refused; class 7 with an image in range begins programming. -/
theorem witness_ClasswriteRefusesOrBeginsProgramming :
    (Admits (offering imaged 10 [8, 0x10000]) 0 10 ∧ 7 < ((offering imaged 10 [8, 0x10000]).offered 0).classAsked)
      ∧ (Admits (offering imaged 10 [7, 0x10000]) 0 10
          ∧ ((offering imaged 10 [7, 0x10000]).afterTake 0).peekWords 0x10000 30 = image
          ∧ (figuresOf image).inRange = true
          ∧ (∀ j : ClassNo, (offering imaged 10 [7, 0x10000]).classes[j] ≠ .programming)
          ∧ ∀ j : ClassNo, (offering imaged 10 [7, 0x10000]).live[j] = 0) :=
  ⟨⟨admits (by decide +kernel), by decide +kernel⟩, admits (by decide +kernel), by decide +kernel, by decide +kernel,
    by decide +kernel, by decide +kernel⟩

theorem witness_ProgrammingEndWritesAndVerifies :
    part.prog = none ∧ (∃ p, (programming none).prog = some p ∧ p.ended = none)
      ∧ (∃ p, (programming (some true)).prog = some p ∧ p.ended ≠ none) :=
  ⟨rfl, ⟨_, rfl, rfl⟩, _, rfl, by decide⟩

/-- Success and failure in service, the same in FAULTED, a part that is IDLE, one that programs nothing and one whose programming
has not ended. -/
theorem witness_CompletionAppliesTheOutcome :
    (∀ success, (∃ p, (programming (some success)).prog = some p ∧ p.ended = some success)
        ∧ InService (programming (some success)) ∧ (programming (some success)).engine = .free)
      ∧ ({ programming (some true) with engineState := .faulted }).engineState = .faulted
      ∧ ({ programming (some true) with engineState := .idle }).engineState = .idle
      ∧ part.prog = none ∧ ∃ p, (programming none).prog = some p ∧ p.ended = none := by
  refine ⟨fun success => ⟨⟨_, rfl, rfl⟩, ?_, rfl⟩, rfl, rfl, rfl, _, rfl, rfl⟩
  cases success
  · exact serves (by decide +kernel)
  · exact serves (by decide +kernel)

/-- The published minute 100. -/
def loaded : State := { unset with published := 100 }

theorem loaded_none : offersCheck (offering loaded 11 [noWord]) 0 11 = true
    ∧ ((offering loaded 11 [noWord]).offered 0).clockValue = noWord := by decide +kernel

theorem loaded_99 : offersCheck (offering loaded 11 [99]) 0 11 = true
    ∧ ((offering loaded 11 [99]).offered 0).clockValue = 99 := by decide +kernel

theorem loaded_100 : offersCheck (offering loaded 11 [100]) 0 11 = true
    ∧ ((offering loaded 11 [100]).offered 0).clockValue = 100 := by decide +kernel

theorem loaded_101 : offersCheck (offering loaded 11 [101]) 0 11 = true
    ∧ ((offering loaded 11 [101]).offered 0).clockValue = 101 := by decide +kernel

/-- The value 0xFFFFFFFF; 99, below the published minute; 100, equal to it; 101, above it. -/
theorem witness_ClocksetFromUnsetComparesThePublishedMinute :
    (∀ v ∈ [noWord, 99, 100, 101], Offers (offering loaded 11 [v]) 0 11
        ∧ ((offering loaded 11 [v]).offered 0).clockValue = v)
      ∧ (∀ v : Word, (offering loaded 11 [v]).publicationDue = false ∧ (offering loaded 11 [v]).clock = .unset
          ∧ (offering loaded 11 [v]).published = 100)
      ∧ (∀ v : Word, (offering unset 11 [v]).published = noWord) := by
  refine ⟨?_, fun v => ⟨rfl, rfl, rfl⟩, fun v => rfl⟩
  simp only [List.forall_mem_cons]
  exact ⟨⟨offers loaded_none.1, loaded_none.2⟩, ⟨offers loaded_99.1, loaded_99.2⟩, ⟨offers loaded_100.1, loaded_100.2⟩,
    ⟨offers loaded_101.1, loaded_101.2⟩, fun _ h => absurd h List.not_mem_nil⟩

/-- The part STALLED by 3 at plant minute 1000: its reckoned minute is 997. -/
def stalled : State := { part with clock := .held 1000 3 }

theorem stalled_997 : admitsCheck (offering stalled 11 [997]) 0 11 = true
    ∧ ((offering stalled 11 [997]).offered 0).clockValue = 997 := by decide +kernel

theorem stalled_998 : admitsCheck (offering stalled 11 [998]) 0 11 = true
    ∧ ((offering stalled 11 [998]).offered 0).clockValue = 998 := by decide +kernel

theorem stalled_1000 : admitsCheck (offering stalled 11 [1000]) 0 11 = true
    ∧ ((offering stalled 11 [1000]).offered 0).clockValue = 1000 := by decide +kernel

theorem stalled_1001 : admitsCheck (offering stalled 11 [1001]) 0 11 = true
    ∧ ((offering stalled 11 [1001]).offered 0).clockValue = 1001 := by decide +kernel

theorem stalled_1012 : admitsCheck (offering stalled 11 [1012]) 0 11 = true
    ∧ ((offering stalled 11 [1012]).offered 0).clockValue = 1012 := by decide +kernel

theorem stalled_1013 : admitsCheck (offering stalled 11 [1013]) 0 11 = true
    ∧ ((offering stalled 11 [1013]).offered 0).clockValue = 1013 := by decide +kernel

theorem stalled_996 : admitsCheck (offering stalled 11 [996]) 0 11 = true
    ∧ ((offering stalled 11 [996]).offered 0).clockValue = 996 := by decide +kernel

theorem stalled_985 : admitsCheck (offering stalled 11 [985]) 0 11 = true
    ∧ ((offering stalled 11 [985]).offered 0).clockValue = 985 := by decide +kernel

theorem stalled_984 : admitsCheck (offering stalled 11 [984]) 0 11 = true
    ∧ ((offering stalled 11 [984]).offered 0).clockValue = 984 := by decide +kernel

theorem stalled_none : admitsCheck (offering stalled 11 [noWord]) 0 11 = true
    ∧ ((offering stalled 11 [noWord]).offered 0).clockValue = noWord := by decide +kernel

/-- The value 0xFFFFFFFF; steps 0, 1, 3 (the whole stall), 4 and 15 (the ends of a run), 16, −1, −12 (down to the plant minute less 15) and −13. -/
theorem witness_ClocksetCorrectsByTheStep :
    (∀ v ∈ [noWord, 997, 998, 1000, 1001, 1012, 1013, 996, 985, (984 : Word)],
        Admits (offering stalled 11 [v]) 0 11 ∧ ((offering stalled 11 [v]).offered 0).clockValue = v)
      ∧ ∀ v : Word, (offering stalled 11 [v]).clock = .held 1000 3 := by
  refine ⟨?_, fun v => rfl⟩
  simp only [List.forall_mem_cons]
  exact ⟨⟨admits stalled_none.1, stalled_none.2⟩, ⟨admits stalled_997.1, stalled_997.2⟩, ⟨admits stalled_998.1, stalled_998.2⟩, ⟨admits stalled_1000.1, stalled_1000.2⟩, ⟨admits stalled_1001.1, stalled_1001.2⟩, ⟨admits stalled_1012.1, stalled_1012.2⟩, ⟨admits stalled_1013.1, stalled_1013.2⟩, ⟨admits stalled_996.1, stalled_996.2⟩, ⟨admits stalled_985.1, stalled_985.2⟩, ⟨admits stalled_984.1, stalled_984.2⟩,
    fun _ h => absurd h List.not_mem_nil⟩

/-- A mode of 3 is out of range; mode OFF, batch 256 and period 60 at the ends of theirs. -/
theorem witness_TuneSetsWhatItNames :
    (Admits (offering part 12 [3, 256, 60, 0]) 0 12 ∧ ((offering part 12 [3, 256, 60, 0]).offered 0).tuneMode = 3)
      ∧ (Admits (offering part 12 [2, 256, 60, 1]) 0 12
          ∧ ((offering part 12 [2, 256, 60, 1]).offered 0).tuneMode = 2
          ∧ ((offering part 12 [2, 256, 60, 1]).offered 0).tuneBatch.toNat = 256
          ∧ ((offering part 12 [2, 256, 60, 1]).offered 0).tunePeriod = 60
          ∧ ((offering part 12 [2, 256, 60, 1]).offered 0).tuneReload = 1
          ∧ ∀ j : ListNo, ((offering part 12 [2, 256, 60, 1]).peek (44 + 16 * j.val)).toNat ≤ 64) :=
  ⟨⟨admits (by decide +kernel), by decide +kernel⟩, admits (by decide +kernel), by decide +kernel, by decide +kernel,
    by decide +kernel, by decide +kernel, by decide +kernel⟩

/-! ### Time, the pool, hand-overs and the patrol -/

/-- UNSET; stall counts 1 and 15; the top value; and one below it. -/
theorem witness_MinuteExpiryMakesOneBoundary :
    (InService unset ∧ unset.clock = .unset ∧ unset.publicationDue = false)
      ∧ (InService { part with clock := .held 1000 1 } ∧ ((1 : Fin 16).val = (0 : Fin 16).val + 1))
      ∧ (InService { part with clock := .held 1000 15 } ∧ ((15 : Fin 16).val = (14 : Fin 16).val + 1))
      ∧ (InService { part with clock := .held 0xFFFFFFFE 0 } ∧ (0xFFFFFFFE : Word).toNat = 0xFFFFFFFE)
      ∧ (InService { part with clock := .held 0xFFFFFFFD 0 } ∧ (0xFFFFFFFD : Word).toNat < 0xFFFFFFFE) :=
  ⟨⟨serves (by decide +kernel), rfl, rfl⟩, ⟨serves (by decide +kernel), by decide⟩, ⟨serves (by decide +kernel), by decide⟩,
    ⟨serves (by decide +kernel), by decide⟩, serves (by decide +kernel), by decide⟩

theorem witness_PublicationWritesThePages :
    (InService part ∧ part.publicationDue = false)
      ∧ InService { part with publicationDue := true } ∧ ({ part with publicationDue := true }).publicationDue = true :=
  ⟨⟨part_serves, rfl⟩, serves (by decide +kernel), rfl⟩

/-- One entry for each account listed, at the position of its number, in one list of the pool. -/
def entriesOf (accounts : List Nat) : List WatchEntry := accounts.map fun p => ⟨p, p, 0, 0, 0, .warn, false⟩

theorem entriesOf_order (accounts : List Nat) : (entriesOf accounts).Pairwise WatchEntry.inOrder :=
  List.pairwise_map.mpr (List.pairwise_of_forall fun _ _ => .inr ⟨rfl, Nat.le_refl 0⟩)

/-- A part whose pool holds one entry for each account listed. -/
def crowded (accounts : List Nat) : State := { part with watch := entriesOf accounts }

theorem crowded_sound {accounts : List Nat} (once : accounts.Nodup) (low : ∀ p ∈ accounts, p < 4096) :
    PoolSound (crowded accounts) where
  counted := Nat.zero_le _
  accounts := by rw [crowded, entriesOf, List.map_map]; exact (List.map_id _).symm ▸ once
  positions := by rw [crowded, entriesOf, List.map_map]; exact (List.map_id _).symm ▸ once
  range e h := by
    obtain ⟨p, hp, rfl⟩ := List.mem_map.mp h
    exact low p hp
  order := entriesOf_order accounts
  queued := List.nodup_nil
  due _ h := absurd h List.not_mem_nil

theorem crowded_others (accounts : List Nat) (n : Nat) :
    ((crowded accounts).watch.filter fun e => decide (e.account ≠ n)).length
      = (accounts.filter fun p => decide (p ≠ n)).length := by
  rw [crowded, entriesOf, List.filter_map, List.length_map]; rfl

/-- A full pool, in which account 4096 finds no position and account 0 its own; an account in no zone and one that is eligible; an
entry presented for a warning. -/
theorem witness_WatchPoolInsertsRemovesAndExamines :
    (∃ s : State, PoolSound s ∧ (s.watch.filter fun e => decide (e.account ≠ 4096)).length = 4096
        ∧ (s.watch.filter fun e => decide (e.account ≠ 0)).length < 4096)
      ∧ (bagged.zone = none ∧ account.zone = some 1 ∧ (furnished.inForce 0).budget = some 512 ∧ account.flags.expired = false)
      ∧ (due .warn).handover = some (entry .warn) ∧ (due .warn).handoverAt .warn = some (entry .warn) := by
  refine ⟨⟨crowded (List.range 4096), crowded_sound List.nodup_range fun p => List.mem_range.mp, ?_, ?_⟩, by decide +kernel,
    by decide +kernel, by decide +kernel⟩
  · rw [crowded_others, List.filter_eq_self.mpr fun p h => decide_eq_true (Nat.ne_of_lt (List.mem_range.mp h)),
      List.length_range]
  · rw [crowded_others]
    exact Nat.lt_of_lt_of_eq (List.length_filter_lt_length_iff_exists.mpr
      ⟨0, List.mem_range.mpr (by decide), by decide⟩) List.length_range

/-- The account of entry 0, WARNED. -/
def warned : Account := { account with flags := { account.flags with warned := true } }

/-- None presented; a good record; a faulty one; one in another zone; one WARNED already. -/
theorem witness_WarningHandoverWarnsAndRewatches :
    part.handoverAt .warn = none
      ∧ (InService (due .warn) ∧ (due .warn).handoverAt .warn = some (entry .warn)
          ∧ (entry .warn).account < (due .warn).layout.tableSize
          ∧ (due .warn).recordOf 0 = some account ∧ ((due .warn).inForce 0).budget = some 512
          ∧ account.zone = some (entry .warn).zone ∧ account.cls = (entry .warn).cls ∧ account.flags.warned = false)
      ∧ ((due .warn).poke 0x4000 [9]).recordOf 0 = none
      ∧ ({ due .warn with mem := (holding bagged).mem }).recordOf 0 = some bagged
      ∧ ({ due .warn with mem := (holding warned).mem }).recordOf 0 = some warned :=
  ⟨by decide +kernel, ⟨serves (by decide +kernel), by decide +kernel, by decide +kernel, by decide +kernel, by decide +kernel, rfl, rfl, rfl⟩, by decide +kernel, by decide +kernel, by decide +kernel⟩

theorem witness_ExpiryHandoverExpiresTheAccount :
    part.handoverAt .expire = none
      ∧ (InService (due .expire) ∧ (due .expire).handoverAt .expire = some (entry .expire)
          ∧ (entry .expire).account < (due .expire).layout.tableSize
          ∧ (due .expire).recordOf 0 = some account ∧ account.zone = some (entry .expire).zone
          ∧ account.cls = (entry .expire).cls ∧ account.flags.expired = false)
      ∧ ((due .expire).poke 0x4000 [9]).recordOf 0 = none
      ∧ ({ due .expire with mem := (holding bagged).mem }).recordOf 0 = some bagged :=
  ⟨by decide +kernel, ⟨serves (by decide +kernel), by decide +kernel, by decide +kernel, by decide +kernel, rfl, rfl, rfl⟩, by decide +kernel, by decide +kernel⟩

/-- A part with nothing left to read, and one with one record left, at the table's last account. -/
theorem witness_PatrolReadHoldsAnUnwatchedAccount :
    (InService part ∧ ¬ 0 < part.remaining)
      ∧ (InService { holding account with remaining := 1, cursor := 7 }
          ∧ ({ holding account with remaining := 1, cursor := 7 }).stopping = false
          ∧ ({ holding account with remaining := 1, cursor := 7 }).clock = .held 1000 0
          ∧ 0 < ({ holding account with remaining := 1, cursor := 7 }).remaining
          ∧ ({ holding account with remaining := 1, cursor := 7 }).heldAccount = none) :=
  ⟨⟨part_serves, by decide⟩, serves (by decide +kernel), rfl, rfl, by decide, rfl⟩

/-- A part that holds an account for the engine. -/
def patrolled (a : Account) : State := { holding a with heldAccount := some 0 }

/-- Nothing held; a faulty record; an account in no zone; one at the budget, at the warning level and below it. -/
theorem witness_PatrolWorkExpiresWarnsOrWatches :
    part.heldAccount = none
      ∧ (InService (patrolled account) ∧ (patrolled account).mayWork = true ∧ (patrolled account).handover = none
          ∧ (patrolled account).heldAccount = some 0 ∧ 0 < (patrolled account).layout.tableSize)
      ∧ ((patrolled account).poke 0x4000 [9]).recordOf 0 = none
      ∧ ((patrolled bagged).recordOf 0 = some bagged ∧ (patrolled bagged).patrolWants 0 bagged = false)
      ∧ ((patrolled account).recordOf 0 = some account ∧ (patrolled account).patrolWants 0 account = true)
      ∧ (((patrolled account).inForce 0).reached 512 = true ∧ ((patrolled account).inForce 0).reached 511 = false
          ∧ ((patrolled account).inForce 0).warnable 256 = true ∧ ((patrolled account).inForce 0).warnable 255 = false) :=
  ⟨rfl, ⟨serves (by decide +kernel), by decide +kernel, by decide +kernel, rfl, by decide +kernel⟩,
    by decide +kernel, by decide +kernel, by decide +kernel, by decide +kernel⟩

/-! ### The notice unit -/

/-- The part with its log full and `n` EXPIRED notices held, of accounts 0 on, and T as given in the control page. -/
def logFullPart (n : Nat) (t : Word) : State :=
  { part.poke 256 [t] with
    written := 64, logFull := decide (0 < n), heldNotices := (List.range n).map fun i => ⟨.expired, i, 900, 1, 0⟩ }

/-- With 64 held and no room, an EXPIRED notice of another account is dropped and marks its account, a ZONE_STALE is dropped and
sets NOTICES_DROPPED, and an EXPIRED of account 63 merges in its place (R148, R149, R151). -/
theorem test_notice_dropped_or_merged :
    (match handNotices [⟨.expired, 64, 1000, 1, 0⟩] (logFullPart 64 0) with
      | .ok m t => m && !t.noticesDropped && decide (t.heldNotices.length = 64)
      | .error _ _ => false) = true
    ∧ (match handNotices [⟨.zoneStale, 1, 1000, 1, 0⟩] (logFullPart 64 0) with
      | .ok m t => !m && t.noticesDropped && decide (t.heldNotices.length = 64)
      | .error _ _ => false) = true
    ∧ (match handNotices [⟨.expired, 63, 1000, 7, 0⟩] (logFullPart 64 0) with
      | .ok m t => !m && !t.noticesDropped && decide (t.heldNotices[63]? = some ⟨.expired, 63, 1000, 7, 0⟩)
      | .error _ _ => false) = true := by decide +kernel

/-- T at 0 leaves no room and T at 1 does, with notices held or none; 1, 63 and 64 notices held; a NORMAL and an URGENT notice to drain; a record that is good
and one that is corrupt. -/
theorem witness_ReceivedNoticeIsWrittenHeldMergedOrDropped :
    (InService part ∧ InService (logFullPart 0 0) ∧ InService (logFullPart 0 1) ∧ InService (logFullPart 1 0)
        ∧ InService (logFullPart 63 0) ∧ InService (logFullPart 64 0))
      ∧ (part.heldNotices = [] ∧ part.logHasRoom = true)
      ∧ ((logFullPart 0 0).heldNotices = [] ∧ (logFullPart 0 0).logHasRoom = false
          ∧ ¬ (64 - reckonTaken 64 64 ((logFullPart 0 0).peek 256)).toNat < 64
          ∧ (64 - reckonTaken 64 64 ((logFullPart 0 1).peek 256)).toNat < 64)
      ∧ ((logFullPart 1 0).heldNotices = [⟨.expired, 0, 900, 1, 0⟩] ∧ (logFullPart 63 0).heldNotices.length = 63
          ∧ (logFullPart 64 0).heldNotices.length = 64
          ∧ ∀ m ∈ (logFullPart 64 0).heldNotices, ¬ (m.kind = .expired ∧ m.subject = 64))
      ∧ ((64 - reckonTaken 64 64 ((logFullPart 1 1).peek 256)).toNat < 64 ∧ (logFullPart 1 1).heldNotices ≠ []
          ∧ (logFullPart 63 1).heldNotices.length < 64 ∧ 64 ≤ (logFullPart 64 1).heldNotices.length)
      ∧ ({ part with heldNotices := [⟨.recovered, 0, 1, 2, 3⟩, ⟨.expired, 0, 1, 2, 3⟩] }).logHasRoom = true
      ∧ ((holding account).recordOf 0 ≠ none ∧ (part.poke 0x4000 [1]).recordOf 0 = none) :=
  ⟨⟨part_serves, serves (by decide +kernel), serves (by decide +kernel), serves (by decide +kernel),
      serves (by decide +kernel), serves (by decide +kernel)⟩,
    by decide +kernel, by decide +kernel, by decide +kernel, by decide +kernel, by decide +kernel, by decide +kernel⟩

/-! ### The cache, the records and what every step keeps -/

/-- A part whose cache holds account 64 in way 1 of set 0. -/
def caching : State :=
  { part with cacheSets := part.cacheSets.set 0 { CacheSet.invalid with
      ways := CacheSet.invalid.ways.set 1 (some ⟨1, Vector.replicate 16 0⟩) } }

theorem witness_CacheOrderBitsPointAwayFromTheWayUsed :
    ∃ l : Line, caching.cacheSets[setOf 64].ways[(1 : Fin 4)] = some l ∧ l.tag = 64 / 64
      ∧ ∀ v : Fin 4, caching.cacheSets[setOf 64].ways[v].isSome = true → v = 1 :=
  ⟨⟨1, Vector.replicate 16 0⟩, by decide +kernel, rfl, by decide +kernel⟩

theorem reset_lines (i : Fin 64) (v : Fin 4) : State.reset.cacheSets[i].ways[v] = none := by
  revert i v
  decide +kernel

/-- Way 1 of set 0 alone holds a line. -/
theorem caching_lines : ∀ (i : Fin 64) (v : Fin 4), caching.cacheSets[i].ways[v].isSome = true → i = 0 ∧ v = 1 := by
  decide +kernel

/-- Every set of a cache that holds no line is sound, in every mode. -/
theorem sound_of_empty {s : State} (h : s.cacheSets = State.reset.cacheSets) : CacheSound s where
  single i v w x y hx := by rw [h, reset_lines] at hx; cases hx
  off _ i w := by rw [h]; exact reset_lines i w

theorem caching_sound : CacheSound caching where
  single i v w x y hx hy _ := by
    rw [(caching_lines i v (by rw [hx]; rfl)).2, (caching_lines i w (by rw [hy]; rfl)).2]
  off h := absurd h (by decide +kernel)

/-- The part holding an account, its cache in a mode. -/
def inMode (mode : CacheMode) : State := { holding account with cacheMode := mode }

/-- A hit; a miss on a record that passes, in each mode; and a miss on one that is corrupt. -/
theorem witness_EngineFetchFollowsTheLookupAndTheMode :
    (caching.failing = none ∧ CacheSound caching
        ∧ ∃ l : Line, caching.cacheSets[setOf 64].ways[(1 : Fin 4)] = some l ∧ l.tag = 64 / 64)
      ∧ (∀ mode : CacheMode, (inMode mode).failing = none ∧ CacheSound (inMode mode)
          ∧ ∀ w : Fin 4, (inMode mode).cacheSets[setOf 0].ways[w] = none)
      ∧ isCorrupt ((holding account).peekWords ((holding account).layout.record 0) 16) = false
      ∧ isCorrupt (((holding account).poke 0x4000 [9]).peekWords ((holding account).layout.record 0) 16) = true :=
  ⟨⟨rfl, caching_sound, ⟨1, Vector.replicate 16 0⟩, by decide +kernel, rfl⟩,
    fun _ => ⟨rfl, sound_of_empty rfl, reset_lines _⟩, by decide +kernel, by decide +kernel⟩

/-- A bake count of 15, at the end of its range, in a zone and in none. -/
theorem witness_RecordsReadBackAsWritten :
    (({ account with bakeCount := 15 }).bakeCount ≤ 15
        ∧ (account.state.inZone = true → account.zone ≠ none) ∧ account.state.inZone = true ∧ account.aux = 0)
      ∧ (bagged.bakeCount ≤ 15 ∧ (bagged.state.inZone = true → bagged.zone ≠ none)) := by decide

/-- A part that waits with a minute timer expiry, a due entry, a held notice's room and a cached line. -/
def waiting : State :=
  { (due .warn).drive with
    cacheSets := caching.cacheSets
    pending := [.minuteTimerExpiry] }

theorem waiting_steps : ∃ t, step waiting = .next t := ⟨_, rfl⟩

theorem waiting_pool : PoolSound waiting where
  counted := Nat.zero_le _
  accounts := by decide +kernel
  positions := by decide +kernel
  range := by decide +kernel
  order := List.pairwise_singleton _ _
  queued := by decide +kernel
  due := by decide +kernel

theorem waiting_notices : NoticesSound waiting :=
  ⟨by decide +kernel, by decide +kernel, by decide +kernel, by decide +kernel, by decide +kernel⟩

theorem waiting_rest : RestSound waiting :=
  ⟨rfl, by decide +kernel, by decide +kernel, by decide +kernel, by decide +kernel, by decide +kernel, by decide +kernel,
    by decide +kernel⟩

theorem witness_EveryStepKeepsMemoryCanonical : waiting.mem.wf = true ∧ ∃ t, step waiting = .next t :=
  ⟨by decide +kernel, waiting_steps⟩

theorem witness_EveryStepKeepsThePoolSound : PoolSound waiting ∧ ∃ t, step waiting = .next t := ⟨waiting_pool, waiting_steps⟩

theorem witness_EveryStepKeepsTheNoticeUnitSound : NoticesSound waiting ∧ ∃ t, step waiting = .next t :=
  ⟨waiting_notices, waiting_steps⟩

theorem witness_EveryStepKeepsTheCacheSound : CacheSound waiting ∧ ∃ t, step waiting = .next t :=
  ⟨⟨caching_sound.single, fun h => absurd h (by decide +kernel)⟩, waiting_steps⟩

theorem witness_EveryStepKeepsTheServiceSound : ServiceSound waiting ∧ ∃ t, step waiting = .next t :=
  ⟨⟨waiting_rest, fun h => absurd h (by decide +kernel), fun _ => (serves (by decide +kernel : servesCheck waiting = true)).region⟩,
    waiting_steps⟩

theorem witness_NoTallyAndNoPlantMinuteFalls :
    waiting.pending = Instr.minuteTimerExpiry :: [] ∧ Instr.minuteTimerExpiry.wellFormed = true
      ∧ Instr.minuteTimerExpiry.isReset = false ∧ waiting.engineState ≠ .idle ∧ (∃ t, step waiting = .next t)
      ∧ waiting.clockSet = true := ⟨rfl, rfl, rfl, by decide +kernel, waiting_steps, by decide +kernel⟩

/-- A FAULTED part that a NUDGE reaches. -/
def faulted : State := { part.enterFaulted.drive with pending := [.nudge [(0, 1)] 255] }

theorem faulted_rest : RestSound faulted :=
  ⟨rfl, by decide +kernel, by decide +kernel, by decide +kernel, by decide +kernel, by decide +kernel, by decide +kernel,
    by decide +kernel⟩

/-- A part in service, a FAULTED one, and a NUDGE over which W does not rise. -/
theorem witness_CauseSendsOneMessageWhenItGoesFromClearToSet :
    ((Instr.nudge [] 0).wellFormed = true ∧ (Instr.nudge [] 0).isReset = false
        ∧ (∀ stores value, Instr.nudge [] 0 ≠ .statusWrite stores value)
        ∧ (∀ stores enables, Instr.nudge [] 0 ≠ .start stores enables) ∧ (Instr.nudge [] 0).completesCells = false)
      ∧ part.engineState ≠ .faulted ∧ (faulted.engineState = .faulted ∧ RestSound faulted)
      ∧ NoticesSound waiting ∧ (ran (.nudge [] 0) waiting).written = waiting.written :=
  ⟨⟨rfl, rfl, fun _ _ h => Instr.noConfusion h, fun _ _ h => Instr.noConfusion h, rfl⟩, by decide, ⟨rfl, faulted_rest⟩,
    waiting_notices, by decide +kernel⟩

/-- An IDLE part that a STOP reaches, and a FAULTED one that a NUDGE reaches. -/
theorem witness_OnlyTheirCommandsLeaveFaultedAndChangeTheStore :
    (RestSound faulted ∧ faulted.engineState = .faulted ∧ faulted.pending = [.nudge [(0, 1)] 255]
        ∧ (Instr.nudge [(0, 1)] 255).wellFormed = true ∧ (Instr.nudge [(0, 1)] 255).isReset = false
        ∧ ∃ t, step faulted = .next t)
      ∧ (State.reset.engineState = .idle ∧ (∀ stores enables, Instr.stop [] 0 ≠ .start stores enables)
          ∧ ∃ t, step { State.reset with pending := [.stop [] 0] } = .next t)
      ∧ ∃ t, exec .classwrite (offering imaged 10 [7, 0x10000]) = .next t ∧ t.nv[7].inProgress = true :=
  ⟨⟨faulted_rest, rfl, rfl, rfl, rfl, _, rfl⟩, ⟨rfl, fun _ _ h => Instr.noConfusion h, _, rfl⟩, _, rfl, by decide +kernel⟩

end Sys2Proof.Tests
end

-- ==== Proofs: the step ====
section
/-! The step and the queue of commands (O1). -/

namespace Sys2Proof.Machine

/-- Settles O1: by the two cases of the queue. -/
theorem stepRunsTheFrontCommand : Obligations.StepRunsTheFrontCommand := by
  intro s
  unfold step
  refine ⟨fun c rest h => ?_, fun h => ?_⟩
  · rw [h]
  · rw [h]

end Sys2Proof.Machine
end

-- ==== Proofs: Service ====
section
/-! What work keeps of the engine, the clock, the lists and the region of a part, and that every step keeps them sound (O58). -/

namespace Sys2Proof.Machine

section Quiet

variable {α β : Type}

/-- The part of the state that `ServiceSound` speaks of, the hold lines apart. -/
structure Service where
  engine : Engine
  engineState : EngineState
  clock : Clock
  publicationDue : Bool
  scanRunning : Bool
  lists : Vector ListState 8
  stopping : Bool
  prog : Option Programming
  layout : Layout
  capacity : Nat

/-- What a state holds of it. -/
def State.service (s : State) : Service :=
  ⟨s.engine, s.engineState, s.clock, s.publicationDue, s.scanRunning, s.lists, s.stopping, s.prog, s.layout, s.capacity⟩

/-- Work that leaves the part's service as it was whenever it ends normally. -/
def Act.Quiet (a : Act α) : Prop := ∀ s x t, a s = .ok x t → t.service = s.service

/-- Work in two parts that ends normally does so part by part. -/
theorem Act.bind_eq_ok {a : Act α} {f : α → Act β} {s u : State} {y : β} :
    (a >>= f) s = .ok y u ↔ ∃ x t, a s = .ok x t ∧ f x t = .ok y u := by
  constructor
  · intro h
    cases r : a s with
    | ok x t => exact ⟨x, t, rfl, by rwa [Act.bind_ok r] at h⟩
    | error e t => rw [Act.bind_error r] at h; cases h
  · rintro ⟨x, t, ha, hf⟩
    rw [Act.bind_ok ha, hf]

theorem Act.pure_eq_ok {x y : α} {s t : State} : (pure x : Act α) s = .ok y t ↔ x = y ∧ s = t := by
  rw [Act.pure_eq]; simp

theorem Act.modify_eq_ok {f : State → State} {u : Unit} {s t : State} : (modify f : Act Unit) s = .ok u t ↔ f s = t := by
  rw [Act.modify_eq]; simp

@[simp] theorem Act.quiet_pure (x : α) : Act.Quiet (pure x) := by
  intro s y t h
  rw [(Act.pure_eq_ok.mp h).2]

theorem Act.quiet_bind {a : Act α} {f : α → Act β} (ha : a.Quiet) (hf : ∀ x, Act.Quiet (f x)) : Act.Quiet (a >>= f) := by
  intro s y u h
  obtain ⟨x, t, h1, h2⟩ := Act.bind_eq_ok.mp h
  rw [hf x t y u h2, ha s x t h1]

theorem Act.quiet_get_bind {f : State → Act β} (hf : ∀ s, Act.Quiet (f s)) : Act.Quiet (get >>= f) :=
  fun s => hf s s

theorem Act.quiet_modify {f : State → State} (hf : ∀ s, (f s).service = s.service) : Act.Quiet (modify f) := by
  intro s _ t h
  rw [← Act.modify_eq_ok.mp h, hf]

theorem Act.quiet_ite {c : Prop} [Decidable c] {a b : Act α} (ha : a.Quiet) (hb : b.Quiet) :
    Act.Quiet (if c then a else b) := by
  split
  · exact ha
  · exact hb

theorem Act.quiet_forEach {xs : List α} {f : α → Act Unit} (h : ∀ x, Act.Quiet (f x)) : Act.Quiet (forEach xs f) := by
  induction xs with
  | nil => exact Act.quiet_pure _
  | cons x xs ih => exact Act.quiet_bind (h x) fun _ => ih

theorem Act.quiet_sumOver {xs : List α} {f : α → Act Nat} (h : ∀ x, Act.Quiet (f x)) : Act.Quiet (sumOver xs f) := by
  induction xs with
  | nil => exact Act.quiet_pure _
  | cons x xs ih =>
    exact Act.quiet_bind (h x) fun _ => Act.quiet_bind ih fun _ => Act.quiet_pure _

@[simp] theorem regionRead_quiet (off n : Nat) : Act.Quiet (regionRead off n) := by
  intro s x t h
  rcases regionRead_does s off n with ⟨f, r⟩ | ⟨p, -, r⟩
  · rw [r] at h; cases h; rfl
  · rw [r] at h; cases h

@[simp] theorem regionWriteLanding_quiet (lands : Nat → Nat) (off : Nat) (ws : List Word) :
    Act.Quiet (regionWriteLanding lands off ws) := by
  intro s x t h
  rcases regionWriteLanding_does s lands off ws with ⟨f, r⟩ | ⟨p, -, r⟩
  · rw [r] at h; cases h; rfl
  · rw [r] at h; cases h

@[simp] theorem regionWrite_quiet (off : Nat) (ws : List Word) : Act.Quiet (regionWrite off ws) :=
  regionWriteLanding_quiet _ off ws

@[simp] theorem regionWriteWhole_quiet (off : Nat) (ws : List Word) : Act.Quiet (regionWriteWhole off ws) :=
  regionWriteLanding_quiet _ off ws

@[simp] theorem landStores_quiet (stores : HostStores) : Act.Quiet (landStores stores) := Act.quiet_modify fun _ => rfl

end Quiet

/-! ### Changes of the state that leave the service alone -/

@[simp] theorem State.raiseCause_service (s : State) (c : Cause) : (s.raiseCause c).service = s.service := by
  unfold State.raiseCause
  split <;> rfl

@[simp] theorem State.removeEntry_service (s : State) (n : Nat) : (s.removeEntry n).service = s.service := by
  rw [State.removeEntry_frame]
  rfl

@[simp] theorem State.insertEntry_service (s : State) (n : Nat) (z : ZoneNo) (c : ClassNo) (threshold : DWord)
    (stage : Stage) : (s.insertEntry n z c threshold stage).1.service = s.service := by
  rw [State.insertEntry_frame]
  rfl

@[simp] theorem State.tryWatch_service (s : State) (n : Nat) (a : Account) : (s.tryWatch n a).1.service = s.service := by
  unfold State.tryWatch
  split
  · rfl
  · split
    · exact State.insertEntry_service _ _ _ _ _ _
    · rfl

@[simp] theorem State.watchAccount_service (s : State) (n : Nat) (a : Account) :
    (s.watchAccount n a).service = s.service := by
  unfold State.watchAccount
  simp only
  split
  · exact State.tryWatch_service s n a
  · exact State.tryWatch_service s n a

@[simp] theorem State.reachUnwatched_service (s : State) (n : Nat) (a : Account) :
    (s.reachUnwatched n a).service = s.service := by
  unfold State.reachUnwatched
  split <;> rfl

@[simp] theorem State.rewatch_service (s : State) (e : WatchEntry) (a : Account) : (s.rewatch e a).service = s.service := by
  unfold State.rewatch
  split
  · exact State.removeEntry_service _ _
  · exact State.removeEntry_service _ _

@[simp] theorem State.patrolWatch_service (s : State) (n : Nat) (a : Account) : (s.patrolWatch n a).service = s.service := by
  unfold State.patrolWatch
  simp only
  split
  · exact State.tryWatch_service s n a
  · exact State.tryWatch_service s n a

@[simp] theorem State.noteBake_service (s : State) (a b : Account) : (s.noteBake a b).service = s.service := by
  unfold State.noteBake
  split <;> rfl

@[simp] theorem State.countAmend_service (s : State) (a b : Account) : (s.countAmend a b).service = s.service := by
  unfold State.countAmend
  cases a.zone <;> simp only <;> split <;> rfl

@[simp] theorem State.tuned_service (s : State) (c : TakenCell) (maps : Vector AuthMap 8) :
    (s.tuned c maps).service = s.service := by
  unfold State.tuned
  cases cacheModeOf c.tuneMode with
  | none => rfl
  | some m => cases m <;> rfl

/-! ### The notice unit and the cache -/

@[simp] theorem writeNotice_quiet (n : Notice) (held : List Notice) : (writeNotice n held).Quiet :=
  Act.quiet_get_bind fun _ => Act.quiet_bind (regionWrite_quiet _ _) fun _ =>
    Act.quiet_bind (Act.quiet_modify fun _ => State.raiseCause_service _ _) fun _ =>
      Act.quiet_get_bind fun _ => regionWriteWhole_quiet _ _

@[simp] theorem drain_quiet (k : Nat) : (drain k).Quiet := by
  induction k with
  | zero => exact Act.quiet_pure _
  | succ k ih =>
    refine Act.quiet_get_bind fun s => Act.quiet_ite ?_ (Act.quiet_pure _)
    cases nextHeld s.heldNotices with
    | none => exact Act.quiet_pure _
    | some n => exact Act.quiet_bind (writeNotice_quiet _ _) fun _ => ih

@[simp] theorem readTaken_quiet : readTaken.Quiet :=
  Act.quiet_get_bind fun _ => Act.quiet_bind (regionRead_quiet _ _) fun _ =>
    Act.quiet_bind (Act.quiet_modify fun _ => rfl) fun _ => Act.quiet_get_bind fun _ => drain_quiet _

@[simp] theorem receiveNotice_quiet (n : Notice) : (receiveNotice n).Quiet := by
  have ends (b : Bool) : Act.Quiet (do readTaken; pure b) := Act.quiet_bind readTaken_quiet fun _ => Act.quiet_pure _
  refine Act.quiet_get_bind fun s => Act.quiet_ite (Act.quiet_ite ?logged ?read) (Act.quiet_ite ?merged (Act.quiet_ite ?held ?dropped))
  case logged => exact Act.quiet_bind (writeNotice_quiet _ _) fun _ => Act.quiet_pure _
  case read =>
    exact Act.quiet_bind readTaken_quiet fun _ => Act.quiet_get_bind fun _ => Act.quiet_ite
      (Act.quiet_bind (writeNotice_quiet _ _) fun _ => Act.quiet_pure _)
      (Act.quiet_bind (Act.quiet_modify fun _ => rfl) fun _ => Act.quiet_pure _)
  case merged => exact Act.quiet_bind (Act.quiet_modify fun _ => rfl) fun _ => ends false
  case held => exact Act.quiet_bind (Act.quiet_modify fun _ => rfl) fun _ => ends false
  case dropped => exact ends true

@[simp] theorem handNotices_quiet (ns : List Notice) : (handNotices ns).Quiet := by
  induction ns with
  | nil => exact Act.quiet_pure _
  | cons n ns ih =>
    have rest (b : Bool) : Act.Quiet (do let r ← handNotices ns; pure (b || r)) :=
      Act.quiet_bind ih fun _ => Act.quiet_pure _
    exact Act.quiet_bind (receiveNotice_quiet n) fun _ =>
      Act.quiet_ite (Act.quiet_bind (Act.quiet_modify fun _ => rfl) fun _ => rest _) (rest _)

@[simp] theorem reportNotices_quiet (ns : List Notice) : (reportNotices ns).Quiet :=
  Act.quiet_bind (handNotices_quiet ns) fun _ => Act.quiet_pure _

@[simp] theorem readUncached_quiet (n : Nat) : (readUncached n).Quiet :=
  Act.quiet_get_bind fun _ => Act.quiet_bind (regionRead_quiet _ _) fun _ => Act.quiet_pure _

@[simp] theorem fetchRecord_quiet (n : Nat) : (fetchRecord n).Quiet := by
  refine Act.quiet_get_bind fun s => ?_
  split
  · exact Act.quiet_bind (Act.quiet_modify fun _ => rfl) fun _ => Act.quiet_pure _
  · refine Act.quiet_ite (Act.quiet_bind (regionRead_quiet _ _) fun ws => Act.quiet_ite (Act.quiet_pure _) ?_)
      (readUncached_quiet n)
    exact Act.quiet_bind (Act.quiet_modify fun _ => rfl) fun _ => Act.quiet_pure _

@[simp] theorem patrolFetch_quiet (n : Nat) : (patrolFetch n).Quiet := by
  refine Act.quiet_get_bind fun s => ?_
  split
  · exact Act.quiet_pure _
  · exact readUncached_quiet n

@[simp] theorem writeThrough_quiet (n : Nat) (a : Account) : (writeThrough n a).Quiet :=
  Act.quiet_bind (Act.quiet_modify fun _ => rfl) fun _ =>
    Act.quiet_get_bind fun _ => Act.quiet_bind (regionWrite_quiet _ _) fun _ => Act.quiet_pure _

@[simp] theorem markMissed_quiet (n : Nat) (dropped : Bool) : (markMissed n dropped).Quiet := by
  have flag : Act.Quiet (modify fun s : State => { s with noticesDropped := true }) := Act.quiet_modify fun _ => rfl
  refine Act.quiet_ite (Act.quiet_bind (fetchRecord_quiet n) fun f => ?_) (Act.quiet_pure _)
  cases f with
  | corrupt => exact flag
  | malformed => exact flag
  | record a =>
    exact Act.quiet_ite (Act.quiet_pure _) (Act.quiet_bind (writeThrough_quiet _ _) fun _ => Act.quiet_pure _)

@[simp] theorem settleAccount_quiet (n : Nat) (a : Account) {counts : State → State}
    (h : ∀ s, (counts s).service = s.service) (ns : List Notice) : (settleAccount n a counts ns).Quiet :=
  Act.quiet_bind (writeThrough_quiet n a) fun _ => Act.quiet_bind (Act.quiet_modify h) fun _ =>
    Act.quiet_bind (Act.quiet_bind (handNotices_quiet ns) fun _ => markMissed_quiet n _) fun _ => Act.quiet_pure _

/-! ### The account kinds -/

@[simp] theorem onAccount_quiet (c : TakenCell) (compareTag : Bool) (zonesOf : Account → List Nat)
    {work : Nat → Account → Act Answer} (h : ∀ n a, (work n a).Quiet) : (onAccount c compareTag zonesOf work).Quiet := by
  refine Act.quiet_get_bind fun s => Act.quiet_ite (Act.quiet_pure _) (Act.quiet_bind (fetchRecord_quiet _) fun f => ?_)
  cases f with
  | corrupt => exact Act.quiet_bind (reportNotices_quiet _) fun _ => Act.quiet_pure _
  | malformed => exact Act.quiet_bind (reportNotices_quiet _) fun _ => Act.quiet_pure _
  | record a => exact Act.quiet_ite (Act.quiet_pure _) (Act.quiet_ite (Act.quiet_pure _) (h _ a))

theorem enrolAccount_quiet (c : TakenCell) (n : Nat) (a : Account) : (enrolAccount c n a).Quiet := by
  refine Act.quiet_get_bind fun s => Act.quiet_ite (Act.quiet_pure _) (Act.quiet_ite (Act.quiet_pure _) ?_)
  simp only
  split
  · exact Act.quiet_pure _
  · refine Act.quiet_ite (Act.quiet_pure _) ?_
    exact Act.quiet_bind (settleAccount_quiet _ _ (fun _ => by rfl) _) fun _ => Act.quiet_pure _

theorem openAccount_quiet (c : TakenCell) (n : Nat) (a : Account) : (openAccount c n a).Quiet := by
  refine Act.quiet_get_bind fun s => Act.quiet_ite (Act.quiet_pure _) (Act.quiet_ite (Act.quiet_pure _) ?_)
  split
  exact Act.quiet_bind (Act.quiet_modify fun _ => State.watchAccount_service _ _ _) fun _ =>
    Act.quiet_bind (settleAccount_quiet _ _ (fun _ => by rfl) _) fun _ => Act.quiet_pure _

theorem moveAccount_quiet (c : TakenCell) (n : Nat) (a : Account) : (moveAccount c n a).Quiet := by
  refine Act.quiet_get_bind fun s => ?_
  cases a.zone with
  | none => exact Act.quiet_pure _
  | some src =>
    refine Act.quiet_ite (Act.quiet_pure _) (Act.quiet_ite (Act.quiet_pure _) ?_)
    simp only
    refine Act.quiet_bind (Act.quiet_modify fun _ => by simp) fun _ =>
      Act.quiet_bind (settleAccount_quiet _ _ (fun _ => ?_) _) fun _ => Act.quiet_pure _
    rw [State.noteBake_service]
    rfl

theorem bagAccount_quiet (n : Nat) (a : Account) : (bagAccount n a).Quiet := by
  refine Act.quiet_get_bind fun s => ?_
  cases a.zone with
  | none => exact Act.quiet_pure _
  | some z =>
    simp only
    refine Act.quiet_bind (Act.quiet_modify fun _ => by simp) fun _ =>
      Act.quiet_bind (settleAccount_quiet _ _ (fun _ => ?_) _) fun _ => Act.quiet_pure _
    rw [State.noteBake_service]
    rfl

theorem retireAccount_quiet (n : Nat) (a : Account) : (retireAccount n a).Quiet := by
  refine Act.quiet_get_bind fun s => Act.quiet_ite (Act.quiet_pure _) ?_
  cases a.zone with
  | none => exact Act.quiet_bind (settleAccount_quiet _ _ (fun _ => by rfl) _) fun _ => Act.quiet_pure _
  | some z =>
    simp only
    exact Act.quiet_bind (Act.quiet_modify fun _ => by simp) fun _ =>
      Act.quiet_bind (settleAccount_quiet _ _ (fun _ => by rfl) _) fun _ => Act.quiet_pure _

theorem amendAccount_quiet (c : TakenCell) (n : Nat) (a : Account) : (amendAccount c n a).Quiet := by
  refine Act.quiet_get_bind fun s => ?_
  cases s.amendRefusal c a with
  | some r => exact Act.quiet_pure _
  | none =>
    have settles := Act.quiet_bind (f := fun sequence => (pure (accountAnswer .ok sequence (s.amended c n a).1.exposure
      (s.amended c n a).1.flags 0) : Act Answer)) (settleAccount_quiet n (s.amended c n a).1
        (counts := fun t => t.countAmend a (s.amended c n a).1) (fun _ => State.countAmend_service _ _ _) (s.amended c n a).2)
        fun _ => Act.quiet_pure _
    exact Act.quiet_ite (Act.quiet_bind (Act.quiet_modify fun _ => by simp) fun _ => settles) settles

theorem queryAccount_quiet (n : Nat) (a : Account) : (queryAccount n a).Quiet :=
  Act.quiet_get_bind fun _ => Act.quiet_ite (Act.quiet_pure _) (Act.quiet_pure _)

/-- The works that answer whatever they find. -/
theorem answered_quiet {a : Act Answer} (h : a.Quiet) : Act.Quiet (do let x ← a; pure (some x)) :=
  Act.quiet_bind h fun _ => Act.quiet_pure _

/-! ### CLIMATE, ZONESET and TUNE -/

theorem climateWork_quiet (c : TakenCell) : (climateWork c).Quiet :=
  Act.quiet_get_bind fun _ => Act.quiet_ite (Act.quiet_pure _)
    (Act.quiet_bind (Act.quiet_modify fun _ => rfl) fun _ => Act.quiet_bind (reportNotices_quiet _) fun _ => Act.quiet_pure _)

theorem zonesetWork_quiet (c : TakenCell) : (zonesetWork c).Quiet :=
  Act.quiet_get_bind fun _ => Act.quiet_ite (Act.quiet_pure _) (Act.quiet_ite (Act.quiet_pure _)
    (Act.quiet_ite (Act.quiet_pure _) (Act.quiet_bind (Act.quiet_modify fun _ => rfl) fun _ => Act.quiet_pure _)))

theorem tuneWork_quiet (c : TakenCell) : (tuneWork c).Quiet := by
  have apply (maps : Vector AuthMap 8) : (applyTune c maps).Quiet :=
    Act.quiet_bind (Act.quiet_modify fun _ => State.tuned_service _ _ _) fun _ => Act.quiet_get_bind fun _ => Act.quiet_pure _
  exact Act.quiet_get_bind fun _ => Act.quiet_ite (Act.quiet_pure _)
    (Act.quiet_ite (Act.quiet_bind (regionRead_quiet _ _) fun _ => Act.quiet_ite (apply _) (Act.quiet_pure _)) (apply _))

/-! ### Publications -/

theorem writeZonePage_quiet (zones : Vector Zone 64) (published : Word) : (writeZonePage zones published).Quiet :=
  Act.quiet_get_bind fun _ => Act.quiet_bind (Act.quiet_forEach fun _ => regionWrite_quiet _ _) fun _ =>
    Act.quiet_bind (regionWrite_quiet _ _) fun _ => Act.quiet_bind (regionWrite_quiet _ _) fun _ => regionWriteWhole_quiet _ _

theorem writeClockWords_quiet : writeClockWords.Quiet :=
  Act.quiet_get_bind fun _ => Act.quiet_ite (regionWrite_quiet _ _) (Act.quiet_pure _)

/-! ### Hand-overs and the patrol -/

theorem dropFaulty_quiet (e : WatchEntry) (what : Nat) : (dropFaulty e what).Quiet :=
  Act.quiet_bind (Act.quiet_modify fun _ => State.removeEntry_service _ _) fun _ =>
    Act.quiet_get_bind fun _ => reportNotices_quiet _

theorem expireFaulty_quiet (e : WatchEntry) (what : Nat) : (expireFaulty e what).Quiet :=
  Act.quiet_bind (Act.quiet_modify fun _ => rfl) fun _ => dropFaulty_quiet e what

theorem giveWarning_quiet (e : WatchEntry) (a : Account) : (giveWarning e a).Quiet :=
  Act.quiet_get_bind fun _ => Act.quiet_bind (Act.quiet_modify fun _ => State.rewatch_service _ _ _) fun _ =>
    Act.quiet_ite (Act.quiet_pure _) (Act.quiet_bind (settleAccount_quiet _ _ (fun _ => by rfl) _) fun _ => Act.quiet_pure _)

theorem giveExpiry_quiet (e : WatchEntry) (a : Account) : (giveExpiry e a).Quiet :=
  Act.quiet_get_bind fun _ => Act.quiet_bind (Act.quiet_modify fun _ => State.removeEntry_service _ _) fun _ =>
    Act.quiet_bind (settleAccount_quiet _ _ (fun _ => by rfl) _) fun _ => Act.quiet_pure _

theorem patrolReadOne_quiet : patrolReadOne.Quiet := by
  have decides (n : Nat) (f : Fetched) : (patrolDecide n f).Quiet := by
    refine Act.quiet_get_bind fun s => ?_
    cases f with
    | corrupt => exact reportNotices_quiet _
    | malformed => exact reportNotices_quiet _
    | record a => exact Act.quiet_ite (Act.quiet_modify fun _ => rfl) (Act.quiet_pure _)
  exact Act.quiet_get_bind fun _ => Act.quiet_ite (Act.quiet_bind (patrolFetch_quiet _) fun _ =>
    Act.quiet_bind (Act.quiet_modify fun _ => rfl) fun _ => decides _ _) (Act.quiet_pure _)

theorem patrolSettle_quiet (n : Nat) (z : ZoneNo) (a : Account) : (patrolSettle n z a).Quiet := by
  refine Act.quiet_get_bind fun s => Act.quiet_ite ?expiry (Act.quiet_ite ?warning ?watch)
  case expiry =>
    exact Act.quiet_get_bind fun _ => Act.quiet_bind (Act.quiet_modify fun _ => rfl) fun _ =>
      Act.quiet_bind (settleAccount_quiet _ _ (fun _ => by rfl) _) fun _ => Act.quiet_pure _
  case warning =>
    exact Act.quiet_get_bind fun _ => Act.quiet_bind (Act.quiet_modify fun _ => State.patrolWatch_service _ _ _) fun _ =>
      Act.quiet_bind (settleAccount_quiet _ _ (fun _ => by rfl) _) fun _ => Act.quiet_pure _
  case watch => exact Act.quiet_modify fun _ => State.patrolWatch_service _ _ _

/-! ### The attach walk -/

theorem walkAccount_quiet (n : Nat) : (walkAccount n).Quiet := by
  have faulty (ns : List Notice) : Act.Quiet (do reportNotices ns; pure 1) :=
    Act.quiet_bind (reportNotices_quiet ns) fun _ => Act.quiet_pure _
  refine Act.quiet_bind (readUncached_quiet n) fun f => Act.quiet_get_bind fun s => ?_
  cases f with
  | corrupt => exact faulty _
  | malformed => exact faulty _
  | record a =>
    refine Act.quiet_ite (Act.quiet_pure _) (Act.quiet_bind (Act.quiet_modify fun _ => rfl) fun _ => ?_)
    cases a.zone with
    | none => exact Act.quiet_pure _
    | some z =>
      refine Act.quiet_get_bind fun s => Act.quiet_ite ?_ (faulty _)
      exact Act.quiet_bind (Act.quiet_modify fun _ => by rw [State.watchAccount_service]; rfl) fun _ => Act.quiet_pure _

theorem walkCells_quiet : walkCells.Quiet := by
  refine Act.quiet_get_bind fun _ => Act.quiet_sumOver fun k => Act.quiet_sumOver fun i => ?_
  refine Act.quiet_get_bind fun s => Act.quiet_bind (regionRead_quiet _ _) fun w0 => Act.quiet_ite ?_ (Act.quiet_pure _)
  refine Act.quiet_bind (regionRead_quiet _ _) fun w1 => Act.quiet_bind (regionWrite_quiet _ _) fun _ =>
    Act.quiet_bind (regionWrite_quiet _ _) fun _ => Act.quiet_bind (regionWriteWhole_quiet _ _) fun _ => ?_
  exact Act.quiet_ite (Act.quiet_bind (Act.quiet_modify fun _ => State.raiseCause_service _ _) fun _ => Act.quiet_pure _)
    (Act.quiet_pure _)

theorem readEntries_quiet (zs : List (Fin 64)) : ∀ v, (readEntries zs v).Quiet := by
  induction zs with
  | nil => exact fun _ => Act.quiet_pure _
  | cons z zs ih => exact fun v => Act.quiet_get_bind fun _ => Act.quiet_bind (regionRead_quiet _ _) fun _ => ih _

/-! ### What the states of the engine ask of the service -/

/-- `ServiceSound` but for the engine and the hold lines, which a step may leave for its end. -/
structure Steady (s : State) : Prop where
  state : s.engineState ≠ .attaching
  clock : s.clock ≠ .unset → s.engineState = .running
  due : s.publicationDue = true → s.clock ≠ .unset
  scan : s.scanRunning = true → s.engineState = .running
  eligible : ∀ k : ListNo, s.lists[k].eligible = true → s.engineState = .running
  stop : s.stopping = true → s.engineState = .running
  idle : s.engineState = .idle → s.prog = none
  region : s.engineState = .running → RegionValid s

/-- What a RUNNING part keeps all through a step. -/
structure Serving (s : State) : Prop where
  running : s.engineState = .running
  due : s.publicationDue = true → s.clock ≠ .unset
  region : RegionValid s

/-- What an attach keeps until its end: nothing of a part in service is on yet (R161, R169, R170). -/
structure Attaching (s : State) : Prop where
  state : s.engineState = .attaching
  engine : s.engine = .free
  clock : s.clock = .unset
  due : s.publicationDue = false
  scan : s.scanRunning = false
  eligible : ∀ k : ListNo, s.lists[k].eligible = false
  stop : s.stopping = false
  prog : s.prog = none

/-- The clock is set exactly while it is not UNSET (R121). -/
theorem State.clockSet_iff (s : State) : s.clockSet = true ↔ s.clock ≠ .unset := by
  unfold State.clockSet
  cases s.clock <;> simp

/-- Equal services, field by field. -/
theorem State.service_eq {s t : State} (h : t.service = s.service) :
    (t.engine = s.engine ∧ t.engineState = s.engineState ∧ t.clock = s.clock ∧ t.publicationDue = s.publicationDue)
      ∧ (t.scanRunning = s.scanRunning ∧ t.lists = s.lists ∧ t.stopping = s.stopping)
      ∧ t.prog = s.prog ∧ t.layout = s.layout ∧ t.capacity = s.capacity := by
  simp only [State.service, Service.mk.injEq] at h
  tauto

/-- A valid region depends on the layout, the capacity of the log, the indices and the cell in flight alone. -/
theorem RegionValid.of_eq {s t : State} (h : RegionValid s) (layout : t.layout = s.layout) (capacity : t.capacity = s.capacity)
    (next : ∀ k : ListNo, t.lists[k].next < s.layout.cellsPerList)
    (flight : ∀ p, t.prog = some p → p.cell.index < s.layout.cellsPerList) : RegionValid t where
  apart := by unfold State.areas; rw [layout, capacity]; exact h.apart
  tableLow := by rw [layout]; exact h.tableLow
  tableHigh := by rw [layout]; exact h.tableHigh
  cells := by rw [layout]; exact h.cells
  log := by rw [capacity]; exact h.log
  next := by rw [layout]; exact next
  flight := by rw [layout]; exact flight

theorem RegionValid.of_service {s t : State} (h : RegionValid s) (e : t.service = s.service) : RegionValid t := by
  obtain ⟨-, ⟨-, lists, -⟩, prog, layout, capacity⟩ := State.service_eq e
  exact h.of_eq layout capacity (by rw [lists]; exact h.next) (by rw [prog]; exact h.flight)

theorem Serving.of_service {s t : State} (h : Serving s) (e : t.service = s.service) : Serving t := by
  obtain ⟨⟨-, state, clock, due⟩, -⟩ := State.service_eq e
  exact ⟨by rw [state]; exact h.running, by rw [due, clock]; exact h.due, h.region.of_service e⟩

theorem Steady.of_service {s t : State} (h : Steady s) (e : t.service = s.service) : Steady t := by
  obtain ⟨⟨-, state, clock, due⟩, ⟨scan, lists, stop⟩, prog, -, -⟩ := State.service_eq e
  exact
    { state := by rw [state]; exact h.state
      clock := by rw [clock, state]; exact h.clock
      due := by rw [due, clock]; exact h.due
      scan := by rw [scan, state]; exact h.scan
      eligible := by rw [lists, state]; exact h.eligible
      stop := by rw [stop, state]; exact h.stop
      idle := by rw [state, prog]; exact h.idle
      region := fun r => (h.region (by rw [← state]; exact r)).of_service e }

theorem Attaching.of_service {s t : State} (h : Attaching s) (e : t.service = s.service) : Attaching t := by
  obtain ⟨⟨engine, state, clock, due⟩, ⟨scan, lists, stop⟩, prog, -, -⟩ := State.service_eq e
  exact ⟨by rw [state, h.state], by rw [engine, h.engine], by rw [clock, h.clock], by rw [due, h.due], by rw [scan, h.scan],
    by rw [lists]; exact h.eligible, by rw [stop, h.stop], by rw [prog, h.prog]⟩

/-- While RUNNING, only the publication due and the region are asked for. -/
theorem Serving.steady {s : State} (h : Serving s) : Steady s where
  state := by rw [h.running]; decide
  clock _ := h.running
  due := h.due
  scan _ := h.running
  eligible _ _ := h.running
  stop _ := h.running
  idle i := absurd (h.running.symm.trans i) (by decide)
  region _ := h.region

theorem Steady.serving {s : State} (h : Steady s) (r : s.engineState = .running) : Serving s := ⟨r, h.due, h.region r⟩

theorem ServiceSound.steady {s : State} (h : ServiceSound s) : Steady s where
  state := h.rest.state
  clock c := h.rest.clock ((State.clockSet_iff s).mpr c)
  due d := (State.clockSet_iff s).mp (h.rest.due d)
  scan := h.rest.scan
  eligible := h.rest.eligible
  stop := h.rest.stop
  idle := h.idle
  region := h.region

/-- A steady part with a FREE engine, once its lines are driven, is sound (R9, R157). -/
theorem Steady.driven {s : State} (h : Steady s) (free : s.engine = .free) : ServiceSound s.drive where
  rest :=
    { free := free
      state := h.state
      clock := fun c => h.clock ((State.clockSet_iff s).mp c)
      due := fun d => (State.clockSet_iff s).mpr (h.due d)
      scan := h.scan
      eligible := h.eligible
      stop := h.stop
      lines := fun i => by
        show (Vector.ofFn fun i : Fin 8 => s.lineHeld (i.val + 1))[i.val] = s.lineHeld (i.val + 1)
        rw [Vector.getElem_ofFn] }
  idle := h.idle
  region r := (h.region r).of_service rfl

/-- Entry to FAULTED leaves a part steady with a FREE engine, whatever it found (R174). -/
theorem State.enterFaulted_sound (s : State) : ServiceSound s.enterFaulted.drive := by
  have e := State.raiseCause_service { s with
    engineState := .faulted, clock := .unset, publicationDue := false, scanRunning := false, lists := clearEligible s.lists
    engine := .free, stopping := false } .fault
  have steady : Steady { s with
      engineState := .faulted, clock := .unset, publicationDue := false, scanRunning := false, lists := clearEligible s.lists
      engine := .free, stopping := false } :=
    { state := by simp
      clock := fun c => absurd rfl c
      due := fun d => by simp at d
      scan := fun d => by simp at d
      eligible := fun k c => by
        replace c : (clearEligible s.lists)[k.val].eligible = true := c
        simp [clearEligible] at c
      stop := fun d => by simp at d
      idle := fun d => by simp at d
      region := fun d => by simp at d }
  exact (steady.of_service e).driven (State.service_eq e).1.1

/-- A command keeps the service sound if its work, where it ends normally, leaves a steady part with a FREE engine. -/
theorem conclude_sound {a : Act Unit} {s t : State} (h : conclude a s = .next t)
    (ends : ∀ u, a s = .ok () u → Steady u ∧ u.engine = .free) : ServiceSound t := by
  unfold conclude State.after at h
  cases r : a s with
  | ok x u =>
    rw [r] at h
    cases h
    obtain ⟨steady, free⟩ := ends u r
    exact steady.driven free
  | error e u =>
    rw [r] at h
    cases h
    exact u.enterFaulted_sound

/-- Quiet work leaves a steady part with a FREE engine so. -/
theorem Act.Quiet.ends {a : Act Unit} (q : a.Quiet) {s u : State} (h : Steady s ∧ s.engine = .free) (r : a s = .ok () u) :
    Steady u ∧ u.engine = .free :=
  have e := q s () u r
  ⟨h.1.of_service e, by rw [(State.service_eq e).1.1, h.2]⟩

/-! ### Publications and the clock -/

/-- A publication leaves the service as it was but for what is due (R66). -/
theorem publish_service {s t : State} (h : publish s = .ok () t) : t.service = { s with publicationDue := false }.service := by
  obtain ⟨_, u, hu, h⟩ := Act.bind_eq_ok.mp h
  have q : Act.Quiet (do
      let s ← get
      writeZonePage s.zones s.published
      regionWrite (s.layout.controlPage + 12) s.controlWords) :=
    Act.quiet_get_bind fun _ => Act.quiet_bind (writeZonePage_quiet _ _) fun _ => regionWrite_quiet _ _
  rw [q u () t h, ← Act.modify_eq_ok.mp hu]
  rfl

theorem Serving.publish {s t : State} (h : Serving s) (r : Machine.publish s = .ok () t) :
    Serving t ∧ t.engine = s.engine ∧ t.publicationDue = false ∧ t.clock = s.clock ∧ t.layout = s.layout ∧ t.prog = s.prog := by
  have e := publish_service r
  have g : Serving { s with publicationDue := false } := ⟨h.running, fun d => absurd d (by simp), h.region.of_eq rfl rfl
    h.region.next h.region.flight⟩
  obtain ⟨⟨engine, -, clock, due⟩, -, prog, layout, -⟩ := State.service_eq e
  exact ⟨g.of_service e, engine, due, clock, layout, prog⟩

section Serves

variable {α β : Type}

/-- Work that a RUNNING part does without losing what it rests on, and without touching the engine. -/
def Act.Serves (a : Act α) : Prop := ∀ s x t, Serving s → a s = .ok x t → Serving t ∧ t.engine = s.engine

theorem Act.Quiet.serves {a : Act α} (q : a.Quiet) : a.Serves := by
  intro s x t h r
  have e := q s x t r
  exact ⟨h.of_service e, (State.service_eq e).1.1⟩

theorem Act.serves_pure (x : α) : Act.Serves (pure x) := (Act.quiet_pure x).serves

theorem Act.serves_bind {a : Act α} {f : α → Act β} (ha : a.Serves) (hf : ∀ x, Act.Serves (f x)) : Act.Serves (a >>= f) := by
  intro s y u h r
  obtain ⟨x, t, r1, r2⟩ := Act.bind_eq_ok.mp r
  obtain ⟨ht, et⟩ := ha s x t h r1
  obtain ⟨hu, eu⟩ := hf x t y u ht r2
  exact ⟨hu, eu.trans et⟩

theorem Act.serves_get_bind {f : State → Act β} (hf : ∀ s, Act.Serves (f s)) : Act.Serves (get >>= f) :=
  fun s => hf s s

theorem Act.serves_modify {f : State → State} (hf : ∀ s, Serving s → Serving (f s) ∧ (f s).engine = s.engine) :
    Act.Serves (modify f) := by
  intro s _ t h r
  rw [← Act.modify_eq_ok.mp r]
  exact hf s h

theorem Act.serves_ite {c : Prop} [Decidable c] {a b : Act α} (ha : a.Serves) (hb : b.Serves) :
    Act.Serves (if c then a else b) := by
  split
  · exact ha
  · exact hb

theorem Act.serves_forEach {xs : List α} {f : α → Act Unit} (h : ∀ x, Act.Serves (f x)) : Act.Serves (forEach xs f) := by
  induction xs with
  | nil => exact Act.serves_pure _
  | cons x xs ih => exact Act.serves_bind (h x) fun _ => ih

theorem Act.serves_repeatAct {a : Act Unit} (h : a.Serves) (n : Nat) : Act.Serves (repeatAct n a) := by
  induction n with
  | zero => exact Act.serves_pure _
  | succ n ih => exact Act.serves_bind h fun _ => ih

end Serves

theorem publish_serves : publish.Serves := by
  intro s x t h r
  obtain ⟨ht, e, -⟩ := h.publish r
  exact ⟨ht, e⟩

theorem finishPublication_serves : finishPublication.Serves :=
  Act.serves_get_bind fun _ => Act.serves_ite publish_serves (Act.serves_pure _)

/-- A RUNNING part whose clock is set to a plant minute, and whose service is else as it was. -/
theorem Serving.clockHeld {s t : State} (h : Serving s) (m : Word) (stall : Fin 16)
    (e : t.service = { s with clock := .held m stall }.service) : Serving t ∧ t.engine = s.engine := by
  have g : Serving { s with clock := .held m stall } :=
    ⟨h.running, fun _ => by simp, h.region.of_eq rfl rfl h.region.next h.region.flight⟩
  exact ⟨g.of_service e, (State.service_eq e).1.1⟩

theorem Act.serves_setClock (m : Word) (stall : Fin 16) : Act.Serves (modify fun t => { t with clock := .held m stall }) :=
  Act.serves_modify fun _ h => h.clockHeld m stall rfl

/-- The stages of a boundary after its advance are quiet (R123). -/
theorem boundaryStages_quiet (ns : List Notice) (zones : Vector Zone 64) : Act.Quiet (do
    reportNotices ns
    modify fun t => t.examine zones
    modify State.startBatch) :=
  Act.quiet_bind (reportNotices_quiet _) fun _ => Act.quiet_bind (Act.quiet_modify fun _ => rfl) fun _ => Act.quiet_modify fun _ => rfl

theorem State.advanceMinute_service (s : State) (m : Word) (stall : Fin 16) :
    (s.advanceMinute m stall).service = { s with clock := .held (m + 1) stall }.service := by
  unfold State.service
  rfl

/-- A boundary moves a clock that is set to the next minute, and does nothing else to the service (R123). -/
theorem boundary_service {s t : State} (r : boundary s = .ok () t) :
    t.service = (match s.clock with
      | .unset => s
      | .held m stall => { s with clock := .held (m + 1) stall }).service := by
  unfold boundary at r
  rw [Act.get_bind] at r
  cases c : s.clock with
  | unset =>
    rw [c] at r
    rw [← (Act.pure_eq_ok.mp r).2]
  | held m stall =>
    rw [c] at r
    simp only at r
    rw [Act.set_bind] at r
    have e := boundaryStages_quiet _ _ _ _ _ r
    rw [e, State.advanceMinute_service]

theorem boundary_serves : boundary.Serves := by
  intro s x t h r
  have e := boundary_service r
  cases c : s.clock with
  | unset => rw [c] at e; exact ⟨h.of_service e, (State.service_eq e).1.1⟩
  | held m stall => rw [c] at e; exact h.clockHeld _ _ e

theorem gapAccrual_serves (start value : Word) (g cleared : Nat) : (gapAccrual start value g cleared).Serves := by
  unfold gapAccrual
  refine Act.serves_get_bind fun s => Act.serves_bind (Act.serves_modify fun t h => ?_) fun _ => ?_
  · exact h.clockHeld value 0 (by unfold State.service; rfl)
  · refine Act.serves_bind (reportNotices_quiet _).serves fun _ => Act.serves_bind (Act.Quiet.serves ?_) fun _ => ?_
    · exact Act.quiet_modify fun _ => rfl
    · exact Act.serves_bind (reportNotices_quiet _).serves fun _ => publish_serves

theorem setFromUnset_serves (v : Word) : (setFromUnset v).Serves := by
  refine Act.serves_get_bind fun s => Act.serves_ite ?_ (Act.serves_ite (Act.serves_pure _) ?_)
  · exact Act.serves_bind (Act.serves_setClock v 0) fun _ => Act.serves_bind publish_serves fun _ => Act.serves_pure _
  · exact Act.serves_bind (gapAccrual_serves _ _ _ _) fun _ => Act.serves_pure _

theorem stepForward_serves (m : Word) (stall : Fin 16) (k : Nat) : (stepForward m stall k).Serves :=
  Act.serves_bind (Act.serves_setClock m _) fun _ => Act.serves_ite
    (Act.serves_bind writeClockWords_quiet.serves fun _ => Act.serves_pure _)
    (Act.serves_bind (Act.serves_repeatAct boundary_serves _) fun _ => Act.serves_bind publish_serves fun _ => Act.serves_pure _)

theorem stepBack_serves (m : Word) (stall : Fin 16) (k : Nat) : (stepBack m stall k).Serves :=
  Act.serves_bind (Act.serves_setClock m _) fun _ => Act.serves_bind writeClockWords_quiet.serves fun _ => Act.serves_pure _

theorem correct_serves (m : Word) (stall : Fin 16) (v : Word) : (correct m stall v).Serves := by
  unfold correct
  simp only
  split
  · exact Act.serves_pure _
  · split
    · exact stepForward_serves m stall _
    · split
      · exact Act.serves_bind (gapAccrual_serves _ _ _ _) fun _ => Act.serves_pure _
      · split
        · exact stepBack_serves m stall _
        · exact Act.serves_pure _

theorem clocksetWork_serves (c : TakenCell) : (clocksetWork c).Serves := by
  have applies (v : Word) : (applyClock v).Serves := by
    refine Act.serves_bind finishPublication_serves fun _ => Act.serves_get_bind fun s => ?_
    cases s.clock with
    | unset => exact setFromUnset_serves v
    | held m stall => exact correct_serves m stall v
  exact Act.serves_get_bind fun _ => Act.serves_ite (Act.serves_pure _)
    (Act.serves_bind (applies _) fun _ => Act.serves_get_bind fun _ => Act.serves_pure _)

/-! ### The intake -/

/-- A list made eligible or not, while RUNNING (R162). -/
theorem Serving.setEligible {s : State} (h : Serving s) (k : ListNo) (e : Bool) : Serving (s.setEligible k e) where
  running := h.running
  due := h.due
  region := by
    refine h.region.of_eq rfl rfl (fun j => ?_) h.region.flight
    show (s.lists.set k { s.lists[k] with eligible := e })[j.val].next < _
    rw [Vector.getElem_set]
    split
    · exact h.region.next k
    · exact h.region.next j

theorem inspect_serves (k : ListNo) : (inspect k).Serves :=
  Act.serves_get_bind fun _ => Act.serves_ite (Act.serves_pure _)
    (Act.serves_bind (regionRead_quiet _ _).serves fun _ => Act.serves_modify fun _ h => ⟨h.setEligible k _, rfl⟩)

/-- The number of cells of a list is above 0 in a valid region. -/
theorem RegionValid.cells_pos {s : State} (h : RegionValid s) : 0 < s.layout.cellsPerList := by
  have := h.cells
  simp only [cellCounts, List.mem_cons, List.not_mem_nil, or_false] at this
  omega

/-- A take leaves the region valid with the index of the cell it answers within its list (R164). -/
theorem takeCell_serving {s t : State} {k : ListNo} {c : TakenCell} (h : Serving s) (r : takeCell k s = .ok c t) :
    Serving t ∧ c.index < t.layout.cellsPerList := by
  unfold takeCell at r
  rw [Act.get_bind] at r
  obtain ⟨ws, s1, r1, r⟩ := Act.bind_eq_ok.mp r
  obtain ⟨_, s2, r2, r⟩ := Act.bind_eq_ok.mp r
  have e := (regionWrite_quiet _ _ _ _ _ r2).trans (regionRead_quiet _ _ _ _ _ r1)
  rw [Act.modify_bind, Act.get_bind] at r
  obtain ⟨_, u, r4, r⟩ := Act.bind_eq_ok.mp r
  have e' := regionWrite_quiet _ _ _ _ _ r4
  obtain ⟨rfl, rfl⟩ := Act.pure_eq_ok.mp r
  have g := h.of_service e
  have layout := (State.service_eq e).2.2.2.1
  have taken : Serving { s2.advanceList k with engine := .cell ⟨k, s.lists[k].next, ws⟩ } :=
    { running := g.running
      due := g.due
      region := by
        refine g.region.of_eq rfl rfl (fun j => ?_) g.region.flight
        show (s2.lists.set k ⟨(s2.lists[k].next + 1) % s2.layout.cellsPerList, false⟩)[j.val].next < _
        rw [Vector.getElem_set]
        split
        · exact Nat.mod_lt _ g.region.cells_pos
        · exact g.region.next j }
  refine ⟨taken.of_service e', ?_⟩
  rw [(State.service_eq e').2.2.2.1]
  show s.lists[k].next < s2.layout.cellsPerList
  rw [layout]
  exact h.region.next k

theorem freed_serving {s t : State} (h : Serving s) (e : t.service = { s with engine := .free }.service) :
    Serving t ∧ t.engine = .free := by
  have g : Serving { s with engine := .free } := ⟨h.running, h.due, h.region.of_eq rfl rfl h.region.next h.region.flight⟩
  exact ⟨g.of_service e, (State.service_eq e).1.1⟩

/-- A completion frees the engine (R166). -/
theorem completeCell_serving {s t : State} {c : TakenCell} {a : Answer} (h : Serving s) (r : completeCell c a s = .ok () t) :
    Serving t ∧ t.engine = .free := by
  unfold completeCell at r
  rw [Act.get_bind] at r
  obtain ⟨_, s1, r1, r⟩ := Act.bind_eq_ok.mp r
  obtain ⟨_, s2, r2, r⟩ := Act.bind_eq_ok.mp r
  obtain ⟨_, s3, r3, r⟩ := Act.bind_eq_ok.mp r
  have e := ((regionWriteWhole_quiet _ _ _ _ _ r3).trans (regionWrite_quiet _ _ _ _ _ r2)).trans
    (regionWrite_quiet _ _ _ _ _ r1)
  rw [Act.modify_bind] at r
  obtain ⟨g, free⟩ := freed_serving (h.of_service e) (t := { s3 with engine := .free }) rfl
  have raises : Act.Serves (do
      if c.notify then modify fun t => t.raiseCause .cellDone
      inspect c.list) :=
    Act.serves_ite
      (Act.serves_bind (Act.quiet_modify fun _ => State.raiseCause_service _ _).serves fun _ => inspect_serves _)
      (inspect_serves _)
  obtain ⟨ht, et⟩ := raises _ _ _ g r
  exact ⟨ht, et.trans free⟩

/-- What the work of a cell keeps: the part as a RUNNING one rests on it. The engine is freed by the completion. -/
def KeepsServing (work : TakenCell → Act (Option Answer)) : Prop :=
  ∀ c s x t, Serving s → c.index < s.layout.cellsPerList → work c s = .ok x t → Serving t

theorem keepsServing_of_serves {work : TakenCell → Act (Option Answer)} (h : ∀ c, (work c).Serves) : KeepsServing work :=
  fun c s x t hs _ r => (h c s x t hs r).1

/-- A CLASSWRITE holds a cell of a list (R78). -/
theorem classwriteWork_keeps : KeepsServing classwriteWork := by
  intro c s x t h index r
  unfold classwriteWork at r
  rw [Act.get_bind] at r
  split at r
  · rw [← (Act.pure_eq_ok.mp r).2]; exact h
  · split at r
    · rw [← (Act.pure_eq_ok.mp r).2]; exact h
    · obtain ⟨image, u, r1, r⟩ := Act.bind_eq_ok.mp r
      have e := regionRead_quiet _ _ _ _ _ r1
      have g := h.of_service e
      rw [Act.get_bind] at r
      revert r
      cases u.imageRefusal (Fin.ofNat 8 c.classAsked) image with
      | some result => intro r; rw [← (Act.pure_eq_ok.mp r).2]; exact g
      | none =>
        intro r
        simp only at r
        rw [Act.modify_bind] at r
        rw [← (Act.pure_eq_ok.mp r).2]
        refine ⟨g.running, g.due, g.region.of_eq rfl rfl g.region.next fun p hp => ?_⟩
        obtain rfl : _ = p := Option.some.inj hp
        rw [(State.service_eq e).2.2.2.1]
        exact index

/-- The command of a kind of cell leaves a steady part with a FREE engine (R9, R164, R166). -/
theorem serveCell_ends {kinds : Nat → Bool} {work : TakenCell → Act (Option Answer)} (hw : KeepsServing work) {s t : State}
    (h : Steady s ∧ s.engine = .free) (r : serveCell kinds work s = .ok () t) : Steady t ∧ t.engine = .free := by
  have idle {u : State} (r : (pure () : Act Unit) s = .ok () u) : Steady u ∧ u.engine = .free := by
    rw [← (Act.pure_eq_ok.mp r).2]; exact h
  unfold serveCell at r
  rw [Act.get_bind] at r
  split at r
  · next may =>
    cases chosen : s.chosenList with
    | none => rw [chosen] at r; exact idle r
    | some k =>
      rw [chosen] at r
      simp only at r
      split at r
      · have running : s.engineState = .running := by
          simp only [State.mayTakeCell, State.mayWork, Bool.and_eq_true, decide_eq_true_eq] at may
          exact may.1.1.1.1.1
        obtain ⟨c, u, r1, r⟩ := Act.bind_eq_ok.mp r
        obtain ⟨hu, index⟩ := takeCell_serving (h.1.serving running) r1
        unfold serveTaken at r
        rw [Act.get_bind] at r
        have done {v : State} {a : Answer} (hv : Serving v) (r : completeCell c a v = .ok () t) :
            Steady t ∧ t.engine = .free := by
          obtain ⟨ht, free⟩ := completeCell_serving hv r
          exact ⟨ht.steady, free⟩
        revert r
        cases u.intakeRefusal c with
        | some result => exact fun r => done hu r
        | none =>
          intro r
          obtain ⟨answer, v, r2, r⟩ := Act.bind_eq_ok.mp r
          have hv := hw c u answer v hu index r2
          cases answer with
          | some a => exact done hv r
          | none =>
            obtain ⟨ht, free⟩ := freed_serving hv (t := t) (by rw [← Act.modify_eq_ok.mp r])
            exact ⟨ht.steady, free⟩
      · exact idle r
  · exact idle r

/-! ### Hand-overs and the patrol -/

/-- Work that ends with the engine FREE and the rest of the service as it was (R9). -/
def Act.Frees (a : Act Unit) : Prop := ∀ s u t, a s = .ok u t → t.service = { s.service with engine := .free }

theorem freeEngine_frees : freeEngine.Frees := by
  intro s u t r
  rw [← Act.modify_eq_ok.mp r]
  rfl

theorem Act.Quiet.frees {α : Type} {a : Act α} (q : a.Quiet) {f : α → Act Unit} (h : ∀ x, (f x).Frees) :
    Act.Frees (a >>= f) := by
  intro s u t r
  obtain ⟨x, v, r1, r2⟩ := Act.bind_eq_ok.mp r
  rw [h x _ _ _ r2, q _ _ _ r1]

theorem Act.frees_get_bind {f : State → Act Unit} (h : ∀ s, (f s).Frees) : Act.Frees (get >>= f) := fun s => h s s

theorem Act.frees_ite {c : Prop} [Decidable c] {a b : Act Unit} (ha : a.Frees) (hb : b.Frees) :
    Act.Frees (if c then a else b) := by
  split
  · exact ha
  · exact hb

/-- Taking up internal work changes the engine alone (R9). -/
theorem Act.frees_busy {f : State → State} (hf : ∀ s, ∃ e, (f s).service = { s.service with engine := e })
    {a : Unit → Act Unit} (ha : (a ()).Frees) : Act.Frees (modify f >>= a) := by
  intro s u t r
  rw [Act.modify_bind] at r
  obtain ⟨e, he⟩ := hf s
  rw [ha _ _ _ r, he]

theorem Act.Frees.ends {a : Act Unit} (q : a.Frees) {s t : State} (h : Steady s) (r : a s = .ok () t) :
    Steady t ∧ t.engine = .free := by
  have g : Steady { s with engine := .free } := ⟨h.state, h.clock, h.due, h.scan, h.eligible, h.stop, h.idle,
    fun r => (h.region r).of_eq rfl rfl (h.region r).next (h.region r).flight⟩
  have e : t.service = { s with engine := .free }.service := q _ _ _ r
  exact ⟨g.of_service e, (State.service_eq e).1.1⟩

theorem serveWarning_frees (e : WatchEntry) : (serveWarning e).Frees := by
  unfold serveWarning
  refine Act.frees_busy (fun s => ?_) ?_
  · exact ⟨_, rfl⟩
  refine (fetchRecord_quiet _).frees fun f => ?_
  cases f with
  | corrupt => exact (dropFaulty_quiet e 1).frees fun _ => freeEngine_frees
  | malformed => exact (dropFaulty_quiet e 2).frees fun _ => freeEngine_frees
  | record a =>
    exact Act.frees_ite ((Act.quiet_modify fun _ => State.removeEntry_service _ _).frees fun _ => freeEngine_frees)
      ((giveWarning_quiet e a).frees fun _ => freeEngine_frees)

theorem serveExpiry_frees (e : WatchEntry) : (serveExpiry e).Frees := by
  unfold serveExpiry
  refine Act.frees_busy (fun s => ?_) ?_
  · exact ⟨_, rfl⟩
  refine (fetchRecord_quiet _).frees fun f => ?_
  cases f with
  | corrupt => exact (expireFaulty_quiet e 1).frees fun _ => freeEngine_frees
  | malformed => exact (expireFaulty_quiet e 2).frees fun _ => freeEngine_frees
  | record a =>
    exact Act.frees_ite ((Act.quiet_modify fun _ => State.removeEntry_service _ _).frees fun _ => freeEngine_frees)
      ((giveExpiry_quiet e a).frees fun _ => freeEngine_frees)

theorem servePatrol_frees (n : Nat) : (servePatrol n).Frees := by
  unfold servePatrol
  refine Act.frees_busy (fun s => ?_) ?_
  · exact ⟨_, rfl⟩
  refine (fetchRecord_quiet _).frees fun f => Act.frees_get_bind fun s => ?_
  cases f with
  | corrupt => exact (reportNotices_quiet _).frees fun _ => freeEngine_frees
  | malformed => exact (reportNotices_quiet _).frees fun _ => freeEngine_frees
  | record a =>
    simp only
    cases a.zone with
    | none => exact freeEngine_frees
    | some z => exact Act.frees_ite ((patrolSettle_quiet n z a).frees fun _ => freeEngine_frees) freeEngine_frees

/-! ### Attachment -/

theorem layoutValid_facts {b : LayoutBlock} (h : b.valid = true) :
    (1 ≤ b.layout.tableSize ∧ b.layout.tableSize ≤ 32768) ∧ b.layout.cellsPerList ∈ cellCounts ∧ b.capacity ∈ logCapacities
      ∧ allApart b.areas = true := by
  simp only [LayoutBlock.valid, Bool.and_eq_true, decide_eq_true_eq] at h
  tauto

/-- An attach over a valid layout block, once the capacity and the indices of the lists are set, has a valid region (R170). -/
theorem RegionValid.of_block {s : State} {b : LayoutBlock} (h : b.valid = true) (layout : s.layout = b.layout)
    (capacity : s.capacity = b.capacity) (next : ∀ k : ListNo, s.lists[k].next < s.layout.cellsPerList)
    (prog : s.prog = none) : RegionValid s := by
  obtain ⟨⟨low, high⟩, cells, log, apart⟩ := layoutValid_facts h
  refine ⟨?_, by rw [layout]; exact low, by rw [layout]; exact high, by rw [layout]; exact cells, by rw [capacity]; exact log,
    next, fun p e => ?_⟩
  · unfold State.areas
    rw [layout, capacity]
    exact apart
  · rw [prog] at e
    cases e

theorem freshLists_next (f : Fin 8 → Nat) (k : ListNo) : (freshLists f)[k] = ⟨f k, false⟩ := by
  show (Vector.ofFn _)[k.val] = _
  rw [Vector.getElem_ofFn]

/-- The lists an attach sets up, over a layout held from a valid block. -/
theorem Attaching.withLists {s t : State} (h : Attaching s) {b : LayoutBlock} (valid : b.valid = true)
    (layout : s.layout = b.layout) {f : Fin 8 → Nat} (hf : ∀ k, f k < b.layout.cellsPerList)
    (e : t.service = { s with capacity := b.capacity, lists := freshLists f }.service) : Attaching t ∧ RegionValid t := by
  have g : Attaching { s with capacity := b.capacity, lists := freshLists f } :=
    ⟨h.state, h.engine, h.clock, h.due, h.scan, fun k => by
      show (freshLists f)[k].eligible = false
      rw [freshLists_next], h.stop, h.prog⟩
  refine ⟨g.of_service e, RegionValid.of_service ?_ e⟩
  refine .of_block valid layout rfl (fun k => ?_) h.prog
  show (freshLists f)[k].next < s.layout.cellsPerList
  rw [freshLists_next, layout]
  exact hf k

/-- The number of cells of a list is above 0 in a valid layout block. -/
theorem layoutValid_cells_pos {b : LayoutBlock} (h : b.valid = true) : 0 < b.layout.cellsPerList := by
  have := (layoutValid_facts h).2.1
  simp only [cellCounts, List.mem_cons, List.not_mem_nil, or_false] at this
  omega

/-- FRESH set: the indices are 0 (R161). -/
theorem attachFresh_region {s t : State} {b : LayoutBlock} {flag : Word} (h : Attaching s) (valid : b.valid = true)
    (layout : s.layout = b.layout) (r : attachFresh b.capacity flag s = .ok () t) : Attaching t ∧ RegionValid t := by
  unfold attachFresh at r
  rw [Act.modify_bind] at r
  have quiet : Act.Quiet (do
      let s ← get
      writeZonePage s.zones s.published
      let s ← get
      regionWrite s.layout.controlPage s.freshControlPage
      regionWrite 32 [freshCleared flag]) :=
    Act.quiet_get_bind fun _ => Act.quiet_bind (writeZonePage_quiet _ _) fun _ => Act.quiet_get_bind fun _ =>
      Act.quiet_bind (regionWrite_quiet _ _) fun _ => regionWrite_quiet _ _
  refine h.withLists valid layout (f := fun _ => 0) (fun _ => layoutValid_cells_pos valid) ?_
  rw [quiet _ _ _ r]
  unfold State.service
  rfl

/-- A part that an attach has left IDLE, and that nothing else has touched. -/
theorem Attaching.failed {s : State} (h : Attaching s) (code : AttachFail) :
    Steady (s.failAttach code) ∧ (s.failAttach code).engine = .free := by
  have g : Steady { s with
      attachFail := code, zones := Vector.replicate 64 Zone.undefined, published := noWord, engineState := .idle } :=
    { state := by simp
      clock := fun c => absurd h.clock c
      due := fun d => absurd (h.due.symm.trans d) (by decide)
      scan := fun d => absurd (h.scan.symm.trans d) (by decide)
      eligible := fun k d => absurd ((h.eligible k).symm.trans d) (by decide)
      stop := fun d => absurd (h.stop.symm.trans d) (by decide)
      idle := fun _ => h.prog
      region := fun d => by simp at d }
  have e := State.raiseCause_service { s with
      attachFail := code, zones := Vector.replicate 64 Zone.undefined, published := noWord, engineState := .idle } .attachEnd
  exact ⟨g.of_service e, (State.service_eq e).1.1.trans h.engine⟩

/-- FRESH clear: the indices are those of the control page, within their lists (R161); a page that fails ends the attach. -/
theorem attachLoaded_region {s t : State} {b : LayoutBlock} {passed : Bool} (h : Attaching s) (valid : b.valid = true)
    (layout : s.layout = b.layout) (r : attachLoaded b.capacity s = .ok passed t) :
    if passed then Attaching t ∧ RegionValid t else Steady t ∧ t.engine = .free := by
  unfold attachLoaded at r
  rw [Act.get_bind] at r
  obtain ⟨header, s1, r1, r⟩ := Act.bind_eq_ok.mp r
  obtain ⟨entries, s2, r2, r⟩ := Act.bind_eq_ok.mp r
  have e := (readEntries_quiet _ _ _ _ _ r2).trans (regionRead_quiet _ _ _ _ _ r1)
  have g := h.of_service e
  cases page : zonesOfPage header entries with
  | none =>
    simp only [page] at r
    rw [Act.modify_bind] at r
    obtain ⟨rfl, rfl⟩ := Act.pure_eq_ok.mp r
    exact g.failed .zonePage
  | some zones =>
    simp only [page] at r
    rw [Act.modify_bind] at r
    obtain ⟨page, s3, r3, r⟩ := Act.bind_eq_ok.mp r
    have e3 := (regionRead_quiet _ _ _ _ _ r3).trans (show _ = s2.service from rfl)
    rw [Act.modify_bind] at r
    obtain ⟨rfl, rfl⟩ := Act.pure_eq_ok.mp r
    have l3 : s3.layout = b.layout := (State.service_eq (e3.trans e)).2.2.2.1.trans layout
    refine (g.of_service e3).withLists valid l3 (f := fun k => indexByte page k % s3.layout.cellsPerList) (fun k => ?_) rfl
    rw [l3]
    exact Nat.mod_lt _ (layoutValid_cells_pos valid)

/-- The walk and the end of an attach leave a steady RUNNING part (R172). -/
theorem finishAttach_ends {s t : State} {b : LayoutBlock} (h : Attaching s ∧ RegionValid s)
    (r : finishAttach b s = .ok () t) : Steady t ∧ t.engine = .free := by
  unfold finishAttach at r
  rw [Act.modify_bind] at r
  obtain ⟨faulty, s1, r1, r⟩ := Act.bind_eq_ok.mp r
  obtain ⟨abandoned, s2, r2, r⟩ := Act.bind_eq_ok.mp r
  unfold endAttach at r
  rw [Act.get_bind] at r
  obtain ⟨_, s3, r3, r⟩ := Act.bind_eq_ok.mp r
  have e0 : (s.setUp b).service = s.service := by
    have := h.1.clock
    simp only [State.service, State.setUp, State.emptyPool, this]
  have e := (((reportNotices_quiet _ _ _ _ r3).trans (walkCells_quiet _ _ _ r2)).trans
    (Act.quiet_sumOver walkAccount_quiet _ _ _ r1)).trans e0
  rw [Act.modify_bind, Act.get_bind] at r
  obtain ⟨_, s4, r4, r⟩ := Act.bind_eq_ok.mp r
  have e4 := regionWrite_quiet _ _ _ _ _ r4
  have a3 := h.1.of_service e
  have v3 := h.2.of_service e
  have g4 : Serving s4 := Serving.of_service (s := { s3 with engineState := .running })
    ⟨rfl, fun d => absurd (a3.due.symm.trans d) (by decide), v3.of_eq rfl rfl v3.next v3.flight⟩ e4
  have f4 : s4.engine = .free := (State.service_eq e4).1.1.trans a3.engine
  have e5 := (congrArg State.service (Act.modify_eq_ok.mp r)).symm.trans (State.raiseCause_service _ _)
  have g5 : Serving { s4 with scanRunning := true } :=
    ⟨g4.running, g4.due, g4.region.of_eq rfl rfl g4.region.next g4.region.flight⟩
  exact ⟨(g5.of_service e5).steady, (State.service_eq e5).1.1.trans f4⟩

/-- The command START (R169, R170). -/
theorem startCommand_ends {s t : State} (h : Steady s ∧ s.engine = .free) (r : startCommand s = .ok () t) :
    Steady t ∧ t.engine = .free := by
  unfold startCommand at r
  rw [Act.get_bind] at r
  split at r
  · next idle =>
    have off {p : Bool} (hp : p = true → s.engineState = .running) : p = false := by
      cases p with
      | false => rfl
      | true => exact absurd (idle.symm.trans (hp rfl)) (by decide)
    rw [Act.modify_bind] at r
    have a0 : Attaching { s.invalidateCache with engineState := .attaching, attachFail := .ok } :=
      { state := rfl
        engine := h.2
        clock := by
          by_contra c
          exact absurd (idle.symm.trans (h.1.clock c)) (by decide)
        due := off fun d => h.1.clock (h.1.due d)
        scan := off h.1.scan
        eligible := fun k => off (h.1.eligible k)
        stop := off h.1.stop
        prog := h.1.idle idle }
    unfold attach at r
    obtain ⟨w, s1, r1, r⟩ := Act.bind_eq_ok.mp r
    have a1 := a0.of_service (regionRead_quiet _ _ _ _ _ r1)
    split at r
    · next valid =>
      rw [Act.modify_bind] at r
      have a2 : Attaching { s1 with layout := (layoutBlockOf w).layout } :=
        ⟨a1.state, a1.engine, a1.clock, a1.due, a1.scan, a1.eligible, a1.stop, a1.prog⟩
      split at r
      · obtain ⟨_, s3, r3, r⟩ := Act.bind_eq_ok.mp r
        exact finishAttach_ends (attachFresh_region a2 valid rfl r3) r
      · obtain ⟨passed, s3, r3, r⟩ := Act.bind_eq_ok.mp r
        have g := attachLoaded_region a2 valid rfl r3
        cases passed with
        | true => exact finishAttach_ends g r
        | false => rw [← (Act.pure_eq_ok.mp r).2]; exact g
    · rw [← Act.modify_eq_ok.mp r]
      exact a1.failed .layout
  · rw [← (Act.pure_eq_ok.mp r).2]
    exact h

/-! ### Registers, timers and resets -/

theorem State.resetWith_steady (s : State) (causes : BitVec 3) : Steady (s.resetWith causes) where
  state := by simp [State.resetWith, State.reset]
  clock c := absurd rfl c
  due d := absurd d (by simp [State.resetWith, State.reset])
  scan d := absurd d (by simp [State.resetWith, State.reset])
  eligible k d := by
    replace d : (Vector.replicate 8 (⟨0, false⟩ : ListState))[k.val].eligible = true := d
    simp at d
  stop d := absurd d (by simp [State.resetWith, State.reset])
  idle _ := rfl
  region d := absurd d (by simp [State.resetWith, State.reset])

/-- What a reset leaves (R175). -/
theorem reset_ends {f : State → BitVec 3} {s t : State} (r : (modify fun t => t.resetWith (f t) : Act Unit) s = .ok () t) :
    Steady t ∧ t.engine = .free := by
  rw [← Act.modify_eq_ok.mp r]
  exact ⟨s.resetWith_steady _, rfl⟩

/-- The command STOP (R173). -/
theorem stopCommand_ends {s t : State} (h : Steady s ∧ s.engine = .free) (r : stopCommand s = .ok () t) :
    Steady t ∧ t.engine = .free := by
  rw [← Act.modify_eq_ok.mp r]
  split
  · next c =>
    have g := h.1.serving c.1
    exact ⟨Serving.steady ⟨g.running, g.due, g.region.of_eq rfl rfl g.region.next g.region.flight⟩, h.2⟩
  · exact h

/-- Quiet work first, then work that ends steady. -/
theorem Act.Quiet.then_ends {α : Type} {a : Act α} (q : a.Quiet) {f : α → Act Unit} {s t : State}
    (h : Steady s ∧ s.engine = .free)
    (hf : ∀ x u, Steady u ∧ u.engine = .free → f x u = .ok () t → Steady t ∧ t.engine = .free)
    (r : (a >>= f) s = .ok () t) : Steady t ∧ t.engine = .free := by
  obtain ⟨x, u, r1, r2⟩ := Act.bind_eq_ok.mp r
  have e := q _ _ _ r1
  exact hf x u ⟨h.1.of_service e, (State.service_eq e).1.1.trans h.2⟩ r2

theorem storeEnables_quiet (enables : BitVec 5) : (storeEnables enables).Quiet := Act.quiet_modify fun _ => rfl

/-- A write of CONTROL, whatever command it carries (R158). -/
theorem writeControl_ends {value : Word} {s t : State} (h : Steady s ∧ s.engine = .free)
    (r : writeControl value s = .ok () t) : Steady t ∧ t.engine = .free := by
  unfold writeControl at r
  split at r
  · exact reset_ends r
  · refine (storeEnables_quiet _).then_ends h (fun _ u hu r => ?_) r
    split at r
    · exact startCommand_ends hu r
    · split at r
      · exact stopCommand_ends hu r
      · rw [← (Act.pure_eq_ok.mp r).2]; exact hu

/-- A write of a register (R158). -/
theorem writeRegister_ends {reg : RegName} {value : Word} {s t : State} (h : Steady s ∧ s.engine = .free)
    (r : writeRegister reg value s = .ok () t) : Steady t ∧ t.engine = .free := by
  cases reg with
  | id => exact (Act.quiet_pure ()).ends h r
  | baseLo => exact Act.Quiet.ends (Act.quiet_modify fun s => by split <;> rfl) h r
  | baseHi => exact Act.Quiet.ends (Act.quiet_modify fun s => by split <;> rfl) h r
  | control => exact writeControl_ends h r

/-- Work that a part does only while it is RUNNING. -/
theorem Act.Serves.ends {a : Act Unit} (q : a.Serves) {s t : State} (h : Steady s ∧ s.engine = .free)
    (running : s.engineState = .running) (r : a s = .ok () t) : Steady t ∧ t.engine = .free := by
  obtain ⟨ht, e⟩ := q _ _ _ (h.1.serving running) r
  exact ⟨ht.steady, e.trans h.2⟩

theorem nudgeCommand_ends {mask : BitVec 8} {s t : State} (h : Steady s ∧ s.engine = .free)
    (r : nudgeCommand mask s = .ok () t) : Steady t ∧ t.engine = .free := by
  unfold nudgeCommand at r
  rw [Act.get_bind] at r
  split at r
  · next running =>
    exact (Act.serves_bind (Act.serves_forEach inspect_serves) fun _ => readTaken_quiet.serves).ends h running r
  · rw [← (Act.pure_eq_ok.mp r).2]; exact h

theorem scanExpiry_ends {s t : State} (h : Steady s ∧ s.engine = .free) (r : scanExpiry s = .ok () t) :
    Steady t ∧ t.engine = .free := by
  unfold scanExpiry at r
  rw [Act.get_bind] at r
  split at r
  · next runs =>
    exact (Act.serves_bind (Act.serves_forEach inspect_serves) fun _ => readTaken_quiet.serves).ends h (h.1.scan runs) r
  · rw [← (Act.pure_eq_ok.mp r).2]; exact h

/-- A stop leaves the part IDLE with its clock UNSET and nothing on (R173). -/
theorem stopCompletion_ends {s t : State} (h : Steady s ∧ s.engine = .free) (r : stopCompletion s = .ok () t) :
    Steady t ∧ t.engine = .free := by
  unfold stopCompletion at r
  rw [Act.get_bind] at r
  split at r
  · next may =>
    simp only [State.mayFinishStop, Bool.and_eq_true, decide_eq_true_eq, Option.isNone_iff_eq_none] at may
    obtain ⟨⟨⟨running, -⟩, free⟩, prog⟩ := may
    unfold finishStop at r
    obtain ⟨_, s1, r1, r⟩ := Act.bind_eq_ok.mp r
    rw [Act.modify_bind] at r
    obtain ⟨_, s2, r2, r⟩ := Act.bind_eq_ok.mp r
    rw [Act.get_bind] at r
    obtain ⟨_, s3, r3, r⟩ := Act.bind_eq_ok.mp r
    rw [Act.modify_bind, Act.get_bind] at r
    obtain ⟨_, s4, r4, r⟩ := Act.bind_eq_ok.mp r
    have e1 : s1.discardHeld.service = s.service := (show _ = s1.service from rfl).trans (readTaken_quiet _ _ _ r1)
    obtain ⟨-, engine2, due2, -, -, prog2⟩ := ((h.1.serving running).of_service e1).publish r2
    have e3 := regionWriteWhole_quiet _ _ _ _ _ r3
    have e4 := regionWrite_quiet _ _ _ _ _ r4
    obtain ⟨⟨engine, -, clock, due⟩, -, prog4, -⟩ := State.service_eq e4
    obtain ⟨⟨engine3, -, -, due3⟩, -, prog3, -⟩ := State.service_eq e3
    obtain ⟨⟨engine1, -⟩, -, prog1, -⟩ := State.service_eq e1
    rw [← Act.modify_eq_ok.mp r]
    refine ⟨?_, engine.trans (engine3.trans (engine2.trans (engine1.trans free)))⟩
    exact
      { state := by simp
        clock := fun c => absurd clock c
        due := fun d => absurd ((due.trans (due3.trans due2)).symm.trans d) (by decide)
        scan := fun d => by simp at d
        eligible := fun k d => by
          replace d : (clearEligible s4.lists)[k.val].eligible = true := d
          simp [clearEligible] at d
        stop := fun d => by simp at d
        idle := fun _ => prog4.trans (prog3.trans (prog2.trans (prog1.trans prog)))
        region := fun d => by simp at d }
  · rw [← (Act.pure_eq_ok.mp r).2]; exact h

/-- A publication due is one of a RUNNING part (R66). -/
theorem finishPublication_ends {s t : State} (h : Steady s ∧ s.engine = .free) (r : finishPublication s = .ok () t) :
    Steady t ∧ t.engine = .free := by
  by_cases due : s.publicationDue = true
  · exact finishPublication_serves.ends h (h.1.clock (h.1.due due)) r
  · unfold finishPublication at r
    rw [Act.get_bind, if_neg due] at r
    rw [← (Act.pure_eq_ok.mp r).2]
    exact h

theorem lowerStall_serves (m : Word) (stall : Fin 16) : (lowerStall m stall).Serves :=
  Act.serves_bind (Act.serves_setClock _ _) fun _ => writeClockWords_quiet.serves

theorem minuteExpiry_ends {s t : State} (h : Steady s ∧ s.engine = .free) (r : minuteExpiry s = .ok () t) :
    Steady t ∧ t.engine = .free := by
  unfold minuteExpiry at r
  obtain ⟨_, u, r1, r⟩ := Act.bind_eq_ok.mp r
  have hu := finishPublication_ends h r1
  rw [Act.get_bind] at r
  have idle {v : State} (r : (pure () : Act Unit) u = .ok () v) : Steady v ∧ v.engine = .free := by
    rw [← (Act.pure_eq_ok.mp r).2]; exact hu
  cases c : u.clock with
  | unset => simp only [c] at r; exact idle r
  | held m stall =>
    have running := hu.1.clock (by rw [c]; simp)
    simp only [c] at r
    split at r
    · exact (lowerStall_serves m stall).ends hu running r
    · split at r
      · obtain ⟨_, v, r2, r⟩ := Act.bind_eq_ok.mp r
        obtain ⟨hv, free⟩ := boundary_serves.ends hu running r2
        have clock : v.clock = .held (m + 1) stall := by
          have e := boundary_service r2
          rw [c] at e
          exact (State.service_eq e).1.2.2.1
        rw [← Act.modify_eq_ok.mp r]
        refine ⟨⟨hv.state, hv.clock, fun _ => ?_, hv.scan, hv.eligible, hv.stop, hv.idle, fun d => ?_⟩, free⟩
        · show v.clock ≠ .unset
          rw [clock]
          simp
        · exact (hv.region d).of_eq rfl rfl (hv.region d).next (hv.region d).flight
      · exact idle r

/-- A failed access that is armed, or that meets no part attached, changes nothing of the service (log entry 7). -/
theorem failAccess_quiet (after written : Nat) : (failAccess after written).Quiet := by
  intro s x t r
  unfold failAccess at r
  cases after with
  | zero => simp only at r; split at r <;> cases r; rfl
  | succ n => simp only at r; split at r <;> cases r <;> rfl

/-! ### The class store and the rest of the engine's work -/

/-- The cell of a programming that ends is the one in flight (R79). -/
theorem endProgramming_ends {s : State} (defects : List NvDefect) (h : Steady s ∧ s.engine = .free) :
    Steady (s.endProgramming defects) ∧ (s.endProgramming defects).engine = .free := by
  unfold State.endProgramming
  cases flight : s.prog with
  | none => exact h
  | some p =>
    cases ended : p.ended with
    | some b => simp only [ended]; exact h
    | none =>
      simp only [ended]
      refine ⟨⟨h.1.state, h.1.clock, h.1.due, h.1.scan, h.1.eligible, h.1.stop, fun i => ?_, fun r => ?_⟩, h.2⟩
      · exact absurd ((h.1.idle i).symm.trans flight) (by simp)
      · refine (h.1.region r).of_eq rfl rfl (h.1.region r).next fun q hq => ?_
        obtain rfl : _ = q := Option.some.inj hq
        exact (h.1.region r).flight p flight

/-- With no CLASSWRITE in flight any more. -/
theorem Steady.landed {s t : State} (h : Steady s) (e : t.service = { s with prog := none }.service) : Steady t :=
  Steady.of_service (s := { s with prog := none }) ⟨h.state, h.clock, h.due, h.scan, h.eligible, h.stop, fun _ => rfl,
    fun r => (h.region r).of_eq rfl rfl (h.region r).next fun _ e => by cases e⟩ e

theorem State.removeClass_service (s : State) (cls : ClassNo) (limited : Bool) :
    (s.removeClass cls limited).service = s.service := by
  cases limited <;> rfl

/-- The completion of a CLASSWRITE, in success or failure, with a notice and its cell completed while RUNNING (R81 to R85). -/
theorem classCompletion_ends {s t : State} (h : Steady s ∧ s.engine = .free) (r : classCompletion s = .ok () t) :
    Steady t ∧ t.engine = .free := by
  have applied {u : State} {ns : List Notice} {p : Programming} {a : Answer} (hu : Steady u ∧ u.engine = .free)
      (r : (if s.engineState = .running then do
          reportNotices ns
          completeCell p.cell a
        else pure () : Act Unit) u = .ok () t) (e : u.engineState = s.engineState) : Steady t ∧ t.engine = .free := by
    split at r
    · next running =>
      obtain ⟨_, v, r1, r⟩ := Act.bind_eq_ok.mp r
      obtain ⟨ht, free⟩ := completeCell_serving
        ((hu.1.serving (e.trans running)).of_service (reportNotices_quiet _ _ _ _ r1)) r
      exact ⟨ht.steady, free⟩
    · rw [← (Act.pure_eq_ok.mp r).2]; exact hu
  have idle (r : (pure () : Act Unit) s = .ok () t) : Steady t ∧ t.engine = .free := by
    rw [← (Act.pure_eq_ok.mp r).2]; exact h
  unfold classCompletion at r
  rw [Act.get_bind] at r
  cases flight : s.prog with
  | none => simp only [flight] at r; exact idle r
  | some p =>
    cases ended : p.ended with
    | none => simp only [flight, ended] at r; exact idle r
    | some success =>
      simp only [flight, ended] at r
      split at r
      · unfold applyCompletion at r
        rw [Act.get_bind] at r
        cases success with
        | true =>
          have e : (s.makeValid p).service = { s with prog := none }.service := State.removeClass_service _ _ _
          exact applied ⟨h.1.landed e, (State.service_eq e).1.1.trans h.2⟩ r (State.service_eq e).1.2.1
        | false => exact applied ⟨h.1.landed (t := s.makeInvalid p) rfl, h.2⟩ r rfl
      · exact idle r

theorem handover_ends {o : Option WatchEntry} {serve : WatchEntry → Act Unit} (q : ∀ e, (serve e).Frees) {s t : State}
    (h : Steady s ∧ s.engine = .free)
    (r : (match o with
      | some e => serve e
      | none => pure () : Act Unit) s = .ok () t) : Steady t ∧ t.engine = .free := by
  cases o with
  | none => rw [← (Act.pure_eq_ok.mp r).2]; exact h
  | some e => exact (q e).ends h.1 r

theorem patrolWork_ends {s t : State} (h : Steady s ∧ s.engine = .free) (r : patrolWork s = .ok () t) :
    Steady t ∧ t.engine = .free := by
  unfold patrolWork at r
  rw [Act.get_bind] at r
  split at r
  · cases held : s.heldAccount with
    | none => simp only [held] at r; rw [← (Act.pure_eq_ok.mp r).2]; exact h
    | some n => simp only [held] at r; exact (servePatrol_frees n).ends h.1 r
  · rw [← (Act.pure_eq_ok.mp r).2]; exact h

theorem cellNoLongerPosted_ends {s t : State} (h : Steady s ∧ s.engine = .free) (r : cellNoLongerPosted s = .ok () t) :
    Steady t ∧ t.engine = .free := by
  have idle (r : (pure () : Act Unit) s = .ok () t) : Steady t ∧ t.engine = .free := by
    rw [← (Act.pure_eq_ok.mp r).2]; exact h
  unfold cellNoLongerPosted at r
  rw [Act.get_bind] at r
  split at r
  · next may =>
    have running : s.engineState = .running := by
      simp only [State.mayTakeCell, State.mayWork, Bool.and_eq_true, decide_eq_true_eq] at may
      exact may.1.1.1.1.1
    cases chosen : s.chosenList with
    | none => simp only [chosen] at r; exact idle r
    | some k =>
      simp only [chosen] at r
      split at r
      · exact idle r
      · exact (Act.serves_bind (regionRead_quiet _ _).serves fun _ =>
          Act.serves_modify fun _ g => ⟨g.setEligible k false, rfl⟩).ends h running r
  · exact idle r

/-! ### Every command -/

/-- Every command keeps the service sound. -/
theorem exec_sound (c : Instr) {s t : State} (h : ServiceSound s) (r : exec c s = .next t) : ServiceSound t := by
  have hs : Steady s ∧ s.engine = .free := ⟨h.steady, h.rest.free⟩
  have cell {kinds : Nat → Bool} {work : TakenCell → Act (Option Answer)} (hw : KeepsServing work)
      (r : conclude (serveCell kinds work) s = .next t) : ServiceSound t :=
    conclude_sound r fun u e => serveCell_ends hw hs e
  have account {kinds : Nat → Bool} {work : TakenCell → Act Answer} (hw : ∀ c, (work c).Quiet)
      (r : conclude (serveCell kinds fun c => do let a ← work c; pure (some a)) s = .next t) : ServiceSound t :=
    cell (keepsServing_of_serves fun c => (answered_quiet (hw c)).serves) r
  cases c with
  | powerOnReset => exact conclude_sound r fun u e => reset_ends e
  | pinReset => exact conclude_sound r fun u e => reset_ends e
  | softReset stores =>
    exact conclude_sound r fun u e => (landStores_quiet stores).then_ends hs (fun _ _ _ e => reset_ends e) e
  | start stores enables =>
    exact conclude_sound r fun u e => (landStores_quiet stores).then_ends hs (fun _ _ hv e =>
      (storeEnables_quiet enables).then_ends hv (fun _ _ hw e => startCommand_ends hw e) e) e
  | stop stores enables =>
    exact conclude_sound r fun u e => (landStores_quiet stores).then_ends hs (fun _ _ hv e =>
      (storeEnables_quiet enables).then_ends hv (fun _ _ hw e => stopCommand_ends hw e) e) e
  | stopCompletion => exact conclude_sound r fun u e => stopCompletion_ends hs e
  | registerWrite stores reg value =>
    exact conclude_sound r fun u e => (landStores_quiet stores).then_ends hs (fun _ _ hv e => writeRegister_ends hv e) e
  | statusWrite stores value =>
    exact conclude_sound r fun u e => (landStores_quiet stores).then_ends hs (fun _ _ hv e =>
      (Act.quiet_modify (f := fun t => t.clearStatus value) fun _ => rfl).ends hv e) e
  | nudge stores mask =>
    exact conclude_sound r fun u e => (landStores_quiet stores).then_ends hs (fun _ _ hv e => nudgeCommand_ends hv e) e
  | intakeScanTimerExpiry => exact conclude_sound r fun u e => scanExpiry_ends hs e
  | minuteTimerExpiry => exact conclude_sound r fun u e => minuteExpiry_ends hs e
  | zonePagePublication => exact conclude_sound r fun u e => finishPublication_ends hs e
  | enrol => exact account (fun c => onAccount_quiet c _ _ (enrolAccount_quiet c)) r
  | openInto => exact account (fun c => onAccount_quiet c _ _ (openAccount_quiet c)) r
  | move => exact account (fun c => onAccount_quiet c _ _ (moveAccount_quiet c)) r
  | bag => exact account (fun c => onAccount_quiet c _ _ bagAccount_quiet) r
  | retire => exact account (fun c => onAccount_quiet c _ _ retireAccount_quiet) r
  | amend => exact account (fun c => onAccount_quiet c _ _ (amendAccount_quiet c)) r
  | query => exact account (fun c => onAccount_quiet c _ _ queryAccount_quiet) r
  | climate => exact cell (keepsServing_of_serves fun c => (climateWork_quiet c).serves) r
  | zoneset => exact cell (keepsServing_of_serves fun c => (zonesetWork_quiet c).serves) r
  | classwrite => exact cell classwriteWork_keeps r
  | clockset => exact cell (keepsServing_of_serves clocksetWork_serves) r
  | tune => exact cell (keepsServing_of_serves fun c => (tuneWork_quiet c).serves) r
  | unknownKind => exact cell (keepsServing_of_serves fun _ => (Act.quiet_pure _).serves) r
  | classProgrammingEnd defects =>
    exact conclude_sound r fun u e => by
      rw [← Act.modify_eq_ok.mp e]
      exact endProgramming_ends defects hs
  | classCompletion => exact conclude_sound r fun u e => classCompletion_ends hs e
  | warningHandover => exact conclude_sound r fun u e => handover_ends serveWarning_frees hs e
  | expiryHandover => exact conclude_sound r fun u e => handover_ends serveExpiry_frees hs e
  | patrolRead => exact conclude_sound r fun u e => patrolReadOne_quiet.ends hs e
  | patrolWork => exact conclude_sound r fun u e => patrolWork_ends hs e
  | regionAccessFailure after written => exact conclude_sound r fun u e => (failAccess_quiet after written).ends hs e
  | cellNoLongerPosted => exact conclude_sound r fun u e => cellNoLongerPosted_ends hs e

/-- Settles O58: the case of an empty queue, and every command by what its work keeps. -/
theorem everyStepKeepsTheServiceSound : Obligations.EveryStepKeepsTheServiceSound := by
  intro s t h r
  unfold step at r
  cases q : s.pending with
  | nil =>
    rw [q] at r
    cases r
    exact h
  | cons c rest =>
    rw [q] at r
    refine exec_sound c (s := { s with pending := rest }) ⟨?_, h.idle, fun run => ?_⟩ r
    · exact ⟨h.rest.free, h.rest.state, h.rest.clock, h.rest.due, h.rest.scan, h.rest.eligible, h.rest.stop, h.rest.lines⟩
    · exact (h.region run).of_service rfl

end Sys2Proof.Machine
end

-- ==== Proofs: the account record ====
section
/-! The words of an account record read back (O53). -/

namespace Sys2Proof.Machine

/-! ### Bytes of a word -/

theorem wordOfBytes_toNat (b0 b1 b2 b3 : Nat) :
    (wordOfBytes b0 b1 b2 b3).toNat = b0 % 256 + 256 * (b1 % 256) + 65536 * (b2 % 256) + 16777216 * (b3 % 256) := by
  unfold wordOfBytes word
  rw [BitVec.toNat_ofNat]
  omega

@[simp] theorem byteOf_wordOfBytes_zero (b0 b1 b2 b3 : Nat) : byteOf (wordOfBytes b0 b1 b2 b3) 0 = b0 % 256 := by
  unfold byteOf
  rw [wordOfBytes_toNat]
  omega

@[simp] theorem byteOf_wordOfBytes_one (b0 b1 b2 b3 : Nat) : byteOf (wordOfBytes b0 b1 b2 b3) 1 = b1 % 256 := by
  unfold byteOf
  rw [wordOfBytes_toNat]
  omega

@[simp] theorem byteOf_wordOfBytes_two (b0 b1 b2 b3 : Nat) : byteOf (wordOfBytes b0 b1 b2 b3) 2 = b2 % 256 := by
  unfold byteOf
  rw [wordOfBytes_toNat]
  omega

@[simp] theorem byteOf_wordOfBytes_three (b0 b1 b2 b3 : Nat) : byteOf (wordOfBytes b0 b1 b2 b3) 3 = b3 % 256 := by
  unfold byteOf
  rw [wordOfBytes_toNat]
  omega

theorem byteOf_lt (w : Word) (i : Nat) : byteOf w i < 256 := Nat.mod_lt _ (by decide)

/-! ### The codes of a record -/

/-- The state code of a record names its state (section 10.2). -/
theorem accountStateOf_code (st : AccountState) : accountStateOf (st.code % 256) = some st := by
  cases st <;> rfl

/-- The flag byte of a record holds its flags. -/
theorem accountFlagsOf_code : ∀ f : AccountFlags, accountFlagsOf (f.code % 256) = f := by
  rintro ⟨e, w, s, d, n⟩
  revert e w s d n
  decide

/-! ### A record's words read back (R1 to R3) -/

theorem recordWords_toList (a : Account) :
    (recordWords a).toList = a.asWritten.bodyWords ++ [checkWord a.asWritten.bodyWords] := by
  unfold recordWords
  rw [Vector.toList_ofFn]
  rfl

/-- A record the part writes passes the check-word comparison (R2). -/
theorem recordWords_not_corrupt (a : Account) : isCorrupt (recordWords a) = false := by
  have check : (recordWords a)[15] = recordCheck (recordWords a) := by
    unfold recordCheck
    rw [recordWords_toList]
    rfl
  simp [isCorrupt, check]

/-- The fields of a record as its words hold them, its bake count as one byte of it holds it. -/
theorem accountOf_fields (a : Account) (st : AccountState) (zone : Option ZoneNo) :
    accountOf.fields (recordWords a) st zone
      = { a.asWritten with state := st, zone := zone, bakeCount := a.bakeCount % 256 } := by
  have cls : (Fin.ofNat 8 (a.asWritten.cls.val % 256) : ClassNo) = a.asWritten.cls := by
    apply Fin.ext
    show a.asWritten.cls.val % 256 % 8 = a.asWritten.cls.val
    omega
  have bakes : a.asWritten.bakeCount = a.bakeCount := by unfold Account.asWritten; split <;> rfl
  have words : ∀ (i : Nat) (h : i < 16), (recordWords a)[i] = (a.asWritten.bodyWords ++ [checkWord a.asWritten.bodyWords]).getD i 0 := by
    intro i h
    unfold recordWords
    rw [Vector.getElem_ofFn]
  unfold accountOf.fields
  simp only [words, Account.bodyWords, List.cons_append, List.getD_cons_zero, List.getD_cons_succ, dword_halves,
    byteOf_wordOfBytes_zero, byteOf_wordOfBytes_three, cls, accountFlagsOf_code, bakes]

theorem Account.asWritten_state (a : Account) : a.asWritten.state = a.state := by
  unfold Account.asWritten
  split <;> rfl

theorem Account.asWritten_bakeCount (a : Account) : a.asWritten.bakeCount = a.bakeCount := by
  unfold Account.asWritten
  split <;> rfl

/-- Outside the states in a zone, the zone is written as none (R1). -/
theorem Account.asWritten_zone (a : Account) : a.asWritten.zone = if a.state.inZone = true then a.zone else none := by
  unfold Account.asWritten
  cases a.state <;> rfl

theorem recordWords_status (a : Account) : (recordWords a)[2]
    = wordOfBytes a.asWritten.cls.val a.asWritten.state.code (zoneByteOf a.asWritten.zone) a.asWritten.flags.code := by
  unfold recordWords
  rw [Vector.getElem_ofFn]
  rfl

theorem recordWords_bakes (a : Account) : (recordWords a)[3] = wordOfBytes a.bakeCount 0 0 0 := by
  unfold recordWords
  rw [Vector.getElem_ofFn, ← a.asWritten_bakeCount]
  rfl

/-- What the words of a record read as: malformed where the bake count's byte is above 15, else the account as written
(R1, R3). -/
theorem accountOf_recordWords (a : Account) (placed : a.state.inZone = true → a.zone ≠ none) :
    accountOf (recordWords a)
      = if 15 < a.bakeCount % 256 then none else some { a.asWritten with bakeCount := a.bakeCount % 256 } := by
  have zoneByte : ∀ z : Option ZoneNo, zoneByteOf z % 256 = zoneByteOf z := by
    intro z
    cases z with
    | none => rfl
    | some z => have := z.isLt; show (z.val + 1) % 256 = z.val + 1; omega
  have cls : ¬ 7 < a.asWritten.cls.val % 256 := by have := a.asWritten.cls.isLt; omega
  unfold accountOf
  simp only [recordWords_status, recordWords_bakes, byteOf_wordOfBytes_zero, byteOf_wordOfBytes_one, byteOf_wordOfBytes_two,
    accountStateOf_code, zoneByte, a.asWritten_state, a.asWritten_zone, gt_iff_lt, cls, false_or, accountOf_fields]
  by_cases bakes : 15 < a.bakeCount % 256
  · simp [bakes]
  · rw [if_neg bakes, if_neg bakes]
    by_cases inZone : a.state.inZone = true
    · obtain ⟨z, hz⟩ := Option.ne_none_iff_exists'.mp (placed inZone)
      have byte : zoneByteOf (some z) = z.val + 1 := rfl
      have back : (Fin.ofNat 64 (z.val + 1 - 1) : ZoneNo) = z := Fin.ext (by have := z.isLt; show (z.val + 1 - 1) % 64 = _; omega)
      have w : a.asWritten.zone = some z := by rw [a.asWritten_zone, if_pos inZone, hz]
      rw [if_pos inZone, if_pos inZone, hz, byte, if_neg (by have := z.isLt; omega), back, ← w, ← a.asWritten_state]
    · rw [if_neg inZone, if_neg inZone, if_neg (by simp [zoneByteOf])]

/-- Settles O53, from the words of a record read back field by field. -/
theorem recordsReadBackAsWritten : Obligations.RecordsReadBackAsWritten := by
  intro a bakes placed
  refine ⟨recordWords_not_corrupt a, ?_, fun inZone aux => ?_⟩
  · have small : a.bakeCount % 256 = a.bakeCount := Nat.mod_eq_of_lt (by omega)
    rw [accountOf_recordWords a placed, small, if_neg (by omega), ← a.asWritten_bakeCount]
  · obtain ⟨tag, cls, state, zone, flags, bakeCount, exposure, mark, auxMark, lastCredit, entry, expiry, hostRef, sequence⟩ := a
    cases state with
    | exposed => rw [show auxMark = 0 from aux rfl]; rfl
    | dryheld => rfl
    | baking => rfl
    | vacant | unopened | bagged | retired => exact absurd inZone Bool.false_ne_true

end Sys2Proof.Machine
end

-- ==== Proofs: the account in a work ====
section
/-! The tests, the zone entry and exit, and the account an AMEND leaves (O19, O24). -/

namespace Sys2Proof.Machine

/-! ### The tests (R17, R25, R42, R43) -/

/-- The expiry test: the flag, the minute and the notice where E has reached the budget and EXPIRED was clear (R42). -/
theorem expiryTest_eq (f : InForce) (minute : Word) (n : Nat) (zone : Option ZoneNo) (a : Account) :
    expiryTest f minute n zone a =
      let hit := f.reached a.exposure.toNat && !a.flags.expired
      ({ a with
          flags := { a.flags with expired := a.flags.expired || hit }
          expiryMinute := if hit then minute else a.expiryMinute },
        if hit then [⟨.expired, n, minute, zoneDetail zone, a.exposure⟩] else []) := by
  unfold expiryTest
  cases f.reached a.exposure.toNat && !a.flags.expired
  · simp
  · simp [Account.expire, exposureNotice]

/-- The warning test: the flag and the notice where E has reached the warning level and both flags were clear (R43). -/
theorem warningTest_eq (f : InForce) (minute : Word) (n : Nat) (zone : Option ZoneNo) (a : Account) :
    warningTest f minute n zone a =
      let hit := f.warnable a.exposure.toNat && !a.flags.warned && !a.flags.expired
      ({ a with flags := { a.flags with warned := a.flags.warned || hit } },
        if hit then [⟨.expiryWarning, n, minute, zoneDetail zone, a.exposure⟩] else []) := by
  unfold warningTest
  cases f.warnable a.exposure.toNat && !a.flags.warned && !a.flags.expired
  · simp
  · simp [Account.warn, exposureNotice]

/-! ### Zone entry and exit -/

/-- An oven's notice of an exhausted account, as a test (R17, R99). -/
theorem State.exhaustedNotices_eq (s : State) (n : Nat) (z : ZoneNo) (a : Account) :
    s.exhaustedNotices n z a =
      if (decide (s.zones[z].type = .typeBake) &&
        (match s.classes[a.cls].figures? with
         | some g => decide (a.bakeCount = g.bakeLimit)
         | none => false)) = true then [⟨.bakeExhausted, n, s.minute, word z.val, word a.bakeCount⟩] else [] := by
  unfold State.exhaustedNotices
  cases s.zones[z].type <;> cases s.classes[a.cls].figures? <;> simp

/-- The exit: the credit judged on the account as folded, the fold's notices before the credit's (R18, R90). -/
theorem State.leaveZone_eq (s : State) (n : Nat) (z : ZoneNo) (a : Account) :
    s.leaveZone n z a =
      { s.exitCredit n z (s.foldIn n z a).1 with
        notices := (s.foldIn n z a).2 ++ (s.exitCredit n z (s.foldIn n z a).1).notices } := rfl

/-- A zone of type OPEN gives no credit (R90). -/
theorem State.exitCredit_open {s : State} {z : ZoneNo} (h : s.zones[z].type = .typeOpen) (n : Nat) (a : Account) :
    s.exitCredit n z a = noCredit a := by
  unfold State.exitCredit
  cases s.classes[a.cls].figures? with
  | none => rfl
  | some f => simp only [h]

/-- Settles O19: the exit by definition, the entry by its two tests. -/
theorem zoneEntryAndExitMarkTestAndCredit : Obligations.ZoneEntryAndExitMarkTestAndCredit := by
  intro s n z a
  refine ⟨rfl, rfl, fun isOpen => ?_, fun _ => ?_⟩
  · rw [State.leaveZone_eq, State.exitCredit_open isOpen]
    simp only [noCredit, List.append_nil]
    rfl
  · have detail : zoneDetail (some z) = word z.val := rfl
    unfold State.enterZone
    simp only [expiryTest_eq, warningTest_eq, State.exhaustedNotices_eq, detail, ZoneType.accountState, Zone.auxMark]
    generalize s.zones[z].type = type
    generalize s.classes[a.cls].figures? = figures
    cases (s.inForce a.cls).reached a.exposure.toNat <;> cases a.flags.expired <;> cases figures <;> cases type <;> simp

/-! ### What the parts of a work leave of an account -/

/-- A fold changes E, the flags, the mark and the expiry minute alone (R41). -/
theorem State.foldIn_frame (s : State) (n : Nat) (z : ZoneNo) (a : Account) :
    ∃ exposure flags mark expiry, (s.foldIn n z a).1
      = { a with exposure := exposure, flags := flags, mark := mark, expiryMinute := expiry } := by
  unfold State.foldIn foldAccount
  simp only [expiryTest_eq, warningTest_eq, takeAdvance]
  exact ⟨_, _, _, _, rfl⟩

/-- A zone entry places the account and changes its flags and expiry minute alone (R16, R17). -/
theorem State.enterZone_frame (s : State) (n : Nat) (z : ZoneNo) (a : Account) :
    ∃ flags expiry, (s.enterZone n z a).1
      = { a with
          state := s.zones[z].type.accountState
          zone := some z
          mark := s.zones[z].exposure[a.cls]
          aux := s.zones[z].auxMark a.cls
          entryMinute := s.minute
          flags := flags
          expiryMinute := expiry } := by
  unfold State.enterZone
  simp only [expiryTest_eq, warningTest_eq]
  exact ⟨_, _, rfl⟩

/-- The tests after a credit clear flags alone (R97). -/
theorem creditTests_frame (f : InForce) (a : Account) :
    ∃ flags expiry, creditTests f a = { a with flags := flags, expiryMinute := expiry } := by
  have unexpire : ∃ flags expiry, (if f.reached a.exposure.toNat then a else a.unexpire)
      = { a with flags := flags, expiryMinute := expiry } := by
    unfold Account.unexpire
    split
    · exact ⟨a.flags, a.expiryMinute, rfl⟩
    · split
      · exact ⟨_, _, rfl⟩
      · exact ⟨a.flags, a.expiryMinute, rfl⟩
  obtain ⟨flags, expiry, h⟩ := unexpire
  unfold creditTests Account.warn
  simp only [h]
  split
  · exact ⟨_, _, rfl⟩
  · exact ⟨_, _, rfl⟩

/-- A credit changes E, the flags, the bake count, the last credit and the expiry minute alone, and raises the bake count by one at
most (R92 to R97). -/
theorem State.exitCredit_frame (s : State) (n : Nat) (z : ZoneNo) (a : Account) :
    ∃ exposure flags bakes credit expiry, (s.exitCredit n z a).account
        = { a with
            exposure := exposure, flags := flags, bakeCount := bakes, lastCredit := credit, expiryMinute := expiry }
      ∧ bakes ≤ a.bakeCount + 1 := by
  have none_given : ∃ exposure flags bakes credit expiry, (noCredit a).account
        = { a with
            exposure := exposure, flags := flags, bakeCount := bakes, lastCredit := credit, expiryMinute := expiry }
      ∧ bakes ≤ a.bakeCount + 1 := ⟨a.exposure, a.flags, a.bakeCount, a.lastCredit, a.expiryMinute, rfl, by omega⟩
  unfold State.exitCredit
  split
  · exact none_given
  · next f _ =>
    split
    · exact none_given
    · exact none_given
    · unfold dryRecovery
      split
      · exact ⟨_, _, a.bakeCount, _, a.expiryMinute, rfl, by omega⟩
      · exact none_given
    · unfold bakeCredit
      split
      · exact none_given
      · obtain ⟨flags, expiry, h⟩ := creditTests_frame (s.inForce a.cls)
          { a with
            bakeCount := a.bakeCount + 1
            exposure := word (a.exposure.toNat - _)
            lastCredit := word _ }
        exact ⟨_, flags, a.bakeCount + 1, _, expiry, h, by omega⟩

/-! ### AMEND's account (R25) -/

/-- The tests of an AMEND: EXPIRED as the budget has it; WARNED left above the budget, where the margin is not 0, and as the warning
level has it below; each flag newly set with its notice (R25 step 4). -/
theorem amendTests_eq (f : InForce) (minute : Word) (n : Nat) (zone : Option ZoneNo) (a : Account) :
    amendTests f minute n zone a =
      let hit := f.reached a.exposure.toNat
      let warn := f.warnable a.exposure.toNat && !hit
      ({ a with
          flags := { a.flags with
            expired := hit
            warned := if hit then a.flags.warned && (decide (f.margin ≠ 0) || Config.amendKeepsWarned) else warn }
          expiryMinute := if hit then (if a.flags.expired then a.expiryMinute else minute)
            else if a.flags.expired then 0 else a.expiryMinute },
        (if hit && !a.flags.expired then [⟨.expired, n, minute, zoneDetail zone, a.exposure⟩] else [])
          ++ (if warn && !a.flags.warned then [⟨.expiryWarning, n, minute, zoneDetail zone, a.exposure⟩] else [])) := by
  obtain ⟨tag, cls, state, zone', flags, bakeCount, exposure, mark, auxMark, lastCredit, entry, expiry, hostRef, sequence⟩ := a
  obtain ⟨expired, warned, saturated, degraded, missed⟩ := flags
  unfold amendTests
  simp only [Account.unexpire, Account.warn, Account.expire, exposureNotice]
  cases f.reached exposure.toNat with
  | true => by_cases m : f.margin = 0 <;> cases expired <;> simp [m]
  | false => cases f.warnable exposure.toNat <;> cases expired <;> cases warned <;> simp

/-- The account as an AMEND folds it: in its zone, or as it is in none (R25 step 1). -/
def State.amendFold (s : State) (n : Nat) (a : Account) : Account × List Notice :=
  match a.zone with
  | some z => s.foldIn n z a
  | none => (a, [])

theorem State.amendFold_frame (s : State) (n : Nat) (a : Account) :
    ∃ exposure flags mark expiry, (s.amendFold n a).1
      = { a with exposure := exposure, flags := flags, mark := mark, expiryMinute := expiry } := by
  unfold State.amendFold
  split
  · exact s.foldIn_frame n _ a
  · exact ⟨a.exposure, a.flags, a.mark, a.expiryMinute, rfl⟩

/-- The account an AMEND tests: folded, changed and re-marked (R25 steps 1 to 3). -/
def State.amendChanged (s : State) (c : TakenCell) (n : Nat) (a : Account) : Account :=
  s.remark a.cls (amendFields c (s.amendFold n a).1)

theorem State.amended_eq (s : State) (c : TakenCell) (n : Nat) (a : Account) :
    s.amended c n a =
      let e := s.amendChanged c n a
      let t := amendTests (s.inForce e.cls) s.minute n e.zone e
      (t.1, (s.amendFold n a).2 ++ t.2) := by
  unfold State.amended State.amendChanged State.amendFold
  cases a.zone <;> rfl

/-- The class an AMEND leaves (R25 step 2). -/
def TakenCell.amendClass (c : TakenCell) (old : ClassNo) : ClassNo :=
  match c.newClass with
  | some k => Fin.ofNat 8 k
  | none => old

/-- The state an AMEND leaves: an UNOPENED account given exposure is BAGGED (R25 step 2). -/
def TakenCell.amendState (c : TakenCell) (old : AccountState) : AccountState :=
  if old = .unopened ∧ c.newExposure.getD 0 ≠ 0 then .bagged else old

/-- The changes of an AMEND, field by field (R25 step 2). -/
theorem amendFields_eq (c : TakenCell) (a : Account) :
    amendFields c a =
      { a with
        cls := c.amendClass a.cls
        state := c.amendState a.state
        exposure := c.newExposure.getD a.exposure
        hostRef := c.hostRef
        flags := { a.flags with
          saturated := a.flags.saturated && !c.clearMask.testBit 2
          degraded := a.flags.degraded && !c.clearMask.testBit 3
          noticeMissed := a.flags.noticeMissed && !c.clearMask.testBit 4 } } := by
  have state : (amendFields c a).state = c.amendState a.state := by
    unfold amendFields TakenCell.amendState
    cases c.newExposure <;> simp
  rw [← state]
  rfl

/-- The fold's account with the changes and the re-mark of an AMEND, field by field (R25 steps 2 and 3). -/
theorem State.amendChanged_eq (s : State) (c : TakenCell) (n : Nat) (a : Account) :
    s.amendChanged c n a =
      let g := (s.amendFold n a).1
      { a with
        cls := c.amendClass a.cls
        state := c.amendState a.state
        exposure := c.newExposure.getD g.exposure
        hostRef := c.hostRef
        expiryMinute := g.expiryMinute
        flags := { g.flags with
          saturated := g.flags.saturated && !c.clearMask.testBit 2
          degraded := g.flags.degraded && !c.clearMask.testBit 3
          noticeMissed := g.flags.noticeMissed && !c.clearMask.testBit 4 }
        mark := match a.zone with
          | some z => s.zones[z].exposure[c.amendClass a.cls]
          | none => a.mark
        aux := match a.zone with
          | some z => if a.state = .baking ∧ c.amendClass a.cls ≠ a.cls then s.zones[z].bake[c.amendClass a.cls] else a.aux
          | none => a.aux } := by
  have baking : c.amendState a.state = .baking ↔ a.state = .baking := by
    unfold TakenCell.amendState
    split
    · next h => simp [h.1]
    · exact Iff.rfl
  obtain ⟨exposure, flags, mark, expiry, hg⟩ := s.amendFold_frame n a
  have kept : a.zone = none → mark = a.mark := by
    intro h
    have := congrArg Account.mark hg
    simpa [State.amendFold, h] using this.symm
  unfold State.amendChanged State.remark
  simp only [hg, amendFields_eq, baking]
  rcases Option.eq_none_or_eq_some a.zone with zone | ⟨z, zone⟩
  · simp only [zone, kept zone]
  · simp only [zone]

/-- Settles O24: the fold, the changes and the re-mark keep what they do not name, and the tests are those of the class now held. -/
theorem amendChangesRemarksAndTests : Obligations.AmendChangesRemarksAndTests := by
  intro s c n a
  rw [State.amended_eq]
  simp only [amendTests_eq, State.amendChanged_eq]
  refine ⟨rfl, rfl, trivial, trivial, trivial, trivial, trivial, trivial, trivial, rfl, rfl, rfl, rfl, rfl, rfl, rfl, rfl,
    fun hit margin => ?_, fun hit => ?_, (List.append_assoc _ _ _).symm⟩
  · refine (if_pos hit).trans ?_
    rw [decide_eq_true (show (s.inForce (c.amendClass a.cls)).margin ≠ 0 from margin)]
    simp only [Bool.true_or, Bool.and_true]
    rfl
  · exact if_neg (fun yes => Bool.false_ne_true (hit.symm.trans yes))

end Sys2Proof.Machine
end

-- ==== Proofs: the notice unit in a work ====
section
/-! What the notice unit does to the state around it, and notices handed over with room in the log (R145 to R151). -/

namespace Sys2Proof.Machine

section

variable {α β : Type}

/-! ### Bytes that a write leaves alone -/

/-- A write within one of the areas given leaves every byte outside them. -/
theorem KeepsBytes.poke {s : State} {areas : List (Nat × Nat)} {off : Nat} {ws : List Word}
    (h : ∃ r ∈ areas, r.1 ≤ off ∧ off + 4 * ws.length ≤ r.1 + r.2) : KeepsBytes s (s.poke off ws) areas := by
  obtain ⟨r, hr, low, high⟩ := h
  intro x hx
  have := hx r hr
  exact Memory.read_store_apart (by rw [wordsBytes_length]; omega)

theorem KeepsBytes.refl (s : State) (areas : List (Nat × Nat)) : KeepsBytes s s areas := fun _ _ => rfl

theorem KeepsBytes.trans {s t u : State} {areas : List (Nat × Nat)} (h : KeepsBytes s t areas) (base : t.base = s.base)
    (g : KeepsBytes t u areas) : KeepsBytes s u areas := by
  intro x hx
  rw [g x (by unfold State.outside at *; rw [base]; exact hx), h x hx]

theorem KeepsBytes.mono {s t : State} {areas areas' : List (Nat × Nat)} (h : KeepsBytes s t areas)
    (sub : areas ⊆ areas') : KeepsBytes s t areas' :=
  fun x hx => h x fun r hr => hx r (sub hr)

/-! ### What the notice unit does to the state around it -/

/-- The bits of the causes after an event (R155). -/
theorem State.raiseCause_getLsbD (s : State) (c : Cause) (i : Nat) :
    (s.raiseCause c).causes.getLsbD i = (s.causes.getLsbD i || decide (i = c.index)) := by
  unfold State.raiseCause
  by_cases set : s.causes.getLsbD c.index = true
  · rw [if_pos set]
    by_cases e : i = c.index
    · rw [e, set]; rfl
    · simp [e]
  · rw [if_neg set]
    have bit : ∀ c : Cause, (1#5 <<< c.index).getLsbD i = decide (i = c.index) := by
      intro c
      by_cases low : i < 5
      · cases c <;> interval_cases i <;> rfl
      · have : i ≠ c.index := by cases c <;> simp only [Cause.index] <;> omega
        simp [this, BitVec.getLsbD_of_ge _ i (show 5 ≤ i by omega)]
    rw [← bit c, BitVec.getLsbD_or]

theorem Notice.cause_index (n : Notice) : n.cause.index < 2 := by
  unfold Notice.cause
  split <;> decide

/-- What the notice unit may change between `s` and `t`: itself, its two causes, and its bytes (R145 to R152). -/
structure UnitFrame (s t : State) : Prop where
  frame : NoticeFrame s t
  bytes : KeepsBytes s t s.noticeAreas
  causes : ∀ i, 2 ≤ i → t.causes.getLsbD i = s.causes.getLsbD i

theorem NoticeFrame.base {s t : State} (h : NoticeFrame s t) : t.base = s.base := by rw [h]; rfl

theorem NoticeFrame.noticeAreas {s t : State} (h : NoticeFrame s t) : t.noticeAreas = s.noticeAreas := by rw [h]; rfl

theorem UnitFrame.refl (s : State) : UnitFrame s s := ⟨.refl s, .refl s _, fun _ _ => rfl⟩

theorem UnitFrame.trans {s t u : State} (h : UnitFrame s t) (g : UnitFrame t u) : UnitFrame s u where
  frame := h.frame.trans g.frame
  bytes := h.bytes.trans h.frame.base (by have := g.bytes; rwa [h.frame.noticeAreas] at this)
  causes i hi := (g.causes i hi).trans (h.causes i hi)

/-- A notice written into the log stays within the unit (R146). -/
theorem State.logged_unitFrame {s : State} (room : 0 < s.capacity) (n : Notice) (held : List Notice) :
    UnitFrame s (s.logged n held) where
  frame := s.logged_frame n held
  bytes := by
    have frame := s.recorded_frame n held
    have slot : s.written.toNat % s.capacity < s.capacity := Nat.mod_lt _ room
    have recorded : KeepsBytes s (s.recorded n held) s.noticeAreas := by
      have mem : (s.recorded n held).mem = (s.poke (s.layout.noticeLog + 16 * (s.written.toNat % s.capacity)) n.words).mem := by
        unfold State.recorded State.raiseCause
        split <;> rfl
      intro x hx
      rw [mem]
      refine KeepsBytes.poke ⟨(s.layout.noticeLog, 16 * s.capacity), by simp [State.noticeAreas], by simp, ?_⟩ x hx
      show _ + 4 * 4 ≤ _
      omega
    refine recorded.trans frame.base (KeepsBytes.poke ⟨(s.layout.controlPage + 4, 8), by simp [State.noticeAreas], ?_⟩)
    have layout : (s.recorded n held).layout = s.layout := by rw [frame]
    simp
  causes i hi := by
    have := n.cause_index
    show (State.raiseCause _ n.cause).causes.getLsbD i = _
    rw [State.raiseCause_getLsbD, decide_eq_false (show ¬ i = n.cause.index by omega), Bool.or_false]
    rfl

/-! ### Two states with the same notice unit -/

/-- The places the notice unit reads or writes: T, W and the held count in the control page, and the log (R145, R146). -/
def State.unitPlaces (s : State) : List (Nat × Nat) := [(s.layout.controlPage, 12), (s.layout.noticeLog, 16 * s.capacity)]

/-- Two states whose notice units, and the bytes these work on, are the same, with no access about to fail. -/
structure SameView (s u : State) : Prop where
  sound : s.failing = none ∧ u.failing = none
  room : 0 < s.capacity
  base : u.base = s.base
  layout : u.layout = s.layout
  capacity : u.capacity = s.capacity
  counts : u.written = s.written ∧ u.taken = s.taken
  held : u.heldNotices = s.heldNotices
  flags : u.logFull = s.logFull ∧ u.noticesDropped = s.noticesDropped
  causes : ∀ i, i < 2 → u.causes.getLsbD i = s.causes.getLsbD i
  bytes : ∀ r ∈ s.unitPlaces, ∀ x, s.base + r.1 ≤ x → x < s.base + r.1 + r.2 → u.mem.read x = s.mem.read x

theorem SameView.refl {s : State} (h : s.failing = none) (room : 0 < s.capacity) : SameView s s :=
  ⟨⟨h, h⟩, room, rfl, rfl, rfl, ⟨rfl, rfl⟩, rfl, ⟨rfl, rfl⟩, fun _ _ => rfl, fun _ _ _ _ _ => rfl⟩

theorem SameView.hasRoom {s u : State} (v : SameView s u) : u.logHasRoom = s.logHasRoom := by
  unfold State.logHasRoom State.logOccupancy
  rw [v.counts.1, v.counts.2, v.capacity]

theorem SameView.peekTaken {s u : State} (v : SameView s u) :
    u.peekWords u.layout.controlPage 1 = s.peekWords s.layout.controlPage 1 := by
  unfold State.peekWords
  rw [v.base, v.layout]
  refine Memory.words_congr fun x low high => v.bytes (s.layout.controlPage, 12) (by simp [State.unitPlaces]) x low ?_
  simp only
  omega

/-- The same words written at the same place. -/
theorem SameView.poke {s u : State} (v : SameView s u) (off : Nat) (ws : List Word) : SameView (s.poke off ws) (u.poke off ws) where
  sound := v.sound
  room := v.room
  base := v.base
  layout := v.layout
  capacity := v.capacity
  counts := v.counts
  held := v.held
  flags := v.flags
  causes := v.causes
  bytes r hr x low high := by
    show (u.mem.store (u.base + off) _).read x = (s.mem.store (s.base + off) _).read x
    rw [v.base, Memory.read_store, Memory.read_store, v.bytes r hr x low high]

/-- The same event of a cause. -/
theorem SameView.raise {s u : State} (v : SameView s u) (c : Cause) : SameView (s.raiseCause c) (u.raiseCause c) := by
  have causes : ∀ i, i < 2 → (u.raiseCause c).causes.getLsbD i = (s.raiseCause c).causes.getLsbD i := by
    intro i hi
    rw [State.raiseCause_getLsbD, State.raiseCause_getLsbD, v.causes i hi]
  exact ⟨by simpa using v.sound, by simpa using v.room, by simpa [State.base] using v.base, by simpa using v.layout,
    by simpa using v.capacity, by simpa using v.counts, by simpa using v.held, by simpa using v.flags, causes,
    by simpa [State.unitPlaces, State.base] using v.bytes⟩

/-- The same notice written into the log (R146). -/
theorem SameView.logged {s u : State} (v : SameView s u) (n : Notice) (held : List Notice) :
    SameView (s.logged n held) (u.logged n held) := by
  have recorded : SameView (s.recorded n held) (u.recorded n held) := by
    unfold State.recorded
    rw [v.layout, v.capacity, v.counts.1]
    refine SameView.raise ?_ _
    have p := v.poke (s.layout.noticeLog + 16 * (s.written.toNat % s.capacity)) n.words
    exact ⟨p.sound, p.room, p.base, p.layout, p.capacity, ⟨rfl, v.counts.2⟩, rfl,
      ⟨by show (u.logFull && _) = (s.logFull && _); rw [v.flags.1], v.flags.2⟩, p.causes, p.bytes⟩
  unfold State.logged
  simp only [v.layout, recorded.counts.1, recorded.held]
  exact recorded.poke _ _

/-- Two runs of the same work from states with the same notice unit end with the same answer and the same unit, each within the
unit. -/
def Act.Follows (a : Act α) : Prop :=
  ∀ s u, SameView s u → ∃ x s' u', a s = .ok x s' ∧ a u = .ok x u' ∧ SameView s' u' ∧ UnitFrame u u'

theorem Act.follows_pure (x : α) : Act.Follows (pure x) := fun s u v => ⟨x, s, u, rfl, rfl, v, .refl u⟩

theorem Act.follows_bind {a : Act α} {f : α → Act β} (ha : a.Follows) (hf : ∀ x, Act.Follows (f x)) :
    Act.Follows (a >>= f) := by
  intro s u v
  obtain ⟨x, s1, u1, rs, ru, v1, f1⟩ := ha s u v
  obtain ⟨y, s2, u2, rs2, ru2, v2, f2⟩ := hf x s1 u1 v1
  exact ⟨y, s2, u2, by rw [Act.bind_ok rs, rs2], by rw [Act.bind_ok ru, ru2], v2, f1.trans f2⟩

/-- Work that reads of the state only what the view shows. -/
theorem Act.follows_get {f : State → Act α} (h : ∀ s u, SameView s u → f u = f s) (hf : ∀ s, (f s).Follows) :
    Act.Follows (get >>= f) := by
  intro s u v
  rw [Act.get_bind, Act.get_bind, h s u v]
  exact hf s s u v

theorem Act.follows_modify {f : State → State} (h : ∀ s u, SameView s u → SameView (f s) (f u))
    (frame : ∀ u, UnitFrame u (f u)) : Act.Follows (modify f) :=
  fun s u v => ⟨(), f s, f u, rfl, rfl, h s u v, frame u⟩

theorem Act.follows_ite {c : Prop} [Decidable c] {a b : Act α} (ha : a.Follows) (hb : b.Follows) :
    Act.Follows (if c then a else b) := by
  split
  · exact ha
  · exact hb

theorem writeNotice_follows (n : Notice) (held : List Notice) : (writeNotice n held).Follows :=
  fun _ u v => ⟨(), _, _, writeNotice_ok v.sound.1 n held, writeNotice_ok v.sound.2 n held, v.logged n held,
    u.logged_unitFrame (by rw [v.capacity]; exact v.room) n held⟩

/-- A change of what is held and of the flags, the same in both. -/
theorem Act.follows_hold {f : State → List Notice} (full dropped : State → Bool)
    (h : ∀ s u, SameView s u → f u = f s ∧ full u = full s ∧ dropped u = dropped s) :
    Act.Follows (modify fun s => { s with heldNotices := f s, logFull := full s, noticesDropped := dropped s }) :=
  Act.follows_modify
    (fun s u v => ⟨v.sound, v.room, v.base, v.layout, v.capacity, v.counts, (h s u v).1, (h s u v).2, v.causes, v.bytes⟩)
    fun _ => ⟨rfl, fun _ _ => rfl, fun _ _ => rfl⟩

theorem drain_follows (k : Nat) : (drain k).Follows := by
  induction k with
  | zero => exact Act.follows_pure _
  | succ k ih =>
    refine Act.follows_get (fun s u v => by rw [v.hasRoom, v.held]) fun s => Act.follows_ite ?_ (Act.follows_pure _)
    cases nextHeld s.heldNotices with
    | none => exact Act.follows_pure _
    | some n => exact Act.follows_bind (writeNotice_follows _ _) fun _ => ih

theorem readTaken_follows : readTaken.Follows := by
  intro s u v
  have t : reckonTaken u.written u.capacity (u.peekWords u.layout.controlPage 1)[0]
      = reckonTaken s.written s.capacity (s.peekWords s.layout.controlPage 1)[0] := by
    rw [v.counts.1, v.capacity, v.peekTaken]
  have v' : SameView { s with taken := reckonTaken s.written s.capacity (s.peekWords s.layout.controlPage 1)[0] }
      { u with taken := reckonTaken u.written u.capacity (u.peekWords u.layout.controlPage 1)[0] } := by
    rw [t]
    exact ⟨v.sound, v.room, v.base, v.layout, v.capacity, ⟨v.counts.1, rfl⟩, v.held, v.flags, v.causes, v.bytes⟩
  obtain ⟨x, s2, u2, rs, ru, v2, f2⟩ := drain_follows s.heldNotices.length _ _ v'
  have frame : UnitFrame u { u with taken := reckonTaken u.written u.capacity (u.peekWords u.layout.controlPage 1)[0] } :=
    ⟨rfl, fun _ _ => rfl, fun _ _ => rfl⟩
  refine ⟨x, s2, u2, ?_, ?_, v2, frame.trans f2⟩
  · unfold readTaken
    rw [Act.get_bind, Act.bind_ok (regionRead_ok v.sound.1 _ _), Act.modify_bind, Act.get_bind]
    exact rs
  · unfold readTaken
    rw [Act.get_bind, Act.bind_ok (regionRead_ok v.sound.2 _ _), Act.modify_bind, Act.get_bind]
    rw [← v.held] at ru
    exact ru

theorem receiveNotice_follows (n : Notice) : (receiveNotice n).Follows := by
  have ends (b : Bool) : Act.Follows (do readTaken; pure b) := Act.follows_bind readTaken_follows fun _ => Act.follows_pure _
  have hold {f : List Notice → List Notice} : Act.Follows (modify fun s => { s with heldNotices := f s.heldNotices }) :=
    Act.follows_hold State.logFull State.noticesDropped fun s u v => ⟨by rw [v.held], v.flags⟩
  have full : Act.Follows (modify fun s => { s with heldNotices := [n], logFull := true }) :=
    Act.follows_hold (fun _ => true) State.noticesDropped fun s u v => ⟨rfl, rfl, v.flags.2⟩
  refine Act.follows_get (fun s u v => by rw [v.hasRoom, v.held]) fun s =>
    Act.follows_ite (Act.follows_ite ?logged ?read) (Act.follows_ite ?merged (Act.follows_ite ?held ?dropped))
  case logged => exact Act.follows_bind (writeNotice_follows _ _) fun _ => Act.follows_pure _
  case read =>
    exact Act.follows_bind readTaken_follows fun _ => Act.follows_get (fun s u v => by rw [v.hasRoom]) fun _ =>
      Act.follows_ite (Act.follows_bind (writeNotice_follows _ _) fun _ => Act.follows_pure _)
        (Act.follows_bind full fun _ => Act.follows_pure _)
  case merged => exact Act.follows_bind (hold (f := mergeHeld n)) fun _ => ends false
  case held => exact Act.follows_bind (hold (f := fun held => held ++ [n])) fun _ => ends false
  case dropped => exact ends true

theorem handNotices_follows (ns : List Notice) : (handNotices ns).Follows := by
  induction ns with
  | nil => exact Act.follows_pure _
  | cons n ns ih =>
    have rest (b : Bool) : Act.Follows (do let r ← handNotices ns; pure (b || r)) :=
      Act.follows_bind ih fun _ => Act.follows_pure _
    have drop : Act.Follows (modify fun s => { s with noticesDropped := true }) :=
      Act.follows_hold State.logFull (fun _ => true) fun s u v => ⟨v.held, v.flags.1, rfl⟩
    exact Act.follows_bind (receiveNotice_follows n) fun _ =>
      Act.follows_ite (Act.follows_bind drop fun _ => rest _) (rest _)

end

/-! ### The places of a valid region -/

/-- Two areas share no byte (R170). -/
def Apart (x y : Nat × Nat) : Prop := x.1 + x.2 ≤ y.1 ∨ y.1 + y.2 ≤ x.1

/-- The areas that cells and records are served in share no byte (R170). -/
structure AreasApart (s : State) : Prop where
  pageTable : Apart (s.layout.controlPage, 64) (s.layout.accountTable, 64 * s.layout.tableSize)
  pageLog : Apart (s.layout.controlPage, 64) (s.layout.noticeLog, 16 * s.capacity)
  pageLists : Apart (s.layout.controlPage, 64) (s.layout.intakeLists, 8 * s.layout.cellsPerList * 64)
  tableLog : Apart (s.layout.accountTable, 64 * s.layout.tableSize) (s.layout.noticeLog, 16 * s.capacity)
  tableLists : Apart (s.layout.accountTable, 64 * s.layout.tableSize) (s.layout.intakeLists, 8 * s.layout.cellsPerList * 64)
  logLists : Apart (s.layout.noticeLog, 16 * s.capacity) (s.layout.intakeLists, 8 * s.layout.cellsPerList * 64)

theorem RegionValid.areasApart {s : State} (h : RegionValid s) : AreasApart s := by
  have a := h.apart
  simp only [State.areas, allApart, List.all_cons, List.all_nil, Bool.and_true, Bool.and_eq_true, Machine.apart, Bool.or_eq_true,
    decide_eq_true_eq] at a
  obtain ⟨-, ⟨-, pageTable, pageLog, pageLists⟩, -, ⟨tableLog, tableLists⟩, logLists⟩ := a
  exact ⟨pageTable, pageLog, pageLists, tableLog, tableLists, logLists⟩

/-- The capacity of the log is above 0, divides 2^32, and is no larger than 4096 (section 10.2). -/
theorem RegionValid.capacity_dvd {s : State} (h : RegionValid s) :
    0 < s.capacity ∧ s.capacity ∣ 2 ^ 32 ∧ s.capacity ≤ 4096 := by
  have c := h.log
  simp only [logCapacities, List.mem_cons, List.not_mem_nil, or_false] at c
  rcases c with c | c | c | c | c | c | c <;> rw [c] <;> exact ⟨by decide, by decide, by decide⟩

/-- The log's place of a notice by its number after W (R145). -/
def State.slot (s : State) (i : Nat) : Nat := s.layout.noticeLog + 16 * ((s.written.toNat + i) % s.capacity)

theorem State.slot_eq {s : State} (h : s.capacity ∣ 2 ^ 32) (i : Nat) :
    s.layout.noticeLog + 16 * ((s.written + word i).toNat % s.capacity) = s.slot i := by
  unfold State.slot word
  rw [BitVec.toNat_add, BitVec.toNat_ofNat, Nat.add_mod_mod, Nat.mod_mod_of_dvd _ h]

/-- Two numbers less than the capacity apart have places of their own. -/
theorem slot_ne {w c i j : Nat} (ij : i < j) (near : j < i + c) : (w + i) % c ≠ (w + j) % c := by
  intro e
  have : (w + i) ≡ (w + j) [MOD c] := e
  have d := (Nat.modEq_iff_dvd' (by omega)).mp this
  have := Nat.le_of_dvd (by omega) d
  omega

theorem word_sub_succ {a b : Word} (h : (a - b).toNat + 1 < 2 ^ 32) : (a + word 1 - b).toNat = (a - b).toNat + 1 := by
  unfold word
  bv_omega

/-! ### Notices written with room in the log -/

/-- What the log and the causes show of the notices handed over to a unit that holds none and has room for all (R146). -/
structure AllLogged (s v : State) (ns : List Notice) : Prop where
  frame : UnitFrame s v
  written : v.written = s.written + word ns.length
  taken : v.taken = s.taken
  held : v.heldNotices = []
  dropped : v.noticesDropped = s.noticesDropped
  causes : ∀ i, s.causes.getLsbD i = true → v.causes.getLsbD i = true
  others : ∀ p, p < s.capacity → (∀ i, i < ns.length → (s.written.toNat + i) % s.capacity ≠ p) →
    v.peekWords (s.layout.noticeLog + 16 * p) 4 = s.peekWords (s.layout.noticeLog + 16 * p) 4
  places : ∀ (i : Nat) (h : i < ns.length), (v.peekWords (s.slot i) 4).toList = ns[i].words
    ∧ v.causes.getLsbD ns[i].cause.index = true

/-- The words of the region after a notice is written: its record in its place, W and the held count in the control page. -/
theorem State.logged_peekWords (s : State) (n : Notice) (held : List Notice) (off k : Nat) :
    (s.logged n held).peekWords off k
      = ((s.poke (s.slot 0) n.words).poke (s.layout.controlPage + 4) [s.written + 1, word held.length]).peekWords off k := by
  unfold State.logged State.recorded State.peekWords State.slot State.poke
  simp [State.base]

theorem logged_first {s : State} (h : RegionValid s) (n : Notice) : AllLogged s (s.logged n []) [n] := by
  obtain ⟨room, -, -⟩ := h.capacity_dvd
  have pageLog := h.areasApart.pageLog
  unfold Apart at pageLog
  have frame := s.logged_unitFrame room n []
  have causes : ∀ i, (s.logged n []).causes.getLsbD i = (s.causes.getLsbD i || decide (i = n.cause.index)) :=
    fun i => State.raiseCause_getLsbD _ n.cause i
  have page : ∀ p, p < s.capacity → (s.logged n []).peekWords (s.layout.noticeLog + 16 * p) 4
      = (s.poke (s.slot 0) n.words).peekWords (s.layout.noticeLog + 16 * p) 4 := by
    intro p hp
    rw [State.logged_peekWords, State.peekWords_poke_apart]
    simp only [List.length_cons, List.length_nil] at pageLog ⊢
    omega
  refine ⟨frame, ?_, ?_, ?_, ?_, fun i e => by rw [causes, e]; rfl, fun p hp apart => ?_, fun i hi => ?_⟩
  · simp [State.logged, State.recorded, word]
  · simp [State.logged, State.recorded]
  · simp [State.logged, State.recorded]
  · simp [State.logged, State.recorded]
  · rw [page p hp, State.peekWords_poke_apart]
    have := apart 0 (by simp)
    unfold State.slot
    show _ ∨ _ + 4 * 4 ≤ _
    omega
  · obtain rfl : i = 0 := by simpa using hi
    refine ⟨?_, by rw [causes]; simp⟩
    have inLog := page ((s.written.toNat + 0) % s.capacity) (Nat.mod_lt _ room)
    have words : n.words
        = (#v[n.words.getD 0 0, n.words.getD 1 0, n.words.getD 2 0, n.words.getD 3 0] : Vector Word 4).toList := rfl
    unfold State.slot at inLog ⊢
    rw [inLog, words, State.peekWords_poke]
    rfl

theorem handNotices_room (ns : List Notice) : ∀ {s : State}, RegionValid s → s.failing = none → s.heldNotices = [] →
    s.logOccupancy + ns.length ≤ s.capacity → ∃ v, handNotices ns s = .ok false v ∧ AllLogged s v ns := by
  induction ns with
  | nil =>
    intro s h _ held _
    exact ⟨s, rfl, .refl s, by simp [word], rfl, held, rfl, fun _ e => e, fun _ _ _ => rfl, fun i hi => by simp at hi⟩
  | cons n ns ih =>
    intro s h sound held fits
    obtain ⟨room, dvd, small⟩ := h.capacity_dvd
    have length : (n :: ns).length = ns.length + 1 := rfl
    have hasRoom : s.logHasRoom = true := by
      unfold State.logHasRoom
      exact decide_eq_true (by omega)
    have first := logged_first h n
    generalize hs1 : s.logged n [] = s1 at first
    have eq1 := first.frame.frame
    have capacity : s1.capacity = s.capacity := by rw [eq1]
    have layout : s1.layout = s.layout := by rw [eq1]
    have h1 : RegionValid s1 := h.of_service (by rw [eq1]; rfl)
    have w1 : s1.written = s.written + word 1 := first.written
    have occupancy : s1.logOccupancy = s.logOccupancy + 1 := by
      unfold State.logOccupancy at fits ⊢
      rw [w1, first.taken]
      exact word_sub_succ (by rw [length] at fits; omega)
    obtain ⟨v, run, rest⟩ := ih h1 (by rw [eq1.failing, sound]) first.held (by rw [occupancy, capacity]; omega)
    have number : ∀ i, (s1.written.toNat + i) % s.capacity = (s.written.toNat + (i + 1)) % s.capacity := by
      intro i
      unfold word at w1
      rw [w1, BitVec.toNat_add, BitVec.toNat_ofNat, Nat.add_mod, Nat.mod_mod_of_dvd _ dvd, ← Nat.add_mod]
      congr 1
      omega
    have slot : ∀ i, s1.slot i = s.slot (i + 1) := by
      intro i
      unfold State.slot
      rw [layout, capacity, number]
    refine ⟨v, ?_, first.frame.trans rest.frame, ?_, rest.taken.trans first.taken, rest.held,
      rest.dropped.trans first.dropped, fun i e => rest.causes i (first.causes i e), fun p hp apart => ?_, fun i hi => ?_⟩
    · unfold handNotices
      rw [Act.bind_ok (receiveNotice_logged sound held hasRoom n)]
      show ((do let r ← handNotices ns; pure (false || r) : Act Bool) (s.logged n [])) = _
      rw [hs1, Act.bind_ok run]
      rfl
    · rw [rest.written, w1]
      unfold word
      rw [BitVec.add_assoc, ← BitVec.ofNat_add, Nat.add_comm, length]
    · have others := rest.others p (by rw [capacity]; exact hp) fun i hi => by
        rw [capacity, number]
        exact apart (i + 1) (by omega)
      rw [layout] at others
      rw [others]
      exact first.others p hp fun i hi => apart i (by simp at hi; omega)
    · cases i with
      | zero =>
        obtain ⟨words, cause⟩ := first.places 0 (by simp)
        refine ⟨?_, rest.causes _ cause⟩
        have others := rest.others ((s.written.toNat + 0) % s.capacity) (by rw [capacity]; exact Nat.mod_lt _ room) fun i hi => by
          rw [capacity, number]
          exact (slot_ne (by omega) (by omega)).symm
        rw [layout] at others
        unfold State.slot at words ⊢
        rw [others]
        exact words
      | succ i =>
        have place := rest.places i (by omega)
        rw [slot] at place
        exact place

/-! ### Notices handed over in the course of a work -/

/-- The notice unit that two states show alike is one. -/
theorem SameView.sameUnit {s v t : State} (h : SameView v t) (frame : NoticeFrame s v) : SameUnit s v t where
  counts := h.counts
  held := h.held
  flags := h.flags
  causes := h.causes
  bytes r hr i hi := by
    have base : v.base = s.base := frame.base
    have layout : v.layout = s.layout := by rw [frame]
    have capacity : v.capacity = s.capacity := by rw [frame]
    simp only [State.noticeAreas, List.mem_cons, List.not_mem_nil, or_false] at hr
    rcases hr with rfl | rfl
    · exact h.bytes (s.layout.controlPage, 12) (by simp [State.unitPlaces, layout]) _ (by rw [base]; simp only; omega)
        (by rw [base]; simp only at hi ⊢; omega)
    · exact h.bytes (s.layout.noticeLog, 16 * s.capacity) (by simp [State.unitPlaces, layout, capacity]) _
        (by rw [base]; simp only; omega) (by rw [base]; simp only at hi ⊢; omega)

/-- The notices go to a unit that ends as the one that received them from `s` (R146 to R151). -/
theorem NoticesGo.of_run {s v t : State} {ns : List Notice} {missed unmarked : Bool} (region : RegionValid s)
    (sound : s.failing = none) (run : handNotices ns s = .ok missed v)
    (same : SameUnit s { v with noticesDropped := v.noticesDropped || (missed && unmarked) } t) (base : t.base = s.base) :
    NoticesGo s t ns unmarked := by
  have room : s.heldNotices = [] → s.logOccupancy + ns.length ≤ s.capacity → missed = false ∧ AllLogged s v ns := by
    intro held fits
    obtain ⟨v', run', all⟩ := handNotices_room ns region sound held fits
    rw [run] at run'
    cases run'
    exact ⟨rfl, all⟩
  refine ⟨⟨missed, v, run, same⟩, fun idle => ?_, fun held fits => ?_, fun held fits i hi => ?_⟩
  · subst idle
    obtain ⟨rfl, rfl⟩ := Act.pure_eq_ok.mp run
    exact ⟨same.counts.1, same.counts.2, same.held, same.flags.1, by simpa using same.flags.2⟩
  · obtain ⟨rfl, all⟩ := room held fits
    exact ⟨same.counts.1.trans all.written, same.counts.2.trans all.taken, same.held.trans all.held,
      by simpa [all.dropped] using same.flags.2⟩
  · obtain ⟨-, all⟩ := room held fits
    obtain ⟨positive, dvd, -⟩ := region.capacity_dvd
    obtain ⟨words, cause⟩ := all.places i hi
    refine ⟨?_, by rw [same.causes _ ns[i].cause_index]; exact cause⟩
    have inLog : 16 * ((s.written.toNat + i) % s.capacity) + 16 ≤ 16 * s.capacity := by
      have := Nat.mod_lt (s.written.toNat + i) positive
      omega
    have vbase : v.base = s.base := all.frame.frame.base
    have alike : t.peekWords (s.slot i) 4 = v.peekWords (s.slot i) 4 := by
      unfold State.peekWords
      rw [base, vbase]
      refine Memory.words_congr fun x low high => ?_
      unfold State.slot at low high
      have byte := same.bytes (s.layout.noticeLog, 16 * s.capacity) (by simp [State.noticeAreas])
        (x - (s.base + s.layout.noticeLog)) (by simp only; omega)
      rw [show s.base + s.layout.noticeLog + (x - (s.base + s.layout.noticeLog)) = x by omega] at byte
      exact byte
    rw [State.slot_eq dvd, alike, words]

end Sys2Proof.Machine
end

-- ==== Proofs: the course of a work ====
section
/-! The places a work touches, the changes of a cache set, the settling of a work, and what a completion leaves (R11, R164, R166). -/

namespace Sys2Proof.Machine

/-! ### The places a work touches -/

/-- The cell at a list's next index lies in the intake lists. -/
theorem RegionValid.cell_within {s : State} (h : RegionValid s) (k : ListNo) :
    s.layout.intakeLists ≤ s.nextCell k ∧ s.nextCell k + 64 ≤ s.layout.intakeLists + 8 * s.layout.cellsPerList * 64 := by
  have next := h.next k
  have lists : k.val * s.layout.cellsPerList ≤ 7 * s.layout.cellsPerList := Nat.mul_le_mul_right _ (by have := k.isLt; omega)
  unfold State.nextCell Layout.cell
  generalize k.val * s.layout.cellsPerList = before at *
  omega

/-- A record of the table lies in the table. -/
theorem Layout.record_within (l : Layout) {n : Nat} (h : n < l.tableSize) :
    l.accountTable ≤ l.record n ∧ l.record n + 64 ≤ l.accountTable + 64 * l.tableSize := by
  unfold Layout.record
  omega

/-- Every one of a list of areas shares no byte with an area. -/
def AllApart (areas : List (Nat × Nat)) (q : Nat × Nat) : Prop := ∀ r ∈ areas, Apart r q

/-- The bytes of an area apart from those that may change. -/
theorem KeepsBytes.read {s t : State} {areas : List (Nat × Nat)} (h : KeepsBytes s t areas) {q : Nat × Nat}
    (apart : AllApart areas q) {x : Nat} (low : s.base + q.1 ≤ x) (high : x < s.base + q.1 + q.2) :
    t.mem.read x = s.mem.read x :=
  h x fun r hr => by
    have := apart r hr
    unfold Apart at this
    omega

/-- The words of an area apart from those that may change. -/
theorem KeepsBytes.peekWords {s t : State} {areas : List (Nat × Nat)} (h : KeepsBytes s t areas) (base : t.base = s.base)
    {off k : Nat} (apart : AllApart areas (off, 4 * k)) : t.peekWords off k = s.peekWords off k := by
  unfold State.peekWords
  rw [base]
  exact Memory.words_congr fun x low high => h.read apart low high

@[inherit_doc KeepsBytes.peekWords]
theorem KeepsBytes.peek {s t : State} {areas : List (Nat × Nat)} (h : KeepsBytes s t areas) (base : t.base = s.base)
    {off : Nat} (apart : AllApart areas (off, 4)) : t.peek off = s.peek off := by
  unfold State.peek
  rw [base]
  exact Memory.word_congr fun x low high => h.read apart low high

/-- The areas that a take writes: word 0 of the cell, and the word of its list's index (R164). -/
def State.takeAreas (s : State) (k : ListNo) : List (Nat × Nat) := [(s.nextCell k, 4), s.indexArea k]

/-- The areas keep clear of what the notice unit works on. -/
def OffUnit (s : State) (areas : List (Nat × Nat)) : Prop := ∀ q ∈ s.unitPlaces, AllApart areas q

theorem RegionValid.take_offUnit {s : State} (h : RegionValid s) (k : ListNo) : OffUnit s (s.takeAreas k) := by
  obtain ⟨pageTable, pageLog, pageLists, tableLog, tableLists, logLists⟩ := h.areasApart
  have cell := h.cell_within k
  have := k.isLt
  intro q hq r hr
  simp only [State.unitPlaces, State.takeAreas, State.indexArea, List.mem_cons, List.not_mem_nil, or_false] at hq hr
  unfold Apart at *
  rcases hq with rfl | rfl <;> rcases hr with rfl | rfl <;> simp only at * <;> omega

theorem RegionValid.record_offUnit {s : State} (h : RegionValid s) {n : Nat} (hn : n < s.layout.tableSize) :
    OffUnit s [(s.layout.record n, 64)] := by
  obtain ⟨pageTable, pageLog, pageLists, tableLog, tableLists, logLists⟩ := h.areasApart
  have record := s.layout.record_within hn
  intro q hq r hr
  simp only [State.unitPlaces, List.mem_cons, List.not_mem_nil, or_false] at hq hr
  unfold Apart at *
  rcases hq with rfl | rfl <;> subst hr <;> simp only at * <;> omega

theorem RegionValid.take_record {s : State} (h : RegionValid s) (k : ListNo) {n : Nat} (hn : n < s.layout.tableSize) :
    AllApart (s.takeAreas k) (s.layout.record n, 64) := by
  obtain ⟨pageTable, pageLog, pageLists, tableLog, tableLists, logLists⟩ := h.areasApart
  have record := s.layout.record_within hn
  have cell := h.cell_within k
  have := k.isLt
  intro r hr
  simp only [State.takeAreas, State.indexArea, List.mem_cons, List.not_mem_nil, or_false] at hr
  unfold Apart at *
  rcases hr with rfl | rfl <;> simp only at * <;> omega

theorem RegionValid.notice_record {s : State} (h : RegionValid s) {n : Nat} (hn : n < s.layout.tableSize) :
    AllApart s.noticeAreas (s.layout.record n, 64) := by
  obtain ⟨pageTable, pageLog, pageLists, tableLog, tableLists, logLists⟩ := h.areasApart
  have record := s.layout.record_within hn
  intro r hr
  simp only [State.noticeAreas, List.mem_cons, List.not_mem_nil, or_false] at hr
  unfold Apart at *
  rcases hr with rfl | rfl <;> simp only at * <;> omega

/-- What a work writes lies apart from the word of the list's index. -/
theorem RegionValid.work_index {s : State} (h : RegionValid s) (k : ListNo) {n : Nat} (hn : n < s.layout.tableSize) :
    AllApart ((s.layout.record n, 64) :: s.noticeAreas) (s.indexArea k) := by
  obtain ⟨pageTable, pageLog, pageLists, tableLog, tableLists, logLists⟩ := h.areasApart
  have record := s.layout.record_within hn
  have := k.isLt
  intro r hr
  simp only [State.noticeAreas, State.indexArea, List.mem_cons, List.not_mem_nil, or_false] at *
  unfold Apart at *
  rcases hr with rfl | rfl | rfl <;> simp only at * <;> omega

/-- A cell lies apart from the index words, the records and what the notice unit writes. -/
theorem RegionValid.cell_apart {s : State} (h : RegionValid s) (k : ListNo) {n : Nat} (hn : n < s.layout.tableSize) :
    ∀ q ∈ s.indexArea k :: (s.layout.record n, 64) :: s.noticeAreas, AllApart [(s.nextCell k, 64)] q := by
  obtain ⟨pageTable, pageLog, pageLists, tableLog, tableLists, logLists⟩ := h.areasApart
  have record := s.layout.record_within hn
  have cell := h.cell_within k
  have := k.isLt
  intro q hq r hr
  simp only [State.noticeAreas, State.indexArea, List.mem_cons, List.not_mem_nil, or_false] at *
  unfold Apart at *
  rcases hq with rfl | rfl | rfl | rfl <;> subst hr <;> simp only at * <;> omega

/-! ### The course of a work -/

/-- The state `L` with the cells, the engine, the cache, the notice unit and the memory of `u`: all that a work changes besides the
zones, the counts and the watch pool. -/
def State.besides (L u : State) : State :=
  { L with
    mem := u.mem
    lists := u.lists
    lastServed := u.lastServed
    engine := u.engine
    cacheSets := u.cacheSets
    written := u.written
    taken := u.taken
    heldNotices := u.heldNotices
    logFull := u.logFull
    noticesDropped := u.noticesDropped
    causes := u.causes
    messages := u.messages
    lines := u.lines }

/-- The state `s` with the zones, the counts and the watch pool of `L`. -/
def State.withLedger (s L : State) : State :=
  { s with
    zones := L.zones
    live := L.live
    highest := L.highest
    watch := L.watch
    dueQueue := L.dueQueue
    unwatched := L.unwatched }

/-- A change of the zones, the counts or the watch pool, that depends on nothing a work changes besides. -/
structure Ledgerwise (f : State → State) : Prop where
  besides : ∀ L u, f (L.besides u) = (f L).besides u
  change : ∀ L, f L = L.withLedger (f L)

/-- The state `u` in the course of a work that began at `w`, on a part that stood as `s`: the zones, the counts and the pool are
those of `L`, the lists and the engine those of `w`; since then no byte but those of the areas has changed, and of the causes the
notice unit's alone. -/
structure During (s w L u : State) (areas : List (Nat × Nat)) : Prop where
  ledger : L = s.withLedger L
  frame : u = L.besides u
  intake : u.lists = w.lists ∧ u.lastServed = w.lastServed ∧ u.engine = w.engine
  start : w.base = s.base
  bytes : KeepsBytes w u areas
  causes : ∀ i, 2 ≤ i → u.causes.getLsbD i = s.causes.getLsbD i

theorem Ledgerwise.comp {f g : State → State} (hg : Ledgerwise g) (hf : Ledgerwise f) : Ledgerwise fun s => g (f s) where
  besides L u := by rw [hf.besides, hg.besides]
  change L := (hg.change (f L)).trans (congrArg (fun x => x.withLedger (g (f L))) (hf.change L))

theorem Ledgerwise.refl : Ledgerwise fun s => s := ⟨fun _ _ => rfl, fun _ => rfl⟩

section
variable {s w L u : State} {areas : List (Nat × Nat)}

theorem During.base (d : During s w L u areas) : u.base = s.base := by
  unfold State.base
  rw [d.frame, d.ledger]
  rfl

theorem During.held (d : During s w L u areas) :
    u.layout = s.layout ∧ u.capacity = s.capacity ∧ u.failing = s.failing ∧ u.cacheMode = s.cacheMode := by
  rw [d.frame, d.ledger]
  exact ⟨rfl, rfl, rfl, rfl⟩

/-- A change of the ledger changes nothing of what a work changes besides. -/
theorem During.step (d : During s w L u areas) {f : State → State} (hf : Ledgerwise f) : f u = (f L).besides u := by
  have := hf.besides L u
  rwa [← d.frame] at this

/-- A change of the ledger, on the state of the work and on that which shows its ledger. -/
theorem During.ledgerwise (d : During s w L u areas) {f : State → State} (hf : Ledgerwise f) : During s w (f L) (f u) areas := by
  have step := d.step hf
  have ledger : f L = s.withLedger (f L) := (hf.change L).trans (congrArg (fun x => x.withLedger (f L)) d.ledger)
  refine ⟨ledger, ?_, ?_, d.start, ?_, ?_⟩
  · rw [step]; rfl
  · rw [step]; exact d.intake
  · rw [step]; exact d.bytes
  · rw [step]; exact d.causes

/-- A change of the account's set. -/
theorem During.mapSet (d : During s w L u areas) (n : Nat) (f : CacheSet → CacheSet) : During s w L (u.mapSet n f) areas where
  ledger := d.ledger
  frame := by
    have := d.frame
    unfold State.mapSet
    rw [this]
    rfl
  intake := d.intake
  start := d.start
  bytes := d.bytes
  causes := d.causes

/-- A write within the areas. -/
theorem During.poke (d : During s w L u areas) {off : Nat} {ws : List Word}
    (within : ∃ r ∈ areas, r.1 ≤ off ∧ off + 4 * ws.length ≤ r.1 + r.2) : During s w L (u.poke off ws) areas where
  ledger := d.ledger
  frame := by
    have := d.frame
    unfold State.poke
    rw [this]
    rfl
  intake := d.intake
  start := d.start
  bytes := d.bytes.trans (d.base.trans d.start.symm) (.poke within)
  causes := d.causes

theorem During.mono (d : During s w L u areas) {areas' : List (Nat × Nat)} (sub : areas ⊆ areas') : During s w L u areas' :=
  ⟨d.ledger, d.frame, d.intake, d.start, d.bytes.mono sub, d.causes⟩

/-- What the notice unit does stays within its own areas. -/
theorem During.unit (d : During s w L u areas) {x : State} (f : UnitFrame u x) : During s w L x (areas ++ s.noticeAreas) where
  ledger := d.ledger
  frame := by
    have frame := f.frame
    have := d.frame
    rw [frame, this]
    rfl
  intake := by rw [f.frame]; exact d.intake
  start := d.start
  bytes := by
    have areas : u.noticeAreas = s.noticeAreas := by
      unfold State.noticeAreas
      rw [d.held.1, d.held.2.1]
    have unit := f.bytes
    rw [areas] at unit
    exact (d.bytes.mono (List.subset_append_left _ _)).trans (d.base.trans d.start.symm) (unit.mono (List.subset_append_right _ _))
  causes i hi := (f.causes i hi).trans (d.causes i hi)

/-- A flag of the unit set. -/
theorem During.dropped (d : During s w L u areas) (b : Bool) : During s w L { u with noticesDropped := b } areas where
  ledger := d.ledger
  frame := by
    have := d.frame
    rw [this]
    rfl
  intake := d.intake
  start := d.start
  bytes := d.bytes
  causes := d.causes

/-- A work that has not yet written where the notice unit works, nor changed the unit. -/
theorem During.sameView (d : During s w L u areas) (region : RegionValid s) (sound : s.failing = none)
    {written : List (Nat × Nat)} (keeps : KeepsBytes s u written) (off : OffUnit s written)
    (counts : u.written = s.written ∧ u.taken = s.taken) (held : u.heldNotices = s.heldNotices)
    (flags : u.logFull = s.logFull ∧ u.noticesDropped = s.noticesDropped) (causes : u.causes = s.causes) : SameView s u where
  sound := ⟨sound, d.held.2.2.1.trans sound⟩
  room := region.capacity_dvd.1
  base := d.base
  layout := d.held.1
  capacity := d.held.2.1
  counts := counts
  held := held
  flags := flags
  causes i _ := by rw [causes]
  bytes r hr x low high := keeps.read (off r hr) low high

end

/-! ### One set of the cache under fetches and writes of one account -/

/-- The way of a set that holds an account (R133). -/
def CacheSet.wayOf (cs : CacheSet) (n : Nat) : Option (Fin 4) := cs.findWay fun w => wayHolds w (tagOf n)

theorem State.hitWay_eq (s : State) (n : Nat) : s.hitWay n = s.cacheSets[setOf n].wayOf n := rfl

@[simp] theorem CacheSet.use_ways (cs : CacheSet) (w : Fin 4) : (cs.use w).ways = cs.ways := by
  unfold CacheSet.use
  split
  · rfl
  · split
    · rfl
    · split <;> rfl

/-- The order bits point away from a way at once, and stay so (R136). -/
theorem CacheSet.use_use (cs : CacheSet) (w : Fin 4) : (cs.use w).use w = cs.use w := by
  unfold CacheSet.use
  split
  · rfl
  · split
    · rfl
    · split <;> rfl

theorem CacheSet.rewrite_use (cs : CacheSet) (n : Nat) (ws : Vector Word 16) (w : Fin 4) :
    (cs.rewrite n ws).use w = (cs.use w).rewrite n ws := by
  unfold CacheSet.use
  split
  · rfl
  · split
    · rfl
    · split <;> rfl

theorem CacheSet.rewrite_way (cs : CacheSet) (n : Nat) (ws : Vector Word 16) (w : Fin 4) :
    (cs.rewrite n ws).ways[w] = if wayHolds cs.ways[w] (tagOf n) then some ⟨tagOf n, ws⟩ else cs.ways[w] := by
  unfold CacheSet.rewrite
  simp

/-- A write-through leaves the ways that hold an account as they are (R139). -/
theorem CacheSet.rewrite_holds (cs : CacheSet) (n : Nat) (ws : Vector Word 16) (w : Fin 4) :
    wayHolds (cs.rewrite n ws).ways[w] (tagOf n) = wayHolds cs.ways[w] (tagOf n) := by
  rw [cs.rewrite_way]
  split
  · next h => rw [h]; simp [wayHolds]
  · rfl

theorem CacheSet.rewrite_wayOf (cs : CacheSet) (n : Nat) (ws : Vector Word 16) : (cs.rewrite n ws).wayOf n = cs.wayOf n := by
  unfold CacheSet.wayOf CacheSet.findWay
  simp only [cs.rewrite_holds]

/-- The last write-through is the one that stands. -/
theorem CacheSet.rewrite_rewrite (cs : CacheSet) (n : Nat) (ws vs : Vector Word 16) :
    (cs.rewrite n ws).rewrite n vs = cs.rewrite n vs := by
  have ways : ((cs.rewrite n ws).rewrite n vs).ways = (cs.rewrite n vs).ways := by
    ext w hw : 1
    have := (cs.rewrite n ws).rewrite_way n vs ⟨w, hw⟩
    rw [cs.rewrite_holds] at this
    have once := cs.rewrite_way n vs ⟨w, hw⟩
    have before := cs.rewrite_way n ws ⟨w, hw⟩
    simp only [Fin.getElem_fin] at *
    rw [this, once, before]
    split <;> rfl
  exact congrArg (fun x => ({ cs with ways := x } : CacheSet)) ways

theorem CacheSet.rewrite_eq_updated (cs : CacheSet) (n : Nat) (ws : Vector Word 16) : cs.rewrite n ws = cs.updated n ws := by
  have ways : (cs.rewrite n ws).ways = (cs.updated n ws).ways := by
    ext w hw : 1
    have := cs.rewrite_way n ws ⟨w, hw⟩
    simp only [Fin.getElem_fin] at this
    rw [this]
    unfold CacheSet.updated
    rw [Vector.getElem_map]
    cases cs.ways[w] with
    | none => rfl
    | some l => by_cases tag : l.tag = n / 64 <;> simp [wayHolds, tagOf, tag]
  exact congrArg (fun x => ({ cs with ways := x } : CacheSet)) ways

/-- A further fetch of the account changes the set no more: it hits the way the order bits point away from, or the cache does not
allocate (R135 to R138). -/
def CacheSet.Settled (cs : CacheSet) (n : Nat) (mode : CacheMode) : Prop :=
  (∃ w, cs.wayOf n = some w ∧ cs.use w = cs) ∨ (cs.wayOf n = none ∧ mode ≠ .normal)

theorem CacheSet.Settled.rewrite {cs : CacheSet} {n : Nat} {mode : CacheMode} (h : cs.Settled n mode) (ws : Vector Word 16) :
    (cs.rewrite n ws).Settled n mode := by
  unfold CacheSet.Settled at *
  rw [cs.rewrite_wayOf]
  refine h.imp (fun ⟨w, hit, used⟩ => ⟨w, hit, ?_⟩) id
  rw [cs.rewrite_use, used]

theorem CacheSet.wayOf_holds {cs : CacheSet} {n : Nat} {w : Fin 4} (h : cs.wayOf n = some w) :
    wayHolds cs.ways[w] (tagOf n) = true := by
  simpa using List.find?_some h

/-- A fill puts the account into one way (R135). -/
theorem CacheSet.fill_wayOf {cs : CacheSet} {n : Nat} (miss : cs.wayOf n = none) (ws : Vector Word 16) :
    (cs.fill n ws).wayOf n = some cs.fillWay := by
  have holds : ∀ w : Fin 4, wayHolds (cs.fill n ws).ways[w] (tagOf n) = decide (w = cs.fillWay) := by
    intro w
    unfold CacheSet.fill
    simp only [CacheSet.use_ways, Fin.getElem_fin, Vector.getElem_set]
    by_cases e : w = cs.fillWay
    · simp [e, wayHolds]
    · have : ¬ cs.fillWay.val = w.val := fun h => e (Fin.ext h.symm)
      rw [if_neg this, decide_eq_false e]
      have := List.find?_eq_none.mp miss w (List.mem_finRange w)
      simpa using this
  unfold CacheSet.wayOf CacheSet.findWay
  simp only [holds]
  generalize cs.fillWay = v
  revert v
  decide

/-- The set after a fetch that finds a record. -/
theorem State.setAfterFetch_settled {s : State} {n : Nat} {a : Account} (h : s.fetched n = .record a) :
    (s.setAfterFetch n).Settled n s.cacheMode := by
  unfold State.setAfterFetch
  cases hit : s.hitWay n with
  | some w =>
    have used : (s.cacheSets[setOf n].use w).wayOf n = some w := by
      unfold CacheSet.wayOf CacheSet.findWay
      rw [CacheSet.use_ways]
      exact hit
    exact .inl ⟨w, used, CacheSet.use_use _ _⟩
  | none =>
    have miss : s.cached n = none := by
      unfold State.cached
      rw [hit]
    simp only
    split
    · refine .inl ⟨_, CacheSet.fill_wayOf hit _, ?_⟩
      unfold CacheSet.fill
      exact CacheSet.use_use _ _
    · next other =>
      refine .inr ⟨hit, fun normal => ?_⟩
      unfold State.fetched at h
      rw [miss] at h
      simp only at h
      split at h
      · cases h
      · next sound => exact other ⟨normal, by simpa using sound⟩

/-- A fetch of an account whose record was written finds what was written and leaves its set as it is. -/
theorem State.refetch {u : State} {n : Nat} {cs : CacheSet} {ws : Vector Word 16} (own : u.cacheSets[setOf n] = cs.rewrite n ws)
    (settled : cs.Settled n u.cacheMode) (table : u.peekWords (u.layout.record n) 16 = ws) (sound : isCorrupt ws = false) :
    u.fetched n = judge ws ∧ u.setAfterFetch n = u.cacheSets[setOf n] := by
  unfold State.fetched State.setAfterFetch State.cached
  rw [u.hitWay_eq, own]
  rcases settled.rewrite ws with ⟨w, hit, used⟩ | ⟨miss, off⟩
  · have line : (cs.rewrite n ws).ways[w] = some ⟨tagOf n, ws⟩ := by
      rw [cs.rewrite_way, if_pos]
      rw [← cs.rewrite_holds n ws]
      exact CacheSet.wayOf_holds hit
    simp only [hit, line, Option.map_some, used, and_self]
  · simp only [miss, off, false_and, ↓reduceIte, table, sound, Bool.false_eq_true, and_self]

section
variable {s w L u : State} {areas : List (Nat × Nat)} {n : Nat} {cs : CacheSet}

/-! ### The notice unit unseen by other changes -/

theorem SameView.besides (v : SameView s u) (ledger : L = s.withLedger L) : SameView s (L.besides u) := by
  have base : (L.besides u).base = s.base := by
    unfold State.base
    rw [ledger]
    rfl
  refine ⟨⟨v.sound.1, ?_⟩, v.room, base, ?_, ?_, v.counts, v.held, v.flags, v.causes, v.bytes⟩
  · rw [ledger]; exact v.sound.1
  · rw [ledger]; rfl
  · rw [ledger]; rfl

theorem SameView.ledgerwise (v : SameView s u) (d : During s w L u areas) {f : State → State} (hf : Ledgerwise f) :
    SameView s (f u) := by
  rw [d.step hf]
  exact v.besides (d.ledgerwise hf).ledger

theorem SameView.mapSet (v : SameView s u) (n : Nat) (f : CacheSet → CacheSet) : SameView s (u.mapSet n f) :=
  ⟨v.sound, v.room, v.base, v.layout, v.capacity, v.counts, v.held, v.flags, v.causes, v.bytes⟩

theorem SameView.pokeApart (v : SameView s u) {off : Nat} {ws : List Word} (apart : OffUnit s [(off, 4 * ws.length)]) :
    SameView s (u.poke off ws) := by
  refine ⟨v.sound, v.room, v.base, v.layout, v.capacity, v.counts, v.held, v.flags, v.causes, fun r hr x low high => ?_⟩
  have place := apart r hr (off, 4 * ws.length) (by simp)
  unfold Apart at place
  rw [← v.bytes r hr x low high]
  refine Memory.read_store_apart ?_
  rw [wordsBytes_length, v.base]
  simp only at place
  omega

/-! ### The account's set in the course of a work -/

/-- The set of the account is `cs`, and the others are as they were. -/
structure OwnSet (s u : State) (n : Nat) (cs : CacheSet) : Prop where
  own : u.cacheSets[setOf n] = cs
  others : KeepsOtherSets s u n

theorem OwnSet.mapSet (h : OwnSet s u n cs) (f : CacheSet → CacheSet) : OwnSet s (u.mapSet n f) n (f cs) where
  own := by
    unfold State.mapSet
    rw [h.own]
    exact Vector.getElem_set_self _
  others i hi := (u.mapSet_keeps n f i hi).trans (h.others i hi)

theorem OwnSet.of_eq (h : OwnSet s u n cs) {x : State} (e : x.cacheSets = u.cacheSets) : OwnSet s x n cs where
  own := by rw [e]; exact h.own
  others i hi := by rw [e]; exact h.others i hi

/-- What a fetch finds and leaves depends on the cache and the record alone (R134 to R138). -/
theorem State.fetched_congr (sets : u.cacheSets = s.cacheSets) (mode : u.cacheMode = s.cacheMode)
    (table : u.peekWords (u.layout.record n) 16 = s.peekWords (s.layout.record n) 16) :
    u.fetched n = s.fetched n ∧ u.setAfterFetch n = s.setAfterFetch n := by
  unfold State.fetched State.setAfterFetch State.cached State.hitWay
  rw [sets, mode, table]
  exact ⟨rfl, rfl⟩

theorem State.fetchedSets_own (sound : s.failing = none) : (s.fetchedSets n)[setOf n] = s.setAfterFetch n := by
  unfold State.fetchedSets
  rw [fetchRecord_ok sound]
  exact Vector.getElem_set_self _

/-- The fetch that begins a work finds what stood when the work began. -/
theorem During.fetch (d : During s w L u areas) (sound : s.failing = none) (sets : u.cacheSets = s.cacheSets)
    {written : List (Nat × Nat)} (keeps : KeepsBytes s u written) (apart : AllApart written (s.layout.record n, 64)) :
    fetchRecord n u = .ok (s.fetched n) (u.mapSet n fun _ => s.setAfterFetch n)
      ∧ OwnSet s (u.mapSet n fun _ => s.setAfterFetch n) n (s.setAfterFetch n) := by
  obtain ⟨layout, -, failing, mode⟩ := d.held
  have table : u.peekWords (u.layout.record n) 16 = s.peekWords (s.layout.record n) 16 := by
    rw [layout]
    exact keeps.peekWords d.base apart
  obtain ⟨found, set⟩ := State.fetched_congr (n := n) sets mode table
  have start : OwnSet s u n u.cacheSets[setOf n] := ⟨rfl, fun i _ => by rw [sets]⟩
  refine ⟨?_, start.mapSet _⟩
  rw [fetchRecord_ok (failing.trans sound), found, set]

/-! ### A record written, and marked where a notice is dropped (R151) -/

theorem Account.asWritten_marked (a : Account) (flags : AccountFlags) (sequence : Word) :
    { a.asWritten with flags := flags, sequence := sequence }.asWritten
      = { a with flags := flags, sequence := sequence }.asWritten := by
  obtain ⟨tag, cls, state, zone, flags', bakeCount, exposure, mark, aux, lastCredit, entry, expiry, hostRef, sequence'⟩ := a
  cases state <;> rfl

theorem Account.asWritten_flags (a : Account) : a.asWritten.flags = a.flags := by
  unfold Account.asWritten
  split <;> rfl

theorem Account.asWritten_sequence (a : Account) : a.asWritten.sequence = a.sequence := by
  unfold Account.asWritten
  split <;> rfl

theorem recordWords_congr {a b : Account} (h : a.asWritten = b.asWritten) : recordWords a = recordWords b := by
  unfold recordWords
  rw [h]

/-- An account with NOTICE_MISSED set by a further write (R151). -/
def Account.missed (a : Account) : Account :=
  { a with flags := { a.flags with noticeMissed := true }, sequence := a.sequence + 1 }

/-- What the record of a written account is judged to be (R3). -/
theorem judge_recordWords {e : Account} (placed : e.state.inZone = true → e.zone ≠ none) (byte : e.bakeCount < 256) :
    judge (recordWords e) = if 15 < e.bakeCount then .malformed else .record e.asWritten := by
  unfold judge
  rw [accountOf_recordWords e placed, Nat.mod_eq_of_lt byte]
  by_cases high : 15 < e.bakeCount
  · rw [if_pos high, if_pos high]
  · rw [if_neg high, if_neg high, ← e.asWritten_bakeCount]

/-- The state in which a written record stands: in its line, where it has one, and in the table. -/
structure Stands (s u : State) (n : Nat) (cs : CacheSet) (ws : Vector Word 16) : Prop where
  set : OwnSet s u n (cs.rewrite n ws)
  table : u.peekWords (s.layout.record n) 16 = ws

theorem Stands.written {ws : Vector Word 16} (h : Stands s u n cs ws) : ∀ vs, u.cached n = some vs → vs = ws := by
  intro vs hit
  unfold State.cached at hit
  rw [u.hitWay_eq, h.set.own] at hit
  cases way : (cs.rewrite n ws).wayOf n with
  | none => rw [way] at hit; cases hit
  | some v =>
    have holds := CacheSet.wayOf_holds way
    rw [cs.rewrite_holds] at holds
    rw [way] at hit
    simp only at hit
    rw [cs.rewrite_way, if_pos holds] at hit
    simpa using hit.symm

/-- A write-through puts the record where it stands (R139). -/
theorem During.writeThrough (d : During s w L u areas) (sound : s.failing = none) (set : OwnSet s u n cs)
    (place : (s.layout.record n, 64) ∈ areas) (a : Account) :
    let e := { a with sequence := a.sequence + 1 }
    ∃ x, writeThrough n a u = .ok e.sequence x ∧ During s w L x areas ∧ Stands s x n cs (recordWords e)
      ∧ x = (u.mapSet n fun c => c.rewrite n (recordWords e)).poke (s.layout.record n) (recordWords e).toList := by
  intro e
  obtain ⟨layout, -, failing, -⟩ := d.held
  have run := writeThrough_ok (failing.trans sound) n a
  simp only at run
  rw [layout] at run
  refine ⟨_, run, (d.mapSet n _).poke ⟨_, place, Nat.le_refl _, by simp⟩,
    ⟨(set.mapSet fun c => c.rewrite n (recordWords e)).of_eq rfl, ?_⟩, rfl⟩
  exact State.peekWords_poke _ _ _ _

theorem Stands.rewrite {ws vs : Vector Word 16} (h : Stands s u n (cs.rewrite n ws) vs) : Stands s u n cs vs :=
  ⟨by have := h.set; rwa [cs.rewrite_rewrite] at this, h.table⟩

/-- The record that stands once a work's notices are handed over. -/
def Account.afterMissed (e : Account) (missed : Bool) : Account :=
  if missed = true ∧ e.flags.noticeMissed = false ∧ e.bakeCount ≤ 15 then e.missed else e

theorem State.afterNotices_eq {ns : List Notice} {missed : Bool} {v : State} (run : handNotices ns s = .ok missed v) (e : Account) :
    s.afterNotices e ns = e.afterMissed missed := by
  unfold State.afterNotices Account.afterMissed
  rw [run]
  cases missed with
  | false => simp only [Bool.false_eq_true, false_and, ↓reduceIte]
  | true => simp only [true_and, Account.missed]

/-- What the marking of an account changes: its record, its set, and the flag of notices that no record can show. -/
structure Marked (u x : State) (record : Nat × Nat) (dropped : Bool) : Prop where
  frame : x = { u with mem := x.mem, cacheSets := x.cacheSets, noticesDropped := u.noticesDropped || dropped }
  bytes : KeepsBytes u x [record]

/-- The marking of an account whose record stands written (R151). -/
theorem During.markMissed (d : During s w L u areas) (sound : s.failing = none) {e : Account}
    (stands : Stands s u n cs (recordWords e)) (settled : cs.Settled n s.cacheMode) (place : (s.layout.record n, 64) ∈ areas)
    (placed : e.state.inZone = true → e.zone ≠ none) (byte : e.bakeCount < 256) (missed : Bool) :
    ∃ x, markMissed n missed u = .ok () x ∧ During s w L x areas ∧ Stands s x n cs (recordWords (e.afterMissed missed))
      ∧ Marked u x (s.layout.record n, 64) (missed && decide (15 < e.bakeCount)) := by
  obtain ⟨layout, -, failing, mode⟩ := d.held
  cases missed with
  | false =>
    refine ⟨u, rfl, d, ?_, by simp, .refl u _⟩
    unfold Account.afterMissed
    rw [if_neg (by simp)]
    exact stands
  | true =>
    obtain ⟨found, kept⟩ := State.refetch stands.set.own (by rwa [mode]) (by rw [layout]; exact stands.table)
      (recordWords_not_corrupt e)
    rw [judge_recordWords placed byte] at found
    have fetch : fetchRecord n u = .ok (u.fetched n) u := by
      rw [fetchRecord_ok (failing.trans sound), kept, State.mapSet_self]
    unfold Machine.markMissed
    rw [if_pos rfl, Act.bind_ok fetch, found]
    by_cases high : 15 < e.bakeCount
    · rw [if_pos high]
      refine ⟨{ u with noticesDropped := true }, rfl, d.dropped true, ?_, by simp [high], .refl u _⟩
      unfold Account.afterMissed
      rw [if_neg (by omega)]
      exact ⟨stands.set.of_eq rfl, stands.table⟩
    · rw [if_neg high]
      simp only [Account.asWritten_flags]
      cases marked : e.flags.noticeMissed with
      | true =>
        refine ⟨u, rfl, d, ?_, by simp [high], .refl u _⟩
        unfold Account.afterMissed
        rw [if_neg (by simp [marked])]
        exact stands
      | false =>
        obtain ⟨x, run, d', stands', written⟩ := d.writeThrough sound stands.set place
          { e.asWritten with flags := { e.flags with noticeMissed := true } }
        have words : recordWords { e.asWritten with
              flags := { e.flags with noticeMissed := true }, sequence := e.asWritten.sequence + 1 }
            = recordWords (e.afterMissed true) := by
          unfold Account.afterMissed
          rw [if_pos ⟨rfl, marked, by omega⟩, e.asWritten_sequence]
          exact recordWords_congr (e.asWritten_marked _ _)
        simp only [words] at stands'
        refine ⟨x, ?_, d', stands'.rewrite, ?_, ?_⟩
        · simp only [Bool.false_eq_true, ↓reduceIte]
          rw [Act.bind_ok run]
          rfl
        · rw [written]
          simp [high, State.mapSet, State.poke]
        · have area : KeepsBytes u x [(s.layout.record n, 64)] := by
            rw [written]
            exact KeepsBytes.poke ⟨_, List.mem_singleton.mpr rfl, Nat.le_refl _, by simp⟩
          exact area

end

section
variable {s w L u : State} {areas : List (Nat × Nat)} {n : Nat} {cs : CacheSet}

/-! ### Steps 5 to 7 of a work (R11) -/

/-- A change of the ledger leaves the record standing. -/
theorem Stands.ledgerwise {ws : Vector Word 16} (h : Stands s u n cs ws) (d : During s w L u areas) {f : State → State}
    (hf : Ledgerwise f) : Stands s (f u) n cs ws := by
  have step := d.step hf
  refine ⟨h.set.of_eq (by rw [step]; rfl), ?_⟩
  rw [← h.table]
  unfold State.peekWords
  rw [(d.ledgerwise hf).base, d.base, step]
  rfl

/-- Notices handed over leave the record standing. -/
theorem Stands.handed {ws : Vector Word 16} (h : Stands s u n cs ws) (d : During s w L u areas) (region : RegionValid s)
    (hn : n < s.layout.tableSize) {x : State} (f : UnitFrame u x) : Stands s x n cs ws := by
  obtain ⟨layout, capacity, -, -⟩ := d.held
  refine ⟨h.set.of_eq (by rw [f.frame]), ?_⟩
  rw [← h.table]
  refine f.bytes.peekWords f.frame.base ?_
  unfold State.noticeAreas
  rw [layout, capacity]
  exact region.notice_record hn

/-- The notice unit as the notices of a work leave it, a dropped one recorded in NOTICES_DROPPED where no record can show it. -/
def UnitGoes (s x : State) (ns : List Notice) (unmarked : Bool) : Prop :=
  ∃ missed v, handNotices ns s = .ok missed v
    ∧ SameUnit s { v with noticesDropped := v.noticesDropped || (missed && unmarked) } x

/-- Notices handed over in the course of a work go as they would from the state it began in. -/
theorem During.hand (d : During s w L u areas) (view : SameView s u) (ns : List Notice) :
    ∃ missed v x, handNotices ns s = .ok missed v ∧ handNotices ns u = .ok missed x ∧ SameUnit s v x ∧ UnitFrame u x
      ∧ During s w L x (areas ++ s.noticeAreas) := by
  obtain ⟨missed, v, x, runS, runU, same, frame⟩ := handNotices_follows ns s u view
  obtain ⟨missed', v', runS', frameS⟩ := handNotices_frame ns view.sound.1
  rw [runS] at runS'
  cases runS'
  exact ⟨missed, v, x, runS, runU, same.sameUnit frameS, frame, d.unit frame⟩

/-- The marking of an account leaves the notice unit, but for NOTICES_DROPPED. -/
theorem Marked.sameUnit {v x : State} {dropped : Bool} (h : Marked u x (s.layout.record n, 64) dropped) (base : u.base = s.base)
    (region : RegionValid s) (hn : n < s.layout.tableSize) (same : SameUnit s v u) :
    SameUnit s { v with noticesDropped := v.noticesDropped || dropped } x where
  counts := by rw [h.frame]; exact same.counts
  held := by rw [h.frame]; exact same.held
  flags := by rw [h.frame]; exact ⟨same.flags.1, congrArg (· || dropped) same.flags.2⟩
  causes := by rw [h.frame]; exact same.causes
  bytes r hr i hi := by
    have apart := region.notice_record hn r hr
    rw [← same.bytes r hr i hi]
    refine h.bytes _ fun q hq => ?_
    obtain rfl := List.mem_singleton.mp hq
    unfold Apart at apart
    rw [base]
    simp only at apart ⊢
    omega

/-- What the settling of a work leaves: the ledger as in `L`, the notices gone to the unit, and the record as they leave it. -/
structure Settled (s w L x : State) (n : Nat) (e : Account) (ns : List Notice) (areas : List (Nat × Nat)) : Prop where
  during : During s w L x areas
  unit : UnitGoes s x ns (decide (15 < e.bakeCount))
  set : OwnSet s x n ((s.setAfterFetch n).updated n (recordWords (s.afterNotices e ns)))
  written : Written s x n (s.afterNotices e ns)

/-- Steps 5 to 7 of R11 in the course of a work on an account whose record was found. -/
theorem During.settle (d : During s w L u areas) (view : SameView s u) (region : RegionValid s) (hn : n < s.layout.tableSize)
    (set : OwnSet s u n (s.setAfterFetch n)) {old : Account} (found : s.fetched n = .record old)
    (place : (s.layout.record n, 64) ∈ areas) {f : State → State} (hf : Ledgerwise f) (a : Account)
    (placed : a.state.inZone = true → a.zone ≠ none) (byte : a.bakeCount < 256) (ns : List Notice) :
    let e := { a with sequence := a.sequence + 1 }
    ∃ x, settleAccount n a f ns u = .ok e.sequence x ∧ Settled s w (f L) x n e ns (areas ++ s.noticeAreas) := by
  intro e
  have sound := view.sound.1
  have settled := State.setAfterFetch_settled found
  obtain ⟨x1, run1, d1, stands1, eq1⟩ := d.writeThrough sound set place a
  have view1 : SameView s x1 := by
    rw [eq1]
    exact (view.mapSet n _).pokeApart (by simpa using region.record_offUnit hn)
  have d2 := d1.ledgerwise hf
  obtain ⟨missed, v, x3, runS, run3, same, frame, d3⟩ := d2.hand (view1.ledgerwise d1 hf) ns
  have stands3 := (stands1.ledgerwise d1 hf).handed d2 region hn frame
  obtain ⟨x, run4, d4, stands, marked⟩ :=
    d3.markMissed sound (e := e) stands3 settled (List.mem_append_left _ place) placed byte missed
  refine ⟨x, ?_, d4, ⟨missed, v, runS, marked.sameUnit d3.base region hn same⟩, ?_, ?_⟩
  · unfold settleAccount handWorkNotices
    rw [Act.bind_ok run1, Act.modify_bind]
    have work : (do let dropped ← handNotices ns; Machine.markMissed n dropped : Act Unit) (f x1) = .ok () x := by
      rw [Act.bind_ok run3, run4]
    rw [Act.bind_ok work]
    rfl
  · rw [s.afterNotices_eq runS, ← CacheSet.rewrite_eq_updated]
    exact stands.set
  · rw [s.afterNotices_eq runS]
    exact ⟨stands.table, stands.written⟩

/-! ### A work ready to settle its account -/

/-- A work that has fetched its account and not yet written it. -/
structure Ready (s w L u : State) (n : Nat) : Prop where
  region : RegionValid s
  inTable : n < s.layout.tableSize
  during : During s w L u []
  view : SameView s u
  set : OwnSet s u n (s.setAfterFetch n)

theorem Ready.sound (h : Ready s w L u n) : s.failing = none := h.view.sound.1

theorem Ready.ledgerwise (h : Ready s w L u n) {f : State → State} (hf : Ledgerwise f) : Ready s w (f L) (f u) n :=
  ⟨h.region, h.inTable, h.during.ledgerwise hf, h.view.ledgerwise h.during hf, h.set.of_eq (by rw [h.during.step hf]; rfl)⟩

theorem Ready.settle (h : Ready s w L u n) {old : Account} (found : s.fetched n = .record old) {f : State → State}
    (hf : Ledgerwise f) (a : Account) (placed : a.state.inZone = true → a.zone ≠ none) (byte : a.bakeCount < 256)
    (ns : List Notice) :
    let e := { a with sequence := a.sequence + 1 }
    ∃ x, settleAccount n a f ns u = .ok e.sequence x
      ∧ Settled s w (f L) x n e ns ((s.layout.record n, 64) :: s.noticeAreas) :=
  (h.during.mono (List.nil_subset [(s.layout.record n, 64)])).settle h.view h.region h.inTable h.set found List.mem_cons_self hf a
    placed byte ns

/-- Notices handed over by a work that writes no record. -/
theorem Ready.report (h : Ready s w L u n) (ns : List Notice) :
    ∃ x, reportNotices ns u = .ok () x ∧ UnitGoes s x ns false ∧ UnitFrame u x ∧ During s w L x s.noticeAreas := by
  obtain ⟨missed, v, x, runS, run, same, frame, during⟩ := h.during.hand h.view ns
  refine ⟨x, ?_, ⟨missed, v, runS, by simpa using same⟩, frame, during⟩
  unfold reportNotices
  rw [Act.bind_ok run]
  rfl

end

section
variable {s w L x : State} {areas : List (Nat × Nat)} {n : Nat} {k : ListNo}

/-! ### The take that begins a cell's work -/

theorem State.afterTake_keeps (s : State) (k : ListNo) : KeepsBytes s (s.afterTake k) (s.takeAreas k) := by
  have cell : KeepsBytes s (s.poke (s.nextCell k) [cellWord cellTaken (s.offered k).words[0]]) (s.takeAreas k) :=
    .poke ⟨_, List.mem_cons_self, Nat.le_refl _, by simp⟩
  have index := cell.trans rfl (KeepsBytes.poke (s := s.poke (s.nextCell k) [cellWord cellTaken (s.offered k).words[0]])
    (off := s.layout.controlPage + 28 + 4 * (k.val / 4)) (ws := [(s.advanceList k).indexWord (if k.val < 4 then 0 else 1)])
    (areas := s.takeAreas k) ⟨s.indexArea k, by simp [State.takeAreas], Nat.le_refl _, by simp [State.indexArea]⟩)
  exact index

/-- A cell's work begins after its take. -/
theorem During.taken (s : State) (k : ListNo) : During s (s.afterTake k) s (s.afterTake k) [] :=
  ⟨rfl, rfl, ⟨rfl, rfl, rfl⟩, rfl, .refl _ _, fun _ _ => rfl⟩

theorem State.afterTake_index (s : State) (k : ListNo) : (s.afterTake k).peek (s.layout.controlPage + 28 + 4 * (k.val / 4))
    = (s.afterTake k).indexWord (if k.val < 4 then 0 else 1) := by
  have read := State.peek_poke (s.poke (s.nextCell k) [cellWord cellTaken (s.offered k).words[0]])
    (s.layout.controlPage + 28 + 4 * (k.val / 4)) [(s.advanceList k).indexWord (if k.val < 4 then 0 else 1)] 0 (by simp)
  exact read

/-! ### The completion that ends it (R166) -/

/-- The three writes of a completion. -/
def State.doneCell (s : State) (c : TakenCell) (a : Answer) : State :=
  let at_ := s.layout.cell c.list c.index
  ((s.poke (at_ + 4) [c.hostTag]).poke (at_ + 40) [word a.result.code, a.w11, a.w12, a.w13, a.w14, a.w15]).poke at_
    [cellWord cellDone c.words[0]]

theorem State.completed_eq (s : State) (c : TakenCell) (a : Answer) : s.completed c a
    = if c.notify then { s.doneCell c a with engine := .free }.raiseCause .cellDone
      else { s.doneCell c a with engine := .free } := rfl

/-- A completion changes the cell's words, the engine and CELL_DONE alone. -/
theorem State.completed_frame (s : State) (c : TakenCell) (a : Answer) : s.completed c a
    = { s with
        mem := (s.doneCell c a).mem
        engine := .free
        causes := (s.completed c a).causes
        messages := (s.completed c a).messages } := by
  rw [s.completed_eq]
  split
  · unfold State.raiseCause
    split <;> rfl
  · rfl

theorem State.completed_causes (s : State) (c : TakenCell) (a : Answer) (i : Nat) :
    (s.completed c a).causes.getLsbD i = (s.causes.getLsbD i || (c.notify && decide (i = 2))) := by
  rw [s.completed_eq]
  split
  · next asked =>
    rw [State.raiseCause_getLsbD, asked]
    rfl
  · next silent =>
    have : c.notify = false := by simpa using silent
    rw [this]
    simp [State.doneCell]

theorem State.doneCell_keeps {off : Nat} (c : TakenCell) (a : Answer) (h : x.layout.cell c.list c.index = off) :
    KeepsBytes x (x.doneCell c a) (cellAreas off) := by
  unfold State.doneCell
  rw [h]
  have tag : KeepsBytes x (x.poke (off + 4) [c.hostTag]) (cellAreas off) :=
    .poke ⟨(off, 8), by simp [cellAreas], by simp, by simp⟩
  have words := tag.trans rfl (KeepsBytes.poke (s := x.poke (off + 4) [c.hostTag]) (off := off + 40) (areas := cellAreas off)
    (ws := [word a.result.code, a.w11, a.w12, a.w13, a.w14, a.w15]) ⟨(off + 40, 24), by simp [cellAreas], by simp, by simp⟩)
  exact words.trans rfl (KeepsBytes.poke ⟨(off, 8), by simp [cellAreas], by simp, by simp⟩)

/-- What the words of a completed cell read as. -/
theorem State.doneCell_words {off : Nat} (c : TakenCell) (a : Answer) (h : x.layout.cell c.list c.index = off) :
    (x.doneCell c a).peek off = cellWord cellDone c.words[0] ∧ (x.doneCell c a).peek (off + 4) = c.hostTag
      ∧ (x.doneCell c a).peekWords (off + 40) 6 = #v[word a.result.code, a.w11, a.w12, a.w13, a.w14, a.w15] := by
  unfold State.doneCell
  rw [h]
  refine ⟨State.peek_poke _ off _ 0 (by simp), ?_, ?_⟩
  · rw [State.peek_poke_apart (by simp), State.peek_poke_apart (by simp)]
    exact State.peek_poke _ (off + 4) _ 0 (by simp)
  · rw [State.peekWords_poke_apart (by simp)]
    exact State.peekWords_poke _ _ 6 #v[word a.result.code, a.w11, a.w12, a.w13, a.w14, a.w15]

theorem indexWord_congr {s t : State} (h : Fin 2) (same : ∀ j : ListNo, t.lists[j].next = s.lists[j].next) :
    t.indexWord h = s.indexWord h := by
  have at_ (i : Nat) (hi : i < 8) : t.lists[i].next = s.lists[i].next := same ⟨i, hi⟩
  unfold State.indexWord
  simp only [at_]

/-- What `t` is once the cell `c` of list `k` is completed from `x`, its list inspected and the lines driven. -/
def Concludes (x t : State) (k : ListNo) (c : TakenCell) (a : Answer) : Prop :=
  t = { x with
    mem := (x.doneCell c a).mem
    engine := .free
    causes := (x.completed c a).causes
    messages := (x.completed c a).messages
    lists := x.lists.set k ⟨x.lists[k].next, decide (byteOf (t.peek (t.nextCell k)) 0 = cellPosted)⟩
    lines := t.lines }

theorem completeCell_concludes {c : TakenCell} (sound : x.failing = none) (list : c.list = k) (index : x.lists[k].eligible = false)
    (a : Answer) : ∃ t, completeCell c a x = .ok () t ∧ Concludes x t.drive k c a := by
  have frame := x.completed_frame c a
  have run := completeCell_ok sound c a
  generalize hy : x.completed c a = y at frame run
  have failing : y.failing = none := by rw [frame]; exact sound
  have notEligible : y.lists[k].eligible = false := by rw [frame]; exact index
  rw [list, inspect_ok failing, if_neg (by rw [notEligible]; exact Bool.false_ne_true)] at run
  refine ⟨_, run, ?_⟩
  generalize hposted : decide (byteOf (y.peek (y.nextCell k)) 0 = cellPosted) = posted at run
  have next : (y.setEligible k posted).drive.nextCell k = y.nextCell k := by
    unfold State.nextCell
    show y.layout.cell k (y.lists.set k ⟨y.lists[k].next, posted⟩)[k].next = _
    rw [show (y.lists.set k ⟨y.lists[k].next, posted⟩)[k] = ⟨y.lists[k].next, posted⟩ from Vector.getElem_set_self _]
  have cell : (y.setEligible k posted).drive.peek (y.nextCell k) = y.peek (y.nextCell k) := rfl
  unfold Concludes
  rw [next, cell, hposted, hy]
  have lines : (y.setEligible k posted).drive = { y.setEligible k posted with lines := (y.setEligible k posted).drive.lines } := rfl
  generalize (y.setEligible k posted).drive.lines = ls at *
  rw [lines, frame]
  rfl

/-- A completion moves the list no further than the take did (R164). -/
theorem During.takenFrom (d : During s (s.afterTake k) L x areas) (region : RegionValid s) (hn : n < s.layout.tableSize)
    (work : areas ⊆ (s.layout.record n, 64) :: s.noticeAreas) {t : State} {a : Answer} (end_ : Concludes x t k (s.offered k) a) :
    TakenFrom s t k := by
  obtain ⟨lists, lastServed, -⟩ := d.intake
  have at_ : x.layout.cell (s.offered k).list (s.offered k).index = s.nextCell k := by rw [d.held.1]; rfl
  have bytes := x.doneCell_keeps (s.offered k) a at_
  unfold Concludes at end_
  generalize decide (byteOf (t.peek (t.nextCell k)) 0 = cellPosted) = posted at end_
  have set : t.lists = x.lists.set k ⟨x.lists[k].next, posted⟩ := by rw [end_]
  have mark : t.lists[k] = ⟨x.lists[k].next, posted⟩ := by
    rw [set]
    exact Vector.getElem_set_self _
  have own : t.lists[k].next = x.lists[k].next := by rw [mark]
  have others : ∀ j : ListNo, j ≠ k → t.lists[j] = x.lists[j] := by
    intro j hj
    rw [set]
    exact Vector.getElem_set_ne k.isLt j.isLt fun e => hj (Fin.ext e.symm)
  refine ⟨?index, ?shown, fun j hj => ?others, ?served⟩
  case index =>
    rw [own, lists]
    exact congrArg ListState.next (Vector.getElem_set_self _)
  case shown =>
    have cellIndex : AllApart (cellAreas (s.nextCell k)) (s.indexArea k) := by
      have whole := region.cell_apart k hn _ List.mem_cons_self (s.nextCell k, 64) (List.mem_singleton.mpr rfl)
      intro r hr
      simp only [cellAreas, List.mem_cons, List.not_mem_nil, or_false] at hr
      unfold Apart at *
      rcases hr with rfl | rfl <;> simp only at * <;> omega
    have workIndex : AllApart areas (s.indexArea k) := fun r hr => region.work_index k hn r (work hr)
    have index : t.indexWord (if k.val < 4 then 0 else 1) = (s.afterTake k).indexWord (if k.val < 4 then 0 else 1) := by
      refine indexWord_congr _ fun j => ?_
      rw [← lists]
      by_cases e : j = k
      · rw [e, own]
      · rw [others j e]
    have read : t.peek (s.layout.controlPage + 28 + 4 * (k.val / 4))
        = (x.doneCell (s.offered k) a).peek (s.layout.controlPage + 28 + 4 * (k.val / 4)) := by rw [end_]; rfl
    rw [read, bytes.peek rfl cellIndex, d.bytes.peek (d.base.trans d.start.symm) workIndex, index, s.afterTake_index]
  case others =>
    rw [others j hj, lists]
    exact Vector.getElem_set_ne k.isLt j.isLt fun e => hj (Fin.ext e.symm)
  case served =>
    have : t.lastServed = x.lastServed := by rw [end_]
    rw [this, lastServed]
    rfl

theorem During.doneCell (d : During s (s.afterTake k) L x areas) {t : State} {a : Answer}
    (end_ : Concludes x t k (s.offered k) a) : DoneCell s t (s.nextCell k) (s.offered k) a := by
  have at_ : x.layout.cell (s.offered k).list (s.offered k).index = s.nextCell k := by rw [d.held.1]; rfl
  obtain ⟨state, tag, result⟩ := x.doneCell_words (s.offered k) a at_
  have causes := x.completed_causes (s.offered k) a
  unfold Concludes at end_
  generalize decide (byteOf (t.peek (t.nextCell k)) 0 = cellPosted) = posted at end_
  have read (off : Nat) : t.peek off = (x.doneCell (s.offered k) a).peek off := by rw [end_]; rfl
  have reads : t.peekWords (s.nextCell k + 40) 6 = (x.doneCell (s.offered k) a).peekWords (s.nextCell k + 40) 6 := by
    rw [end_]; rfl
  have tcauses : t.causes = (x.completed (s.offered k) a).causes := by rw [end_]
  refine ⟨?state, by rw [read]; exact tag, by rw [reads, result], ?asked, fun i hi => ?others⟩
  case state =>
    rw [read, state]
    rfl
  case asked =>
    rw [tcauses, causes, d.causes 2 (by omega)]
    simp only [decide_true, Bool.and_true]
    rfl
  case others =>
    rw [tcauses, causes, d.causes i (by omega), decide_eq_false (show ¬ i = 2 by omega), Bool.and_false, Bool.or_false]

/-- What the end of a cell's work leaves as the work left it: the ledger, the cache and the notice unit. -/
structure Ended (L x t : State) (areas : List (Nat × Nat)) : Prop where
  frame : t = L.besides t
  engine : t.engine = .free
  sets : t.cacheSets = x.cacheSets
  unit : t.written = x.written ∧ t.taken = x.taken ∧ t.heldNotices = x.heldNotices ∧ t.logFull = x.logFull
    ∧ t.noticesDropped = x.noticesDropped
  causes : ∀ i, i < 2 → t.causes.getLsbD i = x.causes.getLsbD i
  bytes : KeepsBytes x t areas

theorem During.ended (d : During s (s.afterTake k) L x areas) {t : State} {a : Answer}
    (end_ : Concludes x t k (s.offered k) a) : Ended L x t (cellAreas (s.nextCell k)) := by
  have at_ : x.layout.cell (s.offered k).list (s.offered k).index = s.nextCell k := by rw [d.held.1]; rfl
  have bytes := x.doneCell_keeps (s.offered k) a at_
  have causes := x.completed_causes (s.offered k) a
  unfold Concludes at end_
  generalize decide (byteOf (t.peek (t.nextCell k)) 0 = cellPosted) = posted at end_
  refine ⟨?frame, by rw [end_], by rw [end_], by rw [end_]; exact ⟨rfl, rfl, rfl, rfl, rfl⟩,
    fun i hi => ?causes, fun p hp => ?bytes⟩
  case frame =>
    have := d.frame
    rw [end_, this]
    rfl
  case causes =>
    have tcauses : t.causes = (x.completed (s.offered k) a).causes := by rw [end_]
    rw [tcauses, causes, decide_eq_false (show ¬ i = 2 by omega), Bool.and_false, Bool.or_false]
  case bytes =>
    rw [← bytes p hp, end_]

/-- The completion that ends the work on a cell (R164, R166). -/
theorem During.complete (d : During s (s.afterTake k) L x areas) (region : RegionValid s) (sound : s.failing = none)
    (hn : n < s.layout.tableSize) (work : areas ⊆ (s.layout.record n, 64) :: s.noticeAreas) (a : Answer) :
    ∃ t, completeCell (s.offered k) a x = .ok () t ∧ Served s t.drive k a ∧ Ended L x t.drive (cellAreas (s.nextCell k)) := by
  have index : x.lists[k].eligible = false := by
    rw [d.intake.1]
    exact congrArg ListState.eligible (Vector.getElem_set_self _)
  obtain ⟨t, run, end_⟩ := completeCell_concludes (d.held.2.2.1.trans sound) (show (s.offered k).list = k from rfl) index a
  refine ⟨t, run, ⟨d.takenFrom region hn work end_, d.doneCell end_, ?_⟩, d.ended end_⟩
  exact (congrArg (fun u : State => u.lists[k].eligible) end_).trans (congrArg ListState.eligible (Vector.getElem_set_self _))

end

/-! ### The changes of the ledger -/

theorem State.countZone_ledgerwise (z : ZoneNo) (occ exp : Int) : Ledgerwise fun s => s.countZone z occ exp :=
  ⟨fun _ _ => rfl, fun _ => rfl⟩

theorem State.countLive_ledgerwise (c : ClassNo) (d : Int) : Ledgerwise fun s => s.countLive c d :=
  ⟨fun _ _ => rfl, fun _ => rfl⟩

theorem State.raiseHighest_ledgerwise (c : ClassNo) (b : Nat) : Ledgerwise fun s => s.raiseHighest c b :=
  ⟨fun _ _ => rfl, fun _ => rfl⟩

theorem State.setFaultHold_ledgerwise (z : ZoneNo) : Ledgerwise fun s => s.setFaultHold z :=
  ⟨fun _ _ => rfl, fun _ => rfl⟩

/-- A change of the watch pool is a change of the ledger. -/
theorem State.withLedger_of_pool {L t : State} {watch : List WatchEntry} {dueQueue : List Nat} {unwatched : Nat}
    (h : t = { L with watch := watch, dueQueue := dueQueue, unwatched := unwatched }) : t = L.withLedger t := by
  rw [h]
  rfl

theorem Ledgerwise.ite {c : Prop} [Decidable c] {f g : State → State} (hf : Ledgerwise f) (hg : Ledgerwise g) :
    Ledgerwise fun s => if c then f s else g s := by
  by_cases h : c
  · simpa only [h, ↓reduceIte] using hf
  · simpa only [h, ↓reduceIte] using hg

theorem State.noteBake_ledgerwise (a b : Account) : Ledgerwise fun s => s.noteBake a b :=
  .ite .refl (State.raiseHighest_ledgerwise _ _)

theorem State.countAmend_ledgerwise (a b : Account) : Ledgerwise fun s => s.countAmend a b := by
  have zone : Ledgerwise fun s : State => match a.zone with
      | some z => s.countZone z 0 (b.expiredCount - a.expiredCount)
      | none => s := by
    cases a.zone with
    | none => exact .refl
    | some z => exact State.countZone_ledgerwise _ _ _
  exact .ite zone ((State.raiseHighest_ledgerwise _ _).comp ((State.countLive_ledgerwise _ _).comp
    ((State.countLive_ledgerwise _ _).comp zone)))

theorem State.removeEntry_ledgerwise (n : Nat) : Ledgerwise fun s => s.removeEntry n where
  besides L u := by
    unfold State.removeEntry
    have : (L.besides u).entryOf n = L.entryOf n := rfl
    rw [this]
    cases L.entryOf n <;> rfl
  change L := State.withLedger_of_pool (L.removeEntry_frame n)

theorem State.insertEntry_ledgerwise (n : Nat) (z : ZoneNo) (c : ClassNo) (threshold : DWord) (stage : Stage) :
    Ledgerwise fun s => (s.insertEntry n z c threshold stage).1 where
  besides L u := by
    have removed := (State.removeEntry_ledgerwise n).besides L u
    simp only [State.insertEntry, removed]
    have : ((L.removeEntry n).besides u).freePosition = (L.removeEntry n).freePosition := rfl
    rw [this]
    cases (L.removeEntry n).freePosition <;> rfl
  change L := State.withLedger_of_pool (L.insertEntry_frame n z c threshold stage)

/-- Whether an insertion finds a position depends on the pool alone. -/
theorem State.insertEntry_made (L u : State) (n : Nat) (z : ZoneNo) (c : ClassNo) (threshold : DWord) (stage : Stage) :
    ((L.besides u).insertEntry n z c threshold stage).2 = (L.insertEntry n z c threshold stage).2 := by
  have removed := (State.removeEntry_ledgerwise n).besides L u
  simp only [State.insertEntry, removed]
  have : ((L.removeEntry n).besides u).freePosition = (L.removeEntry n).freePosition := rfl
  rw [this]
  cases (L.removeEntry n).freePosition <;> rfl

/-- The figures in force depend on the classes alone. -/
theorem State.inForce_besides (L u : State) (c : ClassNo) : (L.besides u).inForce c = L.inForce c := rfl

theorem State.tryWatch_besides (L u : State) (n : Nat) (a : Account) :
    (L.besides u).tryWatch n a = ((L.tryWatch n a).1.besides u, (L.tryWatch n a).2) := by
  unfold State.tryWatch
  rw [L.inForce_besides]
  split
  · rfl
  · split
    · next z b _ _ =>
      have zones : (L.besides u).zones = L.zones := rfl
      rw [zones]
      exact Prod.ext ((State.insertEntry_ledgerwise ..).besides L u) (L.insertEntry_made u ..)
    · rfl

theorem State.tryWatch_frame (L : State) (n : Nat) (a : Account) :
    (L.tryWatch n a).1 = { L with watch := (L.tryWatch n a).1.watch, dueQueue := (L.tryWatch n a).1.dueQueue } := by
  unfold State.tryWatch
  split
  · rfl
  · split
    · exact L.insertEntry_frame ..
    · rfl

theorem State.watchAccount_frame (L : State) (n : Nat) (a : Account) : L.watchAccount n a
    = { L with
        watch := (L.watchAccount n a).watch, dueQueue := (L.watchAccount n a).dueQueue
        unwatched := (L.watchAccount n a).unwatched } := by
  unfold State.watchAccount
  have frame := L.tryWatch_frame n a
  generalize L.tryWatch n a = r at frame
  obtain ⟨t, made⟩ := r
  simp only at frame ⊢
  split
  · unfold State.raiseUnwatched
    rw [frame]
  · rw [frame]

theorem State.watchAccount_ledgerwise (n : Nat) (a : Account) : Ledgerwise fun s => s.watchAccount n a where
  besides L u := by
    unfold State.watchAccount
    rw [L.tryWatch_besides]
    have : (L.besides u).eligible a = L.eligible a := rfl
    rw [this]
    simp only
    split <;> rfl
  change L := State.withLedger_of_pool (L.watchAccount_frame n a)

theorem State.reachUnwatched_frame (L : State) (n : Nat) (a : Account) :
    L.reachUnwatched n a = { L with unwatched := (L.reachUnwatched n a).unwatched } := by
  unfold State.reachUnwatched
  split <;> rfl

theorem State.reachUnwatched_ledgerwise (n : Nat) (a : Account) : Ledgerwise fun s => s.reachUnwatched n a where
  besides L u := by
    unfold State.reachUnwatched
    have : ((L.besides u).eligible a && !(L.besides u).watched n) = (L.eligible a && !L.watched n) := rfl
    rw [this]
    split <;> rfl
  change L := State.withLedger_of_pool (L.reachUnwatched_frame n a)

theorem State.rewatch_ledgerwise (e : WatchEntry) (a : Account) : Ledgerwise fun s => s.rewatch e a where
  besides L u := by
    have removed := (State.removeEntry_ledgerwise e.account).besides L u
    unfold State.rewatch
    rw [L.inForce_besides]
    simp only [removed]
    cases (L.inForce a.cls).budget with
    | none => rfl
    | some b => unfold State.putEntry; rfl
  change L := by
    have removed := L.removeEntry_frame e.account
    unfold State.rewatch
    cases (L.inForce a.cls).budget with
    | none => exact State.withLedger_of_pool removed
    | some b =>
      simp only [State.putEntry]
      rw [removed]
      rfl

section
variable {s L x : State} {n : Nat} {k : ListNo} {kind : Nat}

/-! ### What the end of a cell's work shows of the work -/

theorem RegionValid.cellAreas_apart (h : RegionValid s) (k : ListNo) (hn : n < s.layout.tableSize) {q : Nat × Nat}
    (hq : q ∈ (s.layout.record n, 64) :: s.noticeAreas) : AllApart (cellAreas (s.nextCell k)) q := by
  have whole := h.cell_apart k hn q (List.mem_cons_of_mem _ hq) (s.nextCell k, 64) (List.mem_singleton.mpr rfl)
  intro r hr
  simp only [cellAreas, List.mem_cons, List.not_mem_nil, or_false] at hr
  unfold Apart at *
  rcases hr with rfl | rfl <;> simp only at * <;> omega

/-- An end that writes apart from the notice unit leaves the unit as the work left it. -/
theorem Ended.sameUnit {t v : State} {areas : List (Nat × Nat)} (h : Ended L x t areas) (base : x.base = s.base)
    (apart : ∀ r ∈ s.noticeAreas, AllApart areas r) (same : SameUnit s v x) : SameUnit s v t where
  counts := ⟨h.unit.1.trans same.counts.1, h.unit.2.1.trans same.counts.2⟩
  held := h.unit.2.2.1.trans same.held
  flags := ⟨h.unit.2.2.2.1.trans same.flags.1, h.unit.2.2.2.2.trans same.flags.2⟩
  causes i hi := (h.causes i hi).trans (same.causes i hi)
  bytes r hr i hi := by
    rw [← same.bytes r hr i hi]
    exact h.bytes.read (apart r hr) (by rw [base]; omega) (by rw [base]; omega)

theorem Ended.base {t : State} {areas : List (Nat × Nat)} (h : Ended L x t areas) (ledger : L = s.withLedger L) :
    t.base = s.base := by
  unfold State.base
  rw [h.frame, ledger]
  rfl

theorem Ended.written {t : State} {areas : List (Nat × Nat)} {a : Account} (h : Ended L x t areas) (base : t.base = x.base)
    (apart : AllApart areas (s.layout.record n, 64)) (written : Written s x n a) : Written s t n a where
  table := by
    rw [h.bytes.peekWords base apart]
    exact written.table
  line ws hit := by
    refine written.line ws ?_
    unfold State.cached State.hitWay at *
    rw [← h.sets]
    exact hit

/-- The set of an account after a work: as the fetch leaves it, with the record where one is written (R135, R139). -/
def State.setAfterWork (s : State) (n : Nat) : Option Account → CacheSet
  | none => s.setAfterFetch n
  | some a => (s.setAfterFetch n).updated n (recordWords a)

theorem OwnSet.cacheAfter {t : State} {written : Option Account} (h : OwnSet s t n (s.setAfterWork n written))
    (sound : s.failing = none) : CacheAfter s t n written where
  own := by
    have fetched := s.fetchedSets_own (n := n) sound
    cases written with
    | none => exact h.own.trans fetched.symm
    | some a => exact h.own.trans (congrArg (CacheSet.updated · n (recordWords a)) fetched.symm)
  others := h.others

theorem State.afterTake_cellAreas (s : State) (k : ListNo) :
    KeepsBytes s (s.afterTake k) (cellAreas (s.nextCell k) ++ [s.indexArea k]) := by
  intro p hp
  refine s.afterTake_keeps k p fun r hr => ?_
  simp only [State.takeAreas, List.mem_cons, List.not_mem_nil, or_false] at hr
  rcases hr with rfl | rfl
  · have := hp (s.nextCell k, 8) (by simp [cellAreas])
    simp only at this ⊢
    omega
  · exact hp _ (by simp)

/-- The bytes that a take, a work and the completion leave alone together. -/
theorem During.cellBytes {areas all : List (Nat × Nat)} (d : During s (s.afterTake k) L x areas) {t : State}
    (ended : Ended L x t (cellAreas (s.nextCell k))) (take : cellAreas (s.nextCell k) ++ [s.indexArea k] ⊆ all)
    (work : areas ⊆ all) : KeepsBytes s t all := by
  have begun := ((s.afterTake_cellAreas k).mono take).trans d.start (d.bytes.mono work)
  exact begun.trans d.base (ended.bytes.mono fun r hr => take (List.mem_append_left _ hr))

/-- A cell whose work wrote no record (R11). -/
theorem During.answers {areas : List (Nat × Nat)} (d : During s (s.afterTake k) L x areas) (region : RegionValid s)
    (sound : s.failing = none) (work : areas ⊆ s.noticeAreas) {ns : List Notice} (unit : UnitGoes s x ns false) (a : Answer) :
    ∃ t, completeCell (s.offered k) a x = .ok () t ∧ Answers s t.drive k a ns
      ∧ Ended L x t.drive (cellAreas (s.nextCell k)) := by
  have first : 0 < s.layout.tableSize := region.tableLow
  obtain ⟨t, run, served, ended⟩ := d.complete region sound first (fun r hr => List.mem_cons_of_mem _ (work hr)) a
  have apart : ∀ r ∈ s.noticeAreas, AllApart (cellAreas (s.nextCell k)) r :=
    fun r hr => region.cellAreas_apart k first (List.mem_cons_of_mem _ hr)
  obtain ⟨missed, v, handed, same⟩ := unit
  have base := ended.base d.ledger
  refine ⟨t, run, ⟨served, .of_run region sound handed (ended.sameUnit d.base apart same) base, ?_⟩, ended⟩
  exact d.cellBytes ended (List.subset_append_left _ _) fun r hr => List.mem_append_right _ (work hr)

/-- A cell whose work wrote its account's record (R11). -/
theorem Settled.settles {areas : List (Nat × Nat)} {e : Account} {ns : List Notice}
    (h : Settled s (s.afterTake k) L x n e ns areas) (region : RegionValid s)
    (sound : s.failing = none) (hn : n < s.layout.tableSize) (work : areas ⊆ (s.layout.record n, 64) :: s.noticeAreas)
    (a : Answer) :
    ∃ t, completeCell (s.offered k) a x = .ok () t ∧ Settles s t.drive k n e a ns
      ∧ Ended L x t.drive (cellAreas (s.nextCell k)) := by
  obtain ⟨t, run, served, ended⟩ := h.during.complete region sound hn work a
  have apart : ∀ r ∈ (s.layout.record n, 64) :: s.noticeAreas, AllApart (cellAreas (s.nextCell k)) r :=
    fun r hr => region.cellAreas_apart k hn hr
  obtain ⟨missed, v, handed, same⟩ := h.unit
  have base := ended.base h.during.ledger
  refine ⟨t, run, ⟨served, ended.written (base.trans h.during.base.symm) (apart _ List.mem_cons_self) h.written, ?_,
    (h.set.of_eq ended.sets).cacheAfter (written := some _) sound, ?_⟩, ended⟩
  · exact .of_run region sound handed
      (ended.sameUnit h.during.base (fun r hr => apart r (List.mem_cons_of_mem _ hr)) same) base
  · refine h.during.cellBytes ended (fun r hr => ?_) fun r hr => ?_
    · simp only [List.mem_append, List.mem_cons, List.not_mem_nil, or_false] at hr ⊢
      tauto
    · have := work hr
      simp only [List.mem_append, List.mem_cons, List.not_mem_nil, or_false] at this ⊢
      tauto

end

section
variable {s L x u : State} {n : Nat} {k : ListNo} {kind : Nat} {a : Account}

/-! ### The command of an account request -/

/-- The state an account work starts from: its cell taken and its account fetched. -/
def State.begun (s : State) (k : ListNo) (n : Nat) : State := (s.afterTake k).mapSet n fun _ => s.setAfterFetch n

/-- A take leaves the notice unit alone. -/
theorem Offers.takenView (h : Offers s k kind) : SameView s (s.afterTake k) :=
  (During.taken s k).sameView h.service.region h.service.sound (s.afterTake_keeps k) (h.service.region.take_offUnit k)
    ⟨rfl, rfl⟩ rfl ⟨rfl, rfl⟩ rfl

/-- An account request in service is ready once its account is fetched. -/
theorem Offers.ready (h : Offers s k kind) (hn : n < s.layout.tableSize) :
    Ready s (s.afterTake k) s (s.begun k n) n ∧ fetchRecord n (s.afterTake k) = .ok (s.fetched n) (s.begun k n) := by
  have region := h.service.region
  have sound := h.service.sound
  have start := During.taken s k
  obtain ⟨fetch, set⟩ := start.fetch sound rfl (s.afterTake_keeps k) (region.take_record k hn)
  exact ⟨⟨region, hn, start.mapSet n _, h.takenView.mapSet n _, set⟩, fetch⟩

/-- The command of a cell that passes intake, from the run of its work and of its completion. -/
theorem Admits.run (h : Admits s k kind) {kinds : Nat → Bool} (hk : kinds kind = true) {work : TakenCell → Act (Option Answer)}
    {answer : Answer} {t : State} (ran : work (s.offered k) (s.afterTake k) = .ok (some answer) x)
    (ended : completeCell (s.offered k) answer x = .ok () t) : conclude (serveCell kinds work) s = .next t.drive := by
  refine conclude_ok ?_
  rw [serveCell_offered h.offers hk, serveTaken_answered h.not_refused ran, ended]

/-- The checks of an account request that passes them (R15). -/
structure Passes (s : State) (kind : Nat) (c : TakenCell) (n : Nat) (a : Account) : Prop where
  inTable : n < s.layout.tableSize
  found : s.fetched n = .record a
  tag : kind ≠ 1 → c.tag = a.tag
  zones : ((zonesChecked kind c a).any fun z => !s.maps[c.list].permitsZone z) = false
  kinds : s.kindRefusal kind c a = none

theorem State.fetched_of_recordOf (h : s.recordOf n = some a) : s.fetched n = .record a := by
  rw [s.fetched_eq, h]

theorem Reaches.passes_checks (h : Reaches s k kind n a) : Passes s kind (s.offered k) n a := by
  have none_fails := h.passes
  unfold State.accountRefusal at none_fails
  rw [h.account, h.record] at none_fails
  split at none_fails
  · cases none_fails
  · next inTable =>
    simp only at none_fails
    split at none_fails
    · cases none_fails
    · next tag =>
      split at none_fails
      · cases none_fails
      · next zones =>
        exact ⟨by omega, State.fetched_of_recordOf h.record, fun hk => by_contra fun e => tag ⟨hk, e⟩, by simpa using zones,
          none_fails⟩

/-- The work of an account request that passes the checks of every kind starts on the record found (R15). -/
theorem Passes.onAccount {c : TakenCell} (h : Passes s kind c n a)
    (fetch : fetchRecord n (s.afterTake k) = .ok (s.fetched n) (s.begun k n)) (account : c.account = n)
    {compareTag : Bool} {zonesOf : Account → List Nat} (tag : compareTag = decide (kind ≠ 1))
    (zones : zonesOf a = zonesChecked kind c a) (work : Nat → Account → Act Answer) :
    onAccount c compareTag zonesOf work (s.afterTake k) = work n a (s.begun k n) := by
  have tags : (compareTag && decide (c.tag ≠ a.tag)) = false := by
    rw [tag]
    by_cases hk : kind = 1
    · simp [hk]
    · simp [h.tag hk]
  have maps : (s.afterTake k).maps = s.maps := rfl
  have layout : (s.afterTake k).layout = s.layout := rfl
  unfold Machine.onAccount
  rw [Act.get_bind, account, layout, if_neg (by have := h.inTable; omega), Act.bind_ok fetch, h.found]
  simp only
  rw [tags, maps, zones, h.zones]
  rfl

/-- The state that a command on an account leaves: the zones, the counts and the pool those of `L`, and besides them the memory, the
cells, the cache and the notice unit alone changed. -/
structure Outcome (s L t : State) : Prop where
  frame : t = { s with
    mem := t.mem
    lists := t.lists
    lastServed := t.lastServed
    cacheSets := t.cacheSets
    zones := t.zones
    live := t.live
    highest := t.highest
    watch := t.watch
    dueQueue := t.dueQueue
    unwatched := t.unwatched
    written := t.written
    taken := t.taken
    heldNotices := t.heldNotices
    logFull := t.logFull
    noticesDropped := t.noticesDropped
    causes := t.causes
    messages := t.messages
    lines := t.lines }
  zones : t.zones = L.zones
  live : t.live = L.live
  highest : t.highest = L.highest
  watch : t.watch = L.watch
  dueQueue : t.dueQueue = L.dueQueue
  unwatched : t.unwatched = L.unwatched

theorem Ended.outcome {t : State} {areas : List (Nat × Nat)} (h : Ended L x t areas) (ledger : L = s.withLedger L)
    (free : s.engine = .free) : Outcome s L t := by
  have engine := h.engine
  have frame := h.frame
  refine ⟨?_, ?_, ?_, ?_, ?_, ?_, ?_⟩
  · have : t = { s with
        mem := t.mem, lists := t.lists, lastServed := t.lastServed, engine := t.engine, cacheSets := t.cacheSets
        zones := L.zones, live := L.live, highest := L.highest, watch := L.watch, dueQueue := L.dueQueue
        unwatched := L.unwatched, written := t.written, taken := t.taken, heldNotices := t.heldNotices
        logFull := t.logFull, noticesDropped := t.noticesDropped, causes := t.causes, messages := t.messages
        lines := t.lines } := by
      conv_lhs => rw [frame, ledger]
      rfl
    rw [engine, ← free] at this
    conv_lhs => rw [this]
    rw [this]
  all_goals
    rw [frame]
    rfl

/-- The engine may take a cell only while it is FREE (R9). -/
theorem State.mayTakeCell_free (h : s.mayTakeCell = true) : s.engine = .free := by
  unfold State.mayTakeCell State.mayWork at h
  simp only [Bool.and_eq_true, decide_eq_true_eq] at h
  exact h.1.1.1.2

/-- The command of an account request whose work settles its account. -/
theorem Reaches.settles (h : Reaches s k kind n a) {kinds : Nat → Bool} (hk : kinds kind = true) {compareTag : Bool}
    {zonesOf : TakenCell → Account → List Nat} (tag : compareTag = decide (kind ≠ 1))
    (zones : zonesOf (s.offered k) a = zonesChecked kind (s.offered k) a) {work : TakenCell → Nat → Account → Act Answer}
    {answer : Answer} {e : Account} {ns : List Notice}
    (ran : work (s.offered k) n a (s.begun k n) = .ok answer x)
    (settled : Settled s (s.afterTake k) L x n e ns ((s.layout.record n, 64) :: s.noticeAreas)) :
    ∃ t, conclude (serveCell kinds fun c => do
        let r ← onAccount c compareTag (zonesOf c) (work c)
        pure (some r)) s = .next t
      ∧ Settles s t k n e answer ns ∧ Outcome s L t := by
  have passes := h.passes_checks
  obtain ⟨ready, fetch⟩ := h.admits.offers.ready passes.inTable
  obtain ⟨t, run, settles, ended⟩ := settled.settles ready.region ready.sound passes.inTable (fun _ hr => hr) answer
  refine ⟨t.drive, h.admits.run hk (x := x) ?_ run, settles, ended.outcome settled.during.ledger
    (State.mayTakeCell_free h.admits.offers.free)⟩
  rw [Act.bind_ok ((passes.onAccount fetch h.account tag zones _).trans ran)]
  rfl

end

end Sys2Proof.Machine
end

-- ==== Proofs: the account kinds ====
section
/-! The account kinds of cell: what each leaves of its account, the counts and the pool, and what QUERY reports (O18, O20 to O23, O25, O26). -/

namespace Sys2Proof.Machine

section
variable {s L x u : State} {n : Nat} {k : ListNo} {kind : Nat} {a : Account}

/-! ### What the work on an account reads -/

theorem State.enterZone_besides (L u : State) (n : Nat) (z : ZoneNo) (a : Account) :
    (L.besides u).enterZone n z a = L.enterZone n z a := rfl

theorem State.leaveZone_besides (L u : State) (n : Nat) (z : ZoneNo) (a : Account) :
    (L.besides u).leaveZone n z a = L.leaveZone n z a := rfl

theorem State.foldIn_besides (L u : State) (n : Nat) (z : ZoneNo) (a : Account) :
    (L.besides u).foldIn n z a = L.foldIn n z a := rfl

theorem State.amended_besides (L u : State) (c : TakenCell) (n : Nat) (a : Account) :
    (L.besides u).amended c n a = L.amended c n a := rfl

/-- A record that is not malformed has a bake count of at most 15, and a zone in the states that have one (R3). -/
theorem accountOf_sound {ws : Vector Word 16} (h : accountOf ws = some a) :
    a.bakeCount ≤ 15 ∧ a.zone.isSome = a.state.inZone := by
  unfold accountOf at h
  simp only at h
  split at h
  · cases h
  · next st _ =>
    split at h
    · cases h
    · next low =>
      split at h
      · next inZone =>
        split at h
        · cases h
        · cases h
          exact ⟨by unfold accountOf.fields; simp only; omega, inZone.symm⟩
      · next outside =>
        split at h
        · cases h
        · cases h
          exact ⟨by unfold accountOf.fields; simp only; omega, by simpa [accountOf.fields] using outside⟩

theorem State.recordOf_sound (h : s.recordOf n = some a) : a.bakeCount ≤ 15 ∧ a.zone.isSome = a.state.inZone := by
  unfold State.recordOf at h
  split at h
  · exact accountOf_sound h
  · simp only at h
    split at h
    · cases h
    · exact accountOf_sound h

/-! ### OPEN (R20) -/

/-- The run of OPEN on an account that passes its checks. -/
theorem openAccount_run (ready : Ready s (s.afterTake k) s (s.begun k n) n) (found : s.fetched n = .record a)
    (bakes : a.bakeCount ≤ 15) (c : TakenCell) (state : ¬ (a.state ≠ .unopened ∧ a.state ≠ .bagged))
    (zone : ¬ s.zones[(Fin.ofNat 64 c.zoneAsked : ZoneNo)].type = .typeNone) :
    let z : ZoneNo := Fin.ofNat 64 c.zoneAsked
    let e := { (s.enterZone n z a).1 with sequence := a.sequence + 1 }
    ∃ x, openAccount c n a (s.begun k n) = .ok (accountAnswer .ok e.sequence e.exposure e.flags 0) x
      ∧ Settled s (s.afterTake k) ((s.watchAccount n e).countZone z 1 e.expiredCount) x n e
          (s.enterZone n z a).2 ((s.layout.record n, 64) :: s.noticeAreas) := by
  intro z e
  obtain ⟨flags, expiry, entered⟩ := s.enterZone_frame n z a
  have enters : (s.begun k n).enterZone n z a = s.enterZone n z a := by rw [ready.during.frame, State.enterZone_besides]
  have zones : (s.begun k n).zones = s.zones := rfl
  have defined : s.zones[z].defined = true := decide_eq_true zone
  have sequence : (s.enterZone n z a).1.sequence = a.sequence := by rw [entered]
  obtain ⟨x, run, settled⟩ := (ready.ledgerwise (State.watchAccount_ledgerwise n (s.enterZone n z a).1)).settle found
    (State.countZone_ledgerwise z 1 (s.enterZone n z a).1.expiredCount) (s.enterZone n z a).1 (by rw [entered]; simp)
    (by rw [entered]; show a.bakeCount < 256; omega) (s.enterZone n z a).2
  simp only [sequence] at run settled
  refine ⟨x, ?_, settled⟩
  unfold openAccount
  rw [Act.get_bind, if_neg state, zones, defined, enters]
  simp only [Bool.not_true, Bool.false_eq_true, ↓reduceIte]
  rw [Act.modify_bind, Act.bind_ok run]
  rfl

/-- Settles O20: the run of OPEN, settled with the count of its zone. -/
theorem openEntersTheZone : Obligations.OpenEntersTheZone := by
  intro s k n a h z e w
  have passes := h.passes_checks
  have ready := (h.admits.offers.ready passes.inTable).1
  obtain ⟨bakes, -⟩ := State.recordOf_sound h.record
  have kinds := passes.kinds
  simp only [State.kindRefusal] at kinds
  split at kinds
  · cases kinds
  · split at kinds
    · cases kinds
    · next state zone =>
      obtain ⟨x, run, settled⟩ := openAccount_run ready passes.found bakes (s.offered k) state zone
      obtain ⟨t, ran, settles, outcome⟩ := h.settles (kinds := (· == 2)) rfl (compareTag := true)
        (zonesOf := fun c _ => [c.zoneAsked]) (work := openAccount) rfl rfl run settled
      obtain ⟨exposure, flags, entered⟩ := s.enterZone_frame n z a
      have watch := s.watchAccount_frame n e
      refine ⟨t, ran, settles, by show (s.enterZone n z a).1.exposure = _; rw [entered], ?_,
        outcome.watch, outcome.dueQueue, outcome.unwatched, ?_⟩
      · rw [outcome.zones, watch]
        rfl
      · have live : t.live = s.live := by rw [outcome.live, watch]; rfl
        have highest : t.highest = s.highest := by rw [outcome.highest, watch]; rfl
        have frame := outcome.frame
        rw [live, highest] at frame
        exact frame

end

section
variable {s L x u : State} {n : Nat} {k : ListNo} {kind : Nat} {a : Account}

/-! ### ENROL (R19) -/

/-- A class that ENROL or AMEND may name is VALID, and its bake limit that of its figures (R19, R24). -/
theorem State.classRefusal_none {c : Nat} (h : ¬ (s.classRefusal c).isSome = true) :
    ¬ 7 < c ∧ ∃ f, s.classes[(Fin.ofNat 8 c : ClassNo)].figures? = some f ∧ s.bakeLimit c = f.bakeLimit := by
  unfold State.classRefusal at h
  split at h
  · exact absurd rfl h
  · next low =>
    unfold State.bakeLimit
    cases class_ : s.classes[(Fin.ofNat 8 c : ClassNo)] with
    | valid f worst => exact ⟨low, f, rfl, rfl⟩
    | programming => rw [class_] at h; exact absurd rfl h
    | empty => rw [class_] at h; exact absurd rfl h
    | invalid _ => rw [class_] at h; exact absurd rfl h

theorem getElem_set_class {β : Type} (v : Vector β 8) (c j : ClassNo) (x : β) :
    (v.set c x)[j] = if j = c then x else v[j] := by
  by_cases e : j = c
  · rw [if_pos e, e]
    exact Vector.getElem_set_self _
  · rw [if_neg e]
    exact Vector.getElem_set_ne c.isLt j.isLt fun h => e (Fin.ext h.symm)

/-- The account an ENROL writes (R19). -/
def State.enrolledAs (s : State) (c : TakenCell) (sequence : Word) : Account :=
  let cls : ClassNo := Fin.ofNat 8 c.enrolClass
  let hit := (s.inForce cls).reached c.priorExposure.toNat
  { enrolled c cls s.minute sequence with
    flags := ⟨hit, false, false, false, false⟩
    expiryMinute := if hit then s.minute else 0 }

/-- The notice of an ENROL whose prior exposure has reached a limited budget (R44). -/
def State.enrolNotices (s : State) (c : TakenCell) (n : Nat) : List Notice :=
  if (s.inForce (Fin.ofNat 8 c.enrolClass)).reached c.priorExposure.toNat then
    [⟨.expired, n, s.minute, noWord, c.priorExposure⟩]
  else []

theorem State.enrolTest (s : State) (c : TakenCell) (n : Nat) (sequence : Word) :
    expiryTest (s.inForce (Fin.ofNat 8 c.enrolClass)) s.minute n none (enrolled c (Fin.ofNat 8 c.enrolClass) s.minute sequence)
      = (s.enrolledAs c sequence, s.enrolNotices c n) := by
  rw [expiryTest_eq]
  unfold State.enrolledAs State.enrolNotices enrolled
  simp [AccountFlags.clear, zoneDetail]

/-- The run of ENROL on an account that passes its checks. -/
theorem enrolAccount_run (ready : Ready s (s.afterTake k) s (s.begun k n) n) (found : s.fetched n = .record a) (c : TakenCell)
    (kinds : s.kindRefusal 1 c a = none) :
    let e := s.enrolledAs c (a.sequence + 1)
    ∃ x, enrolAccount c n a (s.begun k n) = .ok (accountAnswer .ok e.sequence e.exposure e.flags 0) x
      ∧ Settled s (s.afterTake k)
          ((s.countLive (Fin.ofNat 8 c.enrolClass) 1).raiseHighest (Fin.ofNat 8 c.enrolClass) c.priorBakes) x n e
          (s.enrolNotices c n) ((s.layout.record n, 64) :: s.noticeAreas) := by
  intro e
  simp only [State.kindRefusal] at kinds
  split at kinds
  · cases kinds
  next state =>
  split at kinds
  · next refused => rw [kinds] at refused; cases refused
  next allowed =>
  split at kinds
  · cases kinds
  next bakes =>
  obtain ⟨low, f, figures, limit⟩ := State.classRefusal_none allowed
  have classes : (s.begun k n).classes = s.classes := rfl
  have test : expiryTest ((s.begun k n).inForce (Fin.ofNat 8 c.enrolClass)) (s.begun k n).minute n none
      (enrolled c (Fin.ofNat 8 c.enrolClass) (s.begun k n).minute a.sequence)
      = (s.enrolledAs c a.sequence, s.enrolNotices c n) := s.enrolTest c n a.sequence
  obtain ⟨x, run, settled⟩ := ready.settle found
    ((State.raiseHighest_ledgerwise (Fin.ofNat 8 c.enrolClass) c.priorBakes).comp
      (State.countLive_ledgerwise (Fin.ofNat 8 c.enrolClass) 1))
    (s.enrolledAs c a.sequence) (by unfold State.enrolledAs enrolled; simp only; split <;> simp [AccountState.inZone])
    (byteOf_lt _ _) (s.enrolNotices c n)
  refine ⟨x, ?_, settled⟩
  unfold enrolAccount
  rw [Act.get_bind, if_neg state, if_neg low]
  simp only [classes, figures]
  rw [if_neg (by rw [← limit]; exact bakes), test]
  exact Act.bind_ok run

/-- Settles O18: the run of ENROL, settled with the counts of its class. -/
theorem enrolWritesTheWholeRecord : Obligations.EnrolWritesTheWholeRecord := by
  intro s k n a h c cls hit e notices
  have passes := h.passes_checks
  have ready := (h.admits.offers.ready passes.inTable).1
  obtain ⟨x, run, settled⟩ := enrolAccount_run ready passes.found c passes.kinds
  obtain ⟨t, ran, settles, outcome⟩ := h.settles (kinds := (· == 1)) rfl (compareTag := false)
    (zonesOf := fun _ _ => []) (work := enrolAccount) rfl rfl run settled
  refine ⟨t, ran, settles, fun j => ?_, fun j => ?_, ?_⟩
  · rw [outcome.live]
    refine (getElem_set_class s.live cls j _).trans ?_
    by_cases own : j = cls
    · rw [if_pos own, if_pos own, own]
      rfl
    · rw [if_neg own, if_neg own]
  · rw [outcome.highest]
    refine (getElem_set_class s.highest cls j _).trans ?_
    by_cases own : j = cls
    · rw [if_pos own, if_pos own, own]
      rfl
    · rw [if_neg own, if_neg own]
  · have frame := outcome.frame
    have zones : t.zones = s.zones := outcome.zones
    have watch : t.watch = s.watch := outcome.watch
    have dueQueue : t.dueQueue = s.dueQueue := outcome.dueQueue
    have unwatched : t.unwatched = s.unwatched := outcome.unwatched
    rw [zones, watch, dueQueue, unwatched] at frame
    exact frame

end

section
variable {s L x u : State} {n : Nat} {k : ListNo} {kind : Nat} {a : Account}

/-! ### A request that writes no record -/

/-- The command of an account request whose work answers without writing its account. -/
theorem Reaches.answers (h : Reaches s k kind n a) {kinds : Nat → Bool} (hk : kinds kind = true) {compareTag : Bool}
    {zonesOf : TakenCell → Account → List Nat} (tag : compareTag = decide (kind ≠ 1))
    (zones : zonesOf (s.offered k) a = zonesChecked kind (s.offered k) a) {work : TakenCell → Nat → Account → Act Answer}
    {answer : Answer} (ran : work (s.offered k) n a (s.begun k n) = .ok answer (s.begun k n)) :
    ∃ t, conclude (serveCell kinds fun c => do
        let r ← onAccount c compareTag (zonesOf c) (work c)
        pure (some r)) s = .next t
      ∧ Answers s t k answer [] ∧ CacheAfter s t n none
      ∧ t = { s with
          mem := t.mem
          lists := t.lists
          lastServed := t.lastServed
          cacheSets := t.cacheSets
          causes := t.causes
          messages := t.messages
          lines := t.lines } := by
  have passes := h.passes_checks
  obtain ⟨ready, fetch⟩ := h.admits.offers.ready passes.inTable
  have unit : UnitGoes s (s.begun k n) [] false :=
    ⟨false, s, rfl, by simpa using ready.view.sameUnit (.refl s)⟩
  obtain ⟨t, run, answers, ended⟩ := ready.during.answers ready.region ready.sound (List.nil_subset _) unit answer
  have outcome := ended.outcome rfl (State.mayTakeCell_free h.admits.offers.free)
  refine ⟨t.drive, h.admits.run hk (x := s.begun k n) ?_ run, answers,
    (ready.set.of_eq ended.sets).cacheAfter (written := none) ready.sound, ?_⟩
  · rw [Act.bind_ok ((passes.onAccount fetch h.account tag zones _).trans ran)]
    rfl
  · obtain ⟨written, taken, held, full, dropped⟩ := ended.unit
    have frame := outcome.frame
    rw [outcome.zones, outcome.live, outcome.highest, outcome.watch, outcome.dueQueue, outcome.unwatched, written, taken, held,
      full, dropped] at frame
    exact frame

/-! ### The account and the pool as a zone is left -/

/-- The exit of a MOVE or BAG leaves the account's tag, class, place and sequence, and raises its bake count by one at most. -/
theorem State.leaveZone_frame (s : State) (n : Nat) (z : ZoneNo) (a : Account) :
    ∃ exposure flags mark bakes credit expiry, (s.leaveZone n z a).account
        = { a with
            exposure := exposure, flags := flags, mark := mark, bakeCount := bakes, lastCredit := credit, expiryMinute := expiry }
      ∧ bakes ≤ a.bakeCount + 1 := by
  obtain ⟨exposure, flags, mark, expiry, folded⟩ := s.foldIn_frame n z a
  obtain ⟨exposure', flags', bakes, credit, expiry', credited, most⟩ := s.exitCredit_frame n z (s.foldIn n z a).1
  rw [folded] at credited most
  refine ⟨exposure', flags', mark, bakes, credit, expiry', ?_, most⟩
  rw [s.leaveZone_eq, folded]
  exact credited

/-- The pool as a MOVE, BAG, RETIRE or AMEND leaves it before any new entry: the account counted as reached, its entry removed. -/
def State.unpooled (s : State) (n : Nat) (a : Account) : State := (s.reachUnwatched n a).removeEntry n

theorem State.unpooled_ledgerwise (n : Nat) (a : Account) : Ledgerwise fun s => s.unpooled n a :=
  (State.removeEntry_ledgerwise n).comp (State.reachUnwatched_ledgerwise n a)

theorem State.unpooled_frame (s : State) (n : Nat) (a : Account) : s.unpooled n a
    = { s with
        watch := (s.unpooled n a).watch, dueQueue := (s.unpooled n a).dueQueue, unwatched := (s.unpooled n a).unwatched } := by
  have reached := s.reachUnwatched_frame n a
  have removed := (s.reachUnwatched n a).removeEntry_frame n
  unfold State.unpooled
  generalize (s.reachUnwatched n a).removeEntry n = r at *
  rw [removed, reached]

/-- The pool as a MOVE or AMEND leaves it: the account reached and its entry made anew. -/
def State.repooled (s : State) (n : Nat) (a e : Account) : State := (s.unpooled n a).watchAccount n e

theorem State.repooled_ledgerwise (n : Nat) (a e : Account) : Ledgerwise fun s => s.repooled n a e :=
  (State.watchAccount_ledgerwise n e).comp (State.unpooled_ledgerwise n a)

theorem State.repooled_frame (s : State) (n : Nat) (a e : Account) : s.repooled n a e
    = { s with
        watch := (s.repooled n a e).watch, dueQueue := (s.repooled n a e).dueQueue
        unwatched := (s.repooled n a e).unwatched } := by
  have before := s.unpooled_frame n a
  have watched := (s.unpooled n a).watchAccount_frame n e
  unfold State.repooled
  generalize (s.unpooled n a).watchAccount n e = r at *
  rw [watched, before]

theorem Account.neg_expiredCount (a : Account) : -a.expiredCount = if a.flags.expired = true then -1 else 0 := by
  unfold Account.expiredCount
  split <;> rfl

/-- A bake credit raises the highest bake count of the account's class (R76). -/
theorem State.noteBake_frame (s : State) {a b : Account} (cls : b.cls = a.cls) : s.noteBake a b
    = { s with highest := if b.bakeCount = a.bakeCount then s.highest
          else s.highest.set a.cls (max s.highest[a.cls] b.bakeCount) } := by
  unfold State.noteBake
  rw [cls]
  split <;> rfl

/-! ### MOVE (R21) -/

/-- The counts of a MOVE (R14, R76). -/
def State.countMove (s : State) (src dst : ZoneNo) (a e : Account) : State :=
  ((s.countZone src (-1) (-a.expiredCount)).countZone dst 1 e.expiredCount).noteBake a e

theorem State.countMove_ledgerwise (src dst : ZoneNo) (a e : Account) : Ledgerwise fun s => s.countMove src dst a e :=
  (State.noteBake_ledgerwise a e).comp
    ((State.countZone_ledgerwise dst 1 e.expiredCount).comp (State.countZone_ledgerwise src (-1) (-a.expiredCount)))

theorem State.countMove_frame (s : State) (src dst : ZoneNo) {a e : Account} (cls : e.cls = a.cls) : s.countMove src dst a e
    = { s with
        zones := ((s.countZone src (-1) (if a.flags.expired then -1 else 0)).countZone dst 1
          (if e.flags.expired then 1 else 0)).zones
        highest := if e.bakeCount = a.bakeCount then s.highest
          else s.highest.set a.cls (max s.highest[a.cls] e.bakeCount) } := by
  unfold State.countMove
  rw [State.noteBake_frame _ cls, a.neg_expiredCount]
  rfl

/-- The run of MOVE to another zone on an account that passes its checks. -/
theorem moveAccount_run (ready : Ready s (s.afterTake k) s (s.begun k n) n) (found : s.fetched n = .record a)
    (bakes : a.bakeCount ≤ 15) (c : TakenCell) {src : ZoneNo} (zone : a.zone = some src)
    (defined : ¬ s.zones[(Fin.ofNat 64 c.zoneAsked : ZoneNo)].type = .typeNone)
    (other : (Fin.ofNat 64 c.zoneAsked : ZoneNo) ≠ src) :
    let dst : ZoneNo := Fin.ofNat 64 c.zoneAsked
    let left := s.leaveZone n src a
    let e := { (s.enterZone n dst left.account).1 with sequence := a.sequence + 1 }
    ∃ x, moveAccount c n a (s.begun k n) = .ok (accountAnswer .ok e.sequence e.exposure e.flags left.credit) x
      ∧ Settled s (s.afterTake k) ((s.repooled n a e).countMove src dst a e) x n e
          (left.notices ++ (s.enterZone n dst left.account).2) ((s.layout.record n, 64) :: s.noticeAreas) := by
  intro dst left e
  obtain ⟨exposure, flags, mark, bakeCount, credit, expiry, leaves, most⟩ := s.leaveZone_frame n src a
  obtain ⟨flags', expiry', enters⟩ := s.enterZone_frame n dst left.account
  have leaving : (s.begun k n).leaveZone n src a = left := by rw [ready.during.frame, State.leaveZone_besides]
  have entering : (s.begun k n).enterZone n dst left.account = s.enterZone n dst left.account := by
    rw [ready.during.frame, State.enterZone_besides]
  have zones : (s.begun k n).zones = s.zones := rfl
  have isDefined : s.zones[dst].defined = true := decide_eq_true defined
  have account : left.account = _ := leaves
  generalize hb : (s.enterZone n dst left.account).1 = b at enters
  have sequence : b.sequence = a.sequence := by rw [enters, account]
  have few : b.bakeCount < 256 := by rw [enters, account]; show bakeCount < 256; omega
  obtain ⟨x, run, settled⟩ := (ready.ledgerwise (State.repooled_ledgerwise n a b)).settle found
    (State.countMove_ledgerwise src dst a b) b (by rw [enters]; simp) few (left.notices ++ (s.enterZone n dst left.account).2)
  rw [sequence] at run settled
  subst hb
  refine ⟨x, ?_, settled⟩
  unfold moveAccount
  rw [Act.get_bind, zone]
  simp only
  rw [zones, isDefined, leaving, entering]
  simp only [Bool.not_true, Bool.false_eq_true, ↓reduceIte]
  rw [if_neg other, Act.modify_bind]
  exact Act.bind_ok run

/-- Settles O21: to its own zone an answer alone, to another the run of MOVE, settled with the counts of both zones. -/
theorem moveFoldsCreditsAndEnters : Obligations.MoveFoldsCreditsAndEnters := by
  intro s k n a src h zone dst
  have passes := h.passes_checks
  have ready := (h.admits.offers.ready passes.inTable).1
  obtain ⟨bakes, -⟩ := State.recordOf_sound h.record
  have kinds := passes.kinds
  simp only [State.kindRefusal] at kinds
  split at kinds
  · cases kinds
  split at kinds
  · cases kinds
  next defined =>
  have checked : a.presentZone ++ [(s.offered k).zoneAsked] = zonesChecked 3 (s.offered k) a := rfl
  refine ⟨fun same => ?_, fun other => ?_⟩
  · have isDefined : (s.begun k n).zones[dst].defined = true := decide_eq_true defined
    have ran : moveAccount (s.offered k) n a (s.begun k n)
        = .ok (accountAnswer .okSameZone a.sequence a.exposure a.flags 0) (s.begun k n) := by
      unfold moveAccount
      rw [Act.get_bind, zone]
      simp only
      rw [isDefined, if_pos same]
      rfl
    exact h.answers (kinds := (· == 3)) rfl (compareTag := true)
      (zonesOf := fun c a => a.presentZone ++ [c.zoneAsked]) (work := moveAccount) rfl checked ran
  · intro left e w
    obtain ⟨x, run, settled⟩ := moveAccount_run ready passes.found bakes (s.offered k) zone defined other
    obtain ⟨t, ran, settles, outcome⟩ := h.settles (kinds := (· == 3)) rfl (compareTag := true)
      (zonesOf := fun c a => a.presentZone ++ [c.zoneAsked]) (work := moveAccount) rfl checked run settled
    have cls : e.cls = a.cls := by
      obtain ⟨_, _, _, _, _, _, leaves, -⟩ := s.leaveZone_frame n src a
      obtain ⟨_, _, enters⟩ := s.enterZone_frame n dst left.account
      show (s.enterZone n dst left.account).1.cls = a.cls
      rw [enters]
      show (s.leaveZone n src a).account.cls = a.cls
      rw [leaves]
    have pool := s.repooled_frame n a e
    have counts := State.countMove_frame (s.repooled n a e) src dst cls
    rw [counts] at outcome
    have live : t.live = s.live := by rw [outcome.live, pool]
    have frame := outcome.frame
    rw [live] at frame
    refine ⟨t, ran, settles, ?_, ?_, outcome.watch, outcome.dueQueue, outcome.unwatched, frame⟩
    · rw [outcome.zones, pool]
      rfl
    · rw [outcome.highest, pool]

end

section
variable {s L x u : State} {n : Nat} {k : ListNo} {kind : Nat} {a : Account}

/-! ### BAG (R22) -/

/-- The counts of a BAG (R14, R76). -/
def State.countBag (s : State) (z : ZoneNo) (a e : Account) : State :=
  (s.countZone z (-1) (-a.expiredCount)).noteBake a e

theorem State.countBag_ledgerwise (z : ZoneNo) (a e : Account) : Ledgerwise fun s => s.countBag z a e :=
  (State.noteBake_ledgerwise a e).comp (State.countZone_ledgerwise z (-1) (-a.expiredCount))

theorem State.countBag_frame (s : State) (z : ZoneNo) {a e : Account} (cls : e.cls = a.cls) : s.countBag z a e
    = { s with
        zones := (s.countZone z (-1) (if a.flags.expired then -1 else 0)).zones
        highest := if e.bakeCount = a.bakeCount then s.highest
          else s.highest.set a.cls (max s.highest[a.cls] e.bakeCount) } := by
  unfold State.countBag
  rw [State.noteBake_frame _ cls, a.neg_expiredCount]
  rfl

/-- The run of BAG on an account that passes its checks. -/
theorem bagAccount_run (ready : Ready s (s.afterTake k) s (s.begun k n) n) (found : s.fetched n = .record a)
    (bakes : a.bakeCount ≤ 15) {z : ZoneNo} (zone : a.zone = some z) :
    let left := s.leaveZone n z a
    let e := { left.account with
      state := .bagged, zone := none, mark := 0, aux := 0, entryMinute := s.minute, sequence := a.sequence + 1 }
    ∃ x, bagAccount n a (s.begun k n) = .ok (accountAnswer .ok e.sequence e.exposure e.flags left.credit) x
      ∧ Settled s (s.afterTake k) ((s.unpooled n a).countBag z a e) x n e left.notices
          ((s.layout.record n, 64) :: s.noticeAreas) := by
  intro left e
  obtain ⟨exposure, flags, mark, bakeCount, credit, expiry, leaves, most⟩ := s.leaveZone_frame n z a
  have leaving : (s.begun k n).leaveZone n z a = left := by rw [ready.during.frame, State.leaveZone_besides]
  have account : left.account = _ := leaves
  have sequence : left.account.sequence = a.sequence := by rw [account]
  have few : left.account.bakeCount < 256 := by rw [account]; show bakeCount < 256; omega
  obtain ⟨x, run, settled⟩ := (ready.ledgerwise (State.unpooled_ledgerwise n a)).settle found
    (State.countBag_ledgerwise z a (left.account.outOfZone .bagged s.minute)) (left.account.outOfZone .bagged s.minute)
    (by simp [Account.outOfZone, AccountState.inZone]) few left.notices
  have raised : (left.account.outOfZone .bagged s.minute).sequence = a.sequence := sequence
  rw [raised] at run settled
  refine ⟨x, ?_, settled⟩
  unfold bagAccount
  rw [Act.get_bind, zone]
  simp only
  have minute : (s.begun k n).minute = s.minute := rfl
  rw [leaving, minute, Act.modify_bind]
  exact Act.bind_ok run

/-- Settles O22: the run of BAG, settled with the count of its zone. -/
theorem bagFoldsCreditsAndLeaves : Obligations.BagFoldsCreditsAndLeaves := by
  intro s k n a z h zone left e w
  have passes := h.passes_checks
  have ready := (h.admits.offers.ready passes.inTable).1
  obtain ⟨bakes, -⟩ := State.recordOf_sound h.record
  obtain ⟨x, run, settled⟩ := bagAccount_run ready passes.found bakes zone
  obtain ⟨t, ran, settles, outcome⟩ := h.settles (kinds := (· == 4)) rfl (compareTag := true)
    (zonesOf := fun _ a => a.presentZone) (work := fun _ => bagAccount) rfl rfl run settled
  have cls : e.cls = a.cls := by
    obtain ⟨_, _, _, _, _, _, leaves, -⟩ := s.leaveZone_frame n z a
    show (s.leaveZone n z a).account.cls = a.cls
    rw [leaves]
  have pool := s.unpooled_frame n a
  have counts := State.countBag_frame (s.unpooled n a) z cls
  rw [counts] at outcome
  have live : t.live = s.live := by rw [outcome.live, pool]
  have frame := outcome.frame
  rw [live] at frame
  refine ⟨t, ran, settles, ?_, ?_, outcome.watch, outcome.dueQueue, outcome.unwatched, frame⟩
  · rw [outcome.zones, pool]
    rfl
  · rw [outcome.highest, pool]

/-! ### RETIRE (R23) -/

/-- The pool after a RETIRE or, before its new entry, an AMEND: as it was for an account in no zone. -/
def State.unpooledFrom (s : State) (n : Nat) (a : Account) : State := if a.zone = none then s else s.unpooled n a

theorem State.unpooledFrom_ledgerwise (n : Nat) (a : Account) : Ledgerwise fun s => s.unpooledFrom n a :=
  .ite .refl (State.unpooled_ledgerwise n a)

theorem State.unpooledFrom_frame (s : State) (n : Nat) (a : Account) : s.unpooledFrom n a
    = { s with
        watch := (s.unpooledFrom n a).watch, dueQueue := (s.unpooledFrom n a).dueQueue
        unwatched := (s.unpooledFrom n a).unwatched } := by
  unfold State.unpooledFrom
  split
  · rfl
  · exact s.unpooled_frame n a

/-- The counts of a RETIRE (R14). -/
def State.countRetire (s : State) (a : Account) : State :=
  State.countLive (match a.zone with
    | some z => s.countZone z (-1) (-a.expiredCount)
    | none => s) a.cls (-1)

theorem State.countRetire_ledgerwise (a : Account) : Ledgerwise fun s => s.countRetire a := by
  unfold State.countRetire
  cases a.zone with
  | none => exact State.countLive_ledgerwise a.cls (-1)
  | some z => exact (State.countLive_ledgerwise a.cls (-1)).comp (State.countZone_ledgerwise z (-1) (-a.expiredCount))

theorem State.countRetire_frame (s : State) (a : Account) : s.countRetire a
    = { s with
        zones := (match a.zone with
          | some z => (s.countZone z (-1) (if a.flags.expired then -1 else 0)).zones
          | none => s.zones)
        live := s.live.set a.cls (addCount s.live[a.cls] (-1)) } := by
  unfold State.countRetire
  rw [a.neg_expiredCount]
  rcases Option.eq_none_or_eq_some a.zone with zone | ⟨z, zone⟩ <;> rw [zone] <;> rfl

theorem addCount_pred (n : Nat) : addCount n (-1) = n - 1 := by
  unfold addCount
  omega

/-- The run of RETIRE on an account that passes its checks. -/
theorem retireAccount_run (ready : Ready s (s.afterTake k) s (s.begun k n) n) (found : s.fetched n = .record a)
    (bakes : a.bakeCount ≤ 15) (state : ¬ (a.state = .vacant ∨ a.state = .retired)) :
    let fold := s.amendFold n a
    let e := { fold.1 with
      state := .retired, zone := none, mark := 0, aux := 0, entryMinute := s.minute, sequence := a.sequence + 1 }
    ∃ x, retireAccount n a (s.begun k n) = .ok (accountAnswer .ok e.sequence e.exposure e.flags 0) x
      ∧ Settled s (s.afterTake k) ((s.unpooledFrom n a).countRetire a) x n e fold.2
          ((s.layout.record n, 64) :: s.noticeAreas) := by
  intro fold e
  obtain ⟨exposure, flags, mark, expiry, folds⟩ := s.amendFold_frame n a
  have account : fold.1 = _ := folds
  have sequence : fold.1.sequence = a.sequence := by rw [account]
  have few : fold.1.bakeCount < 256 := by rw [account]; show a.bakeCount < 256; omega
  obtain ⟨x, run, settled⟩ := (ready.ledgerwise (State.unpooledFrom_ledgerwise n a)).settle found
    (State.countRetire_ledgerwise a) (fold.1.outOfZone .retired s.minute)
    (by simp [Account.outOfZone, AccountState.inZone]) few fold.2
  have raised : (fold.1.outOfZone .retired s.minute).sequence = a.sequence := sequence
  rw [raised] at run settled
  refine ⟨x, ?_, settled⟩
  unfold retireAccount
  have minute : (s.begun k n).minute = s.minute := rfl
  rw [Act.get_bind, if_neg state, minute]
  rcases Option.eq_none_or_eq_some a.zone with zone | ⟨z, zone⟩
  · have unfolded : fold = (a, []) := by
      show s.amendFold n a = _
      unfold State.amendFold
      rw [zone]
    have pool : (s.begun k n).unpooledFrom n a = s.begun k n := if_pos zone
    have counts : (fun t : State => t.countRetire a) = fun t => t.countLive a.cls (-1) := by
      funext t
      unfold State.countRetire
      rw [zone]
    rw [pool, counts, unfolded] at run
    rw [zone]
    simp only
    refine (Act.bind_ok run).trans ?_
    show _ = EStateM.Result.ok (accountAnswer .ok (a.sequence + 1) fold.1.exposure fold.1.flags 0) x
    rw [unfolded]
    rfl
  · have folding : (s.begun k n).foldIn n z a = fold := by
      rw [ready.during.frame, State.foldIn_besides]
      show _ = s.amendFold n a
      unfold State.amendFold
      rw [zone]
    have pool : (s.begun k n).unpooledFrom n a = (s.begun k n).unpooled n a := if_neg (by rw [zone]; simp)
    have counts : (fun t : State => t.countRetire a)
        = fun t => (t.countZone z (-1) (-a.expiredCount)).countLive a.cls (-1) := by
      funext t
      unfold State.countRetire
      rw [zone]
    rw [pool, counts] at run
    rw [zone]
    simp only
    rw [folding, Act.modify_bind]
    exact Act.bind_ok run

/-- Settles O23: the run of RETIRE, settled with the counts of its zone and class. -/
theorem retireLeavesWithoutCredit : Obligations.RetireLeavesWithoutCredit := by
  intro s k n a h fold e w
  have passes := h.passes_checks
  have ready := (h.admits.offers.ready passes.inTable).1
  obtain ⟨bakes, -⟩ := State.recordOf_sound h.record
  have kinds := passes.kinds
  simp only [State.kindRefusal] at kinds
  split at kinds
  · cases kinds
  next live =>
  have state : ¬ (a.state = .vacant ∨ a.state = .retired) := by
    rintro (e | e) <;> exact live (by rw [e]; rfl)
  obtain ⟨x, run, settled⟩ := retireAccount_run ready passes.found bakes state
  have folds : s.amendFold n a = fold := rfl
  rw [folds] at run settled
  obtain ⟨t, ran, settles, outcome⟩ := h.settles (kinds := (· == 5)) rfl (compareTag := true)
    (zonesOf := fun _ a => a.presentZone) (work := fun _ => retireAccount) rfl rfl run settled
  have pool := s.unpooledFrom_frame n a
  have counts := State.countRetire_frame (s.unpooledFrom n a) a
  rw [counts] at outcome
  have highest : t.highest = s.highest := by rw [outcome.highest, pool]
  have frame := outcome.frame
  rw [highest] at frame
  refine ⟨t, ran, settles, ?_, fun j => ?_, outcome.watch, outcome.dueQueue, outcome.unwatched, frame⟩
  · rw [outcome.zones, pool]
    rcases Option.eq_none_or_eq_some a.zone with zone | ⟨z, zone⟩ <;> rw [zone] <;> rfl
  · rw [outcome.live, pool]
    refine (getElem_set_class s.live a.cls j _).trans ?_
    by_cases own : j = a.cls
    · rw [if_pos own, if_pos own, own]
      exact addCount_pred _
    · rw [if_neg own, if_neg own]

end

section
variable {s L x u : State} {n : Nat} {k : ListNo} {kind : Nat} {a : Account}

/-! ### AMEND (R25) -/

/-- What the checks of a class that a request names answer, with the bake count it brings (R19, R24). -/
theorem State.classRefusal_eq (s : State) (c bakes : Nat) :
    (if (s.classRefusal c).isSome = true then s.classRefusal c
      else if s.bakeLimit c < bakes then some .badValue else none)
      = if 7 < c then some .badClass
        else match s.classes[(Fin.ofNat 8 c : ClassNo)].figures? with
          | none => some ((s.classes[(Fin.ofNat 8 c : ClassNo)].refusal).getD .classInvalid)
          | some f => if f.bakeLimit < bakes then some .badValue else none := by
  unfold State.classRefusal State.bakeLimit
  by_cases high : 7 < c
  · simp [high]
  · simp only [high, if_false]
    cases s.classes[(Fin.ofNat 8 c : ClassNo)] <;> rfl

theorem AccountState.isLive_eq (st : AccountState) : (st.isLive = false) = (st = .vacant ∨ st = .retired) := by
  cases st <;> simp [AccountState.isLive]

theorem ClassState.isProgramming_eq (c : ClassState) : (c.isProgramming = true) = (c = .programming) := by
  cases c <;> simp [ClassState.isProgramming]

/-- The kind checks of an AMEND are those of R24. -/
theorem State.amendRefusal_eq (s : State) (c : TakenCell) (a : Account) : s.amendRefusal c a = s.kindRefusal 6 c a := by
  unfold State.amendRefusal State.kindRefusal
  simp only [AccountState.isLive_eq, ClassState.isProgramming_eq]
  cases c.newClass with
  | none => rfl
  | some cls =>
    simp only [State.classRefusal_eq] <;> rfl

/-- The pool after an AMEND: an account in a zone reached and watched anew. -/
def State.repooledFrom (s : State) (n : Nat) (a e : Account) : State := if a.zone = none then s else s.repooled n a e

theorem State.repooledFrom_ledgerwise (n : Nat) (a e : Account) : Ledgerwise fun s => s.repooledFrom n a e :=
  .ite .refl (State.repooled_ledgerwise n a e)

theorem State.repooledFrom_frame (s : State) (n : Nat) (a e : Account) : s.repooledFrom n a e
    = { s with
        watch := (s.repooledFrom n a e).watch, dueQueue := (s.repooledFrom n a e).dueQueue
        unwatched := (s.repooledFrom n a e).unwatched } := by
  unfold State.repooledFrom
  split
  · rfl
  · exact s.repooled_frame n a e

/-- The expired-present count of the zone of an account that is amended (R14). -/
def State.countExpired (s : State) (a e : Account) : State :=
  match a.zone with
  | some z => s.countZone z 0 (e.expiredCount - a.expiredCount)
  | none => s

theorem State.countExpired_frame (s : State) (a e : Account) :
    s.countExpired a e = { s with zones := (s.countExpired a e).zones } := by
  unfold State.countExpired
  split <;> rfl

theorem State.countAmend_eq (s : State) (a e : Account) : s.countAmend a e
    = if e.cls = a.cls then s.countExpired a e
      else (((s.countExpired a e).countLive a.cls (-1)).countLive e.cls 1).raiseHighest e.cls e.bakeCount := by
  unfold State.countAmend State.countExpired
  cases a.zone <;> rfl

theorem State.countAmend_zones (s : State) (a e : Account) : (s.countAmend a e).zones
    = (match a.zone with
        | some z => (s.countZone z 0 ((if e.flags.expired then 1 else 0) - (if a.flags.expired then 1 else 0))).zones
        | none => s.zones) := by
  have zones : (s.countAmend a e).zones = (s.countExpired a e).zones := by
    rw [s.countAmend_eq]
    split <;> rfl
  rw [zones]
  unfold State.countExpired Account.expiredCount
  rcases Option.eq_none_or_eq_some a.zone with zone | ⟨z, zone⟩ <;> rw [zone]

theorem State.countAmend_pool (s : State) (a e : Account) : (s.countAmend a e).watch = s.watch
    ∧ (s.countAmend a e).dueQueue = s.dueQueue ∧ (s.countAmend a e).unwatched = s.unwatched := by
  rw [s.countAmend_eq, s.countExpired_frame]
  split <;> exact ⟨rfl, rfl, rfl⟩

theorem State.countAmend_counts (s : State) (a e : Account) (bakes : e.bakeCount = a.bakeCount) (j : ClassNo) :
    (s.countAmend a e).live[j] = (if e.cls = a.cls then s.live[j]
        else if j = e.cls then s.live[j] + 1
        else if j = a.cls then s.live[j] - 1
        else s.live[j])
      ∧ (s.countAmend a e).highest[j] = if e.cls ≠ a.cls ∧ j = e.cls then max s.highest[j] a.bakeCount else s.highest[j] := by
  rw [s.countAmend_eq, s.countExpired_frame]
  by_cases cls : e.cls = a.cls
  · simp only [cls, ↓reduceIte, ne_eq, not_true_eq_false, false_and, and_self]
  · rw [if_neg cls, if_neg cls]
    generalize (s.countExpired a e).zones = zones
    have live : (((({ s with zones := zones } : State).countLive a.cls (-1)).countLive e.cls 1).raiseHighest e.cls e.bakeCount).live
        = (s.live.set a.cls (addCount s.live[a.cls] (-1))).set e.cls
            (addCount (s.live.set a.cls (addCount s.live[a.cls] (-1)))[e.cls] 1) := rfl
    have highest : (((({ s with zones := zones } : State).countLive a.cls (-1)).countLive e.cls 1).raiseHighest e.cls
          e.bakeCount).highest
        = s.highest.set e.cls (max s.highest[e.cls] e.bakeCount) := rfl
    rw [live, highest, getElem_set_class, getElem_set_class, getElem_set_class, getElem_set_class, bakes, if_neg cls]
    by_cases new : j = e.cls
    · subst new
      simp only [↓reduceIte, ne_eq, cls, not_false_eq_true, and_self]
      exact ⟨rfl, trivial⟩
    · simp only [new, and_false, ↓reduceIte, and_true]
      by_cases old : j = a.cls
      · rw [if_pos old, if_pos old, old]
        exact addCount_pred _
      · rw [if_neg old, if_neg old]

theorem State.amended_bakeCount (s : State) (c : TakenCell) (n : Nat) (a : Account) :
    (s.amended c n a).1.bakeCount = a.bakeCount := by
  obtain ⟨-, -, -, -, -, bakeCount, -⟩ := amendChangesRemarksAndTests s c n a
  exact bakeCount

/-- The run of AMEND on an account that passes its checks. -/
theorem amendAccount_run (ready : Ready s (s.afterTake k) s (s.begun k n) n) (found : s.fetched n = .record a)
    (bakes : a.bakeCount ≤ 15) (placed : a.zone.isSome = a.state.inZone) (c : TakenCell) (kinds : s.kindRefusal 6 c a = none) :
    let e := { (s.amended c n a).1 with sequence := a.sequence + 1 }
    ∃ x, amendAccount c n a (s.begun k n) = .ok (accountAnswer .ok e.sequence e.exposure e.flags 0) x
      ∧ Settled s (s.afterTake k) ((s.repooledFrom n a e).countAmend a e) x n e (s.amended c n a).2
          ((s.layout.record n, 64) :: s.noticeAreas) := by
  intro e
  obtain ⟨-, -, -, -, zone, bakeCount, -, -, sequence, state, -⟩ := amendChangesRemarksAndTests s c n a
  have amends : (s.begun k n).amended c n a = s.amended c n a := by rw [ready.during.frame, State.amended_besides]
  have refusal : (s.begun k n).amendRefusal c a = none := by
    rw [← kinds, ← s.amendRefusal_eq]
    rfl
  have stays : (s.amended c n a).1.state.inZone = true → (s.amended c n a).1.zone ≠ none := by
    rw [zone, state]
    intro inZone none
    rw [none] at placed
    split at inZone
    · cases inZone
    · rw [inZone] at placed
      cases placed
  obtain ⟨x, run, settled⟩ := (ready.ledgerwise (State.repooledFrom_ledgerwise n a (s.amended c n a).1)).settle found
    (State.countAmend_ledgerwise a (s.amended c n a).1) (s.amended c n a).1 stays (by rw [bakeCount]; omega) (s.amended c n a).2
  rw [sequence] at run settled
  refine ⟨x, ?_, settled⟩
  unfold amendAccount
  rw [Act.get_bind, refusal]
  simp only
  rw [amends]
  rcases Option.eq_none_or_eq_some a.zone with none | ⟨z, some⟩
  · have pool : (s.begun k n).repooledFrom n a (s.amended c n a).1 = s.begun k n := if_pos none
    rw [pool] at run
    rw [none]
    exact Act.bind_ok run
  · have pool : (s.begun k n).repooledFrom n a (s.amended c n a).1 = (s.begun k n).repooled n a (s.amended c n a).1 :=
      if_neg (by rw [some]; simp)
    rw [pool] at run
    rw [some]
    exact Act.bind_ok run

/-- Settles O25: the run of AMEND, settled with the counts of its zone and classes. -/
theorem amendWritesAndRewatches : Obligations.AmendWritesAndRewatches := by
  intro s k n a h e w
  have passes := h.passes_checks
  have ready := (h.admits.offers.ready passes.inTable).1
  obtain ⟨bakes, placed⟩ := State.recordOf_sound h.record
  have bakeCount : e.bakeCount = a.bakeCount := s.amended_bakeCount (s.offered k) n a
  obtain ⟨x, run, settled⟩ := amendAccount_run ready passes.found bakes placed (s.offered k) passes.kinds
  obtain ⟨t, ran, settles, outcome⟩ := h.settles (kinds := (· == 6)) rfl (compareTag := true)
    (zonesOf := fun _ a => a.presentZone) (work := amendAccount) rfl rfl run settled
  have pool := s.repooledFrom_frame n a e
  obtain ⟨watch, dueQueue, unwatched⟩ := (s.repooledFrom n a e).countAmend_pool a e
  have counts := fun j => (s.repooledFrom n a e).countAmend_counts a e bakeCount j
  refine ⟨t, ran, settles, ?_, fun j => ?_, fun j => ?_, outcome.watch.trans watch, outcome.dueQueue.trans dueQueue,
    outcome.unwatched.trans unwatched, outcome.frame⟩
  · rw [outcome.zones, State.countAmend_zones, pool]
    rfl
  · rw [outcome.live]
    refine (counts j).1.trans ?_
    rw [pool]
  · rw [outcome.highest]
    refine (counts j).2.trans ?_
    rw [pool]

end

section
variable {s : State} {n : Nat} {k : ListNo} {a : Account}

/-! ### QUERY (R26) -/

/-- A zone is taken as stale at the next boundary's check, before its type and climate are asked (R64, R50; log entry 13). -/
def State.staleAhead (s : State) (zone : Zone) : Bool :=
  match s.clock with
  | .held m _ => decide (m.toNat + 1 < zone.lastSample.toNat ∨ zone.staleLimit.toNat ≤ m.toNat + 1 - zone.lastSample.toNat)
  | .unset => Config.unsetStale zone.lastSample zone.staleLimit

theorem State.zoneAhead_eq (s : State) (z : ZoneNo) : s.zoneAhead z
    = if (s.zones[z].defined && decide (s.zones[z].climate = .current) && s.staleAhead s.zones[z]) = true then
        { s.zones[z] with climate := .stale }
      else s.zones[z] := by
  unfold State.zoneAhead State.staleAhead Zone.checkStale Zone.turnsStale
  cases s.clock with
  | unset => rfl
  | held m stall => simp only [Bool.decide_or]

/-- The rate of the next boundary (R35, R50). -/
theorem appliedRate_ahead (s : State) (z : ZoneNo) (c : ClassState) : appliedRate (s.zoneAhead z) c
    = let zone := s.zones[z]
      if zone.type = .typeNone then 0
      else if zone.climate = .current ∧ s.staleAhead zone = false then
        if zone.type = .typeBake ∨ (zone.type = .typeDry ∧ zone.humBand ≤ zone.dryLimitBand) then 0
        else tableRate c zone.tempBand zone.humBand
      else worstOf c := by
  rw [s.zoneAhead_eq]
  generalize s.zones[z] = zone
  unfold Zone.defined appliedRate
  by_cases current : zone.climate = .current
  · cases stale : s.staleAhead zone with
    | false => cases type : zone.type <;> simp [type, current, stale]
    | true => cases type : zone.type <;> simp [type, current, stale]
  · cases type : zone.type <;> simp [type, current]

theorem tableRate_eq (c : ClassState) (t : Fin 6) (h : Fin 8) : tableRate c t h
    = match c with
      | .valid f _ => f.rates[8 * t.val + h.val]
      | _ => 4095 := by
  cases c <;> rfl

theorem worstOf_eq (c : ClassState) : worstOf c
    = match c with
      | .valid _ worst => worst
      | _ => 4095 := by
  cases c <;> rfl

/-- Settles O26: the report word by word, its rate by the zone as the next boundary's check leaves it. -/
theorem queryReportsWithoutChange : Obligations.QueryReportsWithoutChange := by
  intro s k n a h f now stale rate answer
  have passes := h.passes_checks
  have ready := (h.admits.offers.ready passes.inTable).1
  obtain ⟨bakes, -⟩ := State.recordOf_sound h.record
  have kinds := passes.kinds
  simp only [State.kindRefusal] at kinds
  split at kinds
  · cases kinds
  next state =>
  have exposure : s.exposureNow a = now := by
    unfold State.exposureNow
    rcases Option.eq_none_or_eq_some a.zone with zone | ⟨z, zone⟩
    · simp only [now, zone]
    · simp only [now, zone] <;> rfl
  have ahead : s.rateAhead a = rate := by
    unfold State.rateAhead
    rcases Option.eq_none_or_eq_some a.zone with zone | ⟨z, zone⟩
    · simp only [rate, zone]
    · simp only [rate, zone, appliedRate_ahead, tableRate_eq, worstOf_eq] <;> rfl
  have bakeField : a.bakeCount % 16 = a.bakeCount := Nat.mod_eq_of_lt (by omega)
  have reports : (s.begun k n).report n a = answer := by
    have same : (s.begun k n).report n a = s.report n a := by
      rw [ready.during.frame]
      rfl
    rw [same]
    unfold State.report
    simp only [exposure, ahead, bakeField] <;> rfl
  have ran : queryAccount n a (s.begun k n) = .ok answer (s.begun k n) := by
    unfold queryAccount
    rw [Act.get_bind, if_neg state, reports]
    rfl
  exact h.answers (kinds := (· == 7)) rfl (compareTag := true) (zonesOf := fun _ _ => []) (work := fun _ => queryAccount)
    rfl rfl ran

end

end Sys2Proof.Machine
end

-- ==== Proofs: the hand-overs ====
section
/-! The hand-overs of the watch pool to the engine (O46, O47). -/

namespace Sys2Proof.Machine

section
variable {s L x u : State} {n : Nat} {a : Account} {e : WatchEntry}

/-! ### The hand-overs of the watch pool (R27, R28) -/

/-- The part with the head of its due queue taken (R109). -/
def State.dequeued (s : State) : State := { s with dueQueue := s.dueQueue.tail }

/-- The state a hand-over's work starts from: its entry taken off the due queue, and its account fetched. -/
def State.handedOver (s : State) (e : WatchEntry) : State :=
  (s.takeHandover e).mapSet e.account fun _ => s.setAfterFetch e.account

theorem InService.handover_ready (h : InService s) (hn : e.account < s.layout.tableSize) :
    Ready s (s.takeHandover e) s.dequeued (s.handedOver e) e.account
      ∧ fetchRecord e.account (s.takeHandover e) = .ok (s.fetched e.account) (s.handedOver e) := by
  have start : During s (s.takeHandover e) s.dequeued (s.takeHandover e) [] :=
    ⟨rfl, rfl, ⟨rfl, rfl, rfl⟩, rfl, .refl _ _, fun _ _ => rfl⟩
  have keeps : KeepsBytes s (s.takeHandover e) [] := fun _ _ => rfl
  obtain ⟨fetch, set⟩ := start.fetch (n := e.account) h.sound rfl keeps (fun r hr => absurd hr List.not_mem_nil)
  have view : SameView s (s.takeHandover e) :=
    start.sameView h.region h.sound keeps (fun _ _ r hr => absurd hr List.not_mem_nil) ⟨rfl, rfl⟩ rfl ⟨rfl, rfl⟩ rfl
  exact ⟨⟨h.region, hn, start.mapSet _ _, view.mapSet _ _, set⟩, fetch⟩

/-- The end of internal work: the engine FREE, the lines driven. -/
def State.freed (s : State) : State := { s with engine := .free }.drive

theorem During.freed {w : State} {areas : List (Nat × Nat)} (d : During s w L x areas) : Ended L x x.freed [] where
  frame := by
    have := d.frame
    show { x with engine := .free, lines := x.freed.lines } = _
    rw [this]
    rfl
  engine := rfl
  sets := rfl
  unit := ⟨rfl, rfl, rfl, rfl, rfl⟩
  causes _ _ := rfl
  bytes _ _ := rfl

/-- The service of a hand-over whose account's fetch decides its work (R27, R28). -/
def serveHandover (e : WatchEntry) (work : Fetched → Act Unit) : Act Unit := do
  modify fun t => t.takeHandover e
  let f ← fetchRecord e.account
  work f
  freeEngine

theorem InService.serveHandover_run (h : InService s) (hn : e.account < s.layout.tableSize) {work : Fetched → Act Unit}
    (run : work (s.fetched e.account) (s.handedOver e) = .ok () x) :
    serveHandover e work s = .ok () { x with engine := .free } := by
  unfold serveHandover
  rw [Act.modify_bind, Act.bind_ok (h.handover_ready hn).2, Act.bind_ok run]
  rfl

theorem During.minute {w : State} {areas : List (Nat × Nat)} (d : During s w L u areas) : u.minute = s.minute := by
  unfold State.minute
  rw [d.frame, d.ledger]
  rfl

/-- The engine takes a hand-over only while it is FREE (R9, R10). -/
theorem State.handoverAt_free {stage : Stage} (h : s.handoverAt stage = some e) : s.engine = .free := by
  unfold State.handoverAt at h
  split at h
  · next work =>
    unfold State.mayWork at work
    simp only [Bool.and_eq_true, decide_eq_true_eq] at work
    exact work.1.2
  · cases h

/-- What a hand-over leaves: the ledger of its work, and besides it the memory, the account's set and the notice unit alone
changed. -/
theorem During.handoverFrame {areas : List (Nat × Nat)} (d : During s (s.takeHandover e) L x areas) (free : s.engine = .free) :
    x.freed = { s with
      mem := x.freed.mem
      cacheSets := x.freed.cacheSets
      zones := L.zones
      live := L.live
      highest := L.highest
      watch := L.watch
      dueQueue := L.dueQueue
      unwatched := L.unwatched
      written := x.freed.written
      taken := x.freed.taken
      heldNotices := x.freed.heldNotices
      logFull := x.freed.logFull
      noticesDropped := x.freed.noticesDropped
      causes := x.freed.causes
      messages := x.freed.messages
      lines := x.freed.lines } := by
  have outcome := d.freed.outcome d.ledger free
  have lists : x.freed.lists = s.lists := d.intake.1
  have lastServed : x.freed.lastServed = s.lastServed := d.intake.2.1
  have frame := outcome.frame
  rw [outcome.zones, outcome.live, outcome.highest, outcome.watch, outcome.dueQueue, outcome.unwatched, lists, lastServed] at frame
  exact frame

@[inherit_doc During.handoverFrame]
theorem During.poolFrame {areas : List (Nat × Nat)} (d : During s (s.takeHandover e) L x areas) (free : s.engine = .free)
    {w : State} (pool : L = { s with watch := w.watch, dueQueue := w.dueQueue }) :
    x.freed = { s with
      mem := x.freed.mem
      cacheSets := x.freed.cacheSets
      watch := w.watch
      dueQueue := w.dueQueue
      written := x.freed.written
      taken := x.freed.taken
      heldNotices := x.freed.heldNotices
      logFull := x.freed.logFull
      noticesDropped := x.freed.noticesDropped
      causes := x.freed.causes
      messages := x.freed.messages
      lines := x.freed.lines } := by
  have frame := d.handoverFrame free
  rw [pool] at frame
  exact frame

/-- The notices of a hand-over's work. -/
theorem UnitGoes.freed {ns : List Notice} {unmarked : Bool} (h : UnitGoes s x ns unmarked) (region : RegionValid s)
    (sound : s.failing = none) (base : x.base = s.base) : NoticesGo s x.freed ns unmarked := by
  obtain ⟨missed, v, run, same⟩ := h
  exact .of_run region sound run ⟨same.counts, same.held, same.flags, same.causes, same.bytes⟩ base

theorem Ready.idle {w : State} (h : Ready s w L u n) : UnitGoes s u [] false :=
  ⟨false, s, rfl, by simpa using h.view.sameUnit (.refl s)⟩

/-- What the work of a hand-over that writes no record leaves. -/
structure Unwritten (s L x : State) (e : WatchEntry) (ns : List Notice) : Prop where
  during : During s (s.takeHandover e) L x s.noticeAreas
  unit : UnitGoes s x ns false
  set : OwnSet s x e.account (s.setAfterFetch e.account)

theorem Ready.unwritten (h : Ready s (s.takeHandover e) L u e.account) : Unwritten s L u e [] :=
  ⟨h.during.mono (List.nil_subset _), h.idle, h.set⟩

/-- A faulty record's entry removed, and RECORD_FAULT raised (R27 step 2). -/
theorem dropFaulty_run (ready : Ready s (s.takeHandover e) L u e.account) (what : Nat) :
    ∃ x, dropFaulty e what u = .ok () x
      ∧ Unwritten s (L.removeEntry e.account) x e [⟨.recordFault, e.account, s.minute, word what, 2⟩] := by
  have removed := ready.ledgerwise (State.removeEntry_ledgerwise e.account)
  obtain ⟨x, run, unit, frame, during⟩ := removed.report [recordFault e.account s.minute what 2]
  refine ⟨x, ?_, during, unit, removed.set.of_eq (by rw [frame.frame])⟩
  unfold dropFaulty
  rw [Act.modify_bind, Act.get_bind, removed.during.minute, run]

/-- What is wrong with a record that a fetch finds faulty, by what the fetch answers (R144). -/
theorem State.faulty_fetch (h : s.recordOf n = none) :
    (s.fetched n = .corrupt ∧ s.faultOf n = 1) ∨ (s.fetched n = .malformed ∧ s.faultOf n = 2) := by
  have fault : s.faultOf n = 1 ∨ s.faultOf n = 2 := by
    unfold State.faultOf
    split
    · exact .inr rfl
    · split
      · exact .inl rfl
      · exact .inr rfl
  rw [s.fetched_eq, h]
  refine fault.imp (fun f => ⟨?_, f⟩) fun f => ⟨?_, f⟩ <;> simp [f]

/-- The record of a hand-over's entry as it is outdated (R27 step 3). -/
theorem WatchEntry.outdated_iff (e : WatchEntry) (a : Account) :
    e.outdated a = true ↔ (a.zone ≠ some e.zone ∨ a.cls ≠ e.cls ∨ a.flags.expired = true) := by
  unfold WatchEntry.outdated
  simp only [Bool.or_eq_true, decide_eq_true_eq, or_assoc]

/-! ### WARNING_HANDOVER (R27) -/

/-- Steps 2 to 4 of a warning hand-over, by what its fetch found (R27). -/
def warningWork (e : WatchEntry) : Fetched → Act Unit
  | .corrupt => dropFaulty e 1
  | .malformed => dropFaulty e 2
  | .record a => if e.outdated a then modify fun t : State => t.removeEntry e.account else giveWarning e a

theorem serveWarning_eq (e : WatchEntry) : serveWarning e = serveHandover e (warningWork e) := by
  unfold serveWarning serveHandover
  congr
  funext _
  congr
  funext f
  cases f with
  | corrupt => rfl
  | malformed => rfl
  | record a => unfold warningWork; simp only; split <;> rfl

/-- The command of a warning hand-over, from the run of its work. -/
theorem warningHandover_run (service : InService s) (given : s.handoverAt .warn = some e) (hn : e.account < s.layout.tableSize)
    (run : warningWork e (s.fetched e.account) (s.handedOver e) = .ok () x) : exec .warningHandover s = .next x.freed := by
  refine conclude_ok (t := { x with engine := .free }) ?_
  unfold warningHandover
  rw [Act.get_bind, given]
  simp only
  rw [serveWarning_eq, service.serveHandover_run hn run]

/-- What a hand-over whose work wrote no record shows. -/
theorem Unwritten.shows {ns : List Notice} (h : Unwritten s L x e ns) (service : InService s) :
    CacheAfter s x.freed e.account none ∧ NoticesGo s x.freed ns ∧ KeepsBytes s x.freed s.noticeAreas :=
  ⟨OwnSet.cacheAfter (written := none) (h.set.of_eq rfl) service.sound, h.unit.freed service.region service.sound h.during.base,
    h.during.bytes⟩

/-- What a hand-over whose work wrote its account's record shows. -/
theorem Settled.shows {b : Account} {ns : List Notice}
    (h : Settled s (s.takeHandover e) L x e.account b ns ((s.layout.record e.account, 64) :: s.noticeAreas))
    (service : InService s) (bakes : b.bakeCount ≤ 15) :
    CacheAfter s x.freed e.account (some (s.afterNotices b ns)) ∧ Written s x.freed e.account (s.afterNotices b ns)
      ∧ NoticesGo s x.freed ns ∧ KeepsBytes s x.freed ((s.layout.record e.account, 64) :: s.noticeAreas) := by
  have unit := h.unit
  rw [decide_eq_false (show ¬ 15 < b.bakeCount by omega)] at unit
  exact ⟨OwnSet.cacheAfter (written := some _) (h.set.of_eq rfl) service.sound, ⟨h.written.table, h.written.line⟩,
    unit.freed service.region service.sound h.during.base, h.during.bytes⟩

theorem State.dequeued_removed (s : State) (n : Nat) : s.dequeued.removeEntry n
    = { s with watch := (s.dequeued.removeEntry n).watch, dueQueue := (s.dequeued.removeEntry n).dueQueue } :=
  s.dequeued.removeEntry_frame n

/-- The pool once a warned account's entry is in again at stage EXPIRE (R27, R105). -/
theorem State.dequeued_rewatch {b : Nat} (budget : (s.inForce a.cls).budget = some b) :
    let out := s.dequeued.removeEntry e.account
    let th := expiryThreshold b a s.zones[e.zone].exposure[e.cls]
    let due := decide (th.toNat ≤ s.zones[e.zone].exposure[e.cls].toNat)
    s.dequeued.rewatch e a = { s with
      watch := placeEntry { e with threshold := th, stage := .expire, due := due } out.watch
      dueQueue := if due then out.dueQueue ++ [e.position] else out.dueQueue } := by
  intro out th due
  have force : (s.dequeued.inForce a.cls).budget = some b := budget
  have removed := s.dequeued_removed e.account
  unfold State.rewatch
  rw [force]
  simp only
  unfold State.putEntry State.tallyOf
  rw [removed]
  rfl

/-- A warning given where WARNED is clear (R27 step 4). -/
theorem giveWarning_run (ready : Ready s (s.takeHandover e) s.dequeued (s.handedOver e) e.account)
    (found : s.fetched e.account = .record a) (bakes : a.bakeCount ≤ 15) (zone : a.zone = some e.zone)
    (clear : a.flags.warned = false) :
    ∃ x, giveWarning e a (s.handedOver e) = .ok () x
      ∧ Settled s (s.takeHandover e) (s.dequeued.rewatch e a) x e.account
          { a with flags := { a.flags with warned := true }, sequence := a.sequence + 1 }
          [⟨.expiryWarning, e.account, s.minute, word e.zone.val, a.exposure⟩]
          ((s.layout.record e.account, 64) :: s.noticeAreas) := by
  have rewatched := ready.ledgerwise (State.rewatch_ledgerwise e a)
  obtain ⟨x, run, settled⟩ := rewatched.settle found .refl (a.warn true) (fun _ => by simp [Account.warn, zone])
    (by show a.bakeCount < 256; omega) [⟨.expiryWarning, e.account, s.minute, word e.zone.val, a.exposure⟩]
  refine ⟨x, ?_, settled⟩
  unfold giveWarning
  rw [Act.get_bind, Act.modify_bind, clear]
  exact (Act.bind_ok run).trans rfl

/-- Settles O46, by what the fetch of the entry's account finds. -/
theorem warningHandoverWarnsAndRewatches : Obligations.WarningHandoverWarnsAndRewatches := by
  intro s
  refine ⟨fun none => ?_, fun e service given hn => ?_⟩
  · refine conclude_ok ?_
    unfold warningHandover
    rw [Act.get_bind, none]
    rfl
  intro n u out frame
  have ready := (service.handover_ready hn).1
  have free := State.handoverAt_free given
  have removed := ready.ledgerwise (State.removeEntry_ledgerwise n)
  have runs {x : State} (run : warningWork e (s.fetched e.account) (s.handedOver e) = .ok () x) :=
    warningHandover_run service given hn run
  have removedMem : ((s.handedOver e).removeEntry n).mem = s.mem := by
    rw [ready.during.step (State.removeEntry_ledgerwise n)]
    rfl
  refine ⟨fun faulty => ?_, fun a record => ?_⟩
  · obtain ⟨x, run, unwritten⟩ := dropFaulty_run ready (s.faultOf n)
    obtain ⟨cache, notices, bytes⟩ := unwritten.shows service
    have ran : warningWork e (s.fetched e.account) (s.handedOver e) = .ok () x := by
      rcases s.faulty_fetch faulty with ⟨found, fault⟩ | ⟨found, fault⟩
      · rw [found, ← run, fault]; rfl
      · rw [found, ← run, fault]; rfl
    exact ⟨x.freed, runs ran, ⟨cache, unwritten.during.poolFrame free (s.dequeued_removed n)⟩, bytes, notices⟩
  intro outdated
  have found : s.fetched n = .record a := State.fetched_of_recordOf record
  have isOutdated := e.outdated_iff a
  refine ⟨fun old => ?_, fun current b budget => ?_⟩
  · have unwritten := removed.unwritten
    obtain ⟨cache, notices, -⟩ := unwritten.shows service
    refine ⟨_, runs (x := (s.handedOver e).removeEntry n) ?_,
      ⟨cache, unwritten.during.poolFrame free (s.dequeued_removed n)⟩, removedMem, notices⟩
    rw [found]
    exact congrFun (if_pos (isOutdated.mpr old)) _
  intro th due w notices written
  obtain ⟨bakes, -⟩ := State.recordOf_sound record
  have zone : a.zone = some e.zone := by_contra fun other => current (.inl other)
  have pool : s.dequeued.rewatch e a = { s with watch := w.watch, dueQueue := w.dueQueue } := State.dequeued_rewatch budget
  have gives : warningWork e (s.fetched n) (s.handedOver e) = giveWarning e a (s.handedOver e) := by
    rw [found]
    exact congrFun (if_neg fun old => current (isOutdated.mp old)) _
  cases warned : a.flags.warned with
  | true =>
    have unwritten := (ready.ledgerwise (State.rewatch_ledgerwise e a)).unwritten
    obtain ⟨cache, none, -⟩ := unwritten.shows service
    have run : giveWarning e a (s.handedOver e) = .ok () ((s.handedOver e).rewatch e a) := by
      unfold giveWarning
      rw [Act.get_bind, Act.modify_bind, warned]
      rfl
    have mem : ((s.handedOver e).rewatch e a).mem = s.mem := by
      rw [ready.during.step (State.rewatch_ledgerwise e a)]
      rfl
    exact ⟨_, runs (gives.trans run), fun _ => ⟨⟨cache, unwritten.during.poolFrame free pool⟩, mem, none⟩, nofun⟩
  | false =>
    obtain ⟨x, run, settled⟩ := giveWarning_run ready found bakes zone warned
    obtain ⟨cache, record, go, bytes⟩ := settled.shows service bakes
    exact ⟨_, runs (gives.trans run), nofun,
      fun _ => ⟨⟨cache, settled.during.poolFrame free pool⟩, record, go, bytes⟩⟩

end

section
variable {s L x u : State} {n : Nat} {a : Account} {e : WatchEntry}

/-! ### EXPIRY_HANDOVER (R28) -/

/-- Steps 2 to 4 of an expiry hand-over, by what its fetch found (R28). -/
def expiryWork (e : WatchEntry) : Fetched → Act Unit
  | .corrupt => expireFaulty e 1
  | .malformed => expireFaulty e 2
  | .record a => if e.outdated a then modify fun t : State => t.removeEntry e.account else giveExpiry e a

theorem serveExpiry_eq (e : WatchEntry) : serveExpiry e = serveHandover e (expiryWork e) := by
  unfold serveExpiry serveHandover
  congr
  funext _
  congr
  funext f
  cases f with
  | corrupt => rfl
  | malformed => rfl
  | record a => unfold expiryWork; simp only; split <;> rfl

/-- The command of an expiry hand-over, from the run of its work. -/
theorem expiryHandover_run (service : InService s) (given : s.handoverAt .expire = some e) (hn : e.account < s.layout.tableSize)
    (run : expiryWork e (s.fetched e.account) (s.handedOver e) = .ok () x) : exec .expiryHandover s = .next x.freed := by
  refine conclude_ok (t := { x with engine := .free }) ?_
  unfold expiryHandover
  rw [Act.get_bind, given]
  simp only
  rw [serveExpiry_eq, service.serveHandover_run hn run]

/-- The pool does not depend on the zones as an entry is removed (R106). -/
theorem State.removeEntry_with_zones (s : State) (n : Nat) (zones : Vector Zone 64) :
    { s with zones := zones }.removeEntry n = { s.removeEntry n with zones := zones } := by
  unfold State.removeEntry
  have : ({ s with zones := zones } : State).entryOf n = s.entryOf n := rfl
  rw [this]
  cases s.entryOf n <;> rfl

@[inherit_doc During.handoverFrame]
theorem During.zonesFrame {areas : List (Nat × Nat)} (d : During s (s.takeHandover e) L x areas) (free : s.engine = .free)
    {w : State} {zones : Vector Zone 64}
    (ledger : L = { s with zones := zones, watch := w.watch, dueQueue := w.dueQueue }) :
    x.freed = { s with
      mem := x.freed.mem
      cacheSets := x.freed.cacheSets
      zones := zones
      watch := w.watch
      dueQueue := w.dueQueue
      written := x.freed.written
      taken := x.freed.taken
      heldNotices := x.freed.heldNotices
      logFull := x.freed.logFull
      noticesDropped := x.freed.noticesDropped
      causes := x.freed.causes
      messages := x.freed.messages
      lines := x.freed.lines } := by
  have frame := d.handoverFrame free
  rw [ledger] at frame
  exact frame

/-- An expiry given (R28). -/
theorem giveExpiry_run (ready : Ready s (s.takeHandover e) s.dequeued (s.handedOver e) e.account)
    (found : s.fetched e.account = .record a) (bakes : a.bakeCount ≤ 15) (zone : a.zone = some e.zone) :
    ∃ x, giveExpiry e a (s.handedOver e) = .ok () x
      ∧ Settled s (s.takeHandover e) ((s.dequeued.removeEntry e.account).countZone e.zone 0 1) x e.account
          { a with flags := { a.flags with expired := true }, expiryMinute := s.minute, sequence := a.sequence + 1 }
          [⟨.expired, e.account, s.minute, word e.zone.val, a.exposure⟩]
          ((s.layout.record e.account, 64) :: s.noticeAreas) := by
  have removed := ready.ledgerwise (State.removeEntry_ledgerwise e.account)
  obtain ⟨x, run, settled⟩ := removed.settle found (State.countZone_ledgerwise e.zone 0 1) (a.expire s.minute)
    (fun _ => by simp [Account.expire, zone]) (by show a.bakeCount < 256; omega)
    [⟨.expired, e.account, s.minute, word e.zone.val, a.exposure⟩]
  refine ⟨x, ?_, settled⟩
  unfold giveExpiry
  rw [Act.get_bind, Act.modify_bind, ready.during.minute]
  exact (Act.bind_ok run).trans rfl

/-- Settles O47, by what the fetch of the entry's account finds. -/
theorem expiryHandoverExpiresTheAccount : Obligations.ExpiryHandoverExpiresTheAccount := by
  intro s
  refine ⟨fun none => ?_, fun e service given hn => ?_⟩
  · refine conclude_ok ?_
    unfold expiryHandover
    rw [Act.get_bind, none]
    rfl
  intro n out frame
  have ready := (service.handover_ready hn).1
  have free := State.handoverAt_free given
  have removed := ready.ledgerwise (State.removeEntry_ledgerwise n)
  have runs {x : State} (run : expiryWork e (s.fetched e.account) (s.handedOver e) = .ok () x) :=
    expiryHandover_run service given hn run
  have pool : out = { s with watch := out.watch, dueQueue := out.dueQueue } := s.dequeued_removed n
  refine ⟨fun faulty => ?_, fun a record => ?_⟩
  · obtain ⟨x, run, unwritten⟩ := dropFaulty_run (ready.ledgerwise (State.setFaultHold_ledgerwise e.zone)) (s.faultOf n)
    obtain ⟨cache, notices, bytes⟩ := unwritten.shows service
    have ran : expiryWork e (s.fetched e.account) (s.handedOver e) = .ok () x := by
      rcases s.faulty_fetch faulty with ⟨found, fault⟩ | ⟨found, fault⟩
      · rw [found, ← run, fault]; rfl
      · rw [found, ← run, fault]; rfl
    have ledger : (s.dequeued.setFaultHold e.zone).removeEntry n
        = { s with
            zones := s.zones.set e.zone { s.zones[e.zone] with faultHold := true }
            watch := out.watch
            dueQueue := out.dueQueue } := by
      refine (State.removeEntry_with_zones s.dequeued n _).trans ?_
      show { out with zones := _ } = _
      rw [pool]
      rfl
    exact ⟨x.freed, runs ran, ⟨cache, unwritten.during.zonesFrame free ledger⟩, bytes, notices⟩
  intro outdated
  have found : s.fetched n = .record a := State.fetched_of_recordOf record
  have isOutdated := e.outdated_iff a
  refine ⟨fun old => ?_, fun current => ?_⟩
  · have unwritten := removed.unwritten
    obtain ⟨cache, notices, -⟩ := unwritten.shows service
    have mem : ((s.handedOver e).removeEntry n).mem = s.mem := by
      rw [ready.during.step (State.removeEntry_ledgerwise n)]
      rfl
    refine ⟨_, runs (x := (s.handedOver e).removeEntry n) ?_, ⟨cache, unwritten.during.zonesFrame free pool⟩, mem, notices⟩
    rw [found]
    exact congrFun (if_pos (isOutdated.mpr old)) _
  intro notices b
  obtain ⟨bakes, -⟩ := State.recordOf_sound record
  have zone : a.zone = some e.zone := by_contra fun other => current (.inl other)
  have gives : expiryWork e (s.fetched n) (s.handedOver e) = giveExpiry e a (s.handedOver e) := by
    rw [found]
    exact congrFun (if_neg fun old => current (isOutdated.mp old)) _
  obtain ⟨x, run, settled⟩ := giveExpiry_run ready found bakes zone
  obtain ⟨cache, written, go, bytes⟩ := settled.shows service bakes
  have ledger : out.countZone e.zone 0 1
      = { s with
          zones := s.zones.set e.zone { s.zones[e.zone] with expiredPresent := s.zones[e.zone].expiredPresent + 1 }
          watch := out.watch
          dueQueue := out.dueQueue } := by
    rw [pool]
    rfl
  exact ⟨_, runs (gives.trans run), ⟨cache, settled.during.zonesFrame free ledger⟩, written, go, bytes⟩

end

end Sys2Proof.Machine
end

-- ==== Proofs: refused requests ====
section
/-! Account requests that fail a check of R15 (O17). -/

namespace Sys2Proof.Machine

section
variable {s x : State} {k : ListNo} {kind n : Nat} {a : Account} {r : Result} {c : TakenCell}

/-! ### The kind checks that fail (R15 step 5) -/

/-- The answers that the checks before the kinds' do not give once the account is fetched. -/
def Result.late (r : Result) : Bool := decide (r ≠ .badAccount ∧ r ≠ .recordFault)

theorem late_some {q : Result} (own : q.late = true) (h : some q = some r) : r.late = true := by
  cases h
  exact own

theorem late_ite {p : Prop} [Decidable p] {y z : Option Result} (h : (if p then y else z) = some r)
    (hy : y = some r → r.late = true) (hz : z = some r → r.late = true) : r.late = true := by
  split at h
  · exact hy h
  · exact hz h

theorem State.classRefusal_late {cls : Nat} (h : s.classRefusal cls = some r) : r.late = true := by
  unfold State.classRefusal at h
  refine late_ite h (late_some rfl) fun h => ?_
  split at h
  · cases h
  · exact late_some rfl h
  · exact late_some rfl h
  · exact late_some rfl h

/-- A kind check refuses with neither of the answers of the checks before the kinds'. -/
theorem State.kindRefusal_late (h : s.kindRefusal kind c a = some r) : r.late = true := by
  unfold State.kindRefusal at h
  split at h
  case h_1 =>
    exact late_ite h (late_some rfl) fun h => late_ite h State.classRefusal_late fun h => late_ite h (late_some rfl) nofun
  case h_2 | h_3 => exact late_ite h (late_some rfl) fun h => late_ite h (late_some rfl) nofun
  case h_4 | h_5 | h_7 => exact late_ite h (late_some rfl) nofun
  case h_6 =>
    refine late_ite h (late_some rfl) fun h => late_ite h (late_some rfl) fun h => ?_
    split at h
    · exact late_ite h State.classRefusal_late fun h => late_ite h (late_some rfl) nofun
    · exact late_ite h (late_some rfl) nofun
  case h_8 => cases h

/-- The refusal of a request, where its kind's checks fail first: the work answers it and does no more. -/
def RefusesBy (s : State) (k : ListNo) (kind n : Nat) (c : TakenCell) (work : Nat → Account → Act Answer) : Prop :=
  ∀ a r, s.recordOf n = some a → s.kindRefusal kind c a = some r →
    work n a (s.begun k n) = .ok (refusedWith r) (s.begun k n)

theorem enrolAccount_refuses (s : State) (k : ListNo) (n : Nat) (c : TakenCell) : RefusesBy s k 1 n c (enrolAccount c) := by
  intro a r _ refused
  have classes : (s.begun k n).classes = s.classes := rfl
  simp only [State.kindRefusal, State.classRefusal_eq] at refused
  unfold enrolAccount
  rw [Act.get_bind]
  split at refused
  · next state =>
    cases refused
    rw [if_pos state]
    rfl
  next state =>
  rw [if_neg state]
  split at refused
  · next high =>
    cases refused
    rw [if_pos high]
    rfl
  next low =>
  rw [if_neg low]
  simp only [classes]
  cases figures : s.classes[(Fin.ofNat 8 c.enrolClass : ClassNo)].figures? with
  | none =>
    rw [figures] at refused
    simp only at refused
    cases refused
    rfl
  | some f =>
    rw [figures] at refused
    simp only at refused ⊢
    split at refused
    · next high =>
      cases refused
      rw [if_pos high]
      rfl
    · cases refused

theorem openAccount_refuses (s : State) (k : ListNo) (n : Nat) (c : TakenCell) : RefusesBy s k 2 n c (openAccount c) := by
  intro a r _ refused
  have zones : (s.begun k n).zones = s.zones := rfl
  simp only [State.kindRefusal] at refused
  unfold openAccount
  rw [Act.get_bind]
  split at refused
  · next state =>
    cases refused
    rw [if_pos state]
    rfl
  next state =>
  rw [if_neg state, zones]
  split at refused
  · next undefined_ =>
    cases refused
    rw [show s.zones[(Fin.ofNat 64 c.zoneAsked : ZoneNo)].defined = false from decide_eq_false (not_not.mpr undefined_)]
    rfl
  · cases refused

theorem moveAccount_refuses (s : State) (k : ListNo) (n : Nat) (c : TakenCell) : RefusesBy s k 3 n c (moveAccount c) := by
  intro a r record refused
  obtain ⟨-, placed⟩ := State.recordOf_sound record
  have zones : (s.begun k n).zones = s.zones := rfl
  simp only [State.kindRefusal] at refused
  unfold moveAccount
  rw [Act.get_bind]
  rcases Option.eq_none_or_eq_some a.zone with zone | ⟨z, zone⟩
  · rw [zone] at placed
    have outside : a.state.inZone = false := placed.symm
    rw [if_pos outside] at refused
    cases refused
    rw [zone]
    rfl
  · rw [zone] at placed
    have inZone : ¬ a.state.inZone = false := by rw [← placed]; simp
    rw [if_neg inZone] at refused
    split at refused
    · next undefined_ =>
      cases refused
      rw [zone]
      simp only
      rw [zones, show s.zones[(Fin.ofNat 64 c.zoneAsked : ZoneNo)].defined = false from decide_eq_false (not_not.mpr undefined_)]
      rfl
    · cases refused

theorem bagAccount_refuses (s : State) (k : ListNo) (n : Nat) (c : TakenCell) : RefusesBy s k 4 n c bagAccount := by
  intro a r record refused
  obtain ⟨-, placed⟩ := State.recordOf_sound record
  simp only [State.kindRefusal] at refused
  split at refused
  · next outside =>
    cases refused
    have zone : a.zone = none := by rw [outside] at placed; simpa using placed
    unfold bagAccount
    rw [Act.get_bind, zone]
    rfl
  · cases refused

theorem retireAccount_refuses (s : State) (k : ListNo) (n : Nat) (c : TakenCell) : RefusesBy s k 5 n c retireAccount := by
  intro a r _ refused
  simp only [State.kindRefusal, AccountState.isLive_eq] at refused
  split at refused
  · next state =>
    cases refused
    unfold retireAccount
    rw [Act.get_bind, if_pos state]
    rfl
  · cases refused

theorem amendAccount_refuses (s : State) (k : ListNo) (n : Nat) (c : TakenCell) : RefusesBy s k 6 n c (amendAccount c) := by
  intro a r _ refused
  have refusal : (s.begun k n).amendRefusal c a = some r := by
    rw [← refused, ← s.amendRefusal_eq]
    rfl
  unfold amendAccount
  rw [Act.get_bind, refusal]
  rfl

theorem queryAccount_refuses (s : State) (k : ListNo) (n : Nat) (c : TakenCell) : RefusesBy s k 7 n c queryAccount := by
  intro a r _ refused
  simp only [State.kindRefusal] at refused
  split at refused
  · next vacant =>
    cases refused
    unfold queryAccount
    rw [Act.get_bind, if_pos vacant]
    rfl
  · cases refused

/-! ### The checks in their order (R15) -/

/-- What the work on a refused account request leaves of the part. -/
structure Refused (s : State) (k : ListNo) (n : Nat) (r : Result) (x : State) : Prop where
  during : During s (s.afterTake k) s x s.noticeAreas
  unit : UnitGoes s x (if r = .recordFault then [⟨.recordFault, n, s.minute, word (s.faultOf n), 1⟩] else []) false
  cache : if r = .badAccount then x.cacheSets = s.cacheSets else OwnSet s x n (s.setAfterFetch n)

/-- A request refused once its account is fetched, and not for a faulty record. -/
theorem Ready.refused (ready : Ready s (s.afterTake k) s (s.begun k n) n) (other : r ≠ .badAccount ∧ r ≠ .recordFault) :
    Refused s k n r (s.begun k n) where
  during := ready.during.mono (List.nil_subset _)
  unit := by
    rw [if_neg other.2]
    exact ready.idle
  cache := by
    rw [if_neg other.1]
    exact ready.set

/-- A request for an account whose record is faulty (R2, R3, R144). -/
theorem onAccount_faulty (ready : Ready s (s.afterTake k) s (s.begun k n) n)
    (fetch : fetchRecord n (s.afterTake k) = .ok (s.fetched n) (s.begun k n)) (account : c.account = n)
    (faulty : s.recordOf n = none) (compareTag : Bool) (zonesOf : Account → List Nat) (work : Nat → Account → Act Answer) :
    ∃ x, onAccount c compareTag zonesOf work (s.afterTake k) = .ok (refusedWith .recordFault) x
      ∧ Refused s k n .recordFault x := by
  have layout : (s.afterTake k).layout = s.layout := rfl
  have minute : (s.afterTake k).minute = s.minute := rfl
  obtain ⟨x, run, unit, frame, during⟩ := ready.report [⟨.recordFault, n, s.minute, word (s.faultOf n), 1⟩]
  have cache : x.cacheSets = (s.begun k n).cacheSets := by rw [frame.frame]
  refine ⟨x, ?_, during, unit, ready.set.of_eq cache⟩
  unfold onAccount
  rw [Act.get_bind, account, layout, if_neg (by have := ready.inTable; omega), Act.bind_ok fetch, minute]
  rcases s.faulty_fetch faulty with ⟨found, fault⟩ | ⟨found, fault⟩
  · rw [found]
    rw [fault] at run
    exact (Act.bind_ok run).trans rfl
  · rw [found]
    rw [fault] at run
    exact (Act.bind_ok run).trans rfl

/-- A request that fails a check of R15 is refused with the first failure. -/
theorem onAccount_refused (h : Admits s k kind) (refused : s.accountRefusal kind (s.offered k) = some r) {compareTag : Bool}
    {zonesOf : Account → List Nat} (tag : compareTag = decide (kind ≠ 1))
    (zones : ∀ a, zonesOf a = zonesChecked kind (s.offered k) a) {work : Nat → Account → Act Answer}
    (kinds : RefusesBy s k kind (s.offered k).account (s.offered k) work) :
    ∃ x, onAccount (s.offered k) compareTag zonesOf work (s.afterTake k) = .ok (refusedWith r) x
      ∧ Refused s k (s.offered k).account r x := by
  have layout : (s.afterTake k).layout = s.layout := rfl
  have maps : (s.afterTake k).maps = s.maps := rfl
  unfold State.accountRefusal at refused
  split at refused
  · next outside =>
    cases refused
    refine ⟨s.afterTake k, ?_, (During.taken s k).mono (List.nil_subset _), ?_, rfl⟩
    · unfold onAccount
      rw [Act.get_bind, layout, if_pos outside]
      rfl
    · exact ⟨false, s, rfl, by simpa using h.offers.takenView.sameUnit (.refl s)⟩
  next inTable =>
  obtain ⟨ready, fetch⟩ := h.offers.ready (n := (s.offered k).account) (by omega)
  cases record : s.recordOf (s.offered k).account with
  | none =>
    rw [record] at refused
    cases refused
    exact onAccount_faulty ready fetch rfl record compareTag zonesOf work
  | some a =>
    rw [record] at refused
    simp only at refused
    have tags : (compareTag && decide ((s.offered k).tag ≠ a.tag)) = decide (kind ≠ 1 ∧ (s.offered k).tag ≠ a.tag) := by
      rw [tag, Bool.decide_and]
    have checks : onAccount (s.offered k) compareTag zonesOf work (s.afterTake k)
        = (if kind ≠ 1 ∧ (s.offered k).tag ≠ a.tag then pure (refusedWith .tagMismatch)
          else if (zonesChecked kind (s.offered k) a).any (fun z => !s.maps[(s.offered k).list].permitsZone z) then
            pure (refusedWith .denied)
          else work (s.offered k).account a : Act Answer) (s.begun k (s.offered k).account) := by
      unfold onAccount
      rw [Act.get_bind, layout, if_neg inTable, Act.bind_ok fetch, State.fetched_of_recordOf record]
      simp only
      rw [tags, maps, zones]
      simp only [decide_eq_true_eq]
    rw [checks]
    split at refused
    · next mismatch =>
      cases refused
      rw [if_pos mismatch]
      exact ⟨_, rfl, ready.refused (by decide)⟩
    next same =>
    rw [if_neg same]
    split at refused
    · next denied =>
      cases refused
      rw [if_pos denied]
      exact ⟨_, rfl, ready.refused (by decide)⟩
    next permitted =>
    rw [if_neg permitted]
    exact ⟨_, kinds a r record refused, ready.refused (of_decide_eq_true (State.kindRefusal_late refused))⟩

/-- What the command of a refused account request leaves. -/
def RefusalLeaves (s t : State) (k : ListNo) (r : Result) : Prop :=
  Answers s t k (refusedWith r) (if r = .recordFault then
      [⟨.recordFault, (s.offered k).account, s.minute, word (s.faultOf (s.offered k).account), 1⟩] else [])
    ∧ (if r = .badAccount then t.cacheSets = s.cacheSets else CacheAfter s t (s.offered k).account none)
    ∧ t = { s with
        mem := t.mem
        lists := t.lists
        lastServed := t.lastServed
        cacheSets := t.cacheSets
        written := t.written
        taken := t.taken
        heldNotices := t.heldNotices
        logFull := t.logFull
        noticesDropped := t.noticesDropped
        causes := t.causes
        messages := t.messages
        lines := t.lines }

/-- The command of an account request that fails a check of R15. -/
theorem Admits.refused (h : Admits s k kind) (refused : s.accountRefusal kind (s.offered k) = some r) {kinds : Nat → Bool}
    (hk : kinds kind = true) {compareTag : Bool} {zonesOf : TakenCell → Account → List Nat}
    (tag : compareTag = decide (kind ≠ 1)) (zones : ∀ a, zonesOf (s.offered k) a = zonesChecked kind (s.offered k) a)
    {work : TakenCell → Nat → Account → Act Answer}
    (refuses : ∀ n, RefusesBy s k kind n (s.offered k) (work (s.offered k))) :
    ∃ t, conclude (serveCell kinds fun c => do
        let r ← onAccount c compareTag (zonesOf c) (work c)
        pure (some r)) s = .next t ∧ RefusalLeaves s t k r := by
  obtain ⟨x, ran, left⟩ := onAccount_refused h refused tag zones (refuses _)
  obtain ⟨t, run, answers, ended⟩ :=
    left.during.answers h.offers.service.region h.offers.service.sound (fun _ hr => hr) left.unit (refusedWith r)
  have outcome := ended.outcome rfl (State.mayTakeCell_free h.offers.free)
  refine ⟨t.drive, h.run hk (x := x) ?_ run, answers, ?_, ?_⟩
  · rw [Act.bind_ok ran]
    rfl
  · have cache := left.cache
    split at cache
    · next outside =>
      rw [if_pos outside, ended.sets]
      exact cache
    · next fetched =>
      rw [if_neg fetched]
      exact (cache.of_eq ended.sets).cacheAfter (written := none) h.offers.service.sound
  · have frame := outcome.frame
    rw [outcome.zones, outcome.live, outcome.highest, outcome.watch, outcome.dueQueue, outcome.unwatched] at frame
    exact frame

/-- Settles O17: kind by kind, the work's own checks are those of the rule. -/
theorem refusedAccountRequestsChangeNothing : Obligations.RefusedAccountRequestsChangeNothing := by
  intro s k kind r h account refused n notices
  have known := h.known.1
  obtain rfl | rfl | rfl | rfl | rfl | rfl | rfl :
      kind = 1 ∨ kind = 2 ∨ kind = 3 ∨ kind = 4 ∨ kind = 5 ∨ kind = 6 ∨ kind = 7 := by omega
  · exact h.refused refused (kinds := (· == 1)) rfl (compareTag := false) (zonesOf := fun _ _ => []) rfl (fun _ => rfl)
      (work := enrolAccount) fun n => enrolAccount_refuses s k n _
  · exact h.refused refused (kinds := (· == 2)) rfl (compareTag := true) (zonesOf := fun c _ => [c.zoneAsked]) rfl (fun _ => rfl)
      (work := openAccount) fun n => openAccount_refuses s k n _
  · exact h.refused refused (kinds := (· == 3)) rfl (compareTag := true) (zonesOf := fun c a => a.presentZone ++ [c.zoneAsked])
      rfl (fun _ => rfl) (work := moveAccount) fun n => moveAccount_refuses s k n _
  · exact h.refused refused (kinds := (· == 4)) rfl (compareTag := true) (zonesOf := fun _ a => a.presentZone) rfl (fun _ => rfl)
      (work := fun _ => bagAccount) fun n => bagAccount_refuses s k n _
  · exact h.refused refused (kinds := (· == 5)) rfl (compareTag := true) (zonesOf := fun _ a => a.presentZone) rfl (fun _ => rfl)
      (work := fun _ => retireAccount) fun n => retireAccount_refuses s k n _
  · exact h.refused refused (kinds := (· == 6)) rfl (compareTag := true) (zonesOf := fun _ a => a.presentZone) rfl (fun _ => rfl)
      (work := amendAccount) fun n => amendAccount_refuses s k n _
  · exact h.refused refused (kinds := (· == 7)) rfl (compareTag := true) (zonesOf := fun _ _ => []) rfl (fun _ => rfl)
      (work := fun _ => queryAccount) fun n => queryAccount_refuses s k n _

end

end Sys2Proof.Machine
end

-- ==== Proofs: exposure arithmetic ====
section
/-! The fold, the watch thresholds, the projection, and one boundary of a zone (O27, O28, O29, O33). -/

namespace Sys2Proof.Machine

/-! ### Saturating results (R30) -/

/-- A result stored in 32 bits saturates at the largest value (R30). -/
theorem sat32_toNat (n : Nat) : (sat32 n).toNat = min n (2 ^ 32 - 1) := by
  unfold sat32
  split
  · next small => rw [BitVec.toNat_ofNat, Nat.mod_eq_of_lt small]; omega
  · next large => show 2 ^ 32 - 1 = _; omega

@[inherit_doc sat32_toNat]
theorem sat64_toNat (n : Nat) : (sat64 n).toNat = min n (2 ^ 64 - 1) := by
  unfold sat64
  split
  · next small => rw [BitVec.toNat_ofNat, Nat.mod_eq_of_lt small]; omega
  · next large => show 2 ^ 64 - 1 = _; omega

/-- A tally that takes no advance stays as it is. -/
theorem sat64_self (d : DWord) : sat64 d.toNat = d := by
  have := d.isLt
  exact BitVec.eq_of_toNat_eq (by rw [sat64_toNat]; omega)

/-! ### The fold (R41 to R43) -/

/-- The warning level is reached: a limited budget with a margin, less that margin (R29, R43). -/
theorem InForce.warnable_eq (f : InForce) (exposure : Nat) : f.warnable exposure
    = match f.budget with
      | some b => decide (f.margin ≠ 0) && decide (b - f.margin ≤ exposure)
      | none => false := by
  unfold InForce.warnable InForce.limited InForce.warningLevel
  cases f.budget <;> rfl

/-- The fold is its advance, then the two tests with one notice at most: WARNED is tested only where EXPIRED is clear still
(R41). -/
theorem foldAccount_eq (f : InForce) (minute : Word) (n : Nat) (z : ZoneNo) (tally degraded : DWord) (a : Account) :
    foldAccount f minute n z tally degraded a =
      let e := currentExposure a tally
      let expires := f.reached e.toNat && !a.flags.expired
      let warns := f.warnable e.toNat && !a.flags.warned && !a.flags.expired && !f.reached e.toNat
      ({ takeAdvance tally degraded a with
          mark := tally
          flags := { (takeAdvance tally degraded a).flags with
            expired := a.flags.expired || expires
            warned := a.flags.warned || warns }
          expiryMinute := if expires then minute else a.expiryMinute },
        if expires then [⟨.expired, n, minute, word z.val, e⟩]
        else if warns then [⟨.expiryWarning, n, minute, word z.val, e⟩] else []) := by
  unfold foldAccount
  simp only [expiryTest_eq, warningTest_eq, takeAdvance, zoneDetail]
  cases f.reached (currentExposure a tally).toNat with
  | false => simp
  | true => cases a.flags.expired <;> simp

/-- Settles O27: the advance saturates in 32 bits, and the tests are those of the two levels. -/
theorem foldTakesTheAdvanceAndTests : Obligations.FoldTakesTheAdvanceAndTests := by
  intro f minute n z tally degraded a r sum hit near expires warns
  have exposure : (currentExposure a tally).toNat = min sum (2 ^ 32 - 1) := sat32_toNat _
  have reached : f.reached (currentExposure a tally).toNat = hit := by rw [exposure]; rfl
  have warnable : f.warnable (currentExposure a tally).toNat = near := by
    rw [exposure]
    exact f.warnable_eq _
  have fold := foldAccount_eq f minute n z tally degraded a
  simp only [reached, warnable] at fold
  rw [show r = _ from fold]
  exact ⟨exposure, rfl, rfl, rfl, rfl, rfl⟩

/-! ### Watch thresholds (R47, R48) -/

theorem expiryThreshold_toNat (budget : Nat) (a : Account) (tally : DWord) :
    (expiryThreshold budget a tally).toNat =
      min (min a.mark.toNat tally.toNat + (budget - a.exposure.toNat)) (2 ^ 64 - 1) := by
  have := a.mark.isLt
  unfold expiryThreshold
  simp only
  split
  · exact sat64_toNat _
  · rw [BitVec.toNat_ofNat, Nat.mod_eq_of_lt (by omega)]
    omega

theorem warningThreshold_toNat (margin : Nat) (expiry : DWord) :
    (warningThreshold margin expiry).toNat = expiry.toNat - margin := by
  have := expiry.isLt
  unfold warningThreshold
  rw [BitVec.toNat_ofNat, Nat.mod_eq_of_lt (by omega)]

/-- Settles O28, from the two thresholds as numbers. -/
theorem thresholdIsWhereTheBudgetIsReached : Obligations.ThresholdIsWhereTheBudgetIsReached := by
  intro budget margin a tally base e w
  have expiry : e.toNat = min (base + (budget - a.exposure.toNat)) (2 ^ 64 - 1) := expiryThreshold_toNat budget a tally
  have warning : w.toNat = e.toNat - margin := warningThreshold_toNat margin e
  have low : base ≤ a.mark.toNat := Nat.min_le_left _ _
  have := a.mark.isLt
  refine ⟨fun _ => expiry, fun reached => by omega, warning, fun marked fits below => ?_, rfl⟩
  have atMark : base = a.mark.toNat := Nat.min_eq_left marked
  exact ⟨fun v => by omega, fun belowWarning v => by omega⟩

/-! ### The projected expiry (R51) -/

/-- A quotient rounded up is the least number of advances that makes up a sum. -/
theorem roundedUp_le_iff {rate : Nat} (pos : 0 < rate) (sum d : Nat) : (sum + rate - 1) / rate ≤ d ↔ sum ≤ d * rate := by
  rw [← Nat.ceilDiv_eq_add_pred_div, ceilDiv_le_iff_le_mul pos, Nat.mul_comm]

/-- Settles O29: the quotient rounded up is the first number of boundaries that reaches the budget. -/
theorem projectionIsTheFirstMinuteThatReachesTheBudget : Obligations.ProjectionIsTheFirstMinuteThatReachesTheBudget := by
  intro s f a now rate
  unfold State.projection
  refine ⟨fun unlimited => by rw [unlimited], fun b limited => ?_⟩
  simp only [limited]
  refine ⟨fun reached => if_pos reached, fun below unset => ?_, fun below none => ?_,
    fun m stall held below rising inZone => ?_⟩
  · rw [if_neg (by omega), unset]
  · rw [if_neg (by omega)]
    cases s.clock with
    | unset => rfl
    | held m stall => exact if_pos none
  · have first := roundedUp_le_iff (Nat.pos_of_ne_zero rising) (b - now)
    refine ⟨(b - now + rate - 1) / rate, ?_, ?_, fun d short => ?_, ?_⟩
    · by_contra none
      have := (first 0).mp (by omega)
      omega
    · have := (first _).mp (Nat.le_refl _)
      omega
    · have := (first d).not.mp (by omega)
      omega
    · rw [if_neg (by omega), held]
      simp only
      rw [if_neg (by simp [rising, inZone])]

/-! ### One boundary of a zone (R34 to R39, R64) -/

theorem Zone.turnsStale_iff (z : Zone) (minute : Nat) : z.turnsStale minute = true ↔
    z.type ≠ .typeNone ∧ z.climate = .current
      ∧ (minute < z.lastSample.toNat ∨ z.staleLimit.toNat ≤ minute - z.lastSample.toNat) := by
  simp [Zone.turnsStale, Zone.defined, and_assoc]

/-- The staleness check changes the climate state alone (R64). -/
theorem Zone.checkStale_eq (z : Zone) (minute : Nat) :
    z.checkStale minute = { z with climate := if z.turnsStale minute then .stale else z.climate } := by
  unfold Zone.checkStale
  split <;> rfl

theorem Zone.advanceTallies_exposure (z : Zone) (classes : Vector ClassState 8) (c : ClassNo) :
    (z.advanceTallies classes).exposure[c] = sat64 (z.exposure[c].toNat + appliedRate z classes[c]) := by
  show (Vector.ofFn _)[c.val] = _
  rw [Vector.getElem_ofFn]

theorem Zone.advanceTallies_degraded (z : Zone) (classes : Vector ClassState 8) (c : ClassNo) :
    (z.advanceTallies classes).degraded[c] = if z.degrades then (z.advanceTallies classes).exposure[c] else z.degraded[c] := by
  show (if z.degrades then (z.advanceTallies classes).exposure else z.degraded)[c] = _
  split <;> rfl

theorem Zone.advanceTallies_bake (z : Zone) (classes : Vector ClassState 8) (c : ClassNo) :
    (z.advanceTallies classes).bake[c] = if z.countsBake classes[c] then sat32 (z.bake[c].toNat + 1) else z.bake[c] := by
  show (Vector.ofFn _)[c.val] = _
  rw [Vector.getElem_ofFn]

theorem Zone.advanceTallies_dry (z : Zone) (classes : Vector ClassState 8) :
    (z.advanceTallies classes).dry = if z.countsDry then sat32 (z.dry.toNat + 1) else z.dry := rfl

/-- A zone of type NONE is passed over: no rate applies to it, and it neither degrades nor counts (R34). -/
theorem Zone.boundary_none {z : Zone} (h : z.type = .typeNone) (classes : Vector ClassState 8) (minute : Nat) :
    z.boundary classes minute = z := by
  have fresh : z.checkStale minute = z := by simp [Zone.checkStale, Zone.turnsStale, Zone.defined, h]
  have exposure : (z.advanceTallies classes).exposure = z.exposure := by
    refine Vector.ext fun c hc => ?_
    exact (z.advanceTallies_exposure classes ⟨c, hc⟩).trans (by simp [appliedRate, h, sat64_self])
  have degraded : (z.advanceTallies classes).degraded = z.degraded := by
    refine Vector.ext fun c hc => ?_
    exact (z.advanceTallies_degraded classes ⟨c, hc⟩).trans (by simp [Zone.degrades, Zone.defined, h])
  have bake : (z.advanceTallies classes).bake = z.bake := by
    refine Vector.ext fun c hc => ?_
    exact (z.advanceTallies_bake classes ⟨c, hc⟩).trans (by simp [Zone.countsBake, h])
  have dry : (z.advanceTallies classes).dry = z.dry := by simp [Zone.advanceTallies_dry, Zone.countsDry, h]
  unfold Zone.boundary
  rw [fresh]
  calc z.advanceTallies classes
      = { z with
          exposure := (z.advanceTallies classes).exposure, degraded := (z.advanceTallies classes).degraded
          bake := (z.advanceTallies classes).bake, dry := (z.advanceTallies classes).dry } := rfl
    _ = z := by rw [exposure, degraded, bake, dry]

/-- The applied rate of a defined zone: none where it dries or bakes, its table's where else it is CURRENT, and the worst rate
where it is not (R35). -/
theorem appliedRate_eq {z : Zone} (defined : z.type ≠ .typeNone) (c : ClassState) : appliedRate z c
    = if z.climate = .current then
        if z.type = .typeBake ∨ (z.type = .typeDry ∧ z.humBand ≤ z.dryLimitBand) then 0
        else tableRate c z.tempBand z.humBand
      else worstOf c := by
  unfold appliedRate
  cases type : z.type with
  | typeNone => exact absurd type defined
  | typeOpen => simp
  | typeDry => simp
  | typeBake => simp

theorem Zone.degrades_iff (z : Zone) : z.degrades = true ↔ z.type ≠ .typeNone ∧ z.climate ≠ .current := by
  simp [Zone.degrades, Zone.defined]

theorem Zone.countsDry_iff (z : Zone) :
    z.countsDry = true ↔ z.climate = .current ∧ z.type = .typeDry ∧ z.humBand ≤ z.dryLimitBand := by
  simp only [Zone.countsDry, Bool.and_eq_true, decide_eq_true_eq]
  tauto

/-- A bake minute of a VALID class (R38). -/
theorem Zone.countsBake_valid (z : Zone) (f : Figures) (worst : Nat) :
    z.countsBake (.valid f worst) = true
      ↔ z.climate = .current ∧ z.type = .typeBake ∧ (f.setpoint : Int) ≤ z.lastTemp.toInt := by
  simp only [Zone.countsBake, ClassState.figures?, Bool.and_eq_true, decide_eq_true_eq]
  tauto

/-- A class that is not VALID counts no bake minute (R38). -/
theorem Zone.countsBake_other (z : Zone) {c : ClassState} (h : c.figures? = none) : z.countsBake c = false := by
  simp [Zone.countsBake, h]

/-- The bake tally of a class after a boundary (R38). -/
theorem Zone.advanceTallies_bake_toNat (z : Zone) (classes : Vector ClassState 8) (c : ClassNo) :
    ((z.advanceTallies classes).bake[c]).toNat
      = match classes[c] with
        | .valid f _ =>
          if z.climate = .current ∧ z.type = .typeBake ∧ (f.setpoint : Int) ≤ z.lastTemp.toInt then
            min (z.bake[c].toNat + 1) (2 ^ 32 - 1)
          else z.bake[c].toNat
        | _ => z.bake[c].toNat := by
  rw [Zone.advanceTallies_bake]
  cases state : classes[c] with
  | valid f worst =>
    simp only [z.countsBake_valid f worst]
    split
    · exact sat32_toNat _
    · rfl
  | empty => rw [z.countsBake_other rfl] <;> rfl
  | invalid cause => rw [z.countsBake_other rfl] <;> rfl
  | programming => rw [z.countsBake_other rfl] <;> rfl

/-- The dry tally after a boundary (R37). -/
theorem Zone.advanceTallies_dry_toNat (z : Zone) (classes : Vector ClassState 8) :
    (z.advanceTallies classes).dry.toNat
      = if z.climate = .current ∧ z.type = .typeDry ∧ z.humBand ≤ z.dryLimitBand then min (z.dry.toNat + 1) (2 ^ 32 - 1)
        else z.dry.toNat := by
  simp only [Zone.advanceTallies_dry, z.countsDry_iff]
  split
  · exact sat32_toNat _
  · rfl

/-- Settles O33: the check leaves the zone CURRENT or not, and each tally advances by what it then is. -/
theorem zoneBoundaryAdvancesItsTallies : Obligations.ZoneBoundaryAdvancesItsTallies := by
  intro z classes minute t stale current
  refine ⟨fun none => Zone.boundary_none none classes minute, fun defined => ?_⟩
  have checked : z.checkStale minute = { z with climate := if stale then .stale else z.climate } := by
    rw [Zone.checkStale_eq]
    simp only [z.turnsStale_iff, defined, ne_eq, not_false_eq_true, true_and] <;> rfl
  have stays : (if stale then .stale else z.climate) = ClimateState.current ↔ current := by
    by_cases h : stale <;> simp [current, h]
  generalize (if stale then ClimateState.stale else z.climate) = climate at *
  have advanced : t = Zone.advanceTallies { z with climate := climate } classes :=
    congrArg (Zone.advanceTallies · classes) checked
  rw [advanced]
  refine ⟨rfl, fun c => ⟨?exposure, ?degraded, ?bake⟩, ?dry, rfl⟩
  case exposure =>
    rw [Zone.advanceTallies_exposure, sat64_toNat, appliedRate_eq (by exact defined)]
    simp only [stays, tableRate_eq, worstOf_eq] <;> rfl
  case degraded =>
    rw [Zone.advanceTallies_degraded]
    simp only [Zone.degrades_iff, ne_eq, stays]
    by_cases h : current <;> simp [h, defined]
  case bake =>
    rw [Zone.advanceTallies_bake_toNat]
    simp only [stays] <;> rfl
  case dry =>
    rw [Zone.advanceTallies_dry_toNat]
    simp only [stays]

end Sys2Proof.Machine
end

-- ==== Proofs: tallies and the plant minute ====
section
/-! What each work does to the tallies of the zones and to the plant clock, and that no step lowers them (O59). -/

namespace Sys2Proof.Machine

/-! ### The tallies of a zone (R31) -/

/-- The tallies and degraded marks of a zone. -/
def Zone.tallies (z : Zone) : Vector DWord 8 × Vector DWord 8 × Vector Word 8 × Word := (z.exposure, z.degraded, z.bake, z.dry)

/-- `TalliesRise` of one zone: no tally of `w` lies below that of `z`, nor a degraded mark that stood at or below its tally. -/
structure Zone.Rises (z w : Zone) : Prop where
  exposure : ∀ c : ClassNo, z.exposure[c].toNat ≤ w.exposure[c].toNat
  bake : ∀ c : ClassNo, z.bake[c].toNat ≤ w.bake[c].toNat
  dry : z.dry.toNat ≤ w.dry.toNat
  degraded : ∀ c : ClassNo, z.degraded[c].toNat ≤ z.exposure[c].toNat →
    z.degraded[c].toNat ≤ w.degraded[c].toNat ∧ w.degraded[c].toNat ≤ w.exposure[c].toNat

theorem talliesRise_iff (s t : State) : TalliesRise s t ↔ ∀ i : ZoneNo, s.zones[i].Rises t.zones[i] :=
  ⟨fun h i => ⟨h.exposure i, h.bake i, h.dry i, h.degraded i⟩,
    fun h => ⟨fun i => (h i).exposure, fun i => (h i).bake, fun i => (h i).dry, fun i => (h i).degraded⟩⟩

theorem Zone.Rises.of_tallies {z w : Zone} (h : w.tallies = z.tallies) : z.Rises w := by
  simp only [Zone.tallies, Prod.mk.injEq] at h
  obtain ⟨exposure, degraded, bake, dry⟩ := h
  exact ⟨fun c => by rw [exposure], fun c => by rw [bake], by rw [dry],
    fun c below => by rw [degraded, exposure]; exact ⟨le_rfl, below⟩⟩

theorem Zone.Rises.trans {x y z : Zone} (h : x.Rises y) (g : y.Rises z) : x.Rises z where
  exposure c := (h.exposure c).trans (g.exposure c)
  bake c := (h.bake c).trans (g.bake c)
  dry := h.dry.trans g.dry
  degraded c below :=
    have first := h.degraded c below
    have second := g.degraded c first.2
    ⟨first.1.trans second.1, second.2⟩

/-- What a tally gains in 64 bits never lowers it (R30). -/
theorem le_sat64_add (d : DWord) (n : Nat) : d.toNat ≤ (sat64 (d.toNat + n)).toNat := by
  have := d.isLt
  rw [sat64_toNat]
  omega

/-- A minute counted in 32 bits never lowers a tally (R30). -/
theorem le_counted (counts : Bool) (w : Word) : w.toNat ≤ (if counts then sat32 (w.toNat + 1) else w).toNat := by
  have := w.isLt
  split
  · rw [sat32_toNat]; omega
  · exact le_rfl

theorem Zone.checkStale_tallies (z : Zone) (minute : Nat) : (z.checkStale minute).tallies = z.tallies := by
  rw [Zone.checkStale_eq]
  rfl

/-- The advance of a boundary lowers no tally; a mark it moves takes the new tally, which no lower mark exceeds (R36 to R39). -/
theorem Zone.advanceTallies_rises (z : Zone) (classes : Vector ClassState 8) : z.Rises (z.advanceTallies classes) where
  exposure c := by
    rw [Zone.advanceTallies_exposure]
    exact le_sat64_add _ _
  bake c := by
    rw [Zone.advanceTallies_bake]
    exact le_counted _ _
  dry := le_counted _ _
  degraded c below := by
    have rise := le_sat64_add z.exposure[c] (appliedRate z classes[c])
    rw [← Zone.advanceTallies_exposure] at rise
    rw [Zone.advanceTallies_degraded]
    split
    · exact ⟨below.trans rise, le_rfl⟩
    · exact ⟨le_rfl, below.trans rise⟩

theorem Zone.boundary_rises (z : Zone) (classes : Vector ClassState 8) (minute : Nat) : z.Rises (z.boundary classes minute) :=
  (Zone.Rises.of_tallies (z.checkStale_tallies minute)).trans (Zone.advanceTallies_rises _ _)

/-- A gap accrual lowers no tally, and every mark takes its new tally (R127). -/
theorem Zone.gap_rises (z : Zone) (classes : Vector ClassState 8) (g : Nat) : z.Rises (z.gap classes g) := by
  unfold Zone.gap
  split
  · have rise (c : ClassNo) : z.exposure[c].toNat ≤
        ((Vector.ofFn fun c : Fin 8 => sat64 (z.exposure[c].toNat + g * gapRateOf classes[c]))[c]).toNat := by
      show _ ≤ BitVec.toNat (Vector.ofFn _)[c.val]
      rw [Vector.getElem_ofFn]
      exact le_sat64_add _ _
    exact ⟨rise, fun _ => le_rfl, le_rfl, fun c below => ⟨below.trans (rise c), le_rfl⟩⟩
  · exact .of_tallies rfl

/-! ### States that stand still, and states that rise -/

/-- The tallies and the clock of `t` are those of `s`. -/
structure Still (s t : State) : Prop where
  tallies : ∀ i : ZoneNo, t.zones[i].tallies = s.zones[i].tallies
  clock : t.clock = s.clock

/-- No tally has fallen between `s` and `t`, and a clock that was set is still set and has not fallen. -/
structure Rises (s t : State) : Prop where
  tallies : TalliesRise s t
  clock : s.clockSet = true → t.clockSet = true ∧ s.minute.toNat ≤ t.minute.toNat

/-- A change of anything but the zones and the clock. -/
theorem Still.elsewhere {s t : State} (h : (t.zones, t.clock) = (s.zones, s.clock)) : Still s t := by
  obtain ⟨zones, clock⟩ := Prod.mk.inj h
  exact ⟨fun _ => by rw [zones], clock⟩

theorem Still.refl (s : State) : Still s s := .elsewhere rfl

theorem Still.trans {s t u : State} (h : Still s t) (g : Still t u) : Still s u :=
  ⟨fun i => (g.tallies i).trans (h.tallies i), g.clock.trans h.clock⟩

theorem Still.clockSet {s t : State} (h : Still s t) : t.clockSet = s.clockSet := by
  unfold State.clockSet
  rw [h.clock]

theorem Still.minute {s t : State} (h : Still s t) : t.minute = s.minute := by
  unfold State.minute
  rw [h.clock]

theorem TalliesRise.trans {s t u : State} (h : TalliesRise s t) (g : TalliesRise t u) : TalliesRise s u :=
  (talliesRise_iff s u).mpr fun i => ((talliesRise_iff s t).mp h i).trans ((talliesRise_iff t u).mp g i)

theorem TalliesRise.of_zones {s t : State} (h : t.zones = s.zones) : TalliesRise s t :=
  (talliesRise_iff s t).mpr fun i => .of_tallies (by rw [h])

theorem Still.talliesRise {s t : State} (h : Still s t) : TalliesRise s t :=
  (talliesRise_iff s t).mpr fun i => .of_tallies (h.tallies i)

theorem Still.rises {s t : State} (h : Still s t) : Rises s t :=
  ⟨h.talliesRise, fun set => ⟨by rw [h.clockSet, set], by rw [h.minute]⟩⟩

theorem Rises.trans {s t u : State} (h : Rises s t) (g : Rises t u) : Rises s u where
  tallies := h.tallies.trans g.tallies
  clock set :=
    have first := h.clock set
    have second := g.clock first.1
    ⟨second.1, first.2.trans second.2⟩

/-- A zone replaced by one with the same tallies. -/
theorem Still.setZone (s : State) (i : ZoneNo) {w : Zone} (h : w.tallies = s.zones[i].tallies) :
    Still s { s with zones := s.zones.set i w } := by
  refine ⟨fun j => ?_, rfl⟩
  show (s.zones.set i.val w)[j.val].tallies = s.zones[j.val].tallies
  rw [Vector.getElem_set]
  split
  · next e => simp only [← e]; exact h
  · rfl

theorem Still.raiseCause (s : State) (c : Cause) : Still s (s.raiseCause c) := .elsewhere (by simp)

/-- A change of the watch pool alone. -/
theorem Still.of_pool {s t : State} {watch : List WatchEntry} {dueQueue : List Nat} {unwatched : Nat}
    (h : t = { s with watch := watch, dueQueue := dueQueue, unwatched := unwatched }) : Still s t := by
  rw [h]
  exact .elsewhere rfl

theorem Still.countZone (s : State) (z : ZoneNo) (occ exp : Int) : Still s (s.countZone z occ exp) := .setZone s z rfl

theorem Still.noteBake (s : State) (a b : Account) : Still s (s.noteBake a b) := by
  unfold State.noteBake
  split
  · exact .refl s
  · exact .elsewhere rfl

theorem Still.countAmend (s : State) (a b : Account) : Still s (s.countAmend a b) := by
  have zone : Still s (s.countExpired a b) := by
    unfold State.countExpired
    split
    · exact .countZone s _ _ _
    · exact .refl s
  rw [State.countAmend_eq]
  generalize s.countExpired a b = t at zone
  split
  · exact zone
  · exact zone.trans (.elsewhere (by rfl))

theorem Still.rewatch (s : State) (e : WatchEntry) (a : Account) : Still s (s.rewatch e a) := by
  have removed := Still.of_pool (s.removeEntry_frame e.account)
  unfold State.rewatch
  split
  · exact removed
  · exact removed.trans (.elsewhere (by rfl))

theorem Still.patrolWatch (s : State) (n : Nat) (a : Account) : Still s (s.patrolWatch n a) := by
  have tried := Still.of_pool (s.tryWatch_frame n a)
  unfold State.patrolWatch
  simp only
  split
  · exact tried.trans (.elsewhere (by rfl))
  · exact tried

theorem Still.tuned (s : State) (c : TakenCell) (maps : Vector AuthMap 8) : Still s (s.tuned c maps) := by
  unfold State.tuned
  cases cacheModeOf c.tuneMode with
  | none => exact .elsewhere rfl
  | some m => cases m <;> exact .elsewhere rfl

theorem Still.removeClass (s : State) (cls : ClassNo) (limited : Bool) : Still s (s.removeClass cls limited) := by
  cases limited <;> exact .elsewhere rfl

/-- Samples change the readings of zones and no tally (R62). -/
theorem examineSamples_tallies (m : AuthMap) (minute : Word) (xs : List Sample) (i : ZoneNo) :
    ∀ r : SampleRun, (xs.foldl (examineSample m minute) r).zones[i].tallies = r.zones[i].tallies := by
  induction xs with
  | nil => exact fun _ => rfl
  | cons x xs ih =>
    intro r
    rw [List.foldl_cons, ih]
    unfold examineSample
    simp only
    split
    · rfl
    · split
      · rfl
      · split
        · rfl
        · show (r.zones.set _ _)[i.val].tallies = r.zones[i.val].tallies
          rw [Vector.getElem_set]
          split
          · next e => simp only [← e]; rfl
          · rfl

/-! ### Work that leaves the tallies and the clock alone -/

section

variable {α β : Type} {s₀ : State}

theorem Act.still_modify {f : State → State} (h : ∀ s, Still s (f s)) : Act.Keeps (Still s₀) (modify f) :=
  Act.keeps_modify fun s hs => hs.trans (h s)

theorem regionRead_still (off n : Nat) : Act.Keeps (Still s₀) (regionRead off n) :=
  regionRead_keeps (fun _ _ h => h.trans (.elsewhere (by rfl))) off n

theorem regionWriteLanding_still (lands : Nat → Nat) (off : Nat) (ws : List Word) :
    Act.Keeps (Still s₀) (regionWriteLanding lands off ws) :=
  regionWriteLanding_keeps (fun _ _ h => h.trans (.elsewhere (by rfl))) (fun _ _ _ h => h.trans (.elsewhere (by rfl)))
    lands off ws

theorem regionWrite_still (off : Nat) (ws : List Word) : Act.Keeps (Still s₀) (regionWrite off ws) :=
  regionWriteLanding_still _ off ws

theorem regionWriteWhole_still (off : Nat) (ws : List Word) : Act.Keeps (Still s₀) (regionWriteWhole off ws) :=
  regionWriteLanding_still _ off ws

theorem landStores_still (stores : HostStores) : Act.Keeps (Still s₀) (landStores stores) :=
  Act.still_modify fun _ => .elsewhere (by rfl)

/-- Work that answers what it read. -/
theorem Act.keeps_then_pure {I : State → Prop} {a : Act α} (h : Act.Keeps I a) (f : α → β) :
    Act.Keeps I (do let x ← a; pure (f x)) :=
  Act.keeps_bind h fun _ => Act.keeps_pure _

/-! ### The notice unit and the cache stand still -/

theorem writeNotice_still (n : Notice) (held : List Notice) : Act.Keeps (Still s₀) (writeNotice n held) :=
  Act.keeps_get_any fun _ => Act.keeps_bind (regionWrite_still _ _) fun _ =>
    Act.keeps_bind (Act.still_modify fun _ => by exact .trans (.elsewhere (by rfl)) (.raiseCause _ _)) fun _ =>
      Act.keeps_get_any fun _ => regionWriteWhole_still _ _

theorem drain_still (k : Nat) : Act.Keeps (Still s₀) (drain k) := by
  induction k with
  | zero => exact Act.keeps_pure _
  | succ k ih =>
    refine Act.keeps_get_any fun s => Act.keeps_ite ?_ (Act.keeps_pure _)
    cases nextHeld s.heldNotices with
    | none => exact Act.keeps_pure _
    | some n => exact Act.keeps_bind (writeNotice_still _ _) fun _ => ih

theorem readTaken_still : Act.Keeps (Still s₀) readTaken :=
  Act.keeps_get_any fun _ => Act.keeps_bind (regionRead_still _ _) fun _ =>
    Act.keeps_bind (Act.still_modify fun _ => .elsewhere (by rfl)) fun _ => Act.keeps_get_any fun _ => drain_still _

theorem receiveNotice_still (n : Notice) : Act.Keeps (Still s₀) (receiveNotice n) := by
  have hold {f : State → State} (h : ∀ s, Still s (f s)) (dropped : Bool) :
      Act.Keeps (Still s₀) (do modify f; readTaken; pure dropped) :=
    Act.keeps_bind (Act.still_modify h) fun _ => Act.keeps_then_pure readTaken_still fun _ => dropped
  refine Act.keeps_get_any fun s =>
    Act.keeps_ite (Act.keeps_ite ?logged ?read) (Act.keeps_ite ?merged (Act.keeps_ite ?held ?dropped))
  case logged => exact Act.keeps_then_pure (writeNotice_still _ _) _
  case read =>
    exact Act.keeps_bind readTaken_still fun _ => Act.keeps_get_any fun _ => Act.keeps_ite
      (Act.keeps_then_pure (writeNotice_still _ _) _)
      (Act.keeps_then_pure (Act.still_modify fun _ => .elsewhere (by rfl)) _)
  case merged => exact hold (fun _ => .elsewhere (by rfl)) false
  case held => exact hold (fun _ => .elsewhere (by rfl)) false
  case dropped => exact Act.keeps_then_pure readTaken_still _

theorem handNotices_still (ns : List Notice) : Act.Keeps (Still s₀) (handNotices ns) := by
  induction ns with
  | nil => exact Act.keeps_pure _
  | cons n ns ih =>
    exact Act.keeps_bind (receiveNotice_still n) fun _ =>
      Act.keeps_ite (Act.keeps_bind (Act.still_modify fun _ => .elsewhere (by rfl)) fun _ => Act.keeps_then_pure ih _)
        (Act.keeps_then_pure ih _)

theorem reportNotices_still (ns : List Notice) : Act.Keeps (Still s₀) (reportNotices ns) :=
  Act.keeps_then_pure (handNotices_still ns) _

theorem readUncached_still (n : Nat) : Act.Keeps (Still s₀) (readUncached n) :=
  Act.keeps_get_any fun _ => Act.keeps_then_pure (regionRead_still _ _) _

theorem fetchRecord_still (n : Nat) : Act.Keeps (Still s₀) (fetchRecord n) := by
  refine Act.keeps_get_any fun s => ?_
  split
  · exact Act.keeps_then_pure (Act.still_modify fun _ => .elsewhere (by rfl)) _
  · refine Act.keeps_ite (Act.keeps_bind (regionRead_still _ _) fun ws => Act.keeps_ite (Act.keeps_pure _) ?_)
      (readUncached_still n)
    exact Act.keeps_then_pure (Act.still_modify fun _ => .elsewhere (by rfl)) _

theorem patrolFetch_still (n : Nat) : Act.Keeps (Still s₀) (patrolFetch n) := by
  refine Act.keeps_get_any fun s => ?_
  split
  · exact Act.keeps_pure _
  · exact readUncached_still n

theorem writeThrough_still (n : Nat) (a : Account) : Act.Keeps (Still s₀) (writeThrough n a) :=
  Act.keeps_bind (Act.still_modify fun _ => .elsewhere (by rfl)) fun _ =>
    Act.keeps_get_any fun _ => Act.keeps_then_pure (regionWrite_still _ _) _

theorem markMissed_still (n : Nat) (dropped : Bool) : Act.Keeps (Still s₀) (markMissed n dropped) := by
  refine Act.keeps_ite (Act.keeps_bind (fetchRecord_still n) fun f => ?_) (Act.keeps_pure _)
  cases f with
  | corrupt => exact Act.still_modify fun _ => .elsewhere (by rfl)
  | malformed => exact Act.still_modify fun _ => .elsewhere (by rfl)
  | record a => exact Act.keeps_ite (Act.keeps_pure _) (Act.keeps_then_pure (writeThrough_still _ _) _)

theorem settleAccount_still (n : Nat) (a : Account) {counts : State → State} (h : ∀ s, Still s (counts s))
    (ns : List Notice) : Act.Keeps (Still s₀) (settleAccount n a counts ns) :=
  Act.keeps_bind (writeThrough_still n a) fun _ => Act.keeps_bind (Act.still_modify h) fun _ =>
    Act.keeps_then_pure (Act.keeps_bind (handNotices_still ns) fun _ => markMissed_still n _) _

/-! ### Every work of a cell but CLOCKSET stands still -/

theorem onAccount_still (c : TakenCell) (compareTag : Bool) (zonesOf : Account → List Nat)
    {work : Nat → Account → Act Answer} (h : ∀ n a, Act.Keeps (Still s₀) (work n a)) :
    Act.Keeps (Still s₀) (onAccount c compareTag zonesOf work) := by
  refine Act.keeps_get_any fun s => Act.keeps_ite (Act.keeps_pure _) (Act.keeps_bind (fetchRecord_still _) fun f => ?_)
  cases f with
  | corrupt => exact Act.keeps_then_pure (reportNotices_still _) _
  | malformed => exact Act.keeps_then_pure (reportNotices_still _) _
  | record a => exact Act.keeps_ite (Act.keeps_pure _) (Act.keeps_ite (Act.keeps_pure _) (h _ a))

theorem enrolAccount_still (c : TakenCell) (n : Nat) (a : Account) : Act.Keeps (Still s₀) (enrolAccount c n a) := by
  refine Act.keeps_get_any fun s => Act.keeps_ite (Act.keeps_pure _) (Act.keeps_ite (Act.keeps_pure _) ?_)
  simp only
  split
  · exact Act.keeps_pure _
  · exact Act.keeps_ite (Act.keeps_pure _) (Act.keeps_then_pure (settleAccount_still _ _ (fun _ => .elsewhere (by rfl)) _) _)

theorem openAccount_still (c : TakenCell) (n : Nat) (a : Account) : Act.Keeps (Still s₀) (openAccount c n a) := by
  refine Act.keeps_get_any fun s => Act.keeps_ite (Act.keeps_pure _) (Act.keeps_ite (Act.keeps_pure _) ?_)
  exact Act.keeps_bind (Act.still_modify fun s => .of_pool (s.watchAccount_frame _ _)) fun _ =>
    Act.keeps_then_pure (settleAccount_still _ _ (fun s => .countZone s _ _ _) _) _

theorem moveAccount_still (c : TakenCell) (n : Nat) (a : Account) : Act.Keeps (Still s₀) (moveAccount c n a) := by
  refine Act.keeps_get_any fun s => ?_
  cases a.zone with
  | none => exact Act.keeps_pure _
  | some src =>
    refine Act.keeps_ite (Act.keeps_pure _) (Act.keeps_ite (Act.keeps_pure _) ?_)
    exact Act.keeps_bind (Act.still_modify fun s => .of_pool (s.repooled_frame n a _)) fun _ =>
      Act.keeps_then_pure (settleAccount_still _ _
        (fun s => ((Still.countZone s _ _ _).trans (.countZone _ _ _ _)).trans (.noteBake _ _ _)) _) _

theorem bagAccount_still (n : Nat) (a : Account) : Act.Keeps (Still s₀) (bagAccount n a) := by
  refine Act.keeps_get_any fun s => ?_
  cases a.zone with
  | none => exact Act.keeps_pure _
  | some z =>
    exact Act.keeps_bind (Act.still_modify fun s => .of_pool (s.unpooled_frame n a)) fun _ =>
      Act.keeps_then_pure (settleAccount_still _ _ (fun s => (Still.countZone s _ _ _).trans (.noteBake _ _ _)) _) _

theorem retireAccount_still (n : Nat) (a : Account) : Act.Keeps (Still s₀) (retireAccount n a) := by
  refine Act.keeps_get_any fun s => Act.keeps_ite (Act.keeps_pure _) ?_
  cases a.zone with
  | none => exact Act.keeps_then_pure (settleAccount_still _ _ (fun _ => .elsewhere (by rfl)) _) _
  | some z =>
    simp only
    exact Act.keeps_bind (Act.still_modify fun s => .of_pool (s.unpooled_frame n a)) fun _ =>
      Act.keeps_then_pure (settleAccount_still _ _ (fun s => (Still.countZone s _ _ _).trans (.elsewhere (by rfl))) _) _

theorem amendAccount_still (c : TakenCell) (n : Nat) (a : Account) : Act.Keeps (Still s₀) (amendAccount c n a) := by
  refine Act.keeps_get_any fun s => ?_
  cases s.amendRefusal c a with
  | some r => exact Act.keeps_pure _
  | none =>
    have settles := settleAccount_still (s₀ := s₀) n (s.amended c n a).1
      (counts := fun t => t.countAmend a (s.amended c n a).1) (fun t => .countAmend t _ _) (s.amended c n a).2
    exact Act.keeps_ite (Act.keeps_bind (Act.still_modify fun t => .of_pool (t.repooled_frame n a _)) fun _ =>
      Act.keeps_then_pure settles _) (Act.keeps_then_pure settles _)

theorem queryAccount_still (n : Nat) (a : Account) : Act.Keeps (Still s₀) (queryAccount n a) :=
  Act.keeps_get_any fun _ => Act.keeps_ite (Act.keeps_pure _) (Act.keeps_pure _)

theorem climateWork_still (c : TakenCell) : Act.Keeps (Still s₀) (climateWork c) := by
  refine Act.keeps_get fun s _ => ?_
  split
  · exact Act.does_pure fun _ ⟨_, h⟩ => h
  · refine Act.does_bind (R := fun _ t => Still s₀ t) (Act.does_modify fun t ⟨e, h⟩ => ?_) fun _ =>
      Act.keeps_then_pure (reportNotices_still _) _
    refine h.trans ⟨fun i => ?_, rfl⟩
    rw [e]
    exact examineSamples_tallies _ _ _ i ⟨s.zones, [], []⟩

theorem zonesetWork_still (c : TakenCell) : Act.Keeps (Still s₀) (zonesetWork c) := by
  have refused {s : State} (r : Option Answer) :
      Act.Does (fun t => t = s ∧ Still s₀ t) (pure r) (fun _ t => Still s₀ t) (Still s₀) :=
    Act.does_pure fun _ ⟨_, h⟩ => h
  refine Act.keeps_get fun s _ => ?_
  simp only
  split
  · exact refused _
  · split
    · exact refused _
    · split
      · exact refused _
      · refine Act.does_bind (R := fun _ t => Still s₀ t) (Act.does_modify fun t ⟨e, h⟩ => ?_) fun _ => Act.keeps_pure _
        rw [e] at h ⊢
        exact h.trans (.setZone s _ rfl)

theorem tuneWork_still (c : TakenCell) : Act.Keeps (Still s₀) (tuneWork c) := by
  have applies (maps : Vector AuthMap 8) : Act.Keeps (Still s₀) (applyTune c maps) :=
    Act.keeps_bind (Act.still_modify fun s => .tuned s _ _) fun _ => Act.keeps_get_any fun _ => Act.keeps_pure _
  exact Act.keeps_get_any fun _ => Act.keeps_ite (Act.keeps_pure _) (Act.keeps_ite
    (Act.keeps_bind (regionRead_still _ _) fun _ => Act.keeps_ite (applies _) (Act.keeps_pure _)) (applies _))

theorem classwriteWork_still (c : TakenCell) : Act.Keeps (Still s₀) (classwriteWork c) := by
  refine Act.keeps_get_any fun s => Act.keeps_ite (Act.keeps_pure _) (Act.keeps_ite (Act.keeps_pure _)
    (Act.keeps_bind (regionRead_still _ _) fun image => Act.keeps_get_any fun t => ?_))
  simp only
  split
  · exact Act.keeps_pure _
  · exact Act.keeps_then_pure (Act.still_modify fun _ => .elsewhere (by rfl)) _

/-! ### The intake, the hand-overs and the patrol stand still -/

theorem inspect_still (k : ListNo) : Act.Keeps (Still s₀) (inspect k) :=
  Act.keeps_get_any fun _ => Act.keeps_ite (Act.keeps_pure _)
    (Act.keeps_bind (regionRead_still _ _) fun _ => Act.still_modify fun _ => .elsewhere (by rfl))

theorem takeCell_still (k : ListNo) : Act.Keeps (Still s₀) (takeCell k) :=
  Act.keeps_get_any fun _ => Act.keeps_bind (regionRead_still _ _) fun _ => Act.keeps_bind (regionWrite_still _ _) fun _ =>
    Act.keeps_bind (Act.still_modify fun _ => .elsewhere (by rfl)) fun _ => Act.keeps_get_any fun _ =>
      Act.keeps_then_pure (regionWrite_still _ _) _

theorem completeCell_still (c : TakenCell) (a : Answer) : Act.Keeps (Still s₀) (completeCell c a) :=
  Act.keeps_get_any fun _ => Act.keeps_bind (regionWrite_still _ _) fun _ => Act.keeps_bind (regionWrite_still _ _) fun _ =>
    Act.keeps_bind (regionWriteWhole_still _ _) fun _ => Act.keeps_bind (Act.still_modify fun _ => .elsewhere (by rfl)) fun _ =>
      Act.keeps_ite (Act.keeps_bind (Act.still_modify fun s => .raiseCause s _) fun _ => inspect_still _) (inspect_still _)

theorem freeEngine_still : Act.Keeps (Still s₀) freeEngine := Act.still_modify fun _ => .elsewhere (by rfl)

theorem dropFaulty_still (e : WatchEntry) (what : Nat) : Act.Keeps (Still s₀) (dropFaulty e what) :=
  Act.keeps_bind (Act.still_modify fun s => .of_pool (s.removeEntry_frame _)) fun _ =>
    Act.keeps_get_any fun _ => reportNotices_still _

theorem giveWarning_still (e : WatchEntry) (a : Account) : Act.Keeps (Still s₀) (giveWarning e a) :=
  Act.keeps_get_any fun _ => Act.keeps_bind (Act.still_modify fun s => .rewatch s _ _) fun _ =>
    Act.keeps_ite (Act.keeps_pure _) (Act.keeps_then_pure (settleAccount_still _ _ (fun s => .refl s) _) _)

theorem giveExpiry_still (e : WatchEntry) (a : Account) : Act.Keeps (Still s₀) (giveExpiry e a) :=
  Act.keeps_get_any fun _ => Act.keeps_bind (Act.still_modify fun s => .of_pool (s.removeEntry_frame _)) fun _ =>
    Act.keeps_then_pure (settleAccount_still _ _ (fun s => .countZone s _ _ _) _) _

theorem serveWarning_still (e : WatchEntry) : Act.Keeps (Still s₀) (serveWarning e) := by
  refine Act.keeps_bind (Act.still_modify fun _ => .elsewhere (by rfl)) fun _ => Act.keeps_bind (fetchRecord_still _) fun f => ?_
  cases f with
  | corrupt => exact Act.keeps_bind (dropFaulty_still _ _) fun _ => freeEngine_still
  | malformed => exact Act.keeps_bind (dropFaulty_still _ _) fun _ => freeEngine_still
  | record a =>
    exact Act.keeps_ite
      (Act.keeps_bind (Act.still_modify fun s => .of_pool (s.removeEntry_frame _)) fun _ => freeEngine_still)
      (Act.keeps_bind (giveWarning_still _ _) fun _ => freeEngine_still)

theorem serveExpiry_still (e : WatchEntry) : Act.Keeps (Still s₀) (serveExpiry e) := by
  have faulty (what : Nat) : Act.Keeps (Still s₀) (do expireFaulty e what; freeEngine) :=
    Act.keeps_bind (Act.keeps_bind (Act.still_modify fun s => .setZone s _ rfl) fun _ => dropFaulty_still _ _) fun _ =>
      freeEngine_still
  refine Act.keeps_bind (Act.still_modify fun _ => .elsewhere (by rfl)) fun _ => Act.keeps_bind (fetchRecord_still _) fun f => ?_
  cases f with
  | corrupt => exact faulty 1
  | malformed => exact faulty 2
  | record a =>
    exact Act.keeps_ite
      (Act.keeps_bind (Act.still_modify fun s => .of_pool (s.removeEntry_frame _)) fun _ => freeEngine_still)
      (Act.keeps_bind (giveExpiry_still _ _) fun _ => freeEngine_still)

/-- A hand-over is served where one is presented (R10). -/
theorem handover_still {o : Option WatchEntry} {serve : WatchEntry → Act Unit} (h : ∀ e, Act.Keeps (Still s₀) (serve e)) :
    Act.Keeps (Still s₀) (match o with
      | some e => serve e
      | none => pure ()) := by
  cases o with
  | none => exact Act.keeps_pure _
  | some e => exact h e

theorem patrolReadOne_still : Act.Keeps (Still s₀) patrolReadOne := by
  refine Act.keeps_get_any fun s => Act.keeps_ite (Act.keeps_bind (patrolFetch_still _) fun f =>
    Act.keeps_bind (Act.still_modify fun _ => .elsewhere (by rfl)) fun _ => Act.keeps_get_any fun t => ?_) (Act.keeps_pure _)
  cases f with
  | corrupt => exact reportNotices_still _
  | malformed => exact reportNotices_still _
  | record a => exact Act.keeps_ite (Act.still_modify fun _ => .elsewhere (by rfl)) (Act.keeps_pure _)

theorem patrolSettle_still (n : Nat) (z : ZoneNo) (a : Account) : Act.Keeps (Still s₀) (patrolSettle n z a) := by
  refine Act.keeps_get_any fun s => Act.keeps_ite ?expiry (Act.keeps_ite ?warning ?watch)
  case expiry =>
    exact Act.keeps_get_any fun _ => Act.keeps_bind (Act.still_modify fun _ => .elsewhere (by rfl)) fun _ =>
      Act.keeps_then_pure (settleAccount_still _ _ (fun s => .countZone s _ _ _) _) _
  case warning =>
    exact Act.keeps_get_any fun _ => Act.keeps_bind (Act.still_modify fun s => .patrolWatch s _ _) fun _ =>
      Act.keeps_then_pure (settleAccount_still _ _ (fun s => .refl s) _) _
  case watch => exact Act.still_modify fun s => .patrolWatch s _ _

theorem servePatrol_still (n : Nat) : Act.Keeps (Still s₀) (servePatrol n) := by
  refine Act.keeps_bind (Act.still_modify fun _ => .elsewhere (by rfl)) fun _ => Act.keeps_bind (fetchRecord_still _) fun f =>
    Act.keeps_get_any fun s => ?_
  cases f with
  | corrupt => exact Act.keeps_bind (reportNotices_still _) fun _ => freeEngine_still
  | malformed => exact Act.keeps_bind (reportNotices_still _) fun _ => freeEngine_still
  | record a =>
    simp only
    cases a.zone with
    | none => exact freeEngine_still
    | some z => exact Act.keeps_ite (Act.keeps_bind (patrolSettle_still n z a) fun _ => freeEngine_still) freeEngine_still

theorem patrolWork_still : Act.Keeps (Still s₀) patrolWork := by
  refine Act.keeps_get_any fun s => Act.keeps_ite ?_ (Act.keeps_pure _)
  cases s.heldAccount with
  | none => exact Act.keeps_pure _
  | some n => exact servePatrol_still n

theorem cellNoLongerPosted_still : Act.Keeps (Still s₀) cellNoLongerPosted := by
  refine Act.keeps_get_any fun s => Act.keeps_ite ?_ (Act.keeps_pure _)
  cases s.chosenList with
  | none => exact Act.keeps_pure _
  | some k =>
    exact Act.keeps_ite (Act.keeps_pure _)
      (Act.keeps_bind (regionRead_still _ _) fun _ => Act.still_modify fun _ => .elsewhere (by rfl))

/-! ### Publications, timers and the class store stand still -/

theorem writeZonePage_still (zones : Vector Zone 64) (published : Word) :
    Act.Keeps (Still s₀) (writeZonePage zones published) :=
  Act.keeps_get_any fun _ => Act.keeps_bind (Act.keeps_forEach fun _ _ => regionWrite_still _ _) fun _ =>
    Act.keeps_bind (regionWrite_still _ _) fun _ => Act.keeps_bind (regionWrite_still _ _) fun _ => regionWriteWhole_still _ _

theorem publish_still : Act.Keeps (Still s₀) publish :=
  Act.keeps_bind (Act.still_modify fun _ => .elsewhere (by rfl)) fun _ => Act.keeps_get_any fun _ =>
    Act.keeps_bind (writeZonePage_still _ _) fun _ => regionWrite_still _ _

theorem finishPublication_still : Act.Keeps (Still s₀) finishPublication :=
  Act.keeps_get_any fun _ => Act.keeps_ite publish_still (Act.keeps_pure _)

theorem writeClockWords_still : Act.Keeps (Still s₀) writeClockWords :=
  Act.keeps_get_any fun _ => Act.keeps_ite (regionWrite_still _ _) (Act.keeps_pure _)

theorem nudgeCommand_still (mask : BitVec 8) : Act.Keeps (Still s₀) (nudgeCommand mask) :=
  Act.keeps_get_any fun _ => Act.keeps_ite
    (Act.keeps_bind (Act.keeps_forEach fun k _ => inspect_still k) fun _ => readTaken_still) (Act.keeps_pure _)

theorem scanExpiry_still : Act.Keeps (Still s₀) scanExpiry :=
  Act.keeps_get_any fun _ => Act.keeps_ite
    (Act.keeps_bind (Act.keeps_forEach fun k _ => inspect_still k) fun _ => readTaken_still) (Act.keeps_pure _)

theorem endProgramming_still (s : State) (defects : List NvDefect) : Still s (s.endProgramming defects) := by
  unfold State.endProgramming
  split
  · exact .refl s
  · split
    · exact .refl s
    · exact .elsewhere rfl

theorem stopCommand_still : Act.Keeps (Still s₀) stopCommand :=
  Act.still_modify fun s => by split; exacts [.elsewhere rfl, .refl s]

theorem failAccess_still (after written : Nat) : Act.Keeps (Still s₀) (failAccess after written) := by
  intro s hs
  cases after with
  | zero => by_cases attached : s.attached = true <;> simpa [failAccess, attached] using hs
  | succ n =>
    by_cases faulted : s.engineState = .faulted
    · simpa [failAccess, faulted] using hs
    · simp only [failAccess, if_neg faulted]
      exact hs.trans (.elsewhere (by rfl))

/-- The completion of a CLASSWRITE changes its class and the pool (R82, R84). -/
theorem applyCompletion_still (p : Programming) (success : Bool) : Act.Keeps (Still s₀) (applyCompletion p success) := by
  have ends (running : Prop) [Decidable running] (ns : List Notice) (a : Answer) :
      Act.Keeps (Still s₀) (if running then do reportNotices ns; completeCell p.cell a else pure ()) :=
    Act.keeps_ite (Act.keeps_bind (reportNotices_still _) fun _ => completeCell_still _ _) (Act.keeps_pure _)
  refine Act.keeps_get fun s hs => ?_
  cases success with
  | true =>
    exact Act.does_bind (R := fun _ => Still s₀)
      (Act.does_set fun _ _ => hs.trans (.trans (.elsewhere (by rfl)) (.removeClass _ _ _))) fun _ => ends _ _ _
  | false =>
    exact Act.does_bind (R := fun _ => Still s₀)
      (Act.does_set fun _ _ => hs.trans (.elsewhere (by rfl))) fun _ => ends _ _ _

theorem classCompletion_still : Act.Keeps (Still s₀) classCompletion := by
  refine Act.keeps_get_any fun s => ?_
  cases s.prog with
  | none => exact Act.keeps_pure _
  | some p =>
    simp only
    cases p.ended with
    | none => exact Act.keeps_pure _
    | some success => exact Act.keeps_ite (applyCompletion_still p success) (Act.keeps_pure _)

/-! ### The clock's events rise (R122, R123, R126 to R131) -/

/-- Work that stands still keeps whatever a state that stands still keeps. -/
theorem Act.keeps_of_still {I : State → Prop} (hI : ∀ s t, Still s t → I s → I t) {a : Act α}
    (h : ∀ s, Act.Keeps (Still s) a) : Act.Keeps I a := by
  intro s hs
  have done := h s s (.refl s)
  revert done
  cases a s with
  | ok x t => exact fun done => hI s t done hs
  | error e t => exact fun done => hI s t done hs

theorem Act.rises_of_still {a : Act α} (h : ∀ s, Act.Keeps (Still s) a) : Act.Keeps (Rises s₀) a :=
  Act.keeps_of_still (fun _ _ g h => h.trans g.rises) h

/-- Work started where more is known. -/
theorem Act.does_from {P P' : State → Prop} {Q : α → State → Prop} {E : State → Prop} {a : Act α}
    (ha : Act.Does P a Q E) (h : ∀ s, P' s → P s) : Act.Does P' a Q E := fun s hs => ha s (h s hs)

theorem Act.does_ite {P : State → Prop} {Q : α → State → Prop} {E : State → Prop} {c : Prop} [Decidable c] {a b : Act α}
    (ha : c → Act.Does P a Q E) (hb : ¬ c → Act.Does P b Q E) : Act.Does P (if c then a else b) Q E := by
  split
  · next h => exact ha h
  · next h => exact hb h

/-- The zones risen and the clock set to a minute not below the one it held, if it held one. -/
theorem Rises.holding {s t u : State} (h : Rises s t) (zones : ∀ i : ZoneNo, t.zones[i].Rises u.zones[i]) {m : Word}
    {stall : Fin 16} (clock : u.clock = .held m stall) (forward : t.clockSet = true → t.minute.toNat ≤ m.toNat) :
    Rises s u := by
  refine h.trans ⟨(talliesRise_iff t u).mpr zones, fun set => ?_⟩
  unfold State.clockSet State.minute
  rw [clock]
  exact ⟨rfl, forward set⟩

theorem State.minute_held {s : State} {m : Word} {stall : Fin 16} (h : s.clock = .held m stall) : s.minute = m := by
  unfold State.minute
  rw [h]

/-- The clock changed and nothing else, to the minute it holds (R130, R131). -/
theorem Rises.restall {s t : State} (h : Rises s t) {m : Word} {stall : Fin 16} (clock : t.clock = .held m stall)
    (stall' : Fin 16) : Rises s { t with clock := .held m stall' } :=
  h.holding (fun _ => .of_tallies rfl) rfl fun _ => by rw [State.minute_held clock]

/-- `Rises`, with `n` minutes left at least before the plant minute would leave its word. -/
def RisesLeaving (n : Nat) (s t : State) : Prop := Rises s t ∧ t.minute.toNat + n < 2 ^ 32

theorem RisesLeaving.still {n : Nat} {s t u : State} (g : Still t u) (h : RisesLeaving n s t) : RisesLeaving n s u :=
  ⟨h.1.trans g.rises, by rw [g.minute]; exact h.2⟩

/-- A boundary uses up one of the minutes left: the zones rise, and a clock that is set moves on by one (R123). -/
theorem boundary_rises (n : Nat) :
    Act.Does (RisesLeaving (n + 1) s₀) boundary (fun _ => RisesLeaving n s₀) (Rises s₀) := by
  refine Act.does_get fun s ⟨hs, left⟩ => ?_
  cases clock : s.clock with
  | unset => exact Act.does_pure fun t ⟨_, ht, left⟩ => ⟨ht, by omega⟩
  | held m stall =>
    have minute := State.minute_held clock
    have next : (m + 1).toNat = m.toNat + 1 := by
      rw [minute] at left
      exact BitVec.toNat_add_of_lt (by simpa using (by omega : m.toNat + 1 < 2 ^ 32))
    have stages (ns : List Notice) : Act.Keeps (RisesLeaving n s₀) (do
        reportNotices ns
        modify fun t => t.examine s.zones
        modify State.startBatch) :=
      Act.keeps_of_still (fun _ _ => RisesLeaving.still) fun _ => Act.keeps_bind (reportNotices_still _) fun _ =>
        Act.keeps_bind (Act.still_modify fun _ => .elsewhere (by rfl)) fun _ => Act.still_modify fun _ => .elsewhere (by rfl)
    refine Act.does_bind (R := fun _ => RisesLeaving n s₀) (Act.does_set fun _ _ => ⟨?_, ?_⟩) fun _ =>
      Act.does_weaken (stages _) (fun _ h => h) (fun _ _ h => h) fun _ h => h.1
    · refine hs.holding (fun i => ?_) rfl fun _ => by rw [minute, next]; omega
      show s.zones[i].Rises (Vector.ofFn _)[i.val]
      rw [Vector.getElem_ofFn]
      exact Zone.boundary_rises _ _ _
    · show (m + 1).toNat + n < 2 ^ 32
      rw [minute] at left
      omega

theorem boundaries_rise (n : Nat) :
    Act.Does (RisesLeaving n s₀) (repeatAct n boundary) (fun _ => Rises s₀) (Rises s₀) := by
  induction n with
  | zero => exact Act.does_pure fun _ h => h.1
  | succ n ih => exact Act.does_bind (boundary_rises n) fun _ => ih

/-- A gap accrual to a value not below the minute held (R127). The work stands as a variable `a`, so that Lean does not unfold
its 64 zones where the lemma is applied. -/
theorem gapAccrual_rises {start value : Word} {g cleared : Nat} {a : Act Unit} (ha : gapAccrual start value g cleared = a) :
    Act.Does (fun t => Rises s₀ t ∧ (t.clockSet = true → t.minute.toNat ≤ value.toNat)) a
      (fun _ => Rises s₀) (Rises s₀) := by
  rw [← ha]
  refine Act.does_get ?_
  intro s ⟨hs, forward⟩
  extract_lets charged
  have charges (i : ZoneNo) : s.zones[i].Rises charged[i] := by
    show s.zones[i].Rises (Vector.ofFn _)[i.val]
    rw [Vector.getElem_ofFn]
    exact Zone.gap_rises _ _ _
  clear_value charged
  refine Act.does_bind (R := fun _ => Rises s₀) (Act.does_modify fun t ⟨same, _⟩ => hs.holding (fun i => ?_) rfl forward)
    fun _ => Act.rises_of_still fun _ => Act.keeps_bind (reportNotices_still _) fun _ =>
      Act.keeps_bind (Act.still_modify fun _ => .elsewhere (by rfl)) fun _ =>
        Act.keeps_bind (reportNotices_still _) fun _ => publish_still
  show s.zones[i].Rises (Vector.ofFn _)[i.val]
  rw [Vector.getElem_ofFn]
  exact (charges i).trans (.of_tallies (Zone.checkStale_tallies _ _))

/-- `Rises`, with the clock standing as given. -/
def RisesAt (clock : Clock) (s t : State) : Prop := Rises s t ∧ t.clock = clock

/-- Work that stands still, then an answer. -/
theorem Act.rises_then_pure {a : Act β} (h : ∀ s, Act.Keeps (Still s) a) (x : α) :
    Act.Keeps (Rises s₀) (do let _ ← a; pure x) := Act.keeps_then_pure (Act.rises_of_still h) _

/-- The first minute of a clock that held none (R126). -/
theorem setFromUnset_rises (v : Word) :
    Act.Does (RisesAt .unset s₀) (setFromUnset v) (fun _ => Rises s₀) (Rises s₀) := by
  have unset {t : State} (h : t.clock = .unset) (m : Word) : t.clockSet = true → t.minute.toNat ≤ m.toNat := by
    simp [State.clockSet, h]
  refine Act.does_get fun s _ => ?_
  generalize ha : gapAccrual s.published v (v.toNat - s.published.toNat) 0 = a
  refine Act.does_ite (fun _ => ?first) fun _ => Act.does_ite (fun _ => ?backward) fun _ => ?gap
  case first =>
    exact Act.does_bind (R := fun _ => Rises s₀)
      (Act.does_modify fun t ⟨_, ht, clock⟩ => ht.holding (fun _ => .of_tallies rfl) rfl (unset clock _))
      fun _ => Act.rises_then_pure (fun _ => publish_still) _
  case backward => exact Act.does_pure fun _ h => h.2.1
  case gap =>
    exact Act.does_bind (Act.does_from (gapAccrual_rises ha) fun t ⟨_, ht, clock⟩ => ⟨ht, unset clock v⟩) fun _ =>
      Act.keeps_pure _

/-- A small forward correction that ends within the word of the plant minute (R130). -/
theorem stepForward_rises {m : Word} {stall : Fin 16} {k : Nat} (fits : m.toNat + (k - stall.val) < 2 ^ 32) :
    Act.Does (RisesAt (.held m stall) s₀) (stepForward m stall k) (fun _ => Rises s₀) (Rises s₀) := by
  refine Act.does_bind (R := fun _ => RisesLeaving (k - stall.val) s₀)
    (Act.does_modify fun t ⟨ht, clock⟩ => ⟨ht.restall clock _, by rw [State.minute_held rfl]; exact fits⟩)
    fun _ => Act.does_ite (fun _ => ?_) fun _ => ?_
  · exact Act.does_from (Act.rises_then_pure (fun _ => writeClockWords_still) _) fun _ h => h.1
  · exact Act.does_bind (boundaries_rise _) fun _ => Act.rises_then_pure (fun _ => publish_still) _

/-- A change of the stall count alone (R121, R122, R131). -/
theorem restall_rises (m : Word) (stall stall' : Fin 16) :
    Act.Does (RisesAt (.held m stall) s₀) (modify fun t => { t with clock := .held m stall' }) (fun _ => Rises s₀)
      (Rises s₀) :=
  Act.does_modify fun _ ⟨ht, clock⟩ => ht.restall clock _

/-- A correction never lowers the plant minute: a backward one raises the stall count, and a gap is charged to a later minute
(R129). -/
theorem correct_rises (m : Word) (stall : Fin 16) (v : Word) :
    Act.Does (RisesAt (.held m stall) s₀) (correct m stall v) (fun _ => Rises s₀) (Rises s₀) := by
  have idle (a : ClockAnswer) : Act.Does (RisesAt (.held m stall) s₀) (pure a) (fun _ => Rises s₀) (Rises s₀) :=
    Act.does_pure fun _ h => h.1
  have := v.isLt
  have := m.isLt
  have := stall.isLt
  unfold correct
  simp only
  generalize ha : gapAccrual m v (v.toNat - m.toNat) stall.val = a
  refine Act.does_ite (fun _ => idle _) fun _ => Act.does_ite (fun small => ?_) fun _ => Act.does_ite (fun large => ?_) fun _ =>
    Act.does_ite (fun _ => ?_) fun _ => idle _
  · exact stepForward_rises (by omega)
  · refine Act.does_bind (Act.does_from (gapAccrual_rises ha) fun t ⟨ht, clock⟩ => ⟨ht, fun _ => ?_⟩) fun _ =>
      Act.keeps_pure _
    rw [State.minute_held clock]
    omega
  · exact Act.does_bind (restall_rises m stall _) fun _ => Act.rises_then_pure (fun _ => writeClockWords_still) _

theorem clocksetWork_rises (c : TakenCell) : Act.Keeps (Rises s₀) (clocksetWork c) := by
  have applies (v : Word) : Act.Keeps (Rises s₀) (applyClock v) := by
    refine Act.keeps_bind (Act.rises_of_still fun _ => finishPublication_still) fun _ => Act.keeps_get fun s _ => ?_
    cases clock : s.clock with
    | unset => exact Act.does_from (setFromUnset_rises v) fun _ ⟨same, ht⟩ => ⟨ht, by rw [same, clock]⟩
    | held m stall =>
      exact Act.does_from (correct_rises m stall v) fun _ ⟨same, ht⟩ => ⟨ht, by rw [same, clock]⟩
  exact Act.keeps_get_any fun _ => Act.keeps_ite (Act.keeps_pure _)
    (Act.keeps_bind (applies _) fun _ => Act.keeps_get_any fun _ => Act.keeps_pure _)

/-- An expiry of the minute timer: the stall count falls, or the minute rises by one below the top value (R122, R124). -/
theorem minuteExpiry_rises : Act.Keeps (Rises s₀) minuteExpiry := by
  refine Act.keeps_bind (Act.rises_of_still fun _ => finishPublication_still) fun _ => Act.keeps_get fun s _ => ?_
  cases clock : s.clock with
  | unset => exact Act.does_pure fun _ h => h.2
  | held m stall =>
    refine Act.does_ite (fun _ => ?_) fun _ => Act.does_ite (fun below => ?_) fun _ => Act.does_pure fun _ h => h.2
    · exact Act.does_bind (Act.does_from (restall_rises m stall _) fun _ ⟨same, ht⟩ => ⟨ht, by rw [same, clock]⟩)
        fun _ => Act.rises_of_still fun _ => writeClockWords_still
    · refine Act.does_bind (Act.does_from (boundary_rises 0) fun t ⟨same, ht⟩ => ⟨ht, ?_⟩)
        fun _ => Act.does_modify fun t ht => ht.1.trans (Still.rises (.elsewhere (by rfl)))
      unfold topMinute at below
      rw [same, State.minute_held clock]
      omega

/-! ### Cells and stops -/

/-- The command of a kind of cell rises if its work does (R163 to R166). -/
theorem serveCell_rises {kinds : Nat → Bool} {work : TakenCell → Act (Option Answer)}
    (h : ∀ c, Act.Keeps (Rises s₀) (work c)) : Act.Keeps (Rises s₀) (serveCell kinds work) := by
  have completes (c : TakenCell) (a : Answer) : Act.Keeps (Rises s₀) (completeCell c a) :=
    Act.rises_of_still fun _ => completeCell_still c a
  refine Act.keeps_get_any fun s => Act.keeps_ite ?_ (Act.keeps_pure _)
  cases s.chosenList with
  | none => exact Act.keeps_pure _
  | some k =>
    refine Act.keeps_ite (Act.keeps_bind (Act.rises_of_still fun _ => takeCell_still k) fun c =>
      Act.keeps_get_any fun t => ?_) (Act.keeps_pure _)
    cases t.intakeRefusal c with
    | some r => exact completes c _
    | none =>
      refine Act.keeps_bind (h c) fun answer => ?_
      cases answer with
      | some a => exact completes c a
      | none => exact Act.rises_of_still fun _ => Act.still_modify fun _ => .elsewhere (by rfl)

/-- A stop ends with the tallies as they were and the clock UNSET (R173). -/
theorem finishStop_rises :
    Act.Does (TalliesRise s₀) finishStop (fun _ t => TalliesRise s₀ t ∧ t.clock = .unset) (TalliesRise s₀) := by
  have rising {β : Type} {a : Act β} (h : ∀ s, Act.Keeps (Still s) a) : Act.Keeps (TalliesRise s₀) a :=
    Act.keeps_of_still (fun _ _ g h => h.trans g.talliesRise) h
  have writes (off : Nat) (ws : List Word) :
      Act.Keeps (fun t => TalliesRise s₀ t ∧ t.clock = .unset) (regionWrite off ws) :=
    Act.keeps_of_still (fun _ _ g h => ⟨h.1.trans g.talliesRise, g.clock.trans h.2⟩) fun _ => regionWrite_still _ _
  refine Act.does_bind (rising fun _ => readTaken_still) fun _ =>
    Act.does_bind (rising fun _ => Act.still_modify fun _ => .elsewhere (by rfl)) fun _ =>
      Act.does_bind (rising fun _ => publish_still) fun _ => Act.does_get fun s _ =>
        Act.does_bind (Act.does_from (rising fun _ => regionWriteWhole_still _ _) fun _ h => h.2) fun _ => ?_
  refine Act.does_bind (R := fun _ t => TalliesRise s₀ t ∧ t.clock = .unset)
    (Act.does_modify fun t h => ⟨h.trans (.of_zones (by rfl)), rfl⟩) fun _ => Act.does_get fun u _ => ?_
  exact Act.does_bind (Act.does_weaken (writes _ _) (fun _ h => h.2) (fun _ _ h => h) fun _ h => h.1) fun _ =>
    Act.does_modify fun t h => ⟨h.1.trans (.of_zones (by rfl)), h.2⟩

end

/-! ### Every command (R31, R129) -/

/-- What O59 says of two states: no tally has fallen, nor the plant minute of a clock that is set in both. -/
def Onward (s t : State) : Prop :=
  TalliesRise s t ∧ (s.clockSet = true → t.clockSet = true → s.minute.toNat ≤ t.minute.toNat)

theorem Rises.onward {s t : State} (h : Rises s t) : Onward s t := ⟨h.tallies, fun set _ => (h.clock set).2⟩

theorem Still.drive (s : State) : Still s s.drive := .elsewhere rfl

theorem Onward.drive {s t : State} (h : Onward s t) : Onward s t.drive := ⟨h.1.trans (Still.drive t).talliesRise, h.2⟩

theorem State.enterFaulted_zones (s : State) : s.enterFaulted.zones = s.zones := by
  simp [State.enterFaulted]

theorem State.enterFaulted_clock (s : State) : s.enterFaulted.clock = .unset := by
  simp [State.enterFaulted]

/-- A part that enters FAULTED holds no plant minute (R174). -/
theorem Onward.enterFaulted {s t : State} (h : TalliesRise s t) : Onward s t.enterFaulted := by
  refine ⟨h.trans (.of_zones t.enterFaulted_zones), fun _ set => ?_⟩
  simp [State.clockSet, State.enterFaulted_clock] at set

/-- The command of a work moves onward where the work does, and where no tally falls when it is cut (R174). -/
theorem conclude_onward {a : Act Unit} {s t : State} (ran : conclude a s = .next t)
    (h : Act.Does (· = s) a (fun _ => Onward s) (TalliesRise s)) : Onward s t := by
  have done := h s rfl
  cases r : a s with
  | ok x u =>
    rw [conclude_ok r] at ran
    rw [r] at done
    cases ran
    exact done.drive
  | error e u =>
    rw [conclude_error r] at ran
    rw [r] at done
    cases ran
    exact (Onward.enterFaulted done).drive

theorem conclude_rises {a : Act Unit} {s t : State} (ran : conclude a s = .next t) (h : Act.Keeps (Rises s) a) : Onward s t :=
  conclude_onward ran (Act.does_weaken h (fun _ e => e ▸ (Still.refl s).rises) (fun _ _ g => g.onward) fun _ g => g.tallies)

theorem conclude_still {a : Act Unit} {s t : State} (ran : conclude a s = .next t) (h : ∀ s₀, Act.Keeps (Still s₀) a) :
    Onward s t := conclude_rises ran (Act.rises_of_still h)

theorem stopCompletion_onward {s t : State} (ran : conclude stopCompletion s = .next t) : Onward s t := by
  refine conclude_onward ran (Act.does_get fun u _ => Act.does_ite (fun _ => ?_) fun _ => ?_)
  · exact Act.does_weaken finishStop_rises (fun _ h => h.2 ▸ (Still.refl s).talliesRise)
      (fun _ u h => ⟨h.1, fun _ set => by simp [State.clockSet, h.2] at set⟩) fun _ h => h
  · exact Act.does_pure fun _ h => h.2 ▸ (Still.refl s).rises.onward

/-- START outside IDLE lands its stores and enables and is ignored (R169). -/
theorem start_onward {stores : HostStores} {enables : BitVec 5} {s t : State} (attached : s.engineState ≠ .idle)
    (ran : exec (.start stores enables) s = .next t) : Onward s t := by
  refine conclude_onward ran (Act.does_from (P := fun u => Still s u ∧ u.engineState ≠ .idle) ?_
    fun u e => by rw [e]; exact ⟨.refl s, attached⟩)
  refine Act.does_bind (R := fun _ u => Still s u ∧ u.engineState ≠ .idle)
    (Act.does_modify fun u h => ⟨h.1.trans (.elsewhere (by rfl)), h.2⟩) fun _ =>
    Act.does_bind (R := fun _ u => Still s u ∧ u.engineState ≠ .idle)
      (Act.does_modify fun u h => ⟨h.1.trans (.elsewhere (by rfl)), h.2⟩) fun _ => Act.does_get fun u h => ?_
  rw [if_neg h.2]
  exact Act.does_pure fun _ g => g.2.1.rises.onward

/-- A CONTROL word that carries no command stores its enables alone (R158). -/
theorem writeControl_still {s₀ : State} {value : Word} (h : controlCarriesNoCommand value = true) :
    Act.Keeps (Still s₀) (writeControl value) := by
  simp only [controlCarriesNoCommand, Bool.and_eq_true, Bool.not_eq_true', beq_iff_eq] at h
  obtain ⟨noReset, both⟩ := h
  unfold writeControl
  simp only [noReset, both, Bool.and_not_self, Bool.false_eq_true, ↓reduceIte]
  exact Act.keeps_then_pure (Act.still_modify fun _ => .elsewhere (by rfl)) _

theorem writeRegister_still {s₀ : State} {stores : HostStores} {reg : RegName} {value : Word}
    (h : (Instr.registerWrite stores reg value).wellFormed = true) : Act.Keeps (Still s₀) (writeRegister reg value) := by
  cases reg with
  | id => exact Act.keeps_pure _
  | baseLo => exact Act.still_modify fun s => by split; exacts [.elsewhere rfl, .refl s]
  | baseHi => exact Act.still_modify fun s => by split; exacts [.elsewhere rfl, .refl s]
  | control =>
    simp only [Instr.wellFormed, Bool.and_eq_true] at h
    exact writeControl_still h.2

/-- Every command but a reset moves a part that is not IDLE onward. -/
theorem exec_onward {c : Instr} {s t : State} (formed : c.wellFormed = true) (kept : c.isReset = false)
    (attached : s.engineState ≠ .idle) (ran : exec c s = .next t) : Onward s t := by
  have cell {kinds : Nat → Bool} {work : TakenCell → Act (Option Answer)} (ran : conclude (serveCell kinds work) s = .next t)
      (h : ∀ s₀ c, Act.Keeps (Still s₀) (work c)) : Onward s t :=
    conclude_rises ran (serveCell_rises fun c => Act.rises_of_still fun s₀ => h s₀ c)
  have account {kinds : Nat → Bool} {compareTag : Bool} {zonesOf : TakenCell → Account → List Nat}
      {work : TakenCell → Nat → Account → Act Answer}
      (ran : conclude (serveCell kinds fun c => do
        let r ← onAccount c compareTag (zonesOf c) (work c)
        pure (some r)) s = .next t)
      (h : ∀ s₀ c n a, Act.Keeps (Still s₀) (work c n a)) : Onward s t :=
    cell ran fun s₀ c => Act.keeps_then_pure (onAccount_still c _ _ (h s₀ c)) _
  have host {stores : HostStores} {a : Act Unit} (ran : conclude (do landStores stores; a) s = .next t)
      (h : ∀ s₀, Act.Keeps (Still s₀) a) : Onward s t :=
    conclude_still ran fun s₀ => Act.keeps_bind (landStores_still stores) fun _ => h s₀
  cases c with
  | powerOnReset => simp [Instr.isReset] at kept
  | pinReset => simp [Instr.isReset] at kept
  | softReset stores => simp [Instr.isReset] at kept
  | start stores enables => exact start_onward attached ran
  | stop stores enables =>
    exact host ran fun _ => Act.keeps_bind (Act.still_modify fun _ => .elsewhere (by rfl)) fun _ => stopCommand_still
  | stopCompletion => exact stopCompletion_onward ran
  | registerWrite stores reg value => exact host ran fun _ => writeRegister_still formed
  | statusWrite stores value => exact host ran fun _ => Act.still_modify fun _ => .elsewhere (by rfl)
  | nudge stores mask => exact host ran fun _ => nudgeCommand_still mask
  | intakeScanTimerExpiry => exact conclude_still ran fun _ => scanExpiry_still
  | minuteTimerExpiry => exact conclude_rises ran minuteExpiry_rises
  | zonePagePublication => exact conclude_still ran fun _ => finishPublication_still
  | enrol => exact account ran fun _ => enrolAccount_still
  | openInto => exact account ran fun _ => openAccount_still
  | move => exact account ran fun _ => moveAccount_still
  | bag => exact account ran fun _ _ => bagAccount_still
  | retire => exact account ran fun _ _ => retireAccount_still
  | amend => exact account ran fun _ => amendAccount_still
  | query => exact account ran fun _ _ => queryAccount_still
  | climate => exact cell ran fun _ => climateWork_still
  | zoneset => exact cell ran fun _ => zonesetWork_still
  | classwrite => exact cell ran fun _ => classwriteWork_still
  | clockset => exact conclude_rises ran (serveCell_rises clocksetWork_rises)
  | tune => exact cell ran fun _ => tuneWork_still
  | unknownKind => exact cell ran fun _ _ => Act.keeps_pure _
  | classProgrammingEnd defects =>
    exact conclude_still ran fun _ => Act.still_modify fun s => endProgramming_still s defects
  | classCompletion => exact conclude_still ran fun _ => classCompletion_still
  | warningHandover => exact conclude_still ran fun _ => Act.keeps_get_any fun _ => handover_still serveWarning_still
  | expiryHandover => exact conclude_still ran fun _ => Act.keeps_get_any fun _ => handover_still serveExpiry_still
  | patrolRead => exact conclude_still ran fun _ => patrolReadOne_still
  | patrolWork => exact conclude_still ran fun _ => patrolWork_still
  | regionAccessFailure after written => exact conclude_still ran fun _ => failAccess_still after written
  | cellNoLongerPosted => exact conclude_still ran fun _ => cellNoLongerPosted_still

/-- Settles O59: the clock's commands rise, every other leaves the tallies and the clock as they were, and a part that loses its
clock holds no plant minute. -/
theorem noTallyAndNoPlantMinuteFalls : Obligations.NoTallyAndNoPlantMinuteFalls := by
  intro s t c rest front formed kept attached ran
  unfold step at ran
  rw [front] at ran
  have moved : Onward { s with pending := rest } t := exec_onward formed kept attached ran
  exact ⟨(TalliesRise.of_zones (by rfl)).trans moved.1, moved.2⟩

end Sys2Proof.Machine
end

-- ==== Proofs: the reset state ====
section
/-! The state after a power-on reset, and that it is sound (O2). -/

namespace Sys2Proof.Machine

/-- No list is eligible after a reset, and every index is 0 (R161). -/
theorem State.reset_lists (k : ListNo) : State.reset.lists[k] = ⟨0, false⟩ := by
  simp [State.reset]

theorem State.reset_zones (z : ZoneNo) : State.reset.zones[z] = Zone.undefined := by
  simp [State.reset]

/-- No line of the cache is valid after a reset (R133). -/
theorem State.reset_sets (i : Fin 64) : State.reset.cacheSets[i] = CacheSet.invalid := by
  simp [State.reset]

/-- The empty pool is sound (R102). -/
theorem State.reset_poolSound : PoolSound State.reset where
  counted := Nat.zero_le _
  accounts := List.nodup_nil
  positions := List.nodup_nil
  range e he := by cases he
  order := List.Pairwise.nil
  queued := List.nodup_nil
  due p hp := by cases hp

/-- A unit that has written nothing and holds nothing is sound (R145). -/
theorem State.reset_noticesSound : NoticesSound State.reset where
  held := Nat.zero_le _
  keys := List.Pairwise.nil
  flag := rfl
  occupancy := Nat.le_refl _
  capacity := Nat.zero_le _

/-- A cache without a valid line is sound (R133). -/
theorem State.reset_cacheSound : CacheSound State.reset := by
  have empty (i : Fin 64) (w : Fin 4) : State.reset.cacheSets[i].ways[w] = none := by
    rw [State.reset_sets]
    simp [CacheSet.invalid]
  exact
    { single := fun i v w x y hx _ _ => absurd ((empty i v).symm.trans hx) nofun
      off := fun _ => empty }

/-- A part after a reset is IDLE with nothing on, every line asserted since it is not ready (R156). -/
theorem State.reset_serviceSound : ServiceSound State.reset where
  rest :=
    { free := rfl
      state := by decide
      clock := nofun
      due := nofun
      scan := nofun
      eligible := fun k h => by rw [State.reset_lists] at h; cases h
      stop := nofun
      lines := fun i => by
        have unready : State.reset.ready = false := rfl
        unfold State.lineHeld
        rw [unready]
        simp [State.reset] }
  idle _ := rfl
  region h := by cases h

/-- Settles O2: field by field. -/
theorem resetStateHoldsTheResetValuesAndIsSound : Obligations.ResetStateHoldsTheResetValuesAndIsSound := by
  refine ⟨⟨rfl, rfl, rfl, by decide⟩, ⟨rfl, rfl, rfl, rfl⟩, State.reset_zones, fun c => ?classes, fun c => ?counts,
    ⟨rfl, rfl, rfl, rfl⟩, ⟨rfl, rfl, rfl, rfl⟩, ⟨rfl, State.reset_sets⟩, ⟨rfl, rfl, rfl, rfl⟩, fun k => ?lists,
    ⟨rfl, rfl, rfl, rfl⟩, fun k => ?maps, reset_mem_wf, State.reset_poolSound, State.reset_noticesSound,
    State.reset_cacheSound, State.reset_serviceSound⟩
  case classes => simp [State.reset, loadClass, NvClass.delivered]
  case counts => simp [State.reset]
  case lists => rw [State.reset_lists]; exact ⟨rfl, rfl⟩
  case maps => simp [State.reset]

end Sys2Proof.Machine
end

-- ==== Proofs: samples ====
section
/-! A sample's checks, clamps and bands (O34). -/

namespace Sys2Proof.Machine

/-! ### Bands, clamps and codes (R59 to R61) -/

/-- The temperature band of a reading in its range (R61). -/
theorem tempBandOf_eq_iff {t : Int} (low : -400 ≤ t) (high : t ≤ 1500) (b : Fin 6) : tempBandOf t = b ↔
    ([-400, 200, 250, 300, 350, 400][b] : Int) ≤ t ∧ t ≤ [199, 249, 299, 349, 399, 1500][b] := by
  unfold tempBandOf
  fin_cases b
  all_goals
    simp
    split_ifs <;> simp <;> omega

/-- The humidity band of a reading in its range (R61). -/
theorem humBandOf_eq_iff {h : Nat} (high : h ≤ 1000) (b : Fin 8) : humBandOf h = b ↔
    [0, 100, 200, 300, 400, 500, 600, 700][b] ≤ h ∧ h ≤ [99, 199, 299, 399, 499, 599, 699, 1000][b] := by
  unfold humBandOf
  fin_cases b
  all_goals
    simp
    split_ifs <;> simp <;> omega

theorem clampTemp_toInt (t : BitVec 16) : (clampTemp t).toInt = max (-400) (min 1500 t.toInt) := by
  have bottom : (BitVec.ofInt 16 (-400)).toInt = -400 := by decide
  have top : (1500 : BitVec 16).toInt = 1500 := by decide
  unfold clampTemp
  split
  · omega
  · split <;> omega

theorem clampHum_toNat (h : BitVec 16) : (clampHum h).toNat = min 1000 h.toNat := by
  have top : (1000 : BitVec 16).toNat = 1000 := by decide
  unfold clampHum
  split <;> omega

/-- A sample lies outside the ranges of R60 where clamping changes either value. -/
theorem Sample.outside_eq (x : Sample) : x.outside
    = decide (max (-400) (min 1500 x.temp.toInt) ≠ x.temp.toInt ∨ min 1000 x.hum.toNat ≠ x.hum.toNat) := by
  unfold Sample.outside
  simp only [← clampTemp_toInt, ← clampHum_toNat, ne_eq, BitVec.toInt_inj, BitVec.toNat_inj, Bool.decide_or]

theorem Sample.noReading_iff (x : Sample) : x.noReading = true ↔ x.temp.toInt = -32768 ∨ x.hum.toNat = 65535 := by
  have temp : (0x8000 : BitVec 16).toInt = -32768 := by decide
  have hum : (0xFFFF : BitVec 16).toNat = 65535 := by decide
  unfold Sample.noReading
  rw [← temp, ← hum, BitVec.toInt_inj, BitVec.toNat_inj, Bool.or_eq_true, decide_eq_true_eq, decide_eq_true_eq]

/-- A map permits a zone below its length whose bit is set, and none above 63 (R167). -/
theorem AuthMap.permitsZone_iff (m : AuthMap) (z : Nat) :
    m.permitsZone z = true ↔ z < 64 ∧ z < m.zoneLen ∧ m.bitmap.getLsbD z = true := by
  simp [AuthMap.permitsZone, and_assoc]

theorem AuthMap.denies_iff (m : AuthMap) (z : Nat) :
    (!m.permitsZone z) = true ↔ ¬ (z < 64 ∧ z < m.zoneLen ∧ m.bitmap.getLsbD z = true) := by
  rw [← m.permitsZone_iff, Bool.not_eq_true', Bool.not_eq_true]

/-- Settles O34: by the branches of the examination. -/
theorem sampleIsCheckedClampedAndBanded : Obligations.SampleIsCheckedClampedAndBanded := by
  intro zones m minute x r permits i z noReading temp hum clamped
  have outside : x.outside = clamped := x.outside_eq
  refine ⟨fun denied => ?_, fun may undefined => ?_, fun may defined code => ?_, fun may defined reading => ?_⟩
  all_goals simp only [r, examineSample]
  · rw [if_pos ((m.denies_iff _).mpr denied)]
    rfl
  · rw [if_neg fun no => (m.denies_iff _).mp no may, if_pos undefined]
    rfl
  · rw [if_neg fun no => (m.denies_iff _).mp no may, if_neg defined, if_pos (x.noReading_iff.mpr code)]
    rfl
  · rw [if_neg fun no => (m.denies_iff _).mp no may, if_neg defined,
      if_neg fun code => reading (x.noReading_iff.mp code)]
    have lastTemp : (clampTemp x.temp).toInt = temp := clampTemp_toInt _
    have lastHum : (clampHum x.hum).toNat = hum := clampHum_toNat _
    refine ⟨z.accept x minute, rfl, by rw [outside]; rfl, ?notices, lastTemp, lastHum, fun b => ?temp, fun b => ?hum, outside,
      rfl, rfl, rfl⟩
    case notices =>
      simp only [List.nil_append, restoredNotices, outside]
      cases clamped <;> rfl
    case temp =>
      rw [← lastTemp]
      exact tempBandOf_eq_iff (by omega) (by omega) b
    case hum =>
      rw [← lastHum]
      exact humBandOf_eq_iff (by omega) b

end Sys2Proof.Machine
end

-- ==== Proofs: CLIMATE and ZONESET ====
section
/-! The cells of kinds 8 and 9: samples examined, and a zone redefined (O35, O36). -/

namespace Sys2Proof.Machine

section
variable {s : State} {k : ListNo} {kind : Nat}

/-! ### A cell whose work changes the ledger, raises notices and answers -/

/-- The command of a cell that passes intake, where its work is a change of the ledger, notices handed over, and an answer. -/
theorem Admits.answers (h : Admits s k kind) {kinds : Nat → Bool} (hk : kinds kind = true)
    {work : TakenCell → Act (Option Answer)} {f : State → State} (hf : Ledgerwise f) {ns : List Notice} {answer : Answer}
    (ran : work (s.offered k) (s.afterTake k)
      = (do modify f; reportNotices ns; pure (some answer) : Act (Option Answer)) (s.afterTake k)) :
    ∃ t, conclude (serveCell kinds work) s = .next t ∧ Answers s t k answer ns
      ∧ t = { f s with
          mem := t.mem
          lists := t.lists
          lastServed := t.lastServed
          written := t.written
          taken := t.taken
          heldNotices := t.heldNotices
          logFull := t.logFull
          noticesDropped := t.noticesDropped
          causes := t.causes
          messages := t.messages
          lines := t.lines } := by
  have region := h.offers.service.region
  have sound := h.offers.service.sound
  have d := (During.taken s k).ledgerwise hf
  obtain ⟨missed, v, x, runS, runX, same, frame, d'⟩ :=
    d.hand (h.offers.takenView.ledgerwise (During.taken s k) hf) ns
  obtain ⟨t, run, answers, ended⟩ :=
    d'.answers region sound (fun _ hr => hr) ⟨missed, v, runS, by simpa using same⟩ answer
  refine ⟨t.drive, h.run hk (x := x) ?_ run, answers, ?_⟩
  · have reported : reportNotices ns (f (s.afterTake k)) = .ok () x := (Act.bind_ok runX).trans rfl
    rw [ran, Act.modify_bind, Act.bind_ok reported]
    rfl
  · have sets : t.drive.cacheSets = (f s).cacheSets := by
      rw [ended.sets, frame.frame, (During.taken s k).step hf, hf.change s]
      rfl
    have engine : t.drive.engine = (f s).engine := by
      rw [ended.engine, hf.change s]
      exact (State.mayTakeCell_free h.offers.free).symm
    have := ended.frame
    conv_lhs => rw [this]
    unfold State.besides
    rw [sets, engine]

/-- The same without notices: the notice unit stays as it was. -/
theorem Admits.answers_silent (h : Admits s k kind) {kinds : Nat → Bool} (hk : kinds kind = true)
    {work : TakenCell → Act (Option Answer)} {f : State → State} (hf : Ledgerwise f) {answer : Answer}
    (ran : work (s.offered k) (s.afterTake k) = .ok (some answer) (f (s.afterTake k))) :
    ∃ t, conclude (serveCell kinds work) s = .next t ∧ Answers s t k answer []
      ∧ t = { f s with
          mem := t.mem
          lists := t.lists
          lastServed := t.lastServed
          causes := t.causes
          messages := t.messages
          lines := t.lines } := by
  obtain ⟨t, run, answers, frame⟩ := h.answers hk hf (ns := []) (answer := answer) (ran.trans rfl)
  obtain ⟨written, taken, held, full, dropped⟩ := answers.notices.idle rfl
  refine ⟨t, run, answers, ?_⟩
  rw [written, taken, held, full, dropped] at frame
  have change := hf.change s
  conv_lhs => rw [frame]
  rw [change]
  rfl

/-- A cell refused by its work: nothing but its own completion. -/
theorem Admits.refuses (h : Admits s k kind) {kinds : Nat → Bool} (hk : kinds kind = true)
    {work : TakenCell → Act (Option Answer)} {r : Result}
    (ran : work (s.offered k) (s.afterTake k) = .ok (some (refusedWith r)) (s.afterTake k)) :
    ∃ t, conclude (serveCell kinds work) s = .next t ∧ Answers s t k (refusedWith r) []
      ∧ t = { s with
          mem := t.mem
          lists := t.lists
          lastServed := t.lastServed
          causes := t.causes
          messages := t.messages
          lines := t.lines } :=
  h.answers_silent hk .refl ran

/-- The zones replaced. -/
def State.withZones (s : State) (zones : Vector Zone 64) : State := { s with zones := zones }

theorem State.withZones_ledgerwise (zones : Vector Zone 64) : Ledgerwise fun s => s.withZones zones :=
  ⟨fun _ _ => rfl, fun _ => rfl⟩

end

/-! ### CLIMATE (R58) -/

/-- Every sample examined has its result (R63). -/
theorem examineSample_length (m : AuthMap) (minute : Word) (r : SampleRun) (x : Sample) :
    (examineSample m minute r x).results.length = r.results.length + 1 := by
  simp only [examineSample]
  split
  · simp
  · split
    · simp
    · split <;> simp

theorem examineSamples_length (m : AuthMap) (minute : Word) (xs : List Sample) :
    ∀ r : SampleRun, (xs.foldl (examineSample m minute) r).results.length = r.results.length + xs.length := by
  induction xs with
  | nil => exact fun _ => rfl
  | cons x xs ih =>
    intro r
    rw [List.foldl_cons, ih, examineSample_length, List.length_cons]
    omega

theorem climateWork_samples (c : TakenCell) (s : State) (count : ¬ (c.sampleCount = 0 ∨ 4 < c.sampleCount)) :
    let r := examineSamples s.zones s.maps[c.list] s.minute (c.samples.take c.sampleCount)
    climateWork c s = (do
      modify fun t => t.withZones r.zones
      reportNotices r.notices
      pure (some (climateAnswer r.results)) : Act (Option Answer)) s := by
  intro r
  unfold climateWork
  rw [Act.get_bind, if_neg count]
  rfl

/-- The answer of a CLIMATE by the results of its samples (R58). -/
theorem climateAnswer_eq (rs : List SampleResult) :
    let code (i : Nat) : Nat := ((rs.map SampleResult.code)[i]?).getD 0
    climateAnswer rs = ⟨if rs.any (fun x => decide (x = .accepted ∨ x = .clamped)) then .ok else .noEffect,
      wordOfBytes (code 0) (code 1) (code 2) (code 3), 0, 0, 0, 0⟩ := by
  simp only [climateAnswer, sampleCode, List.getElem?_map, Bool.decide_or]

/-- Settles O35: by the sample count, and sample by sample for the number of results. -/
theorem climateExaminesItsSamples : Obligations.ClimateExaminesItsSamples := by
  intro s k h c r code answer
  refine ⟨fun count => ?_, fun low high => ?_⟩
  · refine h.refuses (kinds := (· == 8)) rfl (work := climateWork) ?_
    unfold climateWork
    rw [Act.get_bind, if_pos count]
    rfl
  · obtain ⟨t, run, answers, frame⟩ := h.answers (kinds := (· == 8)) rfl (work := climateWork)
      (State.withZones_ledgerwise r.zones) (climateWork_samples c (s.afterTake k) (by omega))
    have own : climateAnswer r.results = answer := climateAnswer_eq r.results
    refine ⟨t, run, ?_, ?_, frame⟩
    · rw [← own]
      exact answers
    · have four : c.samples.length = 4 := rfl
      rw [examineSamples_length, List.length_take, four, Nat.min_eq_left high]
      exact Nat.zero_add _

/-! ### ZONESET (R54, R55) -/

theorem zoneTypeOf_code (type : ZoneType) : zoneTypeOf type.code = some type := by
  cases type <;> rfl

theorem ZoneType.code_le (type : ZoneType) : type.code ≤ 3 := by
  cases type <;> decide

/-- The codes 0 to 3 are those of the zone types (R53). -/
theorem exists_zoneType {n : Nat} (h : n ≤ 3) : ∃ type : ZoneType, type.code = n := by
  match n, h with
  | 0, _ => exact ⟨.typeNone, rfl⟩
  | 1, _ => exact ⟨.typeOpen, rfl⟩
  | 2, _ => exact ⟨.typeDry, rfl⟩
  | 3, _ => exact ⟨.typeBake, rfl⟩

theorem zoneTypeOf_isSome {n : Nat} : (zoneTypeOf n).isSome = true ↔ n ≤ 3 := by
  refine ⟨fun h => ?_, fun h => ?_⟩
  · by_contra high
    obtain ⟨m, rfl⟩ : ∃ m, n = m + 4 := ⟨n - 4, by omega⟩
    cases h
  · obtain ⟨type, rfl⟩ := exists_zoneType h
    rw [zoneTypeOf_code]
    rfl

theorem ZoneType.code_injective {x y : ZoneType} (h : x.code = y.code) : x = y :=
  Option.some.inj ((zoneTypeOf_code x).symm.trans ((congrArg zoneTypeOf h).trans (zoneTypeOf_code y)))

theorem ZoneType.code_eq_zero {type : ZoneType} : type.code = 0 ↔ type = .typeNone := by
  cases type <;> simp [ZoneType.code]

theorem ZoneRequest.not_inRange_iff (q : ZoneRequest) : (!q.inRange) = true ↔
    3 < q.type ∨ 8 < q.holdLine ∨ q.staleLimit.toNat < 1 ∨ 1440 < q.staleLimit.toNat ∨ 7 < q.dryLimit
      ∨ 1 < q.holdOnStale ∨ 1 < q.clearFault := by
  have inRange : q.inRange = true ↔ q.type ≤ 3 ∧ q.holdLine ≤ 8 ∧ 1 ≤ q.staleLimit.toNat ∧ q.staleLimit.toNat ≤ 1440
      ∧ q.dryLimit ≤ 7 ∧ q.holdOnStale ≤ 1 ∧ q.clearFault ≤ 1 := by
    simp only [ZoneRequest.inRange, Bool.and_eq_true, decide_eq_true_eq, zoneTypeOf_isSome, and_assoc]
  rw [Bool.not_eq_true', ← Bool.not_eq_true, inRange]
  omega

/-- The type that a code in range names. -/
theorem zoneType_code {n : Nat} (h : n ≤ 3) : ((zoneTypeOf n).getD .typeNone).code = n := by
  obtain ⟨type, rfl⟩ := exists_zoneType h
  rw [zoneTypeOf_code]
  rfl

/-- The first of ZONESET's checks that fails (R54). -/
def State.zonesetRefusal (s : State) (m : AuthMap) (q : ZoneRequest) : Option Result :=
  let z := s.zones[(Fin.ofNat 64 q.zone : ZoneNo)]
  if ¬ (q.zone < 64 ∧ q.zone < m.zoneLen ∧ m.bitmap.getLsbD q.zone = true) then some .denied
  else if 3 < q.type ∨ 8 < q.holdLine ∨ q.staleLimit.toNat < 1 ∨ 1440 < q.staleLimit.toNat ∨ 7 < q.dryLimit
      ∨ 1 < q.holdOnStale ∨ 1 < q.clearFault then some .badValue
  else if q.type ≠ z.type.code ∧ 0 < z.occupancy then some .zoneOccupied
  else none

/-- The zone that a ZONESET redefines, as it leaves it (R55). -/
def State.redefined (s : State) (q : ZoneRequest) : Zone :=
  s.zones[(Fin.ofNat 64 q.zone : ZoneNo)].redefine ((zoneTypeOf q.type).getD .typeNone) q

/-- ZONESET refuses by the first check that fails, and otherwise redefines its zone (R54, R55). -/
theorem zonesetWork_eq (c : TakenCell) (s : State) : zonesetWork c s =
    match s.zonesetRefusal s.maps[c.list] c.zoneRequest with
    | some r => .ok (some (refusedWith r)) s
    | none => .ok (some (zonesetAnswer (s.redefined c.zoneRequest)))
        (s.withZones (s.zones.set (Fin.ofNat 64 c.zoneRequest.zone : ZoneNo) (s.redefined c.zoneRequest))) := by
  unfold zonesetWork State.zonesetRefusal
  rw [Act.get_bind]
  simp only [AuthMap.denies_iff, ZoneRequest.not_inRange_iff]
  split
  · rfl
  split
  · rfl
  next inRange =>
  have code : ((zoneTypeOf c.zoneRequest.type).getD .typeNone).code = c.zoneRequest.type := zoneType_code (by omega)
  have changed (z : Zone) : (zoneTypeOf c.zoneRequest.type).getD .typeNone ≠ z.type ↔ c.zoneRequest.type ≠ z.type.code := by
    rw [← code, not_iff_not, code]
    exact ⟨fun e => code.symm.trans (congrArg _ e), fun e => ZoneType.code_injective (code.trans e)⟩
  simp only [changed]
  split <;> rfl

/-- Where ZONESET is not refused its values lie in their ranges (R54). -/
theorem State.zonesetRefusal_none {s : State} {m : AuthMap} {q : ZoneRequest} (h : s.zonesetRefusal m q = none) :
    q.type ≤ 3 ∧ q.holdLine ≤ 8 ∧ q.dryLimit ≤ 7 ∧ q.clearFault ≤ 1 := by
  unfold State.zonesetRefusal at h
  simp only at h
  split at h
  · cases h
  split at h
  · cases h
  · omega

/-- Settles O36: by the first check that fails, and field by field where none does. -/
theorem zonesetRefusesOrRedefines : Obligations.ZonesetRefusesOrRedefines := by
  intro s k h q m i z refusal
  have run := zonesetWork_eq (s.offered k) (s.afterTake k)
  change _ = match refusal with | some r => _ | none => _ at run
  have own : s.zonesetRefusal m q = refusal := rfl
  cases refused : refusal with
  | some r =>
    rw [refused] at run
    refine ⟨fun r' e => ?_, nofun⟩
    cases e
    exact h.refuses (kinds := (· == 9)) rfl (work := zonesetWork) run
  | none =>
    rw [refused] at run
    obtain ⟨type, holdLine, dryLimit, clearFault⟩ := State.zonesetRefusal_none (own.trans refused)
    obtain ⟨t, ran, answers, frame⟩ := h.answers_silent (kinds := (· == 9)) rfl (work := zonesetWork)
      (State.withZones_ledgerwise (s.zones.set i (s.redefined q))) run
    have code : (s.redefined q).type.code = q.type := zoneType_code type
    have undefined : (zoneTypeOf q.type).getD .typeNone = .typeNone ↔ q.type = 0 := by
      rw [← ZoneType.code_eq_zero, zoneType_code type]
    refine ⟨nofun, fun _ => ⟨t, s.redefined q, ran, code, ?line, rfl, ?stale, Nat.mod_eq_of_lt (by omega), rfl, rfl, ?fault,
      rfl, answers, frame⟩⟩
    case line =>
      simp only [State.redefined, Zone.redefine, undefined]
      split
      · rfl
      · exact Nat.mod_eq_of_lt (by omega)
    case stale =>
      simp only [State.redefined, Zone.redefine, ne_eq, undefined, Bool.decide_and]
    case fault =>
      have flag : q.clearFault = 0 ∨ q.clearFault = 1 := by omega
      simp only [State.redefined, Zone.redefine]
      rcases flag with e | e <;> simp [e, z, i]

end Sys2Proof.Machine
end

-- ==== Proofs: the pages ====
section
/-! The zone page as it is written and read, and publications (O10, O44). -/

namespace Sys2Proof.Machine

/-! ### Words of the region as lists -/

@[simp] theorem State.poke_base (s : State) (off : Nat) (ws : List Word) : (s.poke off ws).base = s.base := rfl

/-- A run of words read where it was written. -/
theorem State.peekWords_poke_toList (s : State) (off : Nat) {n : Nat} {ws : List Word} (h : ws.length = n) :
    ((s.poke off ws).peekWords off n).toList = ws := by
  subst h
  have read := s.peekWords_poke off ws.length ⟨ws.toArray, by simp⟩
  simpa using congrArg Vector.toList read

/-- A run of words is its first word and the rest. -/
theorem State.peekWords_succ (s : State) (off n : Nat) :
    (s.peekWords off (n + 1)).toList = s.peek off :: (s.peekWords (off + 4) n).toList := by
  simp only [State.peekWords, Memory.words, Vector.toList_ofFn, List.ofFn_succ, State.peek]
  congr 2
  funext i
  simp only [Fin.val_succ]
  congr 1
  omega

theorem State.getElem_peekWords (s : State) (off n i : Nat) (h : i < n) : (s.peekWords off n)[i] = s.peek (off + 4 * i) := by
  simp only [State.peekWords, Memory.words, Vector.getElem_ofFn, State.peek, Nat.add_assoc]

theorem Vector.toList_eq_map {α : Type} {n : Nat} (v : Vector α n) : v.toList = (List.finRange n).map fun i => v[i] := by
  rw [← List.ofFn_eq_map]
  exact List.ext_getElem (by simp) fun i hi hi' => by simp

/-- The entries of a page, zone by zone. -/
theorem flatMap_zones {α β : Type} (v : Vector α 64) (f : α → List β) :
    v.toList.flatMap f = (List.finRange 64).flatMap fun z => f v[z] := by
  rw [Vector.toList_eq_map, List.flatMap_map]

/-! ### The words of an entry (section 10.2) -/

theorem dwordWords_length (v : Vector DWord 8) : (dwordWords v).length = 16 := by
  simp [dwordWords]

theorem Zone.entryWords_length (z : Zone) : z.entryWords.length = 48 := by
  simp [Zone.entryWords, dwordWords_length]

/-- The words of a run of two-word quantities, by their places. -/
theorem flatMap_pair_getElem? {α β : Type} (f g : α → β) (xs : List α) (i : Nat) :
    (xs.flatMap fun x => [f x, g x])[2 * i]? = xs[i]?.map f
      ∧ (xs.flatMap fun x => [f x, g x])[2 * i + 1]? = xs[i]?.map g := by
  induction xs generalizing i with
  | nil => simp
  | cons x xs ih =>
    cases i with
    | zero => simp
    | succ i =>
      have := ih i
      simp only [List.flatMap_cons, List.cons_append, List.nil_append, Nat.mul_succ, List.getElem?_cons_succ]
      exact this

theorem dwordWords_getElem? (v : Vector DWord 8) (c : Fin 8) :
    (dwordWords v)[2 * c.val]? = some (loWord v[c]) ∧ (dwordWords v)[2 * c.val + 1]? = some (hiWord v[c]) := by
  have := flatMap_pair_getElem? loWord hiWord v.toList c.val
  simpa [dwordWords] using this

/-! ### The zone page written (R66) -/

/-- The bytes of the entries of a run of zones. -/
def Layout.entryAreas (l : Layout) (zs : List ZoneNo) : List (Nat × Nat) := zs.map fun z => (l.zoneEntry z.val, 192)

theorem State.pokeEntries_keeps (zones : Vector Zone 64) (zs : List ZoneNo) :
    ∀ s : State, KeepsBytes s (s.pokeEntries zones zs) (s.layout.entryAreas zs) := by
  induction zs with
  | nil => exact fun s => .refl s _
  | cons z zs ih =>
    intro s
    have first : KeepsBytes s (s.poke (s.layout.zoneEntry z.val) zones[z].entryWords) (s.layout.entryAreas (z :: zs)) :=
      .poke ⟨(s.layout.zoneEntry z.val, 192), List.mem_cons_self, Nat.le_refl _, by simp [Zone.entryWords_length]⟩
    exact first.trans rfl ((ih _).mono (List.subset_cons_self _ _))

/-- The entries of different zones share no byte. -/
theorem Layout.entryAreas_apart (l : Layout) {zs : List ZoneNo} {z : ZoneNo} (h : z ∉ zs) :
    AllApart (l.entryAreas zs) (l.zoneEntry z.val, 192) := by
  intro r hr
  obtain ⟨x, hx, rfl⟩ := List.mem_map.mp hr
  have : x.val ≠ z.val := fun e => h (Fin.ext e ▸ hx)
  unfold Apart Layout.zoneEntry
  simp only
  omega

/-- Each entry written reads back. -/
theorem State.pokeEntries_reads (zones : Vector Zone 64) (zs : List ZoneNo) (z : ZoneNo) :
    ∀ s : State, zs.Nodup → z ∈ zs →
      ((s.pokeEntries zones zs).peekWords (s.layout.zoneEntry z.val) 48).toList = zones[z].entryWords := by
  induction zs with
  | nil => exact fun _ _ h => absurd h List.not_mem_nil
  | cons x xs ih =>
    intro s nodup mem
    obtain ⟨fresh, nodup⟩ := List.nodup_cons.mp nodup
    by_cases later : z ∈ xs
    · exact ih (s.poke (s.layout.zoneEntry x.val) zones[x].entryWords) nodup later
    · obtain rfl : z = x := (List.mem_cons.mp mem).resolve_right later
      have keeps := State.pokeEntries_keeps zones xs (s.poke (s.layout.zoneEntry z.val) zones[z].entryWords)
      have base : ((s.poke (s.layout.zoneEntry z.val) zones[z].entryWords).pokeEntries zones xs).base = s.base := by
        rw [State.pokeEntries_frame]
        rfl
      unfold State.pokeEntries
      rw [keeps.peekWords base (by exact s.layout.entryAreas_apart fresh)]
      exact State.peekWords_poke_toList s _ (zones[z].entryWords_length)

theorem State.pokeEntries_base (s : State) (zones : Vector Zone 64) (zs : List ZoneNo) :
    (s.pokeEntries zones zs).base = s.base := by
  rw [State.pokeEntries_frame]
  rfl

theorem headerRest_length : headerRest.length = 14 := rfl

/-- The words of the zone page once it is written, the entries in an order that names every zone once (R66, R67). -/
theorem State.pagePoked_reads (s : State) (zones : Vector Zone 64) (published : Word) {zs : List ZoneNo} (nodup : zs.Nodup)
    (all : ∀ z, z ∈ zs) :
    let t := s.pagePoked zones published zs
    t.peek s.layout.zonePage = published
      ∧ t.peekWords (s.layout.zonePage + 8) 14 = Vector.replicate 14 0
      ∧ (∀ z : ZoneNo, (t.peekWords (s.layout.zoneEntry z.val) 48).toList = zones[z].entryWords)
      ∧ t.peek (s.layout.zonePage + 4) = pageCheck published (entriesWords zones) := by
  intro t
  refine ⟨?minute, ?header, fun z => ?entry, ?check⟩
  all_goals simp only [t, State.pagePoked]
  case minute =>
    rw [State.peek_poke_apart (by simp), State.peek_poke_apart (by simp [headerRest_length])]
    exact State.peek_poke _ s.layout.zonePage _ 0 (by simp)
  case header =>
    rw [State.peekWords_poke_apart (by simp)]
    exact Vector.toList_inj.mp (State.peekWords_poke_toList _ _ headerRest_length)
  case entry =>
    have place : s.layout.zonePage + 64 ≤ s.layout.zoneEntry z.val := by unfold Layout.zoneEntry; omega
    rw [State.peekWords_poke_apart (by simp only [List.length_cons, List.length_nil]; omega),
      State.peekWords_poke_apart (by rw [headerRest_length]; omega),
      State.peekWords_poke_apart (by simp only [List.length_cons, List.length_nil]; omega)]
    exact State.pokeEntries_reads zones zs z s nodup (all z)
  case check => exact State.peek_poke _ (s.layout.zonePage + 4) _ 0 (by simp)

/-- Writing the zone page changes no byte outside it. -/
theorem State.pagePoked_keeps (s : State) (zones : Vector Zone 64) (published : Word) (zs : List ZoneNo) :
    KeepsBytes s (s.pagePoked zones published zs) [(s.layout.zonePage, zonePageBytes)] := by
  have within : KeepsBytes s (s.pokeEntries zones zs) [(s.layout.zonePage, zonePageBytes)] := by
    intro x hx
    refine State.pokeEntries_keeps zones zs s x fun r hr => ?_
    obtain ⟨z, -, rfl⟩ := List.mem_map.mp hr
    have := hx _ List.mem_cons_self
    have := z.isLt
    unfold Layout.zoneEntry zonePageBytes at *
    simp only at *
    omega
  have base := s.pokeEntries_base zones zs
  unfold State.pagePoked zonePageBytes at *
  refine (within.trans base (.poke ⟨_, List.mem_cons_self, Nat.le_refl _, by simp⟩)).trans base
    (.poke ⟨_, List.mem_cons_self, by simp, by simp [headerRest_length]⟩) |>.trans base
    (.poke ⟨_, List.mem_cons_self, by simp, by simp⟩)

theorem State.pagePoked_base (s : State) (zones : Vector Zone 64) (published : Word) (zs : List ZoneNo) :
    (s.pagePoked zones published zs).base = s.base := by
  rw [State.pagePoked_frame]
  rfl

/-! ### The pages of a valid region -/

/-- The areas apart from which the layout block and the zone page lie (R170). -/
structure PagesApart (s : State) : Prop where
  blockControl : Apart (0, 168) (s.layout.controlPage, 64)
  blockZone : Apart (0, 168) (s.layout.zonePage, 12352)
  blockTable : Apart (0, 168) (s.layout.accountTable, 64 * s.layout.tableSize)
  blockLog : Apart (0, 168) (s.layout.noticeLog, 16 * s.capacity)
  blockLists : Apart (0, 168) (s.layout.intakeLists, 8 * s.layout.cellsPerList * 64)
  controlZone : Apart (s.layout.controlPage, 64) (s.layout.zonePage, 12352)
  zoneTable : Apart (s.layout.zonePage, 12352) (s.layout.accountTable, 64 * s.layout.tableSize)
  zoneLog : Apart (s.layout.zonePage, 12352) (s.layout.noticeLog, 16 * s.capacity)
  zoneLists : Apart (s.layout.zonePage, 12352) (s.layout.intakeLists, 8 * s.layout.cellsPerList * 64)

theorem RegionValid.pagesApart {s : State} (h : RegionValid s) : PagesApart s := by
  have a := h.apart
  simp only [State.areas, allApart, List.all_cons, List.all_nil, Bool.and_true, Bool.and_eq_true, Machine.apart, Bool.or_eq_true,
    decide_eq_true_eq] at a
  obtain ⟨⟨blockControl, blockZone, blockTable, blockLog, blockLists⟩, ⟨controlZone, -⟩, ⟨zoneTable, zoneLog, zoneLists⟩, -⟩ := a
  exact ⟨blockControl, blockZone, blockTable, blockLog, blockLists, controlZone, zoneTable, zoneLog, zoneLists⟩

/-! ### The zone page shown -/

/-- A page that stands keeps standing while its bytes are left alone, for zones with the same entries. -/
theorem ZonePageShown.of_keeps {t x : State} (h : ZonePageShown t) {areas : List (Nat × Nat)} (keeps : KeepsBytes t x areas)
    (base : x.base = t.base) (layout : x.layout = t.layout) (apart : AllApart areas (t.layout.zonePage, 12352))
    (zones : ∀ z : ZoneNo, x.zones[z].entryWords = t.zones[z].entryWords) (published : x.published = t.published) :
    ZonePageShown x := by
  have within (off k : Nat) (low : t.layout.zonePage ≤ off) (high : off + 4 * k ≤ t.layout.zonePage + 12352) :
      AllApart areas (off, 4 * k) := by
    intro r hr
    have := apart r hr
    unfold Apart at *
    simp only at *
    omega
  have entries : x.zones.toList.flatMap Zone.entryWords = t.zones.toList.flatMap Zone.entryWords := by
    rw [flatMap_zones, flatMap_zones]
    congr 1
    exact funext zones
  refine ⟨?minute, ?header, fun z => ?entry, ?check⟩
  case minute =>
    rw [layout, published, keeps.peek base (within _ 1 (by omega) (by omega))]
    exact h.minute
  case header =>
    rw [layout, keeps.peekWords base (within _ 14 (by omega) (by omega))]
    exact h.header
  case entry =>
    have place : t.layout.zoneEntry z.val = t.layout.zonePage + 64 + 192 * z.val := rfl
    have := z.isLt
    rw [layout, zones, keeps.peekWords base (within _ 48 (by omega) (by omega))]
    exact h.entries z
  case check =>
    rw [layout, published, entries, keeps.peek base (within _ 1 (by omega) (by omega))]
    exact h.check

/-- The zone page written stands as written (R66, R67). -/
theorem State.pagePoked_shown (s : State) (zones : Vector Zone 64) (published : Word) :
    ZonePageShown { s.pagePoked zones published (List.finRange 64) with zones := zones, published := published } := by
  obtain ⟨minute, header, entries, check⟩ :=
    s.pagePoked_reads zones published (List.nodup_finRange 64) (List.mem_finRange (n := 64))
  have frame := s.pagePoked_frame zones published (List.finRange 64)
  generalize List.finRange 64 = zs at *
  have layout : (s.pagePoked zones published zs).layout = s.layout := by rw [frame]
  refine ⟨?_, ?_, fun z => ?_, ?_⟩
  all_goals simp only [layout]
  · exact minute
  · exact header
  · exact entries z
  · exact check

/-! ### A publication (R66) -/

theorem State.controlWords_length (s : State) : s.controlWords.length = 4 := rfl

theorem State.controlShown_toList (s : State) : s.controlShown.toList = s.controlWords := rfl

theorem State.controlWords_congr {s t : State} (engine : t.engineState = s.engineState) (causes : t.resetCauses = s.resetCauses)
    (clock : t.clock = s.clock) (watch : t.watch = s.watch) (unwatched : t.unwatched = s.unwatched) :
    t.controlWords = s.controlWords := by
  simp only [State.controlWords, State.controlClock, State.freeCount, engine, causes, clock, watch, unwatched]

/-- The state whose pages a publication writes: the published minute taken, and no publication due (R66). -/
def State.publishing (s : State) : State :=
  { s with published := if s.clockSet then s.minute else s.published, publicationDue := false }

/-- Both pages written, for the zones and the published minute as they stand. -/
def State.pagesPoked (u : State) : State :=
  (u.pagePoked u.zones u.published (List.finRange 64)).poke (u.layout.controlPage + 12) u.controlWords

theorem State.publishedState_eq (s : State) : s.publishedState = s.publishing.pagesPoked := by
  unfold State.publishedState State.pagesPoked State.publishing
  generalize List.finRange 64 = zs
  rfl

/-- The pages stand as a publication writes them (R66, R67, R113, R121). -/
theorem State.publishedState_shown {s : State} (region : RegionValid s) : PageShown s.publishedState := by
  have apart := region.pagesApart.controlZone
  unfold Apart at apart
  have layout : s.publishing.layout = s.layout := rfl
  rw [s.publishedState_eq]
  generalize s.publishing = u at layout
  unfold State.pagesPoked
  have frame := u.pagePoked_frame u.zones u.published (List.finRange 64)
  have shown := u.pagePoked_shown u.zones u.published
  generalize u.pagePoked u.zones u.published (List.finRange 64) = v at frame shown
  have plain : { v with zones := u.zones, published := u.published } = v := by rw [frame]
  rw [plain] at shown
  have vlayout : v.layout = u.layout := by rw [frame]
  have control : (v.poke (u.layout.controlPage + 12) u.controlWords).controlShown.toList = u.controlWords := by
    rw [State.controlShown_toList]
    apply State.controlWords_congr
    all_goals
      simp only [State.poke_engineState, State.poke_resetCauses, State.poke_clock, State.poke_watch, State.poke_unwatched]
      rw [frame]
  have length := u.controlWords_length
  generalize u.controlWords = words at control length
  have keeps : KeepsBytes v (v.poke (u.layout.controlPage + 12) words) [(u.layout.controlPage + 12, 16)] :=
    .poke ⟨_, List.mem_cons_self, Nat.le_refl _, by simp [length]⟩
  have page : ZonePageShown (v.poke (u.layout.controlPage + 12) words) := by
    refine shown.of_keeps keeps (State.poke_base ..) (State.poke_layout ..) ?_ (fun z => ?_) ?_
    · intro r hr
      obtain rfl := List.mem_singleton.mp hr
      unfold Apart
      rw [vlayout, layout]
      simp only
      omega
    · rw [State.poke_zones]
    · rw [State.poke_published]
  refine ⟨page, Vector.toList_inj.mp ?_⟩
  rw [control, State.poke_layout, vlayout]
  exact State.peekWords_poke_toList _ _ length

theorem State.publishedState_keeps (s : State) : KeepsBytes s s.publishedState s.pageAreas := by
  have areas : s.pageAreas = s.publishing.pageAreas := rfl
  have same (t : State) (h : KeepsBytes s.publishing t s.publishing.pageAreas) : KeepsBytes s t s.publishing.pageAreas := h
  rw [s.publishedState_eq, areas]
  refine same _ ?_
  generalize s.publishing = u
  unfold State.pagesPoked
  have page := u.pagePoked_keeps u.zones u.published (List.finRange 64)
  have base := u.pagePoked_base u.zones u.published (List.finRange 64)
  generalize u.pagePoked u.zones u.published (List.finRange 64) = v at page base
  have length := u.controlWords_length
  generalize u.controlWords = words at length
  exact (page.mono (by simp [State.pageAreas])).trans base
    (.poke ⟨(u.layout.controlPage + 12, 16), by simp [State.pageAreas], Nat.le_refl _, by simp [length]⟩)

/-- The wires are no part of the pages. -/
theorem PageShown.drive {t : State} (h : PageShown t) : PageShown t.drive := by
  have drive (l : Vector Bool 8) : PageShown { t with lines := l } :=
    ⟨h.toZonePageShown.of_keeps (.refl t []) rfl rfl (fun _ hr => absurd hr List.not_mem_nil) (fun _ => rfl) rfl, h.control⟩
  exact drive _

/-- What a publication leaves, its wires driven. -/
theorem State.drive_of_frame {s t : State} {published : Word}
    (frame : t = { s with mem := t.mem, published := published, publicationDue := false }) :
    t.drive = { s with mem := t.drive.mem, published := published, publicationDue := false, lines := t.drive.lines } := by
  generalize hm : t.mem = m at frame
  subst frame
  clear hm
  rfl

/-- Settles O44: a publication is made where one is due. -/
theorem publicationWritesThePages : Obligations.PublicationWritesThePages := by
  intro s service
  have run := finishPublication_ok service.sound
  refine ⟨fun idle => ?_, fun due => ?_⟩
  · rw [if_neg (by rw [idle]; decide)] at run
    exact conclude_ok run
  · rw [if_pos due] at run
    have shown := State.publishedState_shown service.region
    have keeps := s.publishedState_keeps
    have frame := s.publishedState_frame
    generalize s.publishedState = t at run shown keeps frame
    refine ⟨t.drive, conclude_ok run, shown.drive, keeps, ?_⟩
    exact State.drive_of_frame frame

end Sys2Proof.Machine
end

-- ==== Proofs: the zone page read ====
section
/-! The checks of a zone page at attach, and the round trip through the region (O10). -/

namespace Sys2Proof.Machine

/-! ### Codes and fields of an entry -/

theorem zoneTypeOf_eq_some {n : Nat} {type : ZoneType} : zoneTypeOf n = some type ↔ type.code = n := by
  refine ⟨fun h => ?_, fun h => h ▸ zoneTypeOf_code type⟩
  obtain ⟨known, rfl⟩ := exists_zoneType (zoneTypeOf_isSome.mp (by rw [h]; rfl))
  rw [zoneTypeOf_code] at h
  rw [Option.some.inj h]

theorem climateOf_code (climate : ClimateState) : climateOf climate.code = some climate := by
  cases climate <;> rfl

/-- The codes 0 to 2 are those of the climate states. -/
theorem exists_climate {n : Nat} (h : n ≤ 2) : ∃ climate : ClimateState, climate.code = n := by
  match n, h with
  | 0, _ => exact ⟨.noClimate, rfl⟩
  | 1, _ => exact ⟨.current, rfl⟩
  | 2, _ => exact ⟨.stale, rfl⟩

theorem ClimateState.code_le (climate : ClimateState) : climate.code ≤ 2 := by
  cases climate <;> decide

theorem climateOf_eq_some {n : Nat} {climate : ClimateState} : climateOf n = some climate ↔ climate.code = n := by
  refine ⟨fun h => ?_, fun h => h ▸ climateOf_code climate⟩
  match n, h with
  | 0, h => exact Option.some.inj h ▸ rfl
  | 1, h => exact Option.some.inj h ▸ rfl
  | 2, h => exact Option.some.inj h ▸ rfl

/-- A bit of the byte at byte 3 of a word. -/
theorem byteOf_three_testBit (w : Word) {i : Nat} (h : i < 8) : (byteOf w 3).testBit i = w.getLsbD (24 + i) := by
  have place : 256 ^ 3 = 2 ^ 24 := rfl
  have size : 256 = 2 ^ 8 := rfl
  rw [byteOf, place, size, Nat.testBit_mod_two_pow, Nat.testBit_div_two_pow, ← BitVec.testBit_toNat, Nat.add_comm i]
  simp [h]

/-! ### Entries in range (R69) -/

/-- The zone an entry in range spells, for the type and climate state that its codes name (R69). -/
def loadedZone (w : Vector Word 48) (type : ZoneType) (climate : ClimateState) : Zone where
  type := type
  holdLine := Fin.ofNat 9 (byteOf w[0] 1)
  staleLimit := lowHalf w[1]
  holdOnStale := (byteOf w[0] 3).testBit 0
  dryLimitBand := Fin.ofNat 8 (byteOf w[1] 2)
  climate := climate
  lastTemp := lowHalf w[2]
  lastHum := highHalf w[2]
  tempBand := tempBandOf (lowHalf w[2]).toInt
  humBand := humBandOf (highHalf w[2]).toNat
  lastSample := w[3]
  clamped := (byteOf w[0] 3).testBit 1
  faultHold := false
  occupancy := 0
  expiredPresent := 0
  exposure := Vector.ofFn fun c : Fin 8 => dword (w[6 + 2 * c.val]'(by omega)) (w[7 + 2 * c.val]'(by omega))
  degraded := Vector.ofFn fun c : Fin 8 => dword (w[22 + 2 * c.val]'(by omega)) (w[23 + 2 * c.val]'(by omega))
  bake := Vector.ofFn fun c : Fin 8 => w[38 + c.val]'(by omega)
  dry := w[5]

/-- An entry loads exactly where its codes are known and its fields lie in the ranges of R69. -/
theorem zoneOfEntry_eq_some {w : Vector Word 48} {z : Zone} : zoneOfEntry w = some z ↔
    EntryInRange w ∧ ∃ type climate, type.code = byteOf w[0] 0 ∧ climate.code = byteOf w[0] 2 ∧ z = loadedZone w type climate := by
  have flag : (byteOf w[0] 3).testBit 0 = w[0].getLsbD 24 := byteOf_three_testBit _ (by omega)
  refine ⟨fun h => ?_, fun ⟨range, type, climate, typeCode, climateCode, e⟩ => ?_⟩
  · unfold zoneOfEntry at h
    simp only at h
    split at h
    · next type climate typeCode climateCode =>
      rw [zoneTypeOf_eq_some] at typeCode
      rw [climateOf_eq_some] at climateCode
      split at h
      · next checks =>
        obtain ⟨holdLine, staleLow, staleHigh, dry, tempLow, tempHigh, hum, undefined⟩ := checks
        refine ⟨⟨typeCode ▸ type.code_le, holdLine, climateCode ▸ climate.code_le, ⟨staleLow, staleHigh⟩, dry,
          ⟨tempLow, tempHigh⟩, hum, fun none => ?_⟩, type, climate, typeCode, climateCode, (Option.some.inj h).symm⟩
        rw [← flag]
        exact undefined (ZoneType.code_eq_zero.mp (typeCode.trans none))
      · cases h
    · cases h
  · unfold zoneOfEntry
    rw [zoneTypeOf_eq_some.mpr typeCode, climateOf_eq_some.mpr climateCode, e]
    refine if_pos ⟨range.holdLine, range.staleLimit.1, range.staleLimit.2, range.dryLimit, range.temp.1, range.temp.2,
      range.hum, fun none => ?_⟩
    rw [flag]
    exact range.undefined (typeCode.symm.trans (ZoneType.code_eq_zero.mpr none))

theorem zoneOfEntry_isSome {w : Vector Word 48} : (zoneOfEntry w).isSome = true ↔ EntryInRange w := by
  rw [Option.isSome_iff_exists]
  refine ⟨fun ⟨z, h⟩ => (zoneOfEntry_eq_some.mp h).1, fun range => ?_⟩
  obtain ⟨type, typeCode⟩ := exists_zoneType range.type
  obtain ⟨climate, climateCode⟩ := exists_climate range.climate
  exact ⟨_, zoneOfEntry_eq_some.mpr ⟨range, type, climate, typeCode, climateCode, rfl⟩⟩

/-- The zone loaded holds what its entry spells (R69, section 10.2). -/
theorem loadedFrom_of_zoneOfEntry {w : Vector Word 48} {z : Zone} (h : zoneOfEntry w = some z) : LoadedFrom w z := by
  obtain ⟨range, type, climate, typeCode, climateCode, rfl⟩ := zoneOfEntry_eq_some.mp h
  exact
    { type := typeCode
      holdLine := Nat.mod_eq_of_lt (Nat.lt_succ_of_le range.holdLine)
      climate := climateCode
      flags := ⟨byteOf_three_testBit _ (by omega), byteOf_three_testBit _ (by omega), rfl⟩
      limits := ⟨rfl, Nat.mod_eq_of_lt (Nat.lt_succ_of_le range.dryLimit)⟩
      readings := ⟨rfl, rfl, rfl⟩
      bands := ⟨tempBandOf_eq_iff range.temp.1 range.temp.2, humBandOf_eq_iff range.hum⟩
      counts := ⟨rfl, rfl⟩
      dry := rfl
      exposure := fun c => by simp [loadedZone, dword]
      degraded := fun c => by simp [loadedZone, dword]
      bake := fun c => by simp [loadedZone] }

/-! ### The check word (R67) -/

/-- The rotated sum, word by word. -/
theorem rotatedSum_eq_sum (ws : List Word) (k : Nat) :
    rotatedSum k ws = ((List.range ws.length).map fun i => (ws.getD i 0).rotateLeft ((k + i) % 32)).sum := by
  induction ws generalizing k with
  | nil => rfl
  | cons w ws ih =>
    rw [rotatedSum, ih, List.length_cons, List.range_succ_eq_map, List.map_cons, List.sum_cons, List.map_map]
    congr 3
    funext i
    simp [Nat.add_right_comm k 1 i, Nat.add_assoc]

/-- A sum that leaves the second word out is the sum with 0 in its place. -/
theorem rotatedSum_without_second (a b : Word) (ws : List Word) :
    rotatedSum 0 (a :: 0 :: ws) = ((List.range (ws.length + 2)).map fun i =>
      if i = 1 then 0 else ((a :: b :: ws).getD i 0).rotateLeft (i % 32)).sum := by
  rw [rotatedSum_eq_sum]
  congr 2
  funext i
  match i with
  | 0 => simp
  | 1 => simp
  | i + 2 => simp

theorem Vector.toList_eq_cons_cons {α : Type} {n : Nat} (v : Vector α (n + 2)) : v.toList = v[0] :: v[1] :: v.toList.drop 2 := by
  refine List.ext_getElem (by simp) fun i h _ => ?_
  match i with
  | 0 => simp
  | 1 => simp
  | i + 2 => simp [Nat.add_comm]

/-- The sum a page's check word is taken over, by the page's words. -/
theorem checkWord_page (header : Vector Word 16) (entries : Vector (Vector Word 48) 64) :
    checkWord (header[0] :: 0 :: (header.toList.drop 2 ++ entries.toList.flatMap Vector.toList))
      = ~~~ ((List.range 3088).map fun i =>
          if i = 1 then 0 else (pageWord header entries i).rotateLeft (i % 32)).sum := by
  have length : (header.toList.drop 2 ++ entries.toList.flatMap Vector.toList).length + 2 = 3088 := by
    simp
  have words (i : Nat) : pageWord header entries i
      = (header[0] :: header[1] :: (header.toList.drop 2 ++ entries.toList.flatMap Vector.toList)).getD i 0 := by
    unfold pageWord
    rw [Vector.toList_eq_cons_cons header]
    rfl
  unfold checkWord
  simp only [words]
  rw [← length, rotatedSum_without_second]

/-! ### Pages that pass (R69) -/

theorem zonesOfPage_isSome (header : Vector Word 16) (entries : Vector (Vector Word 48) 64) :
    (zonesOfPage header entries).isSome = true ↔
      header[1] = checkWord (header[0] :: 0 :: (header.toList.drop 2 ++ entries.toList.flatMap Vector.toList))
        ∧ ∀ z : ZoneNo, (zoneOfEntry entries[z]).isSome = true := by
  have all : entries.toList.all (fun e => (zoneOfEntry e).isSome) = true ↔
      ∀ z : ZoneNo, (zoneOfEntry entries[z]).isSome = true := by
    rw [Vector.toList_eq_map]
    simp
  rw [← all]
  unfold zonesOfPage
  split
  · next h => simpa using h
  · next h => simpa using h

/-- Each zone of a page that passes is loaded from its entry. -/
theorem zonesOfPage_zone {header : Vector Word 16} {entries : Vector (Vector Word 48) 64} {zones : Vector Zone 64}
    (h : zonesOfPage header entries = some zones) (z : ZoneNo) : zoneOfEntry entries[z] = some zones[z] := by
  have passes := ((zonesOfPage_isSome header entries).mp (by rw [h]; rfl)).2 z
  obtain ⟨zone, hz⟩ := Option.isSome_iff_exists.mp passes
  unfold zonesOfPage at h
  split at h
  · obtain rfl := Option.some.inj h
    calc zoneOfEntry entries[z] = some zone := hz
      _ = some ((zoneOfEntry entries[z]).getD Zone.undefined) := by rw [hz]; rfl
      _ = _ := by simp
  · cases h

/-! ### The round trip (R66, R69) -/

/-- A zone as it reads back: the counts 0, no fault hold, and the bands those of its readings (R69). -/
def Zone.reloaded (z : Zone) : Zone :=
  { z with
    occupancy := 0
    expiredPresent := 0
    faultHold := false
    tempBand := tempBandOf z.lastTemp.toInt
    humBand := humBandOf z.lastHum.toNat }

theorem lowHalf_wordOfHalves (lo hi : BitVec 16) : lowHalf (wordOfHalves lo.toNat hi.toNat) = lo := by
  apply BitVec.eq_of_toNat_eq
  simp only [lowHalf, wordOfHalves, word, BitVec.toNat_setWidth, BitVec.toNat_ofNat]
  omega

theorem highHalf_wordOfHalves (lo hi : BitVec 16) : highHalf (wordOfHalves lo.toNat hi.toNat) = hi := by
  apply BitVec.eq_of_toNat_eq
  simp only [highHalf, wordOfHalves, word, BitVec.toNat_setWidth, BitVec.toNat_ushiftRight, BitVec.toNat_ofNat,
    Nat.shiftRight_eq_div_pow]
  omega

theorem lowHalf_wordOfBytes (x : BitVec 16) (b c : Nat) : lowHalf (wordOfBytes x.toNat (x.toNat / 256) b c) = x := by
  apply BitVec.eq_of_toNat_eq
  simp only [lowHalf, BitVec.toNat_setWidth, wordOfBytes_toNat]
  omega

/-- The flags of a zone in a byte. -/
theorem zoneFlags_testBit (x y z : Bool) :
    ((bit x + 2 * bit y + 4 * bit z) % 256).testBit 0 = x ∧ ((bit x + 2 * bit y + 4 * bit z) % 256).testBit 1 = y := by
  cases x <;> cases y <;> cases z <;> decide

/-- What a zone must satisfy for its entry to pass (R69). -/
structure Zone.Writable (z : Zone) : Prop where
  staleLimit : 1 ≤ z.staleLimit.toNat ∧ z.staleLimit.toNat ≤ 1440
  temp : -400 ≤ z.lastTemp.toInt ∧ z.lastTemp.toInt ≤ 1500
  hum : z.lastHum.toNat ≤ 1000
  undefined : z.type = .typeNone → z.holdLine = 0 ∧ z.holdOnStale = false

theorem Vector.getElem_of_toList {α : Type} {n i : Nat} {v : Vector α n} {x : α} (h : v.toList[i]? = some x) (hi : i < n) :
    v[i] = x := by
  simpa [hi] using h

/-- The places of the words of an entry (section 10.2). -/
structure EntryPlaces (w : Vector Word 48) (z : Zone) : Prop where
  definition : w[0] = wordOfBytes z.type.code z.holdLine.val z.climate.code
    (bit z.holdOnStale + 2 * bit z.clamped + 4 * bit z.faultHold)
  limits : w[1] = wordOfBytes z.staleLimit.toNat (z.staleLimit.toNat / 256) z.dryLimitBand.val
    (z.tempBand.val + 16 * z.humBand.val)
  readings : w[2] = wordOfHalves z.lastTemp.toNat z.lastHum.toNat
  sample : w[3] = z.lastSample
  dry : w[5] = z.dry
  exposure : ∀ c : ClassNo, w[6 + 2 * c.val]'(by omega) = loWord z.exposure[c] ∧ w[7 + 2 * c.val]'(by omega) = hiWord z.exposure[c]
  degraded : ∀ c : ClassNo,
    w[22 + 2 * c.val]'(by omega) = loWord z.degraded[c] ∧ w[23 + 2 * c.val]'(by omega) = hiWord z.degraded[c]
  bake : ∀ c : ClassNo, w[38 + c.val]'(by omega) = z.bake[c]

/-- A part of a list of five parts, by its first place. -/
theorem getElem?_parts {α : Type} {head first second third last : List α} (headLength : head.length = 6)
    (firstLength : first.length = 16) (secondLength : second.length = 16) (thirdLength : third.length = 8) (i : Nat) :
    (i < 16 → (head ++ first ++ second ++ third ++ last)[6 + i]? = first[i]?)
      ∧ (i < 16 → (head ++ first ++ second ++ third ++ last)[22 + i]? = second[i]?)
      ∧ (i < 8 → (head ++ first ++ second ++ third ++ last)[38 + i]? = third[i]?) := by
  refine ⟨fun h => ?_, fun h => ?_, fun h => ?_⟩
  all_goals simp only [List.append_assoc]
  · rw [List.getElem?_append_right (by omega), List.getElem?_append_left (by omega), headLength, Nat.add_sub_cancel_left]
  · rw [List.getElem?_append_right (by omega), List.getElem?_append_right (by omega), List.getElem?_append_left (by omega)]
    congr 1
    omega
  · rw [List.getElem?_append_right (by omega), List.getElem?_append_right (by omega), List.getElem?_append_right (by omega),
      List.getElem?_append_left (by omega)]
    congr 1
    omega

theorem entryPlaces_of_toList {w : Vector Word 48} {z : Zone} (h : w.toList = z.entryWords) : EntryPlaces w z := by
  have place {i : Nat} {x : Word} (hi : i < 48) (hx : z.entryWords[i]? = some x) : w[i] = x :=
    Vector.getElem_of_toList (h ▸ hx) hi
  have parts := getElem?_parts (head := z.entryWords.take 6) (last := [0, 0]) (third := z.bake.toList) rfl
    (dwordWords_length z.exposure) (dwordWords_length z.degraded) (by simp)
  refine ⟨place _ rfl, place _ rfl, place _ rfl, place _ rfl, place _ rfl, fun c => ⟨place _ ?_, place _ ?_⟩,
    fun c => ⟨place _ ?_, place _ ?_⟩, fun c => place _ ?_⟩
  · exact ((parts (2 * c.val)).1 (by omega)).trans (dwordWords_getElem? _ c).1
  · rw [show 7 + 2 * c.val = 6 + (2 * c.val + 1) by omega]
    exact ((parts _).1 (by omega)).trans (dwordWords_getElem? _ c).2
  · exact ((parts (2 * c.val)).2.1 (by omega)).trans (dwordWords_getElem? _ c).1
  · rw [show 23 + 2 * c.val = 22 + (2 * c.val + 1) by omega]
    exact ((parts _).2.1 (by omega)).trans (dwordWords_getElem? _ c).2
  · exact ((parts c.val).2.2 c.isLt).trans (by simp)

theorem zoneOfEntry_of_places {w : Vector Word 48} {z : Zone} (places : EntryPlaces w z) (h : z.Writable) :
    zoneOfEntry w = some z.reloaded := by
  have type : byteOf w[0] 0 = z.type.code := by
    rw [places.definition, byteOf_wordOfBytes_zero, Nat.mod_eq_of_lt (by have := z.type.code_le; omega)]
  have holdLine : byteOf w[0] 1 = z.holdLine.val := by
    rw [places.definition, byteOf_wordOfBytes_one, Nat.mod_eq_of_lt (by omega)]
  have climate : byteOf w[0] 2 = z.climate.code := by
    rw [places.definition, byteOf_wordOfBytes_two, Nat.mod_eq_of_lt (by have := z.climate.code_le; omega)]
  obtain ⟨holdOnStale, clamped⟩ : (byteOf w[0] 3).testBit 0 = z.holdOnStale ∧ (byteOf w[0] 3).testBit 1 = z.clamped := by
    rw [places.definition, byteOf_wordOfBytes_three]
    exact zoneFlags_testBit ..
  have staleLimit : lowHalf w[1] = z.staleLimit := by rw [places.limits, lowHalf_wordOfBytes]
  have dryLimit : byteOf w[1] 2 = z.dryLimitBand.val := by
    rw [places.limits, byteOf_wordOfBytes_two, Nat.mod_eq_of_lt (by omega)]
  have temp : lowHalf w[2] = z.lastTemp := by rw [places.readings, lowHalf_wordOfHalves]
  have hum : highHalf w[2] = z.lastHum := by rw [places.readings, highHalf_wordOfHalves]
  refine zoneOfEntry_eq_some.mpr ⟨?range, z.type, z.climate, type.symm, climate.symm, ?same⟩
  case range =>
    refine ⟨type ▸ z.type.code_le, by omega, climate ▸ z.climate.code_le, staleLimit ▸ h.staleLimit, by omega, temp ▸ h.temp,
      hum ▸ h.hum, fun none => ?_⟩
    obtain ⟨line, flag⟩ := h.undefined (ZoneType.code_eq_zero.mp (type.symm.trans none))
    refine ⟨by rw [holdLine, line]; rfl, ?_⟩
    rw [← byteOf_three_testBit w[0] (i := 0) (by omega), holdOnStale, flag]
  case same =>
    unfold Zone.reloaded loadedZone
    congr 1
    · exact Fin.ext (by rw [holdLine]; exact (Nat.mod_eq_of_lt z.holdLine.isLt).symm)
    · exact staleLimit.symm
    · exact holdOnStale.symm
    · exact Fin.ext (by rw [dryLimit]; exact (Nat.mod_eq_of_lt z.dryLimitBand.isLt).symm)
    · exact temp.symm
    · exact hum.symm
    · rw [temp]
    · rw [hum]
    · exact places.sample.symm
    · exact clamped.symm
    · exact Vector.ext fun c hc => by simp [places.exposure ⟨c, hc⟩]
    · exact Vector.ext fun c hc => by simp [places.degraded ⟨c, hc⟩]
    · exact Vector.ext fun c hc => by simp [places.bake ⟨c, hc⟩]
    · exact places.dry.symm

theorem Zone.reloaded_bands {z : Zone} (h : z.Writable) : BandsAgree z.reloaded :=
  ⟨tempBandOf_eq_iff h.temp.1 h.temp.2, humBandOf_eq_iff h.hum⟩

/-- A page that stands as written reads back as its zones (R66, R67, R69). -/
theorem pageRead_of_shown {t : State} (h : ZonePageShown t) (writable : ∀ z : ZoneNo, t.zones[z].Writable) :
    pageRead t t.layout = some (Vector.ofFn fun z : ZoneNo => t.zones[z].reloaded) := by
  have entry (z : ZoneNo) : zoneOfEntry (t.peekWords (t.layout.zoneEntry z.val) 48) = some t.zones[z].reloaded :=
    zoneOfEntry_of_places (entryPlaces_of_toList (h.entries z)) (writable z)
  have passes : (pageRead t t.layout).isSome = true := by
    refine (zonesOfPage_isSome _ _).mpr ⟨?_, fun z => by simp [entry z]⟩
    have entries : (Vector.ofFn fun z : ZoneNo => t.peekWords (t.layout.zoneEntry z.val) 48).toList.flatMap Vector.toList
        = t.zones.toList.flatMap Zone.entryWords := by
      rw [flatMap_zones, flatMap_zones]
      refine List.flatMap_congr fun z _ => ?_
      have place : (Vector.ofFn fun z : ZoneNo => t.peekWords (t.layout.zoneEntry z.val) 48)[z]
          = t.peekWords (t.layout.zoneEntry z.val) 48 := by simp
      rw [place]
      exact h.entries z
    have rest : (t.peekWords t.layout.zonePage 16).toList.drop 2 = List.replicate 14 0 := by
      rw [t.peekWords_succ _ 15, t.peekWords_succ _ 14, Nat.add_assoc, h.header, Vector.toList_replicate]
      exact rfl
    rw [entries, rest, State.getElem_peekWords _ _ _ _ (by omega), State.getElem_peekWords _ _ _ _ (by omega), h.check]
    exact congrArg (fun w => checkWord (w :: _)) h.minute.symm
  obtain ⟨zones, read⟩ := Option.isSome_iff_exists.mp passes
  refine read.trans (congrArg some (Vector.ext fun z hz => ?_))
  have loaded := zonesOfPage_zone read ⟨z, hz⟩
  rw [Fin.getElem_fin, Vector.getElem_ofFn, entry ⟨z, hz⟩] at loaded
  rw [Vector.getElem_ofFn]
  exact (Option.some.inj loaded).symm

/-- Settles O10: entry by entry, word by word, and by the page's reads after its writes. -/
theorem zonePageReadsBackAsWritten : Obligations.ZonePageReadsBackAsWritten := by
  refine ⟨fun w => ⟨zoneOfEntry_isSome, fun z => loadedFrom_of_zoneOfEntry⟩,
    fun header entries => ⟨?passes, fun zones h => zonesOfPage_zone h⟩, fun s zones published sound ranges => ?trip⟩
  case passes =>
    rw [zonesOfPage_isSome, checkWord_page]
    simp only [zoneOfEntry_isSome]
  case trip =>
    have shown := s.pagePoked_shown zones published
    have keeps := s.pagePoked_keeps zones published (List.finRange 64)
    have frame := s.pagePoked_frame zones published (List.finRange 64)
    have run := writeZonePage_ok sound zones published
    generalize s.pagePoked zones published (List.finRange 64) = t at shown keeps frame run
    have writable (z : ZoneNo) : zones[z].Writable := by
      obtain ⟨staleLow, staleHigh, tempLow, tempHigh, hum, undefined⟩ := ranges z
      exact ⟨⟨staleLow, staleHigh⟩, ⟨tempLow, tempHigh⟩, hum, undefined⟩
    have layout : t.layout = s.layout := by rw [frame]
    have read := pageRead_of_shown shown writable
    have minute := shown.minute
    simp only [layout] at read minute
    refine ⟨t, _, run, frame, keeps, minute, read, fun z => ?_⟩
    have zone : (Vector.ofFn fun z : ZoneNo => zones[z].reloaded)[z] = zones[z].reloaded := by simp
    rw [zone]
    exact ⟨Zone.reloaded_bands (writable z), rfl⟩

end Sys2Proof.Machine
end

-- ==== Proofs: the ledger of the attach walk ====
section
/-! What the attach walk makes of the counts, the highest bake counts and the watch pool, record by record (O9, O11). -/

namespace Sys2Proof.Machine

/-! ### Pools that agree -/

/-- Two states with one watch pool, one set of classes, and the same exposure tallies: all an insertion works on (R105). -/
structure SamePool (x y : State) : Prop where
  watch : y.watch = x.watch
  dueQueue : y.dueQueue = x.dueQueue
  unwatched : y.unwatched = x.unwatched
  classes : y.classes = x.classes
  exposure : ∀ z : ZoneNo, y.zones[z].exposure = x.zones[z].exposure

section
variable {x y : State}

theorem SamePool.inForce (h : SamePool x y) (c : ClassNo) : y.inForce c = x.inForce c := by
  unfold State.inForce
  rw [h.classes]

theorem SamePool.eligible (h : SamePool x y) (a : Account) : y.eligible a = x.eligible a := by
  unfold State.eligible
  rw [h.inForce]

theorem SamePool.removeEntry (h : SamePool x y) (n : Nat) : SamePool (x.removeEntry n) (y.removeEntry n) := by
  have entry : y.entryOf n = x.entryOf n := by
    unfold State.entryOf
    rw [h.watch]
  unfold State.removeEntry
  rw [entry, h.watch, h.dueQueue]
  cases x.entryOf n with
  | none => exact h
  | some e => exact ⟨rfl, rfl, h.unwatched, h.classes, h.exposure⟩

theorem SamePool.putEntry (h : SamePool x y) (e : WatchEntry) : SamePool (x.putEntry e) (y.putEntry e) := by
  have tally : y.tallyOf e = x.tallyOf e := by
    unfold State.tallyOf
    rw [h.exposure]
  unfold State.putEntry
  rw [tally, h.watch, h.dueQueue]
  exact ⟨rfl, rfl, h.unwatched, h.classes, h.exposure⟩

theorem SamePool.insertEntry (h : SamePool x y) (n : Nat) (z : ZoneNo) (c : ClassNo) (threshold : DWord) (stage : Stage) :
    SamePool (x.insertEntry n z c threshold stage).1 (y.insertEntry n z c threshold stage).1
      ∧ (y.insertEntry n z c threshold stage).2 = (x.insertEntry n z c threshold stage).2 := by
  have removed := h.removeEntry n
  have free : (y.removeEntry n).freePosition = (x.removeEntry n).freePosition := by
    unfold State.freePosition
    rw [removed.watch]
  unfold State.insertEntry
  simp only
  rw [free]
  cases (x.removeEntry n).freePosition with
  | none => exact ⟨removed, rfl⟩
  | some p => exact ⟨removed.putEntry _, rfl⟩

theorem SamePool.tryWatch (h : SamePool x y) (n : Nat) (a : Account) :
    SamePool (x.tryWatch n a).1 (y.tryWatch n a).1 ∧ (y.tryWatch n a).2 = (x.tryWatch n a).2 := by
  unfold State.tryWatch
  rw [h.inForce]
  split
  · exact ⟨h, rfl⟩
  · split
    · next z b _ _ =>
      rw [h.exposure]
      exact h.insertEntry ..
    · exact ⟨h, rfl⟩

theorem SamePool.watchAccount (h : SamePool x y) (n : Nat) (a : Account) :
    SamePool (x.watchAccount n a) (y.watchAccount n a) := by
  obtain ⟨pool, made⟩ := h.tryWatch n a
  unfold State.watchAccount
  simp only
  rw [h.eligible, made]
  split
  · exact ⟨pool.watch, pool.dueQueue, congrArg (fun k => min unwatchedMax (k + 1)) pool.unwatched, pool.classes, pool.exposure⟩
  · exact pool

end

/-! ### An account offered to the pool -/

/-- An account that has no entry yet and is in no entry of the pool: an eligible one takes a position or is counted unwatched. -/
structure Offered (x y : State) (n : Nat) (a : Account) : Prop where
  total : y.watch.length + y.unwatched = x.watch.length + x.unwatched + if x.eligible a then 1 else 0
  accounts : ∀ e ∈ y.watch, e.account = n ∨ e ∈ x.watch

theorem State.removeEntry_of_fresh {x : State} {n : Nat} (fresh : ∀ e ∈ x.watch, e.account ≠ n) : x.removeEntry n = x := by
  have none : x.entryOf n = none := List.find?_eq_none.mpr fun e he => by simpa using fresh e he
  unfold State.removeEntry
  rw [none]

theorem State.watchAccount_offered {x : State} {n : Nat} (fresh : ∀ e ∈ x.watch, e.account ≠ n) (a : Account)
    (room : x.watch.length + x.unwatched < unwatchedMax) : Offered x (x.watchAccount n a) n a := by
  have same : x.eligible a = false → x.watchAccount n a = (x.tryWatch n a).1 := fun h => by
    unfold State.watchAccount
    simp only [h, Bool.false_and, Bool.false_eq_true, ↓reduceIte]
  by_cases expired : a.flags.expired = true
  · have outside : x.eligible a = false := by simp [State.eligible, expired]
    have kept : x.tryWatch n a = (x, false) := by unfold State.tryWatch; rw [if_pos expired]
    rw [same outside, kept]
    exact ⟨by simp [outside], fun e he => .inr he⟩
  · cases zone : a.zone with
    | none =>
      have outside : x.eligible a = false := by simp [State.eligible, zone]
      have kept : x.tryWatch n a = (x, false) := by unfold State.tryWatch; rw [if_neg expired, zone]
      rw [same outside, kept]
      exact ⟨by simp [outside], fun e he => .inr he⟩
    | some z =>
      cases budget : (x.inForce a.cls).budget with
      | none =>
        have outside : x.eligible a = false := by simp [State.eligible, InForce.limited, budget]
        have kept : x.tryWatch n a = (x, false) := by unfold State.tryWatch; rw [if_neg expired, zone, budget]
        rw [same outside, kept]
        exact ⟨by simp [outside], fun e he => .inr he⟩
      | some b =>
        have within : x.eligible a = true := by simp [State.eligible, InForce.limited, budget, zone, expired]
        unfold State.watchAccount State.tryWatch State.insertEntry
        simp only [expired, zone, budget, within, State.removeEntry_of_fresh fresh]
        cases x.freePosition with
        | none =>
          refine ⟨?_, fun e he => .inr he⟩
          simp only [State.raiseUnwatched, within]
          simp
          omega
        | some p =>
          refine ⟨?_, fun e he => ?_⟩
          · simp [State.putEntry, (placeEntry_perm _ x.watch).length_eq, within]
            omega
          · rcases (mem_placeEntry _ e x.watch).mp he with rfl | old
            · exact .inl rfl
            · exact .inr old

/-! ### One record (R171 cases 3 to 5) -/

/-- What a record that is neither corrupt nor malformed changes of the ledger. -/
def State.walkedRecord (L : State) (n : Nat) (a : Account) : State :=
  if a.state.isLive then
    match a.zone with
    | none => L.countWalked a
    | some z =>
      if L.zones[z].defined then ((L.countWalked a).countZone z 1 a.expiredCount).watchAccount n a else L.countWalked a
  else L

/-- Record `n` of the table that `s` holds, walked over the ledger of `L`. -/
def State.walkStep (s L : State) (n : Nat) : State :=
  match s.tableRecord s.layout n with
  | none => L
  | some a => L.walkedRecord n a

/-- The ledger after the first `n` records of the table. -/
def State.walkLedger (s : State) (n : Nat) : State := (List.range n).foldl s.walkStep s

theorem State.walkLedger_succ (s : State) (n : Nat) : s.walkLedger (n + 1) = s.walkStep (s.walkLedger n) n := by
  unfold State.walkLedger
  rw [List.range_succ, List.foldl_append]
  rfl

theorem State.countWalked_ledgerwise (a : Account) : Ledgerwise fun L => L.countWalked a :=
  (State.raiseHighest_ledgerwise a.cls a.bakeCount).comp (State.countLive_ledgerwise a.cls 1)

theorem State.walkedRecord_ledgerwise (n : Nat) (a : Account) : Ledgerwise fun L => L.walkedRecord n a where
  besides L u := by
    have counted := (State.countWalked_ledgerwise a).besides L u
    unfold State.walkedRecord
    split
    · cases a.zone with
      | none => exact counted
      | some z =>
        have defined : (L.besides u).zones[z].defined = L.zones[z].defined := rfl
        simp only [defined]
        split
        · have zoned := (State.countZone_ledgerwise z 1 a.expiredCount).besides (L.countWalked a) u
          have watched := (State.watchAccount_ledgerwise n a).besides ((L.countWalked a).countZone z 1 a.expiredCount) u
          rw [counted, zoned, watched]
        · exact counted
    · rfl
  change L := by
    unfold State.walkedRecord
    split
    · cases a.zone with
      | none => exact (State.countWalked_ledgerwise a).change L
      | some z =>
        simp only
        split
        · exact ((State.watchAccount_ledgerwise n a).comp ((State.countZone_ledgerwise z 1 a.expiredCount).comp
            (State.countWalked_ledgerwise a))).change L
        · exact (State.countWalked_ledgerwise a).change L
    · rfl

/-- A count with one condition more. -/
theorem addCount_one (n : Nat) : addCount n 1 = n + 1 := by
  unfold addCount
  omega

theorem addCount_expired (n : Nat) (a : Account) : addCount n a.expiredCount = n + if a.flags.expired then 1 else 0 := by
  unfold addCount Account.expiredCount
  split <;> omega

/-- A record in a zone that is defined, by the zones of `L`. -/
def State.placed (L : State) (a : Account) : Bool := a.zone.any fun z => L.zones[z].defined

theorem State.placed_some {L : State} {a : Account} {z : ZoneNo} (h : a.zone = some z) : L.placed a = L.zones[z].defined := by
  unfold State.placed
  rw [h]
  rfl

theorem State.placed_none {L : State} {a : Account} (h : a.zone = none) : L.placed a = false := by
  unfold State.placed
  rw [h]
  rfl

section
variable {L : State} {n : Nat} {a : Account}

theorem State.countWalked_live (L : State) (a : Account) (c : ClassNo) :
    (L.countWalked a).live[c] = L.live[c] + if a.cls = c then 1 else 0 := by
  show (L.live.set a.cls.val (addCount L.live[a.cls] 1))[c.val] = _
  rw [Vector.getElem_set, addCount_one]
  by_cases same : a.cls = c
  · simp [same]
  · simp [same, Fin.val_inj]

theorem State.countWalked_highest (L : State) (a : Account) (c : ClassNo) :
    (L.countWalked a).highest[c] = if a.cls = c then max L.highest[c] a.bakeCount else L.highest[c] := by
  show (L.highest.set a.cls.val (max L.highest[a.cls] a.bakeCount))[c.val] = _
  rw [Vector.getElem_set]
  by_cases same : a.cls = c
  · simp [same]
  · simp [same, Fin.val_inj]

/-- The three ways a record goes: not live, live in no defined zone, and live in one (R171 cases 3 to 5). -/
theorem State.walkedRecord_cases (sound : a.zone.isSome = a.state.inZone) :
    (a.state.isLive = false ∧ a.zone = none ∧ L.walkedRecord n a = L)
      ∨ (a.state.isLive = true ∧ L.placed a = false ∧ L.walkedRecord n a = L.countWalked a)
      ∨ (a.state.isLive = true ∧ ∃ z, a.zone = some z ∧ L.zones[z].defined = true
          ∧ L.walkedRecord n a = ((L.countWalked a).countZone z 1 a.expiredCount).watchAccount n a) := by
  unfold State.walkedRecord
  cases live : a.state.isLive with
  | false =>
    have outside : a.state.inZone = false := by
      cases e : a.state with
      | vacant | retired | unopened | bagged => rfl
      | exposed | dryheld | baking => simp [e, AccountState.isLive] at live
    exact .inl ⟨rfl, by simpa [outside] using sound, rfl⟩
  | true =>
    refine .inr ?_
    cases zone : a.zone with
    | none => exact .inl ⟨rfl, State.placed_none zone, rfl⟩
    | some z =>
      by_cases defined : L.zones[z].defined = true
      · exact .inr ⟨rfl, z, rfl, defined, if_pos defined⟩
      · exact .inl ⟨rfl, (State.placed_some zone).trans (Bool.not_eq_true _ ▸ defined), if_neg defined⟩

theorem State.watchAccount_counts (L : State) (n : Nat) (a : Account) :
    (L.watchAccount n a).live = L.live ∧ (L.watchAccount n a).highest = L.highest ∧ (L.watchAccount n a).zones = L.zones
      ∧ (L.watchAccount n a).classes = L.classes := by
  rw [L.watchAccount_frame n a]
  exact ⟨rfl, rfl, rfl, rfl⟩

theorem State.walkedRecord_live (sound : a.zone.isSome = a.state.inZone) (c : ClassNo) :
    (L.walkedRecord n a).live[c] = L.live[c] + if a.state.isLive && decide (a.cls = c) then 1 else 0 := by
  rcases State.walkedRecord_cases (L := L) (n := n) sound with ⟨dead, -, e⟩ | ⟨live, -, e⟩ | ⟨live, z, -, -, e⟩
  · simp [e, dead]
  · rw [e, State.countWalked_live]
    simp [live]
  · rw [e, (State.watchAccount_counts _ n a).1]
    refine (State.countWalked_live L a c).trans ?_
    simp [live]

theorem State.walkedRecord_highest (sound : a.zone.isSome = a.state.inZone) (c : ClassNo) :
    (L.walkedRecord n a).highest[c]
      = if a.state.isLive = true ∧ a.cls = c then max L.highest[c] a.bakeCount else L.highest[c] := by
  rcases State.walkedRecord_cases (L := L) (n := n) sound with ⟨dead, -, e⟩ | ⟨live, -, e⟩ | ⟨live, z, -, -, e⟩
  · simp [e, dead]
  · rw [e, State.countWalked_highest]
    simp [live]
  · rw [e, (State.watchAccount_counts _ n a).2.1]
    refine (State.countWalked_highest L a c).trans ?_
    simp [live]

theorem State.walkedRecord_zone (sound : a.zone.isSome = a.state.inZone) (z : ZoneNo) :
    (L.walkedRecord n a).zones[z]
      = if a.zone = some z ∧ L.zones[z].defined = true then
          { L.zones[z] with
            occupancy := L.zones[z].occupancy + 1
            expiredPresent := L.zones[z].expiredPresent + if a.flags.expired then 1 else 0 }
        else L.zones[z] := by
  rcases State.walkedRecord_cases (L := L) (n := n) sound with ⟨-, none, e⟩ | ⟨-, unplaced, e⟩ | ⟨-, y, zone, defined, e⟩
  · simp [e, none]
  · rw [e, if_neg fun ⟨zone, defined⟩ => by simp [State.placed_some zone ▸ defined] at unplaced]
    rfl
  · rw [e, (State.watchAccount_counts _ n a).2.2.1]
    show (L.zones.set y.val _)[z.val] = _
    rw [Vector.getElem_set, addCount_one, addCount_expired]
    by_cases same : y = z
    · subst same
      rw [if_pos (show y.val = y.val from rfl), if_pos (show a.zone = some y ∧ _ from ⟨zone, defined⟩)]
      rfl
    · rw [if_neg (by simpa [Fin.val_inj] using same), if_neg fun ⟨e, _⟩ => same (Option.some.inj (zone.symm.trans e))]
      rfl

/-- Counts do not show in the pool. -/
theorem SamePool.countWalked (L : State) (a : Account) : SamePool L (L.countWalked a) :=
  ⟨rfl, rfl, rfl, rfl, fun _ => rfl⟩

theorem SamePool.countZone (L : State) (z : ZoneNo) (occ exp : Int) : SamePool L (L.countZone z occ exp) := by
  refine ⟨rfl, rfl, rfl, rfl, fun y => ?_⟩
  show (L.zones.set z.val _)[y.val].exposure = _
  rw [Vector.getElem_set]
  split
  · next e => rw [Fin.ext e]
  · rfl

theorem SamePool.trans {x y z : State} (h : SamePool x y) (g : SamePool y z) : SamePool x z :=
  ⟨g.watch.trans h.watch, g.dueQueue.trans h.dueQueue, g.unwatched.trans h.unwatched, g.classes.trans h.classes,
    fun i => (g.exposure i).trans (h.exposure i)⟩

/-- A record offers itself to the pool exactly where it stands in a defined zone (R120). -/
theorem State.walkedRecord_pool (sound : a.zone.isSome = a.state.inZone) :
    SamePool (if L.placed a then L.watchAccount n a else L) (L.walkedRecord n a) := by
  rcases State.walkedRecord_cases (L := L) (n := n) sound with ⟨-, none, e⟩ | ⟨-, unplaced, e⟩ | ⟨-, z, zone, defined, e⟩
  · rw [e, if_neg (by simp [State.placed_none none])]
    exact ⟨rfl, rfl, rfl, rfl, fun _ => rfl⟩
  · rw [e, if_neg (by simp [unplaced])]
    exact .countWalked L a
  · rw [e, if_pos ((State.placed_some zone).trans defined)]
    exact ((SamePool.countWalked L a).trans (.countZone _ z 1 a.expiredCount)).watchAccount n a

end

/-! ### The first records of the table -/

/-- How many of the first `n` records of the table satisfy a condition. -/
def State.countBefore (s : State) (l : Layout) (n : Nat) (p : Account → Bool) : Nat := s.countRecords { l with tableSize := n } p

theorem State.countRecords_eq (s : State) (l : Layout) (p : Account → Bool) : s.countRecords l p = s.countBefore l l.tableSize p :=
  rfl

theorem State.tableRecord_sized (s : State) (l : Layout) (n m : Nat) :
    s.tableRecord { l with tableSize := n } m = s.tableRecord l m := rfl

theorem State.countBefore_none {s : State} {l : Layout} {n : Nat} (h : s.tableRecord l n = none) (p : Account → Bool) :
    s.countBefore l (n + 1) p = s.countBefore l n p := by
  unfold State.countBefore State.countRecords
  simp only [State.tableRecord_sized, List.range_succ, List.filter_append, List.length_append]
  simp [h]

theorem State.countBefore_some {s : State} {l : Layout} {n : Nat} {a : Account} (h : s.tableRecord l n = some a)
    (p : Account → Bool) : s.countBefore l (n + 1) p = s.countBefore l n p + if p a then 1 else 0 := by
  unfold State.countBefore State.countRecords
  simp only [State.tableRecord_sized, List.range_succ, List.filter_append, List.length_append]
  rw [Nat.add_right_inj]
  cases hp : p a with
  | true => simp [h, hp]
  | false => simp [h, hp]

theorem State.tableRecord_sound {s : State} {l : Layout} {n : Nat} {a : Account} (h : s.tableRecord l n = some a) :
    a.zone.isSome = a.state.inZone := by
  unfold State.tableRecord at h
  simp only at h
  split at h
  · cases h
  · exact (accountOf_sound h).2

/-! ### The ledger after the first records -/

/-- A zone after the walk of the first `n` records: one count for each record in it, and one for each expired (R171). -/
def State.walkedZone (s : State) (n : Nat) (z : ZoneNo) : Zone :=
  if s.zones[z].defined then
    { s.zones[z] with
      occupancy := s.zones[z].occupancy + s.countBefore s.layout n fun a => decide (a.zone = some z)
      expiredPresent := s.zones[z].expiredPresent
        + s.countBefore s.layout n fun a => decide (a.zone = some z) && a.flags.expired }
  else s.zones[z]

/-- The bake counts of a class among the first `n` records, by a number that bounds them and is one of them or the first given
(R76). -/
structure State.HighestOf (s : State) (n : Nat) (c : ClassNo) (first value : Nat) : Prop where
  bound : ∀ m a, m < n → s.tableRecord s.layout m = some a → a.state.isLive = true → a.cls = c → a.bakeCount ≤ value
  start : first ≤ value
  attained : value = first
    ∨ ∃ m a, m < n ∧ s.tableRecord s.layout m = some a ∧ a.state.isLive = true ∧ a.cls = c ∧ a.bakeCount = value

/-- The ledger `L` is that of `s` after the first `n` records of the table (R171). -/
structure LedgerAt (s L : State) (n : Nat) : Prop where
  ledger : L = s.withLedger L
  live : ∀ c, L.live[c] = s.live[c] + s.countBefore s.layout n fun a => a.state.isLive && decide (a.cls = c)
  highest : ∀ c, s.HighestOf n c s.highest[c] L.highest[c]
  zones : ∀ z, L.zones[z] = s.walkedZone n z
  watched : L.watch.length + L.unwatched = s.countBefore s.layout n fun a => s.placed a && s.eligible a
  accounts : ∀ e ∈ L.watch, e.account < n

theorem State.countBefore_zero (s : State) (l : Layout) (p : Account → Bool) : s.countBefore l 0 p = 0 := rfl

theorem State.countBefore_le (s : State) (l : Layout) (n : Nat) (p : Account → Bool) : s.countBefore l n p ≤ n := by
  unfold State.countBefore State.countRecords
  exact (List.length_filter_le _ _).trans_eq (by simp)

section
variable {s L : State} {n : Nat} {a : Account} {z : ZoneNo}

theorem State.walkedZone_none (h : s.tableRecord s.layout n = none) : s.walkedZone (n + 1) z = s.walkedZone n z := by
  unfold State.walkedZone
  simp only [State.countBefore_none h]

theorem State.walkedZone_defined : (s.walkedZone n z).defined = s.zones[z].defined := by
  unfold State.walkedZone
  split
  · rfl
  · rfl

theorem State.walkedZone_exposure : (s.walkedZone n z).exposure = s.zones[z].exposure := by
  unfold State.walkedZone
  split
  · rfl
  · rfl

/-- One record more in a zone. -/
theorem State.walkedZone_some (h : s.tableRecord s.layout n = some a) :
    s.walkedZone (n + 1) z
      = if a.zone = some z ∧ (s.walkedZone n z).defined = true then
          { s.walkedZone n z with
            occupancy := (s.walkedZone n z).occupancy + 1
            expiredPresent := (s.walkedZone n z).expiredPresent + if a.flags.expired then 1 else 0 }
        else s.walkedZone n z := by
  rw [State.walkedZone_defined]
  unfold State.walkedZone
  simp only [State.countBefore_some h]
  by_cases defined : s.zones[z].defined = true
  · by_cases zone : a.zone = some z
    · simp only [defined, zone, and_self, ↓reduceIte, decide_true, Bool.true_and, Nat.add_assoc]
    · simp only [defined, zone, false_and, ↓reduceIte, decide_false, Bool.false_and, Bool.false_eq_true, Nat.add_zero]
  · simp only [defined, and_false, ↓reduceIte, Bool.false_eq_true]

theorem State.HighestOf.none {c : ClassNo} {first value : Nat} (h : s.HighestOf n c first value)
    (none : s.tableRecord s.layout n = none) : s.HighestOf (n + 1) c first value where
  bound m a hm found := by
    rcases Nat.lt_succ_iff_lt_or_eq.mp hm with before | rfl
    · exact h.bound m a before found
    · exact absurd (none.symm.trans found) nofun
  start := h.start
  attained := h.attained.imp_right fun ⟨m, a, hm, rest⟩ => ⟨m, a, Nat.lt_succ_of_lt hm, rest⟩

theorem State.HighestOf.some {c : ClassNo} {first value : Nat} (h : s.HighestOf n c first value)
    (some : s.tableRecord s.layout n = some a) :
    s.HighestOf (n + 1) c first (if a.state.isLive = true ∧ a.cls = c then max value a.bakeCount else value) := by
  have raised : value ≤ if a.state.isLive = true ∧ a.cls = c then max value a.bakeCount else value := by
    split <;> omega
  refine ⟨fun m x hm found live cls => ?_, h.start.trans raised, ?_⟩
  · rcases Nat.lt_succ_iff_lt_or_eq.mp hm with before | rfl
    · exact (h.bound m x before found live cls).trans raised
    · obtain rfl := Option.some.inj (some.symm.trans found)
      rw [if_pos ⟨live, cls⟩]
      exact Nat.le_max_right ..
  · have before : value = first ∨ ∃ m x, m < n + 1 ∧ s.tableRecord s.layout m = Option.some x ∧ x.state.isLive = true
        ∧ x.cls = c ∧ x.bakeCount = value :=
      h.attained.imp_right fun ⟨m, x, hm, rest⟩ => ⟨m, x, Nat.lt_succ_of_lt hm, rest⟩
    split
    · next own =>
      rcases Nat.le_total a.bakeCount value with low | high
      · rwa [Nat.max_eq_left low]
      · rw [Nat.max_eq_right high]
        exact .inr ⟨n, a, Nat.lt_succ_self n, some, own.1, own.2, rfl⟩
    · exact before

theorem LedgerAt.placed (h : LedgerAt s L n) (a : Account) : L.placed a = s.placed a := by
  cases zone : a.zone with
  | none => rw [State.placed_none zone, State.placed_none zone]
  | some z => rw [State.placed_some zone, State.placed_some zone, h.zones, State.walkedZone_defined]

theorem LedgerAt.eligible (h : LedgerAt s L n) (a : Account) : L.eligible a = s.eligible a := by
  rw [h.ledger]
  rfl

/-- No record is walked: nothing is counted, for a state with an empty pool. -/
theorem LedgerAt.zero (watch : s.watch = []) (unwatched : s.unwatched = 0) : LedgerAt s s 0 where
  ledger := rfl
  live c := by rw [State.countBefore_zero, Nat.add_zero]
  highest c := ⟨fun _ _ h => absurd h (Nat.not_lt_zero _), Nat.le_refl _, .inl rfl⟩
  zones z := by
    unfold State.walkedZone
    simp only [State.countBefore_zero, Nat.add_zero, ite_self]
  watched := by rw [watch, unwatched, State.countBefore_zero]; rfl
  accounts e he := by rw [watch] at he; cases he

/-- A record that the walk finds corrupt or malformed counts nowhere. -/
theorem LedgerAt.none (h : LedgerAt s L n) (none : s.tableRecord s.layout n = none) : LedgerAt s L (n + 1) where
  ledger := h.ledger
  live c := by rw [h.live, State.countBefore_none none]
  highest c := (h.highest c).none none
  zones z := by rw [h.zones, State.walkedZone_none none]
  watched := by rw [h.watched, State.countBefore_none none]
  accounts e he := Nat.lt_succ_of_lt (h.accounts e he)

/-- A record walked over the ledger. -/
theorem LedgerAt.some (h : LedgerAt s L n) (some : s.tableRecord s.layout n = some a) (small : n < unwatchedMax) :
    LedgerAt s (L.walkedRecord n a) (n + 1) := by
  have sound := State.tableRecord_sound some
  have ledgerwise := (State.walkedRecord_ledgerwise n a).change L
  have pool := State.walkedRecord_pool (L := L) (n := n) sound
  have total : L.watch.length + L.unwatched < unwatchedMax := by
    rw [h.watched]
    exact (s.countBefore_le ..).trans_lt small
  have offered : Offered L (L.watchAccount n a) n a :=
    State.watchAccount_offered (fun e he => (h.accounts e he).ne) a total
  refine ⟨ledgerwise.trans (congrArg (fun x => x.withLedger (L.walkedRecord n a)) h.ledger), fun c => ?live, fun c => ?highest,
    fun z => ?zones, ?watched, fun e he => ?accounts⟩
  case live => rw [State.walkedRecord_live sound, h.live, State.countBefore_some some, Nat.add_assoc]
  case highest =>
    rw [State.walkedRecord_highest sound]
    exact (h.highest c).some some
  case zones => rw [State.walkedRecord_zone sound, h.zones, State.walkedZone_some some]
  case watched =>
    rw [State.countBefore_some some, pool.watch, pool.unwatched, ← h.watched, ← h.placed, ← h.eligible]
    cases L.placed a with
    | true => simpa using offered.total
    | false => simp
  case accounts =>
    rw [pool.watch] at he
    cases placed : L.placed a with
    | true =>
      rw [placed, if_pos rfl] at he
      rcases offered.accounts e he with rfl | old
      · exact Nat.lt_succ_self _
      · exact Nat.lt_succ_of_lt (h.accounts e old)
    | false =>
      rw [placed, if_neg (by decide)] at he
      exact Nat.lt_succ_of_lt (h.accounts e he)

end

/-- The ledger that the walk leaves, by its counts (R171). -/
theorem State.walkLedger_spec {s : State} (watch : s.watch = []) (unwatched : s.unwatched = 0) (n : Nat)
    (small : n ≤ unwatchedMax) : LedgerAt s (s.walkLedger n) n := by
  induction n with
  | zero => exact .zero watch unwatched
  | succ n ih =>
    have before := ih (by omega)
    rw [State.walkLedger_succ]
    unfold State.walkStep
    cases found : s.tableRecord s.layout n with
    | none => exact before.none found
    | some a => exact before.some found (by omega)

/-- The pool rebuilt from one record more (R120). -/
theorem State.walkedPool_succ (u t : State) (l : Layout) (n : Nat) :
    u.walkedPool t { l with tableSize := n + 1 } = match u.tableRecord l n with
      | some a => if t.placed a then (u.walkedPool t { l with tableSize := n }).watchAccount n a
          else u.walkedPool t { l with tableSize := n }
      | none => u.walkedPool t { l with tableSize := n } := by
  unfold State.walkedPool
  simp only [State.tableRecord_sized, List.range_succ, List.foldl_append, List.foldl_cons, List.foldl_nil]
  cases u.tableRecord l n with
  | none => rfl
  | some a => rfl

/-- The walk rebuilds the pool as the insertions of its records in order do, over any zones with the same types and tallies
(R120). -/
theorem State.walkedPool_same {s t u : State} (watch : s.watch = []) (dueQueue : s.dueQueue = []) (unwatched : s.unwatched = 0)
    (classes : s.classes = t.classes) (types : ∀ z : ZoneNo, t.zones[z].defined = s.zones[z].defined)
    (exposure : ∀ z : ZoneNo, s.zones[z].exposure = t.zones[z].exposure)
    (records : ∀ m, m < s.layout.tableSize → u.tableRecord s.layout m = s.tableRecord s.layout m)
    (small : s.layout.tableSize ≤ unwatchedMax) :
    SamePool (u.walkedPool t s.layout) (s.walkLedger s.layout.tableSize) := by
  have prefixes (n : Nat) (hn : n ≤ s.layout.tableSize) :
      SamePool (u.walkedPool t { s.layout with tableSize := n }) (s.walkLedger n) := by
    induction n with
    | zero => exact ⟨watch, dueQueue, unwatched, classes, exposure⟩
    | succ n ih =>
      have pool := ih (by omega)
      have ledger := State.walkLedger_spec watch unwatched n (by omega)
      rw [State.walkedPool_succ, State.walkLedger_succ, records n (by omega)]
      unfold State.walkStep
      cases found : s.tableRecord s.layout n with
      | none => exact pool
      | some a =>
        have placed : t.placed a = (s.walkLedger n).placed a := by
          cases zone : a.zone with
          | none => rw [State.placed_none zone, State.placed_none zone]
          | some z => rw [State.placed_some zone, State.placed_some zone, types, ledger.zones, State.walkedZone_defined]
        have record := State.walkedRecord_pool (L := s.walkLedger n) (n := n) (State.tableRecord_sound found)
        simp only
        by_cases h : (s.walkLedger n).placed a = true
        · rw [if_pos h] at record
          rw [if_pos (placed.trans h)]
          exact (pool.watchAccount n a).trans record
        · rw [if_neg h] at record
          rw [if_neg (by rw [placed]; exact h)]
          exact pool.trans record
  have whole : { s.layout with tableSize := s.layout.tableSize } = s.layout := rfl
  have all := prefixes s.layout.tableSize (Nat.le_refl _)
  rwa [whole] at all

end Sys2Proof.Machine
end

-- ==== Proofs: the records of the attach walk ====
section
/-! The attach walk over the account table: its ledger, and the notices it hands over (O9, O11). -/

namespace Sys2Proof.Machine

/-! ### Notices handed over so far -/

/-- The notice unit of `u` is the one that stands when `s` has received the notices given. -/
def Handed (s u : State) (ns : List Notice) : Prop := ∃ missed v, handNotices ns s = .ok missed v ∧ SameView v u

/-- Notices handed over in two runs, one after the other. -/
theorem handNotices_append {ns ms : List Notice} {s v w : State} {missed missed' : Bool} (first : handNotices ns s = .ok missed v)
    (second : handNotices ms v = .ok missed' w) : handNotices (ns ++ ms) s = .ok (missed || missed') w := by
  induction ns generalizing s missed with
  | nil =>
    obtain ⟨rfl, rfl⟩ := Act.pure_eq_ok.mp first
    simpa using second
  | cons n ns ih =>
    unfold handNotices at first
    obtain ⟨dropped, s1, run, first⟩ := Act.bind_eq_ok.mp first
    rw [List.cons_append]
    unfold handNotices
    rw [Act.bind_ok run]
    by_cases unmarked : (dropped && !n.kind.marksAccount) = true
    · rw [if_pos unmarked, Act.modify_bind] at first ⊢
      obtain ⟨rest, s2, run2, first⟩ := Act.bind_eq_ok.mp first
      obtain ⟨rfl, rfl⟩ := Act.pure_eq_ok.mp first
      exact (Act.bind_ok (ih run2)).trans (by rw [Act.pure_eq, Bool.or_assoc])
    · rw [if_neg unmarked] at first ⊢
      obtain ⟨rest, s2, run2, first⟩ := Act.bind_eq_ok.mp first
      obtain ⟨rfl, rfl⟩ := Act.pure_eq_ok.mp first
      exact (Act.bind_ok (ih run2)).trans (by rw [Act.pure_eq, Bool.or_assoc])

/-- More notices, handed over where the unit has come to. -/
theorem Handed.more {s u : State} {ns : List Notice} (h : Handed s u ns) (ms : List Notice) :
    ∃ missed x, handNotices ms u = .ok missed x ∧ UnitFrame u x ∧ Handed s x (ns ++ ms) := by
  obtain ⟨missed, v, run, view⟩ := h
  obtain ⟨missed', v', x, runV, runU, view', frame⟩ := handNotices_follows ms v u view
  exact ⟨missed', x, runU, frame, _, v', handNotices_append run runV, view'⟩

/-- The ledger is no part of the notice unit's view. -/
theorem SameView.withLedger {v u : State} (h : SameView v u) (L : State) : SameView v (u.withLedger L) :=
  ⟨h.sound, h.room, h.base, h.layout, h.capacity, h.counts, h.held, h.flags, h.causes, h.bytes⟩

/-! ### The course of the walk -/

/-- The walk of the table has come from `s` to `u`: the ledger is that of `L`, and the notices given have been handed over. -/
structure Walks (s L u : State) (ns : List Notice) : Prop where
  during : During s s L u s.noticeAreas
  sets : u.cacheSets = s.cacheSets
  handed : Handed s u ns

section
variable {s L u : State} {ns : List Notice}

theorem Walks.ledgerwise (h : Walks s L u ns) {f : State → State} (hf : Ledgerwise f) : Walks s (f L) (f u) ns := by
  refine ⟨h.during.ledgerwise hf, ?_, ?_⟩
  · rw [hf.change u]
    exact h.sets
  obtain ⟨missed, v, run, view⟩ := h.handed
  have same := view.withLedger (f u)
  rw [← hf.change u] at same
  exact ⟨missed, v, run, same⟩

theorem Walks.report (h : Walks s L u ns) (ms : List Notice) :
    ∃ x, reportNotices ms u = .ok () x ∧ Walks s L x (ns ++ ms) := by
  obtain ⟨missed, x, run, frame, handed⟩ := h.handed.more ms
  refine ⟨x, ?_, (h.during.unit frame).mono (by simp), ?_, handed⟩
  · unfold reportNotices
    rw [Act.bind_ok run]
    rfl
  · rw [frame.frame]
    exact h.sets

/-- Nothing is walked yet. -/
theorem Walks.start (region : RegionValid s) (sound : s.failing = none) : Walks s s s [] where
  during := ⟨rfl, rfl, ⟨rfl, rfl, rfl⟩, rfl, .refl s _, fun _ _ => rfl⟩
  sets := rfl
  handed := ⟨false, s, rfl, .refl sound region.capacity_dvd.1⟩

/-! ### One record -/

/-- The RECORD_FAULT of record `n` of the table, if the walk finds it faulty (R171, R144). -/
def State.walkNotice (s : State) (n : Nat) : Option Notice :=
  (s.walkFault s.layout s.zones n).map fun what => ⟨.recordFault, n, 0, word what, 4⟩

/-- The RECORD_FAULT notices of the first `n` records. -/
def State.walkNotices (s : State) (n : Nat) : List Notice := (List.range n).filterMap s.walkNotice

theorem State.walkNotices_succ (s : State) (n : Nat) :
    s.walkNotices (n + 1) = s.walkNotices n ++ (s.walkNotice n).toList := by
  unfold State.walkNotices
  rw [List.range_succ, List.filterMap_append]
  cases h : s.walkNotice n <;> simp [h]

/-- A record reads as it stood where the walk began. -/
theorem Walks.record (h : Walks s L u ns) (region : RegionValid s) {n : Nat} (hn : n < s.layout.tableSize) :
    u.peekWords (u.layout.record n) 16 = s.peekWords (s.layout.record n) 16 := by
  rw [h.during.held.1]
  exact h.during.bytes.peekWords h.during.base (region.notice_record hn)

theorem Walks.minute (h : Walks s L u ns) (unset : s.clock = .unset) : u.minute = 0 := by
  have clock : u.clock = .unset := by
    rw [h.during.frame, h.during.ledger]
    exact unset
  unfold State.minute
  rw [clock]

end

theorem State.tableRecord_eq_some {s : State} {l : Layout} {n : Nat} {a : Account} : s.tableRecord l n = some a ↔
    isCorrupt (s.peekWords (l.record n) 16) = false ∧ accountOf (s.peekWords (l.record n) 16) = some a := by
  unfold State.tableRecord
  cases corrupt : isCorrupt (s.peekWords (l.record n) 16) with
  | true => simp [corrupt]
  | false => simp [corrupt]

section
variable {s : State} {n : Nat} {a : Account}

/-- What the walk finds wrong with a record that is neither corrupt nor malformed: the zone it names is not defined (R171). -/
theorem State.walkNotice_unzoned (found : s.tableRecord s.layout n = some a) (zone : a.zone = none) : s.walkNotice n = none := by
  obtain ⟨intact, account⟩ := State.tableRecord_eq_some.mp found
  unfold State.walkNotice State.walkFault
  simp [intact, account, zone]

@[inherit_doc State.walkNotice_unzoned]
theorem State.walkNotice_zoned (found : s.tableRecord s.layout n = some a) {z : ZoneNo} (zone : a.zone = some z) :
    s.walkNotice n = if s.zones[z].defined then none else some (recordFault n 0 3 4) := by
  obtain ⟨intact, account⟩ := State.tableRecord_eq_some.mp found
  unfold State.walkNotice State.walkFault
  simp only [intact, account, zone, Bool.false_eq_true, ↓reduceIte]
  unfold Zone.defined
  by_cases undefined : s.zones[z].type = .typeNone
  · rw [if_pos undefined, if_neg (by simpa using undefined)]
    rfl
  · rw [if_neg undefined, if_pos (by simpa using undefined)]
    rfl

end

/-- A record that is neither corrupt nor malformed, walked (R171 cases 3 to 5). -/
theorem walkRecord_run {s L u : State} {ns : List Notice} {n : Nat} {a : Account} (h : Walks s L u ns) (ledger : LedgerAt s L n)
    (unset : s.clock = .unset) (found : s.tableRecord s.layout n = some a) :
    ∃ x, walkRecord n a u = .ok (s.walkNotice n).toList.length x
      ∧ Walks s (L.walkedRecord n a) x (ns ++ (s.walkNotice n).toList) := by
  have sound := State.tableRecord_sound found
  have counted := h.ledgerwise (State.countWalked_ledgerwise a)
  have zones : (u.countWalked a).zones = L.zones := by
    show u.zones = _
    rw [h.during.frame]
    rfl
  unfold walkRecord
  rcases State.walkedRecord_cases (L := L) (n := n) sound with
    ⟨dead, zone, e⟩ | ⟨live, unplaced, e⟩ | ⟨live, z, zone, defined, e⟩
  · rw [e, State.walkNotice_unzoned found zone, if_pos (by simp [dead])]
    exact ⟨u, rfl, by simpa using h⟩
  · rw [e, if_neg (by simp [live]), Act.modify_bind]
    cases zone : a.zone with
    | none =>
      rw [State.walkNotice_unzoned found zone]
      exact ⟨_, rfl, by simpa using counted⟩
    | some z =>
      have undefined : ¬ L.zones[z].defined = true := by
        rw [← State.placed_some zone, unplaced]
        decide
      obtain ⟨x, run, walks⟩ := counted.report [recordFault n (u.countWalked a).minute 3 4]
      have minute := counted.minute unset
      simp only
      rw [State.walkNotice_zoned found zone, if_neg (by rw [← State.walkedZone_defined (n := n), ← ledger.zones]; exact undefined)]
      rw [minute] at run walks
      refine ⟨x, ?_, walks⟩
      rw [Act.get_bind, zones, if_neg undefined, minute, Act.bind_ok run]
      rfl
  · rw [e, if_neg (by simp [live]), Act.modify_bind]
    rw [State.walkNotice_zoned found zone, if_pos (by rw [← State.walkedZone_defined (n := n), ← ledger.zones]; exact defined)]
    have watched := counted.ledgerwise ((State.watchAccount_ledgerwise n a).comp (State.countZone_ledgerwise z 1 a.expiredCount))
    refine ⟨_, ?_, by simpa using watched⟩
    simp only [zone]
    rw [Act.get_bind, zones, if_pos defined, Act.modify_bind]
    rfl

/-- One record of the table, walked (R171). -/
theorem walkAccount_run {s u : State} {n : Nat} (h : Walks s (s.walkLedger n) u (s.walkNotices n)) (region : RegionValid s)
    (ledger : LedgerAt s (s.walkLedger n) n) (sound : s.failing = none) (unset : s.clock = .unset) (hn : n < s.layout.tableSize) :
    ∃ x, walkAccount n u = .ok (s.walkNotice n).toList.length x
      ∧ Walks s (s.walkLedger (n + 1)) x (s.walkNotices (n + 1)) := by
  have words := h.record region hn
  have minute := h.minute unset
  have read : readUncached n u
      = .ok (if isCorrupt (s.peekWords (s.layout.record n) 16) then .corrupt else judge (s.peekWords (s.layout.record n) 16)) u := by
    unfold readUncached
    rw [Act.get_bind, Act.bind_ok (regionRead_ok (h.during.held.2.2.1.trans sound) _ _), words]
    rfl
  rw [State.walkLedger_succ, State.walkNotices_succ]
  unfold walkAccount
  rw [Act.bind_ok read, Act.get_bind, minute]
  cases corrupt : isCorrupt (s.peekWords (s.layout.record n) 16) with
  | true =>
    have none : s.tableRecord s.layout n = none := by unfold State.tableRecord; simp [corrupt]
    have notice : s.walkNotice n = some (recordFault n 0 1 4) := by
      unfold State.walkNotice State.walkFault
      simp only [corrupt, ↓reduceIte]
      rfl
    obtain ⟨x, run, walks⟩ := h.report [recordFault n 0 1 4]
    unfold State.walkStep
    rw [none, notice]
    refine ⟨x, ?_, walks⟩
    simp only [↓reduceIte]
    rw [Act.bind_ok run]
    rfl
  | false =>
    unfold judge
    cases account : accountOf (s.peekWords (s.layout.record n) 16) with
    | none =>
      have none : s.tableRecord s.layout n = none := by unfold State.tableRecord; simp [corrupt, account]
      have notice : s.walkNotice n = some (recordFault n 0 2 4) := by
        unfold State.walkNotice State.walkFault
        simp only [corrupt, account, Bool.false_eq_true, ↓reduceIte]
        rfl
      obtain ⟨x, run, walks⟩ := h.report [recordFault n 0 2 4]
      unfold State.walkStep
      rw [none, notice]
      refine ⟨x, ?_, walks⟩
      simp only [Bool.false_eq_true, ↓reduceIte]
      rw [Act.bind_ok run]
      rfl
    | some a =>
      have found := State.tableRecord_eq_some.mpr ⟨corrupt, account⟩
      unfold State.walkStep
      rw [found]
      exact walkRecord_run h ledger unset found

/-- The records of the table, walked in index order (R171). -/
theorem walkAccounts_run {s : State} (region : RegionValid s) (sound : s.failing = none) (unset : s.clock = .unset)
    (watch : s.watch = []) (unwatched : s.unwatched = 0) (m : Nat) : ∀ {u : State} {k : Nat}, k + m ≤ s.layout.tableSize →
    Walks s (s.walkLedger k) u (s.walkNotices k) →
    ∃ c x, sumOver (List.range' k m) walkAccount u = .ok c x ∧ (s.walkNotices k).length + c = (s.walkNotices (k + m)).length
      ∧ Walks s (s.walkLedger (k + m)) x (s.walkNotices (k + m)) := by
  induction m with
  | zero => exact fun _ h => ⟨0, _, rfl, rfl, h⟩
  | succ m ih =>
    intro u k fits h
    have small := region.tableHigh
    have ledger := State.walkLedger_spec watch unwatched k (by unfold unwatchedMax; omega)
    obtain ⟨y, first, walks⟩ := walkAccount_run h region ledger sound unset (by omega)
    obtain ⟨c, x, rest, count, done⟩ := ih (by omega) walks
    rw [Nat.add_right_comm, Nat.add_assoc] at count done
    refine ⟨(s.walkNotice k).toList.length + c, x, ?_, ?_, done⟩
    · rw [List.range'_succ]
      unfold sumOver
      rw [Act.bind_ok first, Act.bind_ok rest]
      rfl
    · rw [← count, State.walkNotices_succ, List.length_append, Nat.add_assoc]

end Sys2Proof.Machine
end

-- ==== Proofs: the cells of the attach walk ====
section
/-! The attach walk over the intake lists: each TAKEN cell is completed ABANDONED, and no other is changed (O9, O11). -/

namespace Sys2Proof.Machine

/-! ### Sums of work -/

theorem sumOver_append {α : Type} (xs ys : List α) (f : α → Act Nat) :
    sumOver (xs ++ ys) f = (do
      let n ← sumOver xs f
      let m ← sumOver ys f
      pure (n + m)) := by
  induction xs with
  | nil => simp only [List.nil_append, sumOver, pure_bind, Nat.zero_add, bind_pure]
  | cons x xs ih => simp only [List.cons_append, sumOver, ih, bind_assoc, pure_bind, Nat.add_assoc]

theorem sumOver_map {α β : Type} (g : α → β) (xs : List α) (f : β → Act Nat) :
    sumOver (xs.map g) f = sumOver xs fun x => f (g x) := by
  induction xs with
  | nil => rfl
  | cons x xs ih => simp only [List.map_cons, sumOver, ih]

/-- Work over pairs, row by row. -/
theorem sumOver_pairs {α β : Type} (xs : List α) (ys : List β) (f : α → β → Act Nat) :
    (sumOver xs fun x => sumOver ys fun y => f x y)
      = sumOver (xs.flatMap fun x => ys.map fun y => (x, y)) fun c => f c.1 c.2 := by
  induction xs with
  | nil => rfl
  | cons x xs ih => simp only [List.flatMap_cons, sumOver_append, sumOver_map, sumOver, ih]

/-! ### One cell (R172) -/

/-- The words of a cell after the walk, by its words before: a TAKEN cell stands DONE with ABANDONED and its host tag, and any other
cell as it was (R172). -/
def CellWalked (w w' : Vector Word 16) : Prop :=
  (byteOf w[0] 0 = 2 → ∀ j : Fin 16, w'[j] =
      if j = 0 then wordOfBytes 3 (byteOf w[0] 1) (byteOf w[0] 2 % 2) 0
      else if j < 10 then w[j]
      else if j = 10 then 20 else 0)
    ∧ (byteOf w[0] 0 ≠ 2 → w' = w)

/-- The words the walk writes into a TAKEN cell at an offset. -/
def State.pokeAbandoned (u : State) (off : Nat) : State :=
  ((u.poke (off + 4) [u.peek (off + 4)]).poke (off + 40) [word Result.abandoned.code, 0, 0, 0, 0, 0]).poke off
    [cellWord cellDone (u.peek off)]

/-- A cell at an offset is found TAKEN. -/
def State.takenAt (u : State) (off : Nat) : Bool := decide (byteOf (u.peek off) 0 = cellTaken)

/-- A cell at an offset is found TAKEN and asks for CELL_DONE. -/
def State.asksAt (u : State) (off : Nat) : Bool := u.takenAt off && (u.peek off).getLsbD 16

/-- The state after the walk of a cell at an offset (R172). -/
def State.cellPassed (u : State) (off : Nat) : State :=
  if u.takenAt off then
    if (u.peek off).getLsbD 16 then (u.pokeAbandoned off).raiseCause .cellDone else u.pokeAbandoned off
  else u

theorem walkCell_run {u : State} (sound : u.failing = none) (k : ListNo) (i : Nat) :
    walkCell k i u = .ok (if u.takenAt (u.layout.cell k i) then 1 else 0) (u.cellPassed (u.layout.cell k i)) := by
  unfold walkCell
  rw [Act.get_bind]
  simp only
  generalize u.layout.cell k i = off
  have first : (u.peekWords off 1)[0] = u.peek off := State.getElem_peekWords u off 1 0 (by omega)
  have tag : (u.peekWords (off + 4) 1)[0] = u.peek (off + 4) := State.getElem_peekWords u (off + 4) 1 0 (by omega)
  rw [Act.bind_ok (regionRead_ok sound _ _), first]
  unfold State.cellPassed
  by_cases taken : byteOf (u.peek off) 0 = cellTaken
  · have found : u.takenAt off = true := decide_eq_true taken
    rw [if_pos taken, if_pos found, if_pos found, Act.bind_ok (regionRead_ok sound _ _), tag]
    refine (Act.bind_ok (regionWrite_ok sound _ _)).trans ((Act.bind_ok (regionWrite_ok (by exact sound) _ _)).trans
      ((Act.bind_ok (regionWriteWhole_ok (by exact sound) _ _)).trans ?_))
    by_cases asks : (u.peek off).getLsbD 16 = true
    · rw [if_pos asks, if_pos asks, Act.modify_bind]
      rfl
    · rw [if_neg asks, if_neg asks]
      rfl
  · have other : ¬ u.takenAt off = true := fun found => taken (of_decide_eq_true found)
    rw [if_neg taken, if_neg other, if_neg other]
    rfl

/-- The words of a TAKEN cell once it is completed. -/
theorem State.pokeAbandoned_words (u : State) (off : Nat) (j : Nat) (hj : j < 16) :
    (u.pokeAbandoned off).peek (off + 4 * j) =
      if j = 0 then cellWord cellDone (u.peek off)
      else if j < 10 then u.peek (off + 4 * j)
      else if j = 10 then 20 else 0 := by
  unfold State.pokeAbandoned
  by_cases zero : j = 0
  · subst zero
    rw [if_pos rfl]
    exact State.peek_poke _ off _ 0 (by simp)
  · rw [if_neg zero, State.peek_poke_apart (by simp; omega)]
    by_cases low : j < 10
    · rw [if_pos low, State.peek_poke_apart (by simp; omega)]
      by_cases tag : j = 1
      · subst tag
        exact State.peek_poke _ (off + 4) _ 0 (by simp)
      · exact State.peek_poke_apart (by simp; omega)
    · rw [if_neg low]
      obtain ⟨i, rfl⟩ : ∃ i, j = 10 + i := ⟨j - 10, by omega⟩
      have place : off + 4 * (10 + i) = off + 40 + 4 * i := by omega
      rw [place, State.peek_poke _ (off + 40) _ i (by simp; omega)]
      have small : i < 6 := by omega
      match i, small with
      | 0, _ => rfl
      | 1, _ => rfl
      | 2, _ => rfl
      | 3, _ => rfl
      | 4, _ => rfl
      | 5, _ => rfl

theorem State.cellPassed_frame (u : State) (off : Nat) :
    u.cellPassed off = { u with
      mem := (u.cellPassed off).mem, causes := (u.cellPassed off).causes, messages := (u.cellPassed off).messages } := by
  unfold State.cellPassed
  split
  · split
    · unfold State.raiseCause
      split
      · rfl
      · rfl
    · rfl
  · rfl

theorem State.cellPassed_base (u : State) (off : Nat) : (u.cellPassed off).base = u.base := by
  rw [u.cellPassed_frame off]
  rfl

/-- The bytes of a cell that is passed are those the walk writes into it, if it is TAKEN. -/
theorem State.cellPassed_mem (u : State) (off : Nat) :
    (u.cellPassed off).mem = if u.takenAt off then (u.pokeAbandoned off).mem else u.mem := by
  unfold State.cellPassed
  split
  · split
    · unfold State.raiseCause
      split
      · rfl
      · rfl
    · rfl
  · rfl

theorem State.pokeAbandoned_keeps (u : State) (off : Nat) : KeepsBytes u (u.pokeAbandoned off) [(off, 64)] := by
  unfold State.pokeAbandoned
  exact ((KeepsBytes.poke ⟨(off, 64), by simp, by simp, by simp only [List.length_cons, List.length_nil]; omega⟩).trans rfl
    (.poke ⟨(off, 64), by simp, by simp, by simp only [List.length_cons, List.length_nil]; omega⟩)).trans rfl
    (.poke ⟨(off, 64), by simp, by simp, by simp⟩)

theorem State.cellPassed_keeps (u : State) (off : Nat) : KeepsBytes u (u.cellPassed off) [(off, 64)] := by
  intro x hx
  rw [u.cellPassed_mem off]
  split
  · exact u.pokeAbandoned_keeps off x hx
  · rfl

theorem State.peekWords_congr {s t : State} (mem : t.mem = s.mem) (base : t.base = s.base) (off n : Nat) :
    t.peekWords off n = s.peekWords off n := by
  unfold State.peekWords
  rw [mem, base]

/-- A cell that is passed stands as the walk leaves it (R172). -/
theorem State.cellPassed_walked (u : State) (off : Nat) :
    CellWalked (u.peekWords off 16) ((u.cellPassed off).peekWords off 16) := by
  have first : (u.peekWords off 16)[0] = u.peek off := State.getElem_peekWords u off 16 0 (by omega)
  have mem := u.cellPassed_mem off
  have base := u.cellPassed_base off
  refine ⟨fun taken j => ?_, fun other => ?_⟩
  · rw [first] at taken
    have found : u.takenAt off = true := decide_eq_true taken
    rw [if_pos found] at mem
    rw [State.peekWords_congr (s := u.pokeAbandoned off) mem base, first]
    have word := u.pokeAbandoned_words off j.val j.isLt
    have left : ((u.pokeAbandoned off).peekWords off 16)[j] = (u.pokeAbandoned off).peek (off + 4 * j.val) :=
      State.getElem_peekWords _ off 16 j.val j.isLt
    have right : (u.peekWords off 16)[j] = u.peek (off + 4 * j.val) := State.getElem_peekWords _ off 16 j.val j.isLt
    rw [left, right, word]
    refine ite_congr ?_ (fun _ => rfl) fun _ => ite_congr ?_ (fun _ => rfl) fun _ => ite_congr ?_ (fun _ => rfl) fun _ => rfl
    · exact propext (Fin.ext_iff (a := j) (b := 0)).symm
    · exact propext (Fin.lt_def (a := j) (b := 10)).symm
    · exact propext (Fin.ext_iff (a := j) (b := 10)).symm
  · rw [first] at other
    rw [if_neg fun found : u.takenAt off = true => other (of_decide_eq_true found)] at mem
    exact State.peekWords_congr mem base off 16

/-- A cell that is passed sets CELL_DONE if it asks for it, and no other cause (R155). -/
theorem State.cellPassed_causes (u : State) (off : Nat) (i : Nat) :
    (u.cellPassed off).causes.getLsbD i = (u.causes.getLsbD i || (decide (i = 2) && u.asksAt off)) := by
  unfold State.cellPassed State.asksAt
  cases taken : u.takenAt off with
  | false => simp
  | true =>
    cases asks : (u.peek off).getLsbD 16 with
    | false =>
      rw [if_pos rfl, if_neg (by decide)]
      simp only [Bool.and_false, Bool.or_false]
      rfl
    | true =>
      rw [if_pos rfl, if_pos rfl, State.raiseCause_getLsbD]
      simp only [Bool.and_true]
      rfl

/-! ### The cells in their order (R172) -/

/-- A cell of the region by its list and its index. -/
def Layout.cellAt (l : Layout) (c : ListNo × Nat) : Nat := l.cell c.1 c.2

section
variable {u x : State} {l : Layout} {cs : List (ListNo × Nat)}

/-- The first word of a cell, by the cell's words. -/
theorem State.peek_of_words {off : Nat} (h : u.peekWords off 16 = x.peekWords off 16) : u.peek off = x.peek off := by
  have w := congrArg (fun ws : Vector Word 16 => ws[0]) h
  simpa only [State.getElem_peekWords, Nat.mul_zero, Nat.add_zero] using w

/-- Which cells are found TAKEN shows in their first words alone. -/
theorem State.taken_congr (h : ∀ c ∈ cs, u.peek (l.cellAt c) = x.peek (l.cellAt c)) :
    (cs.filter fun c => u.takenAt (l.cellAt c)) = cs.filter fun c => x.takenAt (l.cellAt c) :=
  List.filter_congr fun c hc => by
    unfold State.takenAt
    rw [h c hc]

@[inherit_doc State.taken_congr]
theorem State.asks_congr (h : ∀ c ∈ cs, u.peek (l.cellAt c) = x.peek (l.cellAt c)) :
    (cs.any fun c => u.asksAt (l.cellAt c)) = cs.any fun c => x.asksAt (l.cellAt c) := by
  rw [List.any_eq, List.any_eq]
  refine decide_eq_decide.mpr (exists_congr fun c => and_congr_right fun hc => ?_)
  unfold State.asksAt State.takenAt
  rw [h c hc]

end

/-- The walk has passed the cells given, between `y` and `u`. -/
structure CellsWalked (y u : State) (cs : List (ListNo × Nat)) : Prop where
  frame : u = { y with mem := u.mem, causes := u.causes, messages := u.messages }
  bytes : KeepsBytes y u (cs.map fun c => (y.layout.cellAt c, 64))
  cells : ∀ c ∈ cs, CellWalked (y.peekWords (y.layout.cellAt c) 16) (u.peekWords (y.layout.cellAt c) 16)
  causes : ∀ i, u.causes.getLsbD i = (y.causes.getLsbD i || (decide (i = 2) && cs.any fun c => y.asksAt (y.layout.cellAt c)))

/-- Different cells share no byte. -/
theorem Layout.cellAt_apart (l : Layout) {c d : ListNo × Nat} (ne : c ≠ d) (hc : c.2 < l.cellsPerList) (hd : d.2 < l.cellsPerList) :
    Apart (l.cellAt c, 64) (l.cellAt d, 64) := by
  obtain ⟨k, i⟩ := c
  obtain ⟨j, m⟩ := d
  simp only at hc hd
  unfold Apart Layout.cellAt Layout.cell
  simp only
  rcases Nat.lt_trichotomy k.val j.val with before | same | after
  · have := Nat.mul_le_mul_right l.cellsPerList (Nat.succ_le_of_lt before)
    rw [Nat.succ_mul] at this
    omega
  · have : i ≠ m := fun e => ne (Prod.ext (Fin.ext same) e)
    rw [same]
    omega
  · have := Nat.mul_le_mul_right l.cellsPerList (Nat.succ_le_of_lt after)
    rw [Nat.succ_mul] at this
    omega

theorem walkCellList_run (cs : List (ListNo × Nat)) : ∀ {y : State}, y.failing = none → cs.Nodup →
    (∀ c ∈ cs, c.2 < y.layout.cellsPerList) →
    ∃ u, sumOver cs (fun c => walkCell c.1 c.2) y = .ok (cs.filter fun c => y.takenAt (y.layout.cellAt c)).length u
      ∧ CellsWalked y u cs := by
  induction cs with
  | nil => exact fun {y} _ _ _ => ⟨y, rfl, rfl, .refl y _, fun _ h => absurd h List.not_mem_nil, fun i => by simp⟩
  | cons c cs ih =>
    intro y sound nodup within
    obtain ⟨fresh, nodup⟩ := List.nodup_cons.mp nodup
    have first := walkCell_run sound c.1 c.2
    have frame := y.cellPassed_frame (y.layout.cellAt c)
    have keeps := y.cellPassed_keeps (y.layout.cellAt c)
    have walked := y.cellPassed_walked (y.layout.cellAt c)
    have causes := y.cellPassed_causes (y.layout.cellAt c)
    have base := y.cellPassed_base (y.layout.cellAt c)
    change walkCell c.1 c.2 y = .ok (if y.takenAt (y.layout.cellAt c) then 1 else 0) (y.cellPassed (y.layout.cellAt c)) at first
    generalize y.cellPassed (y.layout.cellAt c) = v at first frame keeps walked causes base
    have layout : v.layout = y.layout := by rw [frame]
    have apart (d : ListNo × Nat) (hd : d ∈ cs) : AllApart [(y.layout.cellAt c, 64)] (y.layout.cellAt d, 64) := by
      intro r hr
      obtain rfl := List.mem_singleton.mp hr
      exact y.layout.cellAt_apart (fun e => fresh (e ▸ hd)) (within c List.mem_cons_self) (within d (List.mem_cons_of_mem _ hd))
    have words (d : ListNo × Nat) (hd : d ∈ cs) : v.peekWords (y.layout.cellAt d) 16 = y.peekWords (y.layout.cellAt d) 16 :=
      keeps.peekWords base (apart d hd)
    have word (d : ListNo × Nat) (hd : d ∈ cs) : v.peek (y.layout.cellAt d) = y.peek (y.layout.cellAt d) :=
      State.peek_of_words (words d hd)
    obtain ⟨u, rest, done⟩ := ih (y := v) (by rw [frame]; exact sound) nodup
      fun d hd => by rw [layout]; exact within d (List.mem_cons_of_mem _ hd)
    refine ⟨u, ?run, ?frame, ?bytes, fun d hd => ?cells, fun i => ?causes⟩
    case run =>
      have count := State.taken_congr word
      rw [layout] at rest
      unfold sumOver
      rw [Act.bind_ok first, Act.bind_ok rest, count, Act.pure_eq, List.filter_cons]
      cases y.takenAt (y.layout.cellAt c) with
      | true => simp [Nat.add_comm]
      | false => simp
    case frame =>
      have later := done.frame
      generalize u.mem = m at later
      generalize u.causes = b at later
      generalize u.messages = k at later
      rw [later, frame]
    case bytes =>
      have later := done.bytes
      rw [layout] at later
      exact (keeps.mono (by simp)).trans base (later.mono (by simp))
    case cells =>
      rcases List.mem_cons.mp hd with rfl | hd
      · have later := done.bytes
        rw [layout] at later
        rw [later.peekWords (k := 16) (by rw [done.frame]; rfl) fun r hr => ?_]
        · exact walked
        · obtain ⟨e, he, rfl⟩ := List.mem_map.mp hr
          exact (apart e he _ (List.mem_singleton.mpr rfl)).symm
      · have own := done.cells d hd
        rwa [layout, words d hd] at own
    case causes =>
      have asks := State.asks_congr word
      rw [done.causes, layout, causes, asks, List.any_cons]
      cases decide (i = 2) <;> simp [Bool.or_assoc]

end Sys2Proof.Machine
end

-- ==== Proofs: the walk and the end of an attach ====
section
/-! From the region loaded or initialized to the end of an attach that succeeds (R170 to R172; O9, O11). -/

namespace Sys2Proof.Machine

/-! ### What the walk may change -/

/-- `t` is `x` with the ledger of `L`, but for the engine state, the scan timer, the lines, the notice unit, the causes and memory. -/
def WalkFrame (x L t : State) : Prop :=
  t = { x with
    zones := L.zones
    live := L.live
    highest := L.highest
    watch := L.watch
    dueQueue := L.dueQueue
    unwatched := L.unwatched
    engineState := t.engineState
    scanRunning := t.scanRunning
    lines := t.lines
    mem := t.mem
    written := t.written
    taken := t.taken
    heldNotices := t.heldNotices
    logFull := t.logFull
    noticesDropped := t.noticesDropped
    causes := t.causes
    messages := t.messages }

/-- What the walk and the end of an attach may write: the notice unit's areas, the control page's words from byte 12, and the
cells (R146, R172). -/
def State.walkAreas (x : State) : List (Nat × Nat) :=
  (x.layout.controlPage + 12, 24) :: (x.layout.intakeLists, 8 * x.layout.cellsPerList * 64) :: x.noticeAreas

/-- Every cell of the region, in the order of the walk (R172). -/
def Layout.allCells (l : Layout) : List (ListNo × Nat) :=
  (List.finRange 8).flatMap fun k => (List.range l.cellsPerList).map fun i => (k, i)

theorem Layout.allCells_nodup (l : Layout) : l.allCells.Nodup :=
  List.Nodup.product (List.nodup_finRange 8) List.nodup_range

theorem Layout.mem_allCells (l : Layout) (c : ListNo × Nat) : c ∈ l.allCells ↔ c.2 < l.cellsPerList := by
  obtain ⟨k, i⟩ := c
  simp [Layout.allCells]

theorem Layout.cellAt_within (l : Layout) {c : ListNo × Nat} (h : c.2 < l.cellsPerList) :
    l.intakeLists ≤ l.cellAt c ∧ l.cellAt c + 64 ≤ l.intakeLists + 8 * l.cellsPerList * 64 := by
  obtain ⟨k, i⟩ := c
  have lists : k.val * l.cellsPerList ≤ 7 * l.cellsPerList := Nat.mul_le_mul_right _ (by have := k.isLt; omega)
  simp only at h
  unfold Layout.cellAt Layout.cell
  simp only
  generalize k.val * l.cellsPerList = before at *
  omega

/-- Writes within smaller areas are writes within larger ones. -/
theorem KeepsBytes.widen {s t : State} {areas areas' : List (Nat × Nat)} (h : KeepsBytes s t areas)
    (sub : ∀ r ∈ areas, ∃ q ∈ areas', q.1 ≤ r.1 ∧ r.1 + r.2 ≤ q.1 + q.2) : KeepsBytes s t areas' := by
  intro x hx
  refine h x fun r hr => ?_
  obtain ⟨q, hq, low, high⟩ := sub r hr
  have := hx q hq
  omega

/-- A change that keeps clear of the notice unit and its bytes. -/
theorem SameView.off {v y u : State} (h : SameView v y) (failing : u.failing = y.failing) (base : u.base = y.base)
    (layout : u.layout = y.layout) (capacity : u.capacity = y.capacity)
    (counts : u.written = y.written ∧ u.taken = y.taken ∧ u.heldNotices = y.heldNotices ∧ u.logFull = y.logFull
      ∧ u.noticesDropped = y.noticesDropped)
    (causes : ∀ i, i < 2 → u.causes.getLsbD i = y.causes.getLsbD i) {areas : List (Nat × Nat)} (keeps : KeepsBytes y u areas)
    (off : OffUnit y areas) : SameView v u := by
  obtain ⟨written, taken, held, full, dropped⟩ := counts
  have places : v.unitPlaces = y.unitPlaces := by
    unfold State.unitPlaces
    rw [h.layout, h.capacity]
  refine ⟨⟨h.sound.1, failing.trans h.sound.2⟩, h.room, base.trans h.base, layout.trans h.layout, capacity.trans h.capacity,
    ⟨written.trans h.counts.1, taken.trans h.counts.2⟩, held.trans h.held, ⟨full.trans h.flags.1, dropped.trans h.flags.2⟩,
    fun i hi => (causes i hi).trans (h.causes i hi), fun r hr a low high => ?_⟩
  rw [← h.bytes r hr a low high]
  rw [← h.base] at low high
  exact keeps.read (off r (places ▸ hr)) low high

/-! ### The walk in its stages -/

/-- The walk has come from `x` to `t`: the ledger is that of `L`, the notices given are handed over, and the cells given passed. -/
structure WalkStage (x L t : State) (ns : List Notice) (cs : List (ListNo × Nat)) : Prop where
  frame : WalkFrame x L t
  bytes : KeepsBytes x t x.walkAreas
  handed : Handed x t ns
  causes : ∀ i, 2 ≤ i → t.causes.getLsbD i
    = (x.causes.getLsbD i || (decide (i = 2) && cs.any fun c => x.asksAt (x.layout.cellAt c)))
  cells : ∀ c ∈ cs, CellWalked (x.peekWords (x.layout.cellAt c) 16) (t.peekWords (x.layout.cellAt c) 16)

section
variable {x L u t : State} {ns : List Notice} {cs : List (ListNo × Nat)}

theorem WalkFrame.held (h : WalkFrame x L t) :
    t.base = x.base ∧ t.layout = x.layout ∧ t.capacity = x.capacity ∧ t.failing = x.failing := by
  unfold State.base
  rw [h]
  exact ⟨rfl, rfl, rfl, rfl⟩

theorem WalkFrame.trans (h : WalkFrame x L u) (g : WalkFrame u u t) : WalkFrame x L t := by
  unfold WalkFrame at *
  rw [h] at g
  exact g

theorem CellsWalked.walkFrame (h : CellsWalked u t cs) : WalkFrame u u t := by
  unfold WalkFrame
  rw [h.frame]

theorem NoticeFrame.walkFrame (h : NoticeFrame u t) : WalkFrame u u t := by
  unfold WalkFrame
  rw [h]

theorem Walks.frame (h : Walks x L u ns) : WalkFrame x L u := by
  have e := h.during.frame
  obtain ⟨lists, served, engine⟩ := h.during.intake
  rw [h.during.ledger] at e
  unfold State.besides State.withLedger at e
  rw [lists, served, engine, h.sets] at e
  have state : u.engineState = x.engineState := by rw [e]
  have scan : u.scanRunning = x.scanRunning := by rw [e]
  unfold WalkFrame
  rw [state, scan]
  exact e

/-- The cells lie apart from what the notice unit and the end of the attach write. -/
theorem RegionValid.cells_off (h : RegionValid x) {c : ListNo × Nat} (hc : c.2 < x.layout.cellsPerList) :
    AllApart ((x.layout.controlPage + 12, 24) :: x.noticeAreas) (x.layout.cellAt c, 64) := by
  obtain ⟨pageTable, pageLog, pageLists, tableLog, tableLists, logLists⟩ := h.areasApart
  have cell := x.layout.cellAt_within hc
  intro r hr
  simp only [State.noticeAreas, List.mem_cons, List.not_mem_nil, or_false] at hr
  unfold Apart at *
  rcases hr with rfl | rfl | rfl <;> simp only at * <;> omega

/-- What the walk of the cells and the end of the attach write lies apart from what the notice unit works on. -/
theorem RegionValid.ends_off (h : RegionValid x) :
    OffUnit x [(x.layout.controlPage + 12, 24), (x.layout.intakeLists, 8 * x.layout.cellsPerList * 64)] := by
  obtain ⟨pageTable, pageLog, pageLists, tableLog, tableLists, logLists⟩ := h.areasApart
  intro q hq r hr
  simp only [State.unitPlaces, List.mem_cons, List.not_mem_nil, or_false] at hq hr
  unfold Apart at *
  rcases hq with rfl | rfl <;> rcases hr with rfl | rfl <;> simp only at * <;> omega

/-- The cells walked after the table (R172). -/
theorem Walks.cells (h : Walks x L u ns) (region : RegionValid x) (walked : CellsWalked u t x.layout.allCells) :
    WalkStage x L t ns x.layout.allCells := by
  have frame := h.frame
  obtain ⟨base, layout, capacity, failing⟩ := frame.held
  have later := walked.frame
  have words (c : ListNo × Nat) (hc : c ∈ x.layout.allCells) :
      u.peekWords (x.layout.cellAt c) 16 = x.peekWords (x.layout.cellAt c) 16 :=
    h.during.bytes.peekWords base fun r hr =>
      region.cells_off ((x.layout.mem_allCells c).mp hc) r (List.mem_cons_of_mem _ hr)
  have tbase : t.base = u.base := by rw [later]; rfl
  have keeps : KeepsBytes u t [(x.layout.controlPage + 12, 24), (x.layout.intakeLists, 8 * x.layout.cellsPerList * 64)] := by
    refine walked.bytes.widen fun r hr => ?_
    obtain ⟨c, hc, rfl⟩ := List.mem_map.mp hr
    rw [layout]
    exact ⟨_, List.mem_cons_of_mem _ List.mem_cons_self, x.layout.cellAt_within ((x.layout.mem_allCells c).mp hc)⟩
  refine ⟨?frame, ?bytes, ?handed, fun i hi => ?causes, fun c hc => ?cells⟩
  case frame =>
    exact frame.trans walked.walkFrame
  case bytes =>
    exact (h.during.bytes.mono (by simp [State.walkAreas])).trans base
      (keeps.mono (by simp [State.walkAreas]))
  case handed =>
    obtain ⟨missed, v, run, view⟩ := h.handed
    refine ⟨missed, v, run, view.off (by rw [later]) tbase (by rw [later]) (by rw [later]) (by rw [later]; exact ⟨rfl, rfl, rfl, rfl, rfl⟩)
      (fun i hi => ?_) keeps ?_⟩
    · rw [walked.causes, decide_eq_false (by omega), Bool.false_and, Bool.or_false]
    · unfold OffUnit State.unitPlaces
      rw [layout, capacity]
      exact region.ends_off
  case causes =>
    rw [walked.causes, h.during.causes i hi, layout, State.asks_congr fun c hc => State.peek_of_words (words c hc)]
  case cells =>
    have own := walked.cells c hc
    rwa [layout, words c hc] at own

end

/-! ### The end of the attach (R172) -/

section
variable {x L u t : State} {ns : List Notice} {cs : List (ListNo × Nat)}

theorem WalkFrame.refl (x : State) : WalkFrame x x x := rfl

/-- More notices handed over. -/
theorem WalkStage.report (h : WalkStage x L u ns cs) (region : RegionValid x) (within : ∀ c ∈ cs, c.2 < x.layout.cellsPerList)
    (ms : List Notice) : ∃ y, reportNotices ms u = .ok () y ∧ WalkStage x L y (ns ++ ms) cs := by
  obtain ⟨base, layout, capacity, failing⟩ := h.frame.held
  obtain ⟨missed, y, run, frame, handed⟩ := h.handed.more ms
  have areas : u.noticeAreas = x.noticeAreas := by
    unfold State.noticeAreas
    rw [layout, capacity]
  have keeps := frame.bytes
  rw [areas] at keeps
  refine ⟨y, ?_, h.frame.trans frame.frame.walkFrame, ?_, handed, fun i hi => ?_, fun c hc => ?_⟩
  · unfold reportNotices
    rw [Act.bind_ok run]
    rfl
  · exact h.bytes.trans base (keeps.mono fun r hr => List.mem_cons_of_mem _ (List.mem_cons_of_mem _ hr))
  · rw [frame.causes i hi, h.causes i hi]
  · have same : y.peekWords (x.layout.cellAt c) 16 = u.peekWords (x.layout.cellAt c) 16 :=
      keeps.peekWords frame.frame.base fun r hr => region.cells_off (within c hc) r (List.mem_cons_of_mem _ hr)
    rw [same]
    exact h.cells c hc

/-- What a part is made by the walk and the end of an attach that began it at `x` (R171, R172). -/
structure WalkEnd (x t : State) (b : LayoutBlock) : Prop where
  frame : WalkFrame x (x.walkLedger x.layout.tableSize) t
  running : t.engineState = .running ∧ t.scanRunning = true
  lines : t.lines = Vector.replicate 8 true
  bytes : KeepsBytes x t x.walkAreas
  shown : t.peekWords (x.layout.controlPage + 12) 6
    = #v[wordOfBytes 2 0 0 x.resetCauses.toNat, noWord, word (4096 - t.watch.length), word t.unwatched, x.indexWord 0, x.indexWord 1]
  cells : ∀ c : ListNo × Nat, c.2 < x.layout.cellsPerList →
    CellWalked (x.peekWords (x.layout.cellAt c) 16) (t.peekWords (x.layout.cellAt c) 16)
  ended : t.causes.getLsbD 3 = true
  causes : ∀ i, 2 ≤ i → i ≠ 3 → t.causes.getLsbD i
    = (x.causes.getLsbD i || (decide (i = 2) && x.layout.allCells.any fun c => x.asksAt (x.layout.cellAt c)))
  notices : NoticesGo x t (x.attachNotices b x.zones t.live)

/-- The words of the control page at the end of an attach (R172). -/
def State.endWords (u : State) : List Word :=
  { u with engineState := .running }.controlWords ++ [u.indexWord 0, u.indexWord 1]

/-- The state at the end of an attach, its notices handed over. -/
def State.attachDone (u : State) : State :=
  { { u with engineState := .running }.poke (u.layout.controlPage + 12) u.endWords with scanRunning := true }.raiseCause .attachEnd

theorem endAttach_run {fresh : Bool} {abandoned faulty : Nat} {y : State}
    (run : reportNotices (attachedNotice fresh u.minute abandoned faulty :: u.classFaults) u = .ok () y)
    (later : y.failing = none) : endAttach fresh abandoned faulty u = .ok () y.attachDone := by
  unfold endAttach
  rw [Act.get_bind, Act.bind_ok run, Act.modify_bind, Act.get_bind]
  exact (Act.bind_ok (regionWrite_ok (by exact later) _ _)).trans rfl

theorem State.attachDone_frame (u : State) : u.attachDone = { u with
    engineState := .running
    scanRunning := true
    mem := u.attachDone.mem
    causes := u.attachDone.causes
    messages := u.attachDone.messages } := by
  unfold State.attachDone State.raiseCause
  split
  · rfl
  · rfl

theorem State.attachDone_mem (u : State) : u.attachDone.mem = (u.poke (u.layout.controlPage + 12) u.endWords).mem := by
  unfold State.attachDone State.raiseCause
  split
  · rfl
  · rfl

theorem State.endWords_length (u : State) : u.endWords.length = 6 := rfl

theorem State.attachDone_keeps (u : State) : KeepsBytes u u.attachDone [(u.layout.controlPage + 12, 24)] := by
  intro a ha
  rw [u.attachDone_mem]
  exact KeepsBytes.poke ⟨_, List.mem_cons_self, Nat.le_refl _, by rw [u.endWords_length]⟩ a ha

theorem State.attachDone_causes (u : State) (i : Nat) :
    u.attachDone.causes.getLsbD i = (u.causes.getLsbD i || decide (i = 3)) := State.raiseCause_getLsbD ..

/-- The words of the control page, while the clock is UNSET. -/
theorem State.endWords_unset {u : State} (unset : u.clock = .unset) : u.endWords
    = [wordOfBytes 2 0 0 u.resetCauses.toNat, noWord, word (4096 - u.watch.length), word u.unwatched, u.indexWord 0, u.indexWord 1] := by
  unfold State.endWords State.controlWords State.controlClock
  simp only [unset]
  rfl

/-- The end of an attach, its lines driven, leaves the ledger. -/
theorem State.attachDone_walkFrame (u : State) : WalkFrame u u u.attachDone.drive := by
  have frame := u.attachDone_frame
  have driven : u.attachDone.drive = { u.attachDone with lines := u.attachDone.drive.lines } := rfl
  generalize u.attachDone.drive = t at driven
  generalize u.attachDone = v at frame driven
  unfold WalkFrame
  rw [driven, frame]

/-- Every line is asserted while the clock is UNSET (R156). -/
theorem State.drive_lines_unset {u : State} (unset : u.clock = .unset) : u.drive.lines = Vector.replicate 8 true := by
  have unready : u.ready = false := by
    unfold State.ready State.clockSet
    rw [unset, Bool.and_false]
  refine Vector.ext fun i hi => ?_
  simp [State.drive, State.lineHeld, unready]

/-- The end of an attach, after its cells (R172). -/
theorem WalkStage.ends (h : WalkStage x L u ns x.layout.allCells) (region : RegionValid x) (sound : x.failing = none)
    (unset : x.clock = .unset) (ledger : L = x.walkLedger x.layout.tableSize) (b : LayoutBlock) {abandoned faulty : Nat}
    (all : ns ++ attachedNotice b.fresh u.minute abandoned faulty :: u.classFaults = x.attachNotices b x.zones L.live) :
    ∃ t, endAttach b.fresh abandoned faulty u = .ok () t ∧ WalkEnd x t.drive b := by
  have within (c : ListNo × Nat) (hc : c ∈ x.layout.allCells) : c.2 < x.layout.cellsPerList := (x.layout.mem_allCells c).mp hc
  obtain ⟨y, run, stage⟩ := h.report region within (attachedNotice b.fresh u.minute abandoned faulty :: u.classFaults)
  obtain ⟨base, layout, capacity, failing⟩ := stage.frame.held
  have done := y.attachDone_frame
  have clock : y.clock = .unset := by rw [stage.frame]; exact unset
  have lines := State.drive_lines_unset (u := y.attachDone) (by rw [done]; exact clock)
  have running : y.attachDone.drive.engineState = .running ∧ y.attachDone.drive.scanRunning = true := by
    show y.attachDone.engineState = .running ∧ y.attachDone.scanRunning = true
    rw [done]
    exact ⟨rfl, rfl⟩
  have counts : y.attachDone.drive.written = y.written ∧ y.attachDone.drive.taken = y.taken
      ∧ y.attachDone.drive.heldNotices = y.heldNotices ∧ y.attachDone.drive.logFull = y.logFull
      ∧ y.attachDone.drive.noticesDropped = y.noticesDropped := by
    show y.attachDone.written = y.written ∧ y.attachDone.taken = y.taken ∧ y.attachDone.heldNotices = y.heldNotices
      ∧ y.attachDone.logFull = y.logFull ∧ y.attachDone.noticesDropped = y.noticesDropped
    rw [done]
    exact ⟨rfl, rfl, rfl, rfl, rfl⟩
  have watch : y.attachDone.drive.watch = y.watch := by
    show y.attachDone.watch = _
    rw [done]
  have unwatched : y.attachDone.drive.unwatched = y.unwatched := by
    show y.attachDone.unwatched = _
    rw [done]
  have frame := stage.frame.trans y.attachDone_walkFrame
  have keeps : KeepsBytes y y.attachDone.drive [(y.layout.controlPage + 12, 24)] := y.attachDone_keeps
  have mem : y.attachDone.drive.mem = (y.poke (y.layout.controlPage + 12) y.endWords).mem := y.attachDone_mem
  have causes (i : Nat) : y.attachDone.drive.causes.getLsbD i = (y.causes.getLsbD i || decide (i = 3)) := y.attachDone_causes i
  refine ⟨y.attachDone, endAttach_run run (failing.trans sound), ?_⟩
  generalize y.attachDone.drive = t at lines running counts watch unwatched frame keeps mem causes
  obtain ⟨tbase, tlayout, -, -⟩ := frame.held
  rw [layout] at keeps mem
  subst ledger
  refine ⟨frame, running, lines, ?bytes, ?shown, fun c hc => ?cells, ?ended, fun i hi other => ?causes, ?notices⟩
  case bytes => exact stage.bytes.trans base (keeps.mono (by simp [State.walkAreas]))
  case shown =>
    have indices (i : Fin 2) : y.indexWord i = x.indexWord i := indexWord_congr i fun j => by rw [stage.frame]
    have words := State.peekWords_poke_toList y (x.layout.controlPage + 12) y.endWords_length
    rw [State.peekWords_congr mem (tbase.trans base.symm)]
    refine Vector.toList_inj.mp (words.trans ?_)
    have resets : y.resetCauses = x.resetCauses := by rw [stage.frame]
    rw [State.endWords_unset clock, indices, indices, resets, ← watch, ← unwatched]
    exact rfl
  case cells =>
    have same : t.peekWords (x.layout.cellAt c) 16 = y.peekWords (x.layout.cellAt c) 16 :=
      keeps.peekWords (tbase.trans base.symm) fun r hr =>
        region.cells_off hc r (by rw [List.mem_singleton.mp hr]; exact List.mem_cons_self)
    rw [same]
    exact stage.cells c ((x.layout.mem_allCells c).mpr hc)
  case ended => rw [causes]; simp
  case causes => rw [causes, stage.causes i hi, decide_eq_false other, Bool.or_false]
  case notices =>
    have live : t.live = (x.walkLedger x.layout.tableSize).live := by rw [frame]
    rw [live, ← all]
    obtain ⟨missed, v, ran, view⟩ := stage.handed
    obtain ⟨missed', v', ran', noticeFrame⟩ := handNotices_frame _ sound
    rw [ran] at ran'
    cases ran'
    have off : OffUnit y [(x.layout.controlPage + 12, 24)] := by
      unfold OffUnit State.unitPlaces
      rw [layout, capacity]
      exact fun q hq r hr => region.ends_off q hq r (by rw [List.mem_singleton.mp hr]; exact List.mem_cons_self)
    have after : SameView v t := view.off (by rw [frame]; exact failing.symm) (tbase.trans base.symm) (tlayout.trans layout.symm)
      (by rw [frame]; exact capacity.symm) counts (fun i hi => by rw [causes, decide_eq_false (by omega), Bool.or_false])
      keeps off
    exact .of_run region sound ran (by simpa using after.sameUnit noticeFrame) tbase

end

/-! ### The walk and the end together (R170 to R172) -/

theorem State.classFaults_eq {x u : State} (classes : u.classes = x.classes) (minute : u.minute = 0) : u.classFaults
    = (List.finRange 8).filterMap fun c : ClassNo =>
        match x.classes[c] with
        | .invalid cause => some ⟨.classFault, c.val, 0, word cause.code, word u.live[c]⟩
        | .empty | .valid _ _ | .programming => none := by
  unfold State.classFaults
  rw [classes, minute]
  rfl

/-- The notices of an attach in their order, by those of the walk and of the end (R172). -/
theorem State.attachNotices_eq (x : State) {b : LayoutBlock} (layout : b.layout = x.layout) {u : State}
    (classes : u.classes = x.classes) (minute : u.minute = 0) : x.walkNotices x.layout.tableSize
      ++ attachedNotice b.fresh u.minute (x.layout.allCells.filter fun c => x.takenAt (x.layout.cellAt c)).length
          (x.walkNotices x.layout.tableSize).length :: u.classFaults
    = x.attachNotices b x.zones u.live := by
  rw [State.classFaults_eq classes minute, minute]
  unfold State.attachNotices
  rw [layout]
  rfl

/-- What the walk finds where it begins: a region in range, the clock UNSET, an empty pool, and no failure armed. -/
structure WalkStart (x : State) : Prop where
  region : RegionValid x
  sound : x.failing = none
  clock : x.clock = .unset
  watch : x.watch = []
  unwatched : x.unwatched = 0

theorem State.setUp_start {y : State} (region : RegionValid y) (sound : y.failing = none) (b : LayoutBlock) :
    WalkStart (y.setUp b) :=
  ⟨region.of_eq rfl rfl region.next region.flight, sound, rfl, rfl, rfl⟩

theorem walkCells_run {x L u : State} {ns : List Notice} (h : Walks x L u ns) (region : RegionValid x) (sound : x.failing = none) :
    ∃ t, walkCells u = .ok (x.layout.allCells.filter fun c => x.takenAt (x.layout.cellAt c)).length t
      ∧ WalkStage x L t ns x.layout.allCells := by
  obtain ⟨base, layout, capacity, failing⟩ := h.frame.held
  obtain ⟨t, run, walked⟩ := walkCellList_run x.layout.allCells (failing.trans sound) x.layout.allCells_nodup
    fun c hc => by rw [layout]; exact (x.layout.mem_allCells c).mp hc
  have words (c : ListNo × Nat) (hc : c ∈ x.layout.allCells) : u.peek (x.layout.cellAt c) = x.peek (x.layout.cellAt c) :=
    State.peek_of_words (h.during.bytes.peekWords base fun r hr =>
      region.cells_off ((x.layout.mem_allCells c).mp hc) r (List.mem_cons_of_mem _ hr))
  rw [layout, State.taken_congr words] at run
  refine ⟨t, ?_, h.cells region walked⟩
  unfold walkCells
  rw [Act.get_bind, layout, sumOver_pairs, ← List.range_eq_range']
  exact run

/-- The walk and the end of an attach, from the region loaded or initialized (R170 to R172). -/
theorem finishAttach_run {y : State} {b : LayoutBlock} (region : RegionValid y) (sound : y.failing = none)
    (layout : b.layout = y.layout) : ∃ t, finishAttach b y = .ok () t ∧ WalkEnd (y.setUp b) t.drive b := by
  have start := State.setUp_start region sound b
  have same : b.layout = (y.setUp b).layout := layout
  unfold finishAttach
  rw [Act.modify_bind, same]
  generalize y.setUp b = x at start same
  obtain ⟨faulty, u, records, count, walks⟩ := walkAccounts_run start.region start.sound start.clock start.watch start.unwatched
    x.layout.tableSize (u := x) (k := 0) (by omega) (.start start.region start.sound)
  rw [Nat.zero_add] at count walks
  obtain ⟨t, cells, stage⟩ := walkCells_run walks start.region start.sound
  have faults : faulty = (x.walkNotices x.layout.tableSize).length := by
    rw [← count]
    exact (Nat.zero_add _).symm
  have minute : t.minute = 0 := by
    unfold State.minute
    rw [stage.frame]
    simp only [start.clock]
  have classes : t.classes = x.classes := by rw [stage.frame]
  have live : t.live = (x.walkLedger x.layout.tableSize).live := by rw [stage.frame]
  have all := x.attachNotices_eq same classes minute
  rw [live, ← faults] at all
  obtain ⟨z, run, ends⟩ := stage.ends start.region start.sound start.clock rfl b all
  exact ⟨z, (Act.bind_ok records).trans ((Act.bind_ok cells).trans run), ends⟩

end Sys2Proof.Machine
end

-- ==== Proofs: attaches that succeed ====
section
/-! What the end of an attach shows of the attach as a whole (O9, O11). -/

namespace Sys2Proof.Machine

/-- The region is initialized or loaded, and the walk is to begin: from `u`, the part with the host's stores made, to `y`. The notice
unit of `y` is that of `v`, and no byte but of the flag word and the two pages has changed (R69, R170). -/
structure Prepared (u v y : State) (b : LayoutBlock) : Prop where
  valid : b.valid = true
  frame : y = { u with
    engineState := .attaching
    attachFail := .ok
    cacheSets := Vector.replicate 64 CacheSet.invalid
    layout := b.layout
    capacity := b.capacity
    zones := y.zones
    published := y.published
    written := y.written
    taken := y.taken
    lists := y.lists
    mem := y.mem }
  sound : u.failing = none
  prog : u.prog = none
  lists : ∀ k : ListNo, y.lists[k].eligible = false ∧ y.lists[k].next < b.layout.cellsPerList
  view : SameView v y
  keeps : KeepsBytes u y [(32, 4), (b.layout.controlPage, 64), (b.layout.zonePage, 12352)]

section
variable {u v y t : State} {b : LayoutBlock}

theorem Prepared.held (h : Prepared u v y b) :
    y.base = u.base ∧ y.layout = b.layout ∧ y.capacity = b.capacity ∧ y.failing = none := by
  unfold State.base
  rw [h.frame]
  exact ⟨rfl, rfl, rfl, h.sound⟩

theorem Prepared.region (h : Prepared u v y b) : RegionValid y := by
  obtain ⟨-, layout, capacity, -⟩ := h.held
  refine .of_block h.valid layout capacity (fun k => ?_) ?_
  · rw [layout]
    exact (h.lists k).2
  · rw [h.frame]
    exact h.prog

/-- What the preparation of a region writes lies apart from the table and the intake lists. -/
theorem Prepared.apart (h : Prepared u v y b) :
    AllApart [(32, 4), (b.layout.controlPage, 64), (b.layout.zonePage, 12352)]
        (b.layout.accountTable, 64 * b.layout.tableSize)
      ∧ AllApart [(32, 4), (b.layout.controlPage, 64), (b.layout.zonePage, 12352)]
        (b.layout.intakeLists, 8 * b.layout.cellsPerList * 64) := by
  obtain ⟨pageTable, -, pageLists, -, -, -⟩ := h.region.areasApart
  obtain ⟨-, -, blockTable, -, blockLists, -, zoneTable, -, zoneLists⟩ := h.region.pagesApart
  rw [h.held.2.1] at *
  unfold Apart at *
  refine ⟨fun r hr => ?_, fun r hr => ?_⟩
  all_goals
    simp only [List.mem_cons, List.not_mem_nil, or_false] at hr
    unfold Apart
    rcases hr with rfl | rfl | rfl <;> simp only at * <;> omega

theorem AllApart.within {areas : List (Nat × Nat)} {q r : Nat × Nat} (h : AllApart areas q) (low : q.1 ≤ r.1)
    (high : r.1 + r.2 ≤ q.1 + q.2) : AllApart areas r := by
  intro a ha
  have := h a ha
  unfold Apart at *
  omega

theorem Prepared.record (h : Prepared u v y b) {n : Nat} (hn : n < b.layout.tableSize) :
    y.peekWords (b.layout.record n) 16 = u.peekWords (b.layout.record n) 16 := by
  obtain ⟨low, high⟩ := b.layout.record_within hn
  exact h.keeps.peekWords h.held.1 (h.apart.1.within low high)

theorem Prepared.cell (h : Prepared u v y b) {c : ListNo × Nat} (hc : c.2 < b.layout.cellsPerList) :
    y.peekWords (b.layout.cellAt c) 16 = u.peekWords (b.layout.cellAt c) 16 := by
  obtain ⟨low, high⟩ := b.layout.cellAt_within hc
  exact h.keeps.peekWords h.held.1 (h.apart.2.within low high)

/-- A record by its words. -/
theorem State.tableRecord_congr {s t : State} {l : Layout} {n : Nat}
    (h : t.peekWords (l.record n) 16 = s.peekWords (l.record n) 16) : t.tableRecord l n = s.tableRecord l n := by
  unfold State.tableRecord
  rw [h]

/-- A count of records by the records and by the condition on them. -/
theorem State.countRecords_congr {s t : State} {l : Layout} {p q : Account → Bool}
    (h : ∀ n, n < l.tableSize → t.tableRecord l n = s.tableRecord l n) (same : ∀ a, p a = q a) :
    t.countRecords l p = s.countRecords l q := by
  obtain rfl : p = q := funext same
  unfold State.countRecords
  refine congrArg List.length (List.filter_congr fun n hn => ?_)
  rw [h n (List.mem_range.mp hn)]

end

/-! ### The notices of an attach (R171, R172) -/

/-- The notices of a walk go as they would from a state with the same notice unit. -/
theorem NoticesGo.of_view {v x t : State} {ns : List Notice} (view : SameView v x) (go : NoticesGo x t ns) : NoticesGo v t ns := by
  have occupancy : x.logOccupancy = v.logOccupancy := by
    unfold State.logOccupancy
    rw [view.counts.1, view.counts.2]
  obtain ⟨missed, z, run, same⟩ := go.unit
  obtain ⟨missed', w, z', runV, runX, after, frame⟩ := handNotices_follows ns v x view
  rw [run] at runX
  cases runX
  have idle := go.idle
  have count := go.count
  have logged := go.logged
  rw [view.counts.1, view.counts.2, view.held, view.flags.1, view.flags.2] at idle
  rw [view.counts.1, view.counts.2, view.held, view.flags.2, occupancy, view.capacity] at count
  rw [view.held, occupancy, view.capacity, view.layout, view.counts.1] at logged
  refine ⟨⟨missed, w, runV, ?_⟩, idle, count, logged⟩
  have areas : x.noticeAreas = v.noticeAreas := by
    unfold State.noticeAreas
    rw [view.layout, view.capacity]
  have bytes := same.bytes
  rw [areas, view.base] at bytes
  refine ⟨⟨same.counts.1.trans after.counts.1, same.counts.2.trans after.counts.2⟩, same.held.trans after.held,
    ⟨same.flags.1.trans after.flags.1, same.flags.2.trans ?_⟩, fun i hi => (same.causes i hi).trans (after.causes i hi),
    fun r hr i hi => (bytes r hr i hi).trans ?_⟩
  · simp only [Bool.and_false, Bool.or_false]
    exact after.flags.2
  · obtain ⟨missed'', w', runV', frameV⟩ := handNotices_frame ns view.sound.1
    rw [runV] at runV'
    cases runV'
    exact (after.sameUnit frameV).bytes r hr i hi

theorem State.attachNotices_congr {u x : State} {b : LayoutBlock} {zones zones' : Vector Zone 64} {live : Vector Nat 8}
    (records : ∀ n, n < b.layout.tableSize → x.peekWords (b.layout.record n) 16 = u.peekWords (b.layout.record n) 16)
    (types : ∀ z : ZoneNo, zones'[z].type = zones[z].type)
    (cells : ∀ c ∈ b.layout.allCells, x.peek (b.layout.cellAt c) = u.peek (b.layout.cellAt c)) (classes : x.classes = u.classes) :
    x.attachNotices b zones live = u.attachNotices b zones' live := by
  have faults (n : Nat) (hn : n < b.layout.tableSize) : x.walkFault b.layout zones n = u.walkFault b.layout zones' n := by
    unfold State.walkFault
    rw [records n hn]
    simp only [types]
  have taken : x.takenCells b.layout = u.takenCells b.layout := State.taken_congr (l := b.layout) cells
  have all : ((List.range b.layout.tableSize).filterMap fun n =>
        (x.walkFault b.layout zones n).map fun what => (⟨.recordFault, n, 0, word what, 4⟩ : Notice))
      = (List.range b.layout.tableSize).filterMap fun n =>
        (u.walkFault b.layout zones' n).map fun what => (⟨.recordFault, n, 0, word what, 4⟩ : Notice) :=
    List.filterMap_congr fun n hn => by rw [faults n (List.mem_range.mp hn)]
  unfold State.attachNotices
  simp only
  rw [all, taken, classes]

/-! ### The attach as a whole (R170 to R172) -/

section
variable {u v y t : State} {b : LayoutBlock}

theorem LedgerAt.type {s L : State} {n : Nat} (h : LedgerAt s L n) (z : ZoneNo) :
    L.zones[z].type = s.zones[z].type ∧ L.zones[z].exposure = s.zones[z].exposure := by
  rw [h.zones]
  unfold State.walkedZone
  split
  · exact ⟨rfl, rfl⟩
  · exact ⟨rfl, rfl⟩

/-- The ledger where the walk ends (R171). -/
theorem Prepared.ledger (p : Prepared u v y b) :
    LedgerAt (y.setUp b) ((y.setUp b).walkLedger b.layout.tableSize) b.layout.tableSize := by
  have small := p.region.tableHigh
  rw [p.held.2.1] at small
  exact State.walkLedger_spec rfl rfl _ small

/-- The part where the walk begins. -/
theorem Prepared.setUp_frame (p : Prepared u v y b) : y.setUp b = { u with
    engineState := .attaching
    attachFail := .ok
    cacheSets := Vector.replicate 64 CacheSet.invalid
    layout := b.layout
    capacity := b.capacity
    zones := y.zones
    published := y.published
    written := y.written
    taken := y.taken
    lists := y.lists
    mem := y.mem
    watch := []
    dueQueue := []
    unwatched := 0
    elevated := if b.elevated ≤ 7 then some (Fin.ofNat 8 b.elevated) else none
    rotation := if b.rotation = 1 then .rotating else .fixed
    scanPeriod := b.scanPeriod
    maps := b.maps
    lastServed := 7
    batch := b.batch
    cursor := 0
    highest := Vector.replicate 8 0
    live := Vector.replicate 8 0
    clock := .unset } := by
  unfold State.setUp State.emptyPool
  rw [p.frame]

/-- The part where the attach ends, but for the notice unit, the causes, the lines and memory. -/
theorem Prepared.end_frame (p : Prepared u v y b) (h : WalkEnd (y.setUp b) t b) {L : State}
    (ledger : (y.setUp b).walkLedger b.layout.tableSize = L) : t = { u with
      engineState := .running
      attachFail := .ok
      cacheSets := Vector.replicate 64 CacheSet.invalid
      layout := b.layout
      capacity := b.capacity
      zones := L.zones
      published := y.published
      lists := y.lists
      watch := L.watch
      dueQueue := L.dueQueue
      unwatched := L.unwatched
      elevated := if b.elevated ≤ 7 then some (Fin.ofNat 8 b.elevated) else none
      rotation := if b.rotation = 1 then .rotating else .fixed
      scanPeriod := b.scanPeriod
      scanRunning := true
      maps := b.maps
      lastServed := 7
      batch := b.batch
      cursor := 0
      highest := L.highest
      live := L.live
      clock := .unset
      lines := t.lines
      mem := t.mem
      written := t.written
      taken := t.taken
      heldNotices := t.heldNotices
      logFull := t.logFull
      noticesDropped := t.noticesDropped
      causes := t.causes
      messages := t.messages } := by
  have frame := h.frame
  obtain ⟨running, scanning⟩ := h.running
  have layout : (y.setUp b).layout.tableSize = b.layout.tableSize := by rw [p.setUp_frame]
  rw [layout, ledger] at frame
  unfold WalkFrame at frame
  rw [running, scanning] at frame
  rw [p.setUp_frame] at frame
  exact frame

/-- What the walk and the end of the attach write lies apart from the records. -/
theorem RegionValid.walk_record {x : State} (h : RegionValid x) {n : Nat} (hn : n < x.layout.tableSize) :
    AllApart x.walkAreas (x.layout.record n, 64) := by
  obtain ⟨pageTable, pageLog, pageLists, tableLog, tableLists, logLists⟩ := h.areasApart
  have record := x.layout.record_within hn
  intro r hr
  simp only [State.walkAreas, State.noticeAreas, List.mem_cons, List.not_mem_nil, or_false] at hr
  unfold Apart at *
  rcases hr with rfl | rfl | rfl | rfl <;> simp only at * <;> omega

/-- The records stand as they stood before the attach (R171). -/
theorem Prepared.records (p : Prepared u v y b) (h : WalkEnd (y.setUp b) t b) {n : Nat} (hn : n < b.layout.tableSize) :
    t.peekWords (b.layout.record n) 16 = u.peekWords (b.layout.record n) 16 := by
  have layout : (y.setUp b).layout = b.layout := by rw [p.setUp_frame]
  have apart := (State.setUp_start p.region p.held.2.2.2 b).region.walk_record (n := n) (by rw [layout]; exact hn)
  rw [layout] at apart
  exact (h.bytes.peekWords h.frame.held.1 apart).trans (p.record hn)

/-- The records that the walk counts are those of the table before and after it. -/
theorem Prepared.found (p : Prepared u v y b) (h : WalkEnd (y.setUp b) t b) {n : Nat} (hn : n < b.layout.tableSize) :
    (y.setUp b).tableRecord b.layout n = u.tableRecord b.layout n ∧ t.tableRecord b.layout n = u.tableRecord b.layout n :=
  ⟨State.tableRecord_congr (p.record hn), State.tableRecord_congr (p.records h hn)⟩

/-- The live counts and the highest bake counts are those of the records (R14, R76). -/
theorem Prepared.counts (p : Prepared u v y b) (h : WalkEnd (y.setUp b) t b) (c : ClassNo) :
    t.live[c] = t.countRecords b.layout (fun a => a.state.isLive && decide (a.cls = c))
      ∧ (∀ (n : Nat) (a : Account), n < b.layout.tableSize → u.tableRecord b.layout n = some a → a.state.isLive = true → a.cls = c →
          a.bakeCount ≤ t.highest[c])
      ∧ (t.highest[c] = 0 ∨ ∃ (n : Nat) (a : Account), n < b.layout.tableSize ∧ u.tableRecord b.layout n = some a
          ∧ a.state.isLive = true ∧ a.cls = c ∧ a.bakeCount = t.highest[c]) := by
  have ledger := p.ledger
  have frame := p.end_frame h rfl
  have layout : (y.setUp b).layout = b.layout := by rw [p.setUp_frame]
  have live : (y.setUp b).live[c] = 0 := by rw [p.setUp_frame]; simp
  have highest : (y.setUp b).highest[c] = 0 := by rw [p.setUp_frame]; simp
  have found := fun n (hn : n < b.layout.tableSize) => p.found h hn
  have tlive : t.live[c] = ((y.setUp b).walkLedger b.layout.tableSize).live[c] := by rw [frame]
  have thighest : t.highest[c] = ((y.setUp b).walkLedger b.layout.tableSize).highest[c] := by rw [frame]
  generalize (y.setUp b).walkLedger b.layout.tableSize = L at ledger tlive thighest
  generalize y.setUp b = x at ledger layout live highest found
  obtain ⟨bound, -, attained⟩ := ledger.highest c
  rw [layout] at bound attained
  refine ⟨?_, fun n a hn record => ?_, ?_⟩
  · rw [tlive, ledger.live, live, Nat.zero_add, layout, ← State.countRecords_eq]
    exact State.countRecords_congr (fun n hn => (found n hn).1.trans (found n hn).2.symm) fun _ => rfl
  · rw [thighest]
    exact bound n a hn ((found n hn).1.trans record)
  · rw [thighest, ← highest]
    refine attained.imp_right fun ⟨n, a, hn, record, rest⟩ => ⟨n, a, hn, (found n hn).1.symm.trans record, rest⟩

/-- The pool is that of the records in defined zones, in index order (R120). -/
theorem Prepared.pool (p : Prepared u v y b) (h : WalkEnd (y.setUp b) t b) :
    t.watch.length + t.unwatched
        = t.countRecords b.layout (fun a =>
            (match a.zone with
             | some z => t.zones[z].defined
             | none => false) && t.eligible a)
      ∧ t.watch = (u.walkedPool t b.layout).watch ∧ t.dueQueue = (u.walkedPool t b.layout).dueQueue
      ∧ t.unwatched = (u.walkedPool t b.layout).unwatched := by
  have ledger := p.ledger
  have frame := p.end_frame h rfl
  have start := p.setUp_frame
  have found := fun n (hn : n < b.layout.tableSize) => p.found h hn
  have small := p.region.tableHigh
  rw [p.held.2.1] at small
  have layout : (y.setUp b).layout = b.layout := by rw [start]
  have classes : (y.setUp b).classes = t.classes := by rw [start, frame]
  have types (z : ZoneNo) : t.zones[z].defined = (y.setUp b).zones[z].defined := by
    rw [frame, ← State.walkedZone_defined (s := y.setUp b) (n := b.layout.tableSize), ← ledger.zones]
  have exposure (z : ZoneNo) : (y.setUp b).zones[z].exposure = t.zones[z].exposure := by
    rw [frame, ← State.walkedZone_exposure (s := y.setUp b) (n := b.layout.tableSize), ← ledger.zones]
  have same : SamePool (u.walkedPool t (y.setUp b).layout) ((y.setUp b).walkLedger (y.setUp b).layout.tableSize) :=
    State.walkedPool_same rfl rfl rfl classes types exposure
      (fun n hn => by rw [layout] at hn ⊢; exact (found n hn).1.symm) (by rw [layout]; exact small)
  rw [layout] at same
  have watch : t.watch = ((y.setUp b).walkLedger b.layout.tableSize).watch := by rw [frame]
  have dueQueue : t.dueQueue = ((y.setUp b).walkLedger b.layout.tableSize).dueQueue := by rw [frame]
  have unwatched : t.unwatched = ((y.setUp b).walkLedger b.layout.tableSize).unwatched := by rw [frame]
  have placed (a : Account) : (y.setUp b).placed a = (match a.zone with
      | some z => t.zones[z].defined
      | none => false) := by
    cases zone : a.zone with
    | none => exact State.placed_none zone
    | some z => exact (State.placed_some zone).trans (types z).symm
  have eligible (a : Account) : (y.setUp b).eligible a = t.eligible a := by
    unfold State.eligible State.inForce
    rw [classes]
  refine ⟨?_, watch.trans same.watch, dueQueue.trans same.dueQueue, unwatched.trans same.unwatched⟩
  rw [watch, unwatched, ledger.watched, layout, ← State.countRecords_eq]
  exact State.countRecords_congr (fun n hn => (found n hn).1.trans (found n hn).2.symm) fun a => by rw [placed, eligible]

/-- The cells TAKEN stand completed ABANDONED, and CELL_DONE is set if one of them asks for it (R172). -/
theorem Prepared.cells (p : Prepared u v y b) (h : WalkEnd (y.setUp b) t b) :
    (∀ c : ListNo × Nat, c.2 < b.layout.cellsPerList →
        CellWalked (u.peekWords (b.layout.cellAt c) 16) (t.peekWords (b.layout.cellAt c) 16))
      ∧ ∀ i, 2 ≤ i → i ≠ 3 → t.causes.getLsbD i
          = (u.causes.getLsbD i || (decide (i = 2) && b.layout.allCells.any fun c => u.asksAt (b.layout.cellAt c))) := by
  have layout : (y.setUp b).layout = b.layout := by rw [p.setUp_frame]
  have cells := h.cells
  have causes := h.causes
  rw [layout] at cells causes
  have before : (y.setUp b).causes = u.causes := by rw [p.setUp_frame]
  have words (c : ListNo × Nat) (hc : c.2 < b.layout.cellsPerList) :
      (y.setUp b).peekWords (b.layout.cellAt c) 16 = u.peekWords (b.layout.cellAt c) 16 := p.cell hc
  refine ⟨fun c hc => ?_, fun i hi other => ?_⟩
  · have own := cells c hc
    rwa [words c hc] at own
  · rw [causes i hi other, before,
      State.asks_congr fun c hc => State.peek_of_words (words c ((b.layout.mem_allCells c).mp hc))]

/-- CELL_DONE is asked for by some cell found TAKEN (R172). -/
theorem State.any_asks (u : State) (l : Layout) : (l.allCells.any fun c => u.asksAt (l.cellAt c)) = true ↔
    ∃ c ∈ u.takenCells l, (u.peek (l.cell c.1 c.2)).getLsbD 16 = true := by
  have mem (c : ListNo × Nat) : c ∈ u.takenCells l ↔ c ∈ l.allCells ∧ u.takenAt (l.cellAt c) = true := List.mem_filter
  rw [List.any_eq_true]
  refine exists_congr fun c => ?_
  rw [mem, State.asksAt, Bool.and_eq_true, and_assoc]
  rfl

/-- The notices of the attach go to the unit as it was set up (R172). -/
theorem Prepared.notices (p : Prepared u v y b) (h : WalkEnd (y.setUp b) t b) :
    NoticesGo v t (u.attachNotices b t.zones t.live) := by
  have ledger := p.ledger
  have frame := p.end_frame h rfl
  have types (z : ZoneNo) : t.zones[z].type = (y.setUp b).zones[z].type := by
    rw [frame]
    exact (ledger.type z).1
  have classes : (y.setUp b).classes = u.classes := by rw [p.setUp_frame]
  have view : SameView v (y.setUp b) :=
    ⟨p.view.sound, p.view.room, p.view.base, p.view.layout, p.view.capacity, p.view.counts, p.view.held, p.view.flags,
      p.view.causes, p.view.bytes⟩
  rw [← State.attachNotices_congr (x := y.setUp b) (fun n hn => p.record hn) types
    (fun c hc => State.peek_of_words (p.cell ((b.layout.mem_allCells c).mp hc))) classes]
  exact h.notices.of_view view

/-- The region in service after the attach is a valid one. -/
theorem Prepared.validAfter (p : Prepared u v y b) (h : WalkEnd (y.setUp b) t b) : RegionValid t := by
  have frame := p.end_frame h rfl
  have lists : t.lists = y.lists := by rw [frame]
  refine p.region.of_eq ?_ ?_ (fun k => ?_) fun q e => ?_
  · rw [frame, p.held.2.1]
  · rw [frame, p.held.2.2.1]
  · rw [lists]
    exact p.region.next k
  · have none : t.prog = none := by rw [frame]; exact p.prog
    rw [none] at e
    cases e

/-- What an attach that succeeds leaves, by the region prepared and by the walk and the end (R170 to R172). -/
theorem Prepared.attached (p : Prepared u v y b) (h : WalkEnd (y.setUp b) t b) : Attached u v t b := by
  have frame := p.end_frame h rfl
  have start := p.setUp_frame
  obtain ⟨watched, pool⟩ := p.pool h
  obtain ⟨cells, causes⟩ := p.cells h
  have lists : t.lists = y.lists := by rw [frame]
  have layout : (y.setUp b).layout = b.layout := by rw [start]
  refine
    { running := h.running.1
      code := by rw [frame]
      ended := h.ended
      clock := by rw [frame]
      held := h.lines
      layout := by rw [frame]
      capacity := by rw [frame]
      valid := p.validAfter h
      intake := ⟨?elevated, by rw [frame], by rw [frame], by rw [frame], by rw [frame], h.running.2, fun k => ?eligible⟩
      patrol := ⟨by rw [frame], by rw [frame]⟩
      cache := ⟨by rw [frame], fun i => ?sets⟩
      live := fun c => (p.counts h c).1
      highest := fun c => (p.counts h c).2
      watched := watched
      pool := pool
      records := fun n hn => p.records h hn
      cells := fun k i hi => cells (k, i) hi
      cellDone := ?cellDone
      fault := ?fault
      notices := p.notices h
      shown := ?shown
      kept := ?kept }
  case elevated =>
    have elevated : t.elevated = if b.elevated ≤ 7 then some (Fin.ofNat 8 b.elevated) else none := by rw [frame]
    rw [elevated]
    by_cases low : b.elevated ≤ 7
    · rw [if_pos low, dif_pos low]
      exact congrArg some (Fin.ext (Nat.mod_eq_of_lt (by omega)))
    · rw [if_neg low, dif_neg low]
  case eligible =>
    rw [lists]
    exact (p.lists k).1
  case sets =>
    have sets : t.cacheSets = Vector.replicate 64 CacheSet.invalid := by rw [frame]
    rw [sets]
    simp
  case cellDone =>
    rw [causes 2 (by omega) (by omega), Bool.or_eq_true, decide_eq_true rfl, Bool.true_and, State.any_asks]
  case fault =>
    rw [causes 4 (by omega) (by omega)]
    simp
  case shown =>
    have shown := h.shown
    have resets : (y.setUp b).resetCauses = u.resetCauses := by rw [start]
    have setLists : (y.setUp b).lists = t.lists := by rw [start, lists]
    have indices (i : Fin 2) : (y.setUp b).indexWord i = t.indexWord i := indexWord_congr i fun j => by rw [setLists]
    rw [layout, resets, indices, indices] at shown
    exact shown
  case kept =>
    generalize (y.setUp b).walkLedger b.layout.tableSize = L at frame
    rw [frame]

end

end Sys2Proof.Machine
end

-- ==== Proofs: attaches that initialize the region ====
section
/-! START in IDLE over a layout block in range, with FRESH set: the region is initialized, then walked (O9). -/

namespace Sys2Proof.Machine

/-! ### The layout block (R170) -/

theorem allApart_of_pairwise {areas : List (Nat × Nat)} (h : areas.Pairwise fun r q => r.1 + r.2 ≤ q.1 ∨ q.1 + q.2 ≤ r.1) :
    allApart areas = true := by
  induction h with
  | nil => rfl
  | cons first _ ih =>
    unfold allApart
    rw [ih, Bool.and_true, List.all_eq_true]
    intro q hq
    simpa [Machine.apart] using first q hq

/-- A layout block with every field in its range is the one an attach accepts (R170). -/
theorem LayoutBlock.InRange.valid {b : LayoutBlock} (h : b.InRange) : b.valid = true := by
  have cells : b.layout.cellsPerList ∈ cellCounts := by
    obtain ⟨i, low, high, e⟩ := h.cells
    rw [e]
    interval_cases i <;> decide
  have log : b.capacity ∈ logCapacities := by
    obtain ⟨i, low, high, e⟩ := h.log
    rw [e]
    interval_cases i <;> decide
  have maps : mapsInRange b.maps = true := by
    unfold mapsInRange
    rw [Vector.toList_eq_map, List.all_eq_true]
    intro m hm
    obtain ⟨k, -, rfl⟩ := List.mem_map.mp hm
    exact decide_eq_true (h.maps k)
  have multiples := h.multiples
  have within := h.within
  unfold LayoutBlock.valid
  simp only [Bool.and_eq_true, Bool.or_eq_true, List.all_eq_true, decide_eq_true_eq]
  have rotation : b.rotation ≤ 1 := by rcases h.rotation with e | e <;> omega
  exact ⟨⟨⟨⟨⟨⟨⟨⟨⟨⟨⟨⟨multiples, h.table.1⟩, h.table.2⟩, cells⟩, log⟩, h.batch⟩, h.period.1⟩, h.period.2⟩, h.elevated⟩, rotation⟩,
    maps⟩, within⟩, allApart_of_pairwise h.apart⟩

/-! ### The command (R143, R169, R170) -/

/-- The part as an attach begins, from the part with the host's stores made (R143, R169). -/
def State.attachBegun (u : State) : State := { u.invalidateCache with engineState := .attaching, attachFail := .ok }

/-- START in IDLE is an attach over the part with the host's stores made (R169, R170). -/
theorem exec_start {s t : State} (stores : HostStores) (enables : BitVec 5) (idle : s.engineState = .idle)
    (run : attach ({ s with mem := s.mem.land stores, enables := enables }).attachBegun = .ok () t) :
    exec (.start stores enables) s = .next t.drive := by
  have begins : (do landStores stores; storeEnables enables; startCommand : Act Unit) s = .ok () t := by
    unfold landStores storeEnables startCommand
    rw [Act.modify_bind, Act.modify_bind, Act.get_bind, if_pos idle, Act.modify_bind]
    exact run
  exact conclude_ok begins

/-- An attach over a valid layout block, once the region is initialized or loaded (R170). -/
theorem attach_run {u y t : State} {b : LayoutBlock} (block : b = layoutBlockOf (u.peekWords 0 42)) (sound : u.failing = none)
    (valid : b.valid = true)
    (prepared : if b.fresh then attachFresh b.capacity (u.peek 32) { u.attachBegun with layout := b.layout } = .ok () y
      else attachLoaded b.capacity { u.attachBegun with layout := b.layout } = .ok true y)
    (finished : finishAttach b y = .ok () t) : attach u.attachBegun = .ok () t := by
  have read : regionRead 0 42 u.attachBegun = .ok (u.peekWords 0 42) u.attachBegun :=
    regionRead_ok (s := u.attachBegun) sound 0 42
  have flag : (u.peekWords 0 42)[8] = u.peek 32 := State.getElem_peekWords u 0 42 8 (by omega)
  unfold attach
  rw [Act.bind_ok read, ← block, flag]
  rw [if_pos valid, Act.modify_bind]
  by_cases fresh : b.fresh = true
  · rw [if_pos fresh] at prepared ⊢
    exact (Act.bind_ok prepared).trans finished
  · rw [if_neg fresh] at prepared ⊢
    exact (Act.bind_ok prepared).trans finished

/-! ### FRESH set: the region initialized (R69, R145, R161, R170) -/

/-- The part as a FRESH attach sets it up, before it writes the region. -/
def State.freshBegun (u : State) (b : LayoutBlock) : State :=
  { u.attachBegun with
    layout := b.layout
    zones := Vector.replicate 64 Zone.undefined
    published := noWord
    written := 0
    taken := 0
    capacity := b.capacity
    lists := freshLists fun _ => 0 }

/-- The zone page written. -/
def State.freshPage (u : State) (b : LayoutBlock) : State :=
  (u.freshBegun b).pagePoked (u.freshBegun b).zones (u.freshBegun b).published (List.finRange 64)

/-- The control page and the flag word written, over a zone page that stands. -/
def State.freshEnds (z : State) (flag : Word) : State :=
  (z.poke z.layout.controlPage z.freshControlPage).poke 32 [freshCleared flag]

theorem State.freshPage_frame (u : State) (b : LayoutBlock) :
    u.freshPage b = { u.freshBegun b with mem := (u.freshPage b).mem } := State.pagePoked_frame ..

/-- A FRESH attach writes the region from the part it has set up. -/
theorem attachFresh_eq (u : State) (b : LayoutBlock) (flag : Word) :
    attachFresh b.capacity flag { u.attachBegun with layout := b.layout } = (do
      writeZonePage (u.freshBegun b).zones (u.freshBegun b).published
      let s ← get
      regionWrite s.layout.controlPage s.freshControlPage
      regionWrite 32 [freshCleared flag] : Act Unit) (u.freshBegun b) := rfl

theorem freshWrites_run {z : State} (sound : z.failing = none) (flag : Word) : (do
      let s ← get
      regionWrite s.layout.controlPage s.freshControlPage
      regionWrite 32 [freshCleared flag] : Act Unit) z = .ok () (z.freshEnds flag) := by
  have later : (z.poke z.layout.controlPage z.freshControlPage).failing = none := sound
  rw [Act.get_bind, Act.bind_ok (regionWrite_ok sound _ _), regionWrite_ok later]
  rfl

theorem attachFresh_run {u : State} (sound : u.failing = none) (b : LayoutBlock) (flag : Word) :
    attachFresh b.capacity flag { u.attachBegun with layout := b.layout } = .ok () ((u.freshPage b).freshEnds flag) := by
  have page := writeZonePage_ok (s := u.freshBegun b) sound (u.freshBegun b).zones (u.freshBegun b).published
  have later : (u.freshPage b).failing = none := by rw [u.freshPage_frame b]; exact sound
  rw [attachFresh_eq, Act.bind_ok page]
  exact freshWrites_run later flag

theorem State.freshPage_keeps (u : State) (b : LayoutBlock) : KeepsBytes u (u.freshPage b) [(b.layout.zonePage, 12352)] := by
  have keeps := (u.freshBegun b).pagePoked_keeps (u.freshBegun b).zones (u.freshBegun b).published (List.finRange 64)
  unfold State.freshPage
  generalize (u.freshBegun b).pagePoked (u.freshBegun b).zones (u.freshBegun b).published (List.finRange 64) = z at keeps
  exact keeps

theorem State.freshPage_shown (u : State) (b : LayoutBlock) : ZonePageShown (u.freshPage b) := by
  have shown := (u.freshBegun b).pagePoked_shown (u.freshBegun b).zones (u.freshBegun b).published
  have frame := (u.freshBegun b).pagePoked_frame (u.freshBegun b).zones (u.freshBegun b).published (List.finRange 64)
  unfold State.freshPage
  generalize (u.freshBegun b).pagePoked (u.freshBegun b).zones (u.freshBegun b).published (List.finRange 64) = z at shown frame
  have same : { z with zones := (u.freshBegun b).zones, published := (u.freshBegun b).published } = z := by rw [frame]
  rwa [same] at shown

section
variable (z : State) (flag : Word)

theorem State.freshEnds_frame : z.freshEnds flag = { z with mem := (z.freshEnds flag).mem } := rfl

theorem State.freshControlPage_length : z.freshControlPage.length = 16 := rfl

theorem State.freshEnds_keeps :
    KeepsBytes z (z.freshEnds flag) [(32, 4), (z.layout.controlPage, 64)] := by
  unfold State.freshEnds
  exact (KeepsBytes.poke ⟨(z.layout.controlPage, 64), by simp, by simp, by simp [State.freshControlPage_length]⟩).trans rfl
    (.poke ⟨(32, 4), by simp, by simp, by simp⟩)

/-- A word of the control page of a FRESH attach. -/
theorem State.freshEnds_peek (apart : Apart (0, 168) (z.layout.controlPage, 64)) {i : Nat} (hi : i < 16) :
    (z.freshEnds flag).peek (z.layout.controlPage + 4 * i) = z.freshControlPage.getD i 0 := by
  unfold Apart at apart
  unfold State.freshEnds
  rw [State.peek_poke_apart (by simp only [List.length_cons, List.length_nil] at *; omega),
    State.peek_poke _ _ _ i (by rw [State.freshControlPage_length]; exact hi)]

theorem State.freshEnds_flag : (z.freshEnds flag).peek 32 = freshCleared flag := State.peek_poke _ 32 _ 0 (by simp)

end

/-- A run of words and the bytes of its start: what is written after them does not show. -/
theorem read_store_prefix {m m' : Memory} {a x : Nat} {ws ws' : List Word} (low : a ≤ x) (high : x < a + 4 * ws.length) :
    (m.store a (wordsBytes (ws ++ ws'))).read x = (m'.store a (wordsBytes ws)).read x := by
  have bytes : wordsBytes (ws ++ ws') = wordsBytes ws ++ wordsBytes ws' := List.flatMap_append
  rw [Memory.read_store, Memory.read_store, if_pos (by rw [wordsBytes_length, List.length_append]; omega),
    if_pos (by rw [wordsBytes_length]; omega), bytes]
  exact List.getD_append _ _ _ _ (by rw [wordsBytes_length]; omega)

/-- The notice unit as a FRESH attach sets it: W, T and the held count 0 in the control page too (R145). -/
def State.freshUnit (u : State) (b : LayoutBlock) : State :=
  { u with layout := b.layout, capacity := b.capacity, written := 0, taken := 0 }.poke b.layout.controlPage [0, 0, 0]

/-- The zone page of a FRESH attach stands written, and nothing else has changed since the part was set up. -/
structure FreshPaged (u z : State) (b : LayoutBlock) : Prop where
  frame : z = { u.freshBegun b with mem := z.mem }
  keeps : KeepsBytes u z [(b.layout.zonePage, 12352)]

section
variable {u z : State} {b : LayoutBlock}

theorem FreshPaged.held (h : FreshPaged u z b) : z.base = u.base ∧ z.layout = b.layout ∧ z.capacity = b.capacity
    ∧ z.failing = u.failing ∧ z.prog = u.prog ∧ z.lists = freshLists fun _ => 0 := by
  unfold State.base
  rw [h.frame]
  exact ⟨rfl, rfl, rfl, rfl, rfl, rfl⟩

theorem FreshPaged.region (h : FreshPaged u z b) (valid : b.valid = true) (prog : u.prog = none) : RegionValid z := by
  obtain ⟨-, layout, capacity, -, program, lists⟩ := h.held
  refine .of_block valid layout capacity (fun k => ?_) (program.trans prog)
  rw [lists, layout, freshLists_next]
  exact layoutValid_cells_pos valid

theorem FreshPaged.unit (h : FreshPaged u z b) : z.written = 0 ∧ z.taken = 0 ∧ z.heldNotices = u.heldNotices
    ∧ z.logFull = u.logFull ∧ z.noticesDropped = u.noticesDropped ∧ z.causes = u.causes := by
  rw [h.frame]
  exact ⟨rfl, rfl, rfl, rfl, rfl, rfl⟩

theorem State.freshEnds_lists (z : State) (flag : Word) : (z.freshEnds flag).lists = z.lists := rfl

/-- The notice unit after a FRESH attach has set its region up (R145). -/
theorem FreshPaged.view (h : FreshPaged u z b) (valid : b.valid = true) (prog : u.prog = none) (sound : u.failing = none)
    (flag : Word) : SameView (u.freshUnit b) (z.freshEnds flag) := by
  obtain ⟨base, layout, capacity, failing, -, -⟩ := h.held
  have region := h.region valid prog
  obtain ⟨blockControl, -, -, blockLog, -, controlZone, -, zoneLog, -⟩ := region.pagesApart
  have controlLog := region.areasApart.pageLog
  have room := region.capacity_dvd.1
  have ended := z.freshEnds_frame flag
  have keeps := z.freshEnds_keeps flag
  rw [layout] at blockControl blockLog controlZone zoneLog controlLog keeps
  rw [capacity] at blockLog zoneLog controlLog room
  unfold Apart at *
  simp only at *
  have ebase : (z.freshEnds flag).base = u.base := base
  obtain ⟨written, taken, held, full, dropped, causes⟩ := h.unit
  refine ⟨⟨sound, failing.trans sound⟩, room, ebase, layout, capacity, ?counts, ?held, ?flags, ?causes, fun r hr x low high => ?bytes⟩
  case counts => exact ⟨written, taken⟩
  case held => exact held
  case flags => exact ⟨full, dropped⟩
  case causes => exact fun i _ => congrArg (BitVec.getLsbD · i) causes
  case bytes =>
    have shape : (u.freshUnit b).unitPlaces = [(b.layout.controlPage, 12), (b.layout.noticeLog, 16 * b.capacity)] := rfl
    have places : r = (b.layout.controlPage, 12) ∨ r = (b.layout.noticeLog, 16 * b.capacity) := by
      rw [shape] at hr
      simpa using hr
    have ubase : (u.freshUnit b).base = u.base := rfl
    rw [ubase] at low high
    rcases places with rfl | rfl
    · have last : (z.freshEnds flag).mem.read x = (z.poke b.layout.controlPage z.freshControlPage).mem.read x := by
        unfold State.freshEnds
        rw [layout]
        refine Memory.read_store_apart ?_
        have flagBase : (z.poke b.layout.controlPage z.freshControlPage).base = u.base := base
        rw [wordsBytes_length, flagBase]
        simp only [List.length_cons, List.length_nil] at *
        omega
      have page : z.freshControlPage = [0, 0, 0] ++ (z.controlWords ++ [z.indexWord 0, z.indexWord 1] ++ List.replicate 7 0) := by
        simp [State.freshControlPage]
      rw [last, page]
      show (z.mem.store (z.base + _) _).read x = (u.mem.store (u.base + _) _).read x
      rw [base]
      exact read_store_prefix low high
    · have clear : AllApart [(32, 4), (b.layout.controlPage, 64)] (b.layout.noticeLog, 16 * b.capacity)
          ∧ AllApart [(b.layout.zonePage, 12352)] (b.layout.noticeLog, 16 * b.capacity) := by
        refine ⟨fun q hq => ?_, fun q hq => ?_⟩
        all_goals
          simp only [List.mem_cons, List.not_mem_nil, or_false] at hq
          unfold Apart
        · rcases hq with rfl | rfl <;> simp only <;> omega
        · subst hq
          simp only
          omega
      rw [keeps.read clear.1 (by rw [base]; exact low) (by rw [base]; exact high), h.keeps.read clear.2 low high]
      refine (Memory.read_store_apart ?_).symm
      rw [wordsBytes_length]
      have sameBase : State.base { u with layout := b.layout, capacity := b.capacity, written := 0, taken := 0 } = u.base := rfl
      rw [sameBase]
      simp only [List.length_cons, List.length_nil] at *
      omega

/-- A FRESH attach has prepared its region (R69, R145, R161, R170). -/
theorem FreshPaged.prepared (h : FreshPaged u z b) (sound : u.failing = none) (prog : u.prog = none) (valid : b.valid = true)
    (flag : Word) : Prepared u (u.freshUnit b) (z.freshEnds flag) b := by
  obtain ⟨base, layout, capacity, failing, -, lists⟩ := h.held
  have ends := z.freshEnds_keeps flag
  rw [layout] at ends
  refine ⟨valid, ?frame, sound, prog, fun k => ?lists, h.view valid prog sound flag, ?keeps⟩
  case frame =>
    have ended := z.freshEnds_frame flag
    have frame := h.frame
    generalize z.freshEnds flag = y at ended
    unfold State.freshBegun State.attachBegun State.invalidateCache at frame
    rw [ended, frame]
  case lists =>
    rw [State.freshEnds_lists, lists, freshLists_next]
    exact ⟨rfl, layoutValid_cells_pos valid⟩
  case keeps =>
    exact (h.keeps.mono (by simp)).trans base (ends.mono (by simp))

end

/-! ### What the end of an attach leaves of the pages -/

section
variable {u v y t : State} {b : LayoutBlock}

/-- What the walk and the end of the attach write, by the layout block's areas. -/
def LayoutBlock.walkAreas (b : LayoutBlock) : List (Nat × Nat) :=
  [(b.layout.controlPage + 12, 24), (b.layout.intakeLists, 8 * b.layout.cellsPerList * 64), (b.layout.controlPage + 4, 8),
    (b.layout.noticeLog, 16 * b.capacity)]

theorem Prepared.after (p : Prepared u v y b) (h : WalkEnd (y.setUp b) t b) : KeepsBytes y t b.walkAreas ∧ t.base = y.base := by
  have bytes := h.bytes
  have layout : (y.setUp b).layout = b.layout := p.held.2.1
  have capacity : (y.setUp b).capacity = b.capacity := p.held.2.2.1
  have areas : (y.setUp b).walkAreas = b.walkAreas := by
    unfold State.walkAreas State.noticeAreas LayoutBlock.walkAreas
    rw [layout, capacity]
  rw [areas] at bytes
  exact ⟨bytes, h.frame.held.1⟩

/-- The zones after the walk: their counts are those of the records (R171). -/
theorem Prepared.zones (p : Prepared u v y b) (h : WalkEnd (y.setUp b) t b) (z : ZoneNo) : t.zones[z]
    = if y.zones[z].defined then
        { y.zones[z] with
          occupancy := y.zones[z].occupancy + u.countRecords b.layout fun a => decide (a.zone = some z)
          expiredPresent := y.zones[z].expiredPresent
            + u.countRecords b.layout fun a => decide (a.zone = some z) && a.flags.expired }
      else y.zones[z] := by
  have ledger := p.ledger
  have frame := p.end_frame h rfl
  have layout : (y.setUp b).layout = b.layout := p.held.2.1
  have zones : (y.setUp b).zones = y.zones := rfl
  have count (q : Account → Bool) : (y.setUp b).countBefore b.layout b.layout.tableSize q = u.countRecords b.layout q := by
    rw [← State.countRecords_eq]
    exact State.countRecords_congr (fun n hn => (p.found h hn).1) fun _ => rfl
  have tzones : t.zones[z] = ((y.setUp b).walkLedger b.layout.tableSize).zones[z] := by rw [frame]
  rw [tzones, ledger.zones, State.walkedZone, layout, zones, count, count]

/-- The zone page stands where no defined zone was there to be counted. -/
theorem Prepared.pageShown (p : Prepared u v y b) (h : WalkEnd (y.setUp b) t b) (shown : ZonePageShown y)
    (undefined : ∀ z : ZoneNo, t.zones[z] = y.zones[z]) : ZonePageShown t := by
  obtain ⟨keeps, base⟩ := p.after h
  have frame := p.end_frame h rfl
  obtain ⟨-, layout, capacity, -⟩ := p.held
  obtain ⟨-, -, -, -, -, controlZone, -, zoneLog, zoneLists⟩ := p.region.pagesApart
  rw [layout] at controlZone zoneLog zoneLists
  rw [capacity] at zoneLog
  have tlayout : t.layout = y.layout := by rw [frame, layout]
  have published : t.published = y.published := by rw [frame]
  refine shown.of_keeps keeps base tlayout (fun r hr => ?_) (fun z => by rw [undefined]) published
  rw [layout]
  unfold LayoutBlock.walkAreas at hr
  simp only [List.mem_cons, List.not_mem_nil, or_false] at hr
  unfold Apart at *
  rcases hr with rfl | rfl | rfl | rfl <;> simp only at * <;> omega

end

/-- The region as a FRESH attach has written it, where the walk begins (R69, R145, R161, R170). -/
structure FreshShown (u y : State) (b : LayoutBlock) : Prop where
  zones : ∀ z : ZoneNo, y.zones[z] = Zone.undefined
  published : y.published = noWord
  next : ∀ k : ListNo, y.lists[k].next = 0
  page : ZonePageShown y
  taken : y.peek b.layout.controlPage = 0
  rest : y.peekWords (b.layout.controlPage + 36) 7 = Vector.replicate 7 0
  flag : y.peek 32 = freshCleared (u.peek 32)

theorem FreshPaged.shown {u z : State} {b : LayoutBlock} (h : FreshPaged u z b) (valid : b.valid = true) (prog : u.prog = none)
    (page : ZonePageShown z) : FreshShown u (z.freshEnds (u.peek 32)) b := by
  obtain ⟨base, layout, capacity, failing, -, lists⟩ := h.held
  obtain ⟨blockControl, -, -, -, -, controlZone, -, -, -⟩ := (h.region valid prog).pagesApart
  obtain ⟨-, blockZone, -, -, -, -, -, -, -⟩ := (h.region valid prog).pagesApart
  have zones : z.zones = Vector.replicate 64 Zone.undefined := by rw [h.frame]; rfl
  have published : z.published = noWord := by rw [h.frame]; rfl
  have keeps := z.freshEnds_keeps (u.peek 32)
  have word {i : Nat} (hi : i < 16) := z.freshEnds_peek (u.peek 32) blockControl hi
  rw [layout] at word
  refine ⟨fun y => ?zones, published, fun k => ?next, ?page, ?taken, ?rest, z.freshEnds_flag _⟩
  case zones =>
    show z.zones[y] = _
    rw [zones]
    simp
  case next =>
    rw [State.freshEnds_lists, lists, freshLists_next]
  case page =>
    refine page.of_keeps keeps rfl rfl (fun r hr => ?_) (fun _ => rfl) rfl
    simp only [List.mem_cons, List.not_mem_nil, or_false] at hr
    unfold Apart at *
    rcases hr with rfl | rfl <;> simp only at * <;> omega
  case taken => exact word (i := 0) (by omega)
  case rest =>
    refine Vector.ext fun i hi => ?_
    rw [State.getElem_peekWords _ _ _ _ hi, show b.layout.controlPage + 36 + 4 * i = b.layout.controlPage + 4 * (9 + i) by omega,
      word (by omega)]
    unfold State.freshControlPage
    rw [List.getD_append_right _ _ _ _ (Nat.le_add_right 9 i), Vector.getElem_replicate]
    show (List.replicate 7 (0 : Word)).getD (9 + i - 9) 0 = 0
    rw [Nat.add_sub_cancel_left]
    exact List.getD_replicate _ hi

/-- A FRESH attach over a valid layout block succeeds, and the region stands initialized (R69, R170 to R172). -/
theorem freshAttach_leaves {u : State} {b : LayoutBlock} (block : b = layoutBlockOf (u.peekWords 0 42)) (sound : u.failing = none)
    (prog : u.prog = none) (valid : b.valid = true) (fresh : b.fresh = true) :
    ∃ t y, attach u.attachBegun = .ok () t ∧ Prepared u (u.freshUnit b) y b ∧ FreshShown u y b
      ∧ WalkEnd (y.setUp b) t.drive b := by
  have paged : FreshPaged u (u.freshPage b) b := ⟨u.freshPage_frame b, u.freshPage_keeps b⟩
  have page := u.freshPage_shown b
  have run := attachFresh_run sound b (u.peek 32)
  generalize u.freshPage b = z at paged page run
  have prepared := paged.prepared sound prog valid (u.peek 32)
  have shown := paged.shown valid prog page
  generalize z.freshEnds (u.peek 32) = y at prepared shown run
  obtain ⟨-, layout, -, failing⟩ := prepared.held
  obtain ⟨t, finished, ends⟩ := finishAttach_run prepared.region failing layout.symm
  exact ⟨t, y, attach_run block sound valid (by rw [if_pos fresh]; exact run) finished, prepared, shown, ends⟩

/-- What of the region initialized stands at the end of the attach (R69, R170). -/
theorem FreshShown.after {u v y t : State} {b : LayoutBlock} (f : FreshShown u y b) (p : Prepared u v y b)
    (h : WalkEnd (y.setUp b) t b) : FreshShown u t b := by
  obtain ⟨keeps, base⟩ := p.after h
  have frame := p.end_frame h rfl
  obtain ⟨-, layout, capacity, -⟩ := p.held
  obtain ⟨blockControl, -, -, blockLog, blockLists, -, -, -, -⟩ := p.region.pagesApart
  obtain ⟨-, controlLog, controlLists, -, -, -⟩ := p.region.areasApart
  rw [layout] at blockControl blockLog blockLists controlLog controlLists
  rw [capacity] at blockLog controlLog
  have lists : t.lists = y.lists := by rw [frame]
  have published : t.published = y.published := by rw [frame]
  have zones (z : ZoneNo) : t.zones[z] = y.zones[z] := by
    have undefined : y.zones[z].defined = false := by rw [f.zones]; rfl
    rw [p.zones h, undefined, if_neg (by decide)]
  have clear {q : Nat × Nat} (place : q = (b.layout.controlPage, 4) ∨ q = (b.layout.controlPage + 36, 4 * 7) ∨ q = (32, 4)) :
      AllApart b.walkAreas q := by
    intro r hr
    unfold LayoutBlock.walkAreas at hr
    simp only [List.mem_cons, List.not_mem_nil, or_false] at hr
    unfold Apart at *
    rcases place with rfl | rfl | rfl <;> rcases hr with rfl | rfl | rfl | rfl <;> simp only at * <;> omega
  exact
    { zones := fun z => (zones z).trans (f.zones z)
      published := published.trans f.published
      next := fun k => by rw [lists]; exact f.next k
      page := p.pageShown h f.page zones
      taken := (keeps.peek base (clear (.inl rfl))).trans f.taken
      rest := (keeps.peekWords base (clear (.inr (.inl rfl)))).trans f.rest
      flag := (keeps.peek base (clear (.inr (.inr rfl)))).trans f.flag }

/-- The bytes that an attach changes (R69, R170 to R172). -/
theorem Prepared.bytes {u v y t : State} {b : LayoutBlock} (p : Prepared u v y b) (h : WalkEnd (y.setUp b) t b) :
    KeepsBytes u t [(32, 4), (b.layout.controlPage, 64), (b.layout.zonePage, 12352), (b.layout.noticeLog, 16 * b.capacity),
      (b.layout.intakeLists, 8 * b.layout.cellsPerList * 64)] := by
  refine (p.keeps.mono (by simp)).trans p.held.1 ((p.after h).1.widen fun r hr => ?_)
  unfold LayoutBlock.walkAreas at hr
  simp only [List.mem_cons, List.not_mem_nil, or_false] at hr
  rcases hr with rfl | rfl | rfl | rfl
  · exact ⟨(b.layout.controlPage, 64), by simp, by simp, by simp⟩
  · exact ⟨(b.layout.intakeLists, 8 * b.layout.cellsPerList * 64), by simp, Nat.le_refl _, Nat.le_refl _⟩
  · exact ⟨(b.layout.controlPage, 64), by simp, by simp, by simp⟩
  · exact ⟨(b.layout.noticeLog, 16 * b.capacity), by simp, Nat.le_refl _, Nat.le_refl _⟩

/-- Settles O9: the region is initialized, then walked. -/
theorem freshAttachInitializesTheRegion : Obligations.FreshAttachInitializesTheRegion := by
  intro s stores enables b u v idle sound prog range fresh
  have block : b = layoutBlockOf (u.peekWords 0 42) := rfl
  obtain ⟨t, y, run, prepared, begun, ends⟩ := freshAttach_leaves block sound prog range.valid fresh
  have shown := begun.after prepared ends
  have attached := prepared.attached ends
  have bytes := prepared.bytes ends
  refine ⟨t.drive, exec_start stores enables idle run, attached, shown.zones, shown.published, shown.page, shown.next, ?_, ?_,
    shown.flag, bytes⟩
  · rw [attached.layout]
    exact shown.taken
  · rw [attached.layout]
    exact shown.rest

end Sys2Proof.Machine
end

-- ==== Proofs: attaches over pages that stand ====
section
/-! An attach with FRESH clear: the zone page read and checked, the indices and counts taken from the control page (O11). -/

namespace Sys2Proof.Machine

/-! ### The pages read (R66, R67, R159) -/

/-- The entries read one after the other are those of the page, and each else stays (R159). -/
theorem readEntries_run {s : State} (sound : s.failing = none) (zs : List ZoneNo) (v : Vector (Vector Word 48) 64) :
    ∃ v', readEntries zs v s = .ok v' s
      ∧ ∀ z : ZoneNo, v'[z] = if z ∈ zs then s.peekWords (s.layout.zoneEntry z.val) 48 else v[z] := by
  induction zs generalizing v with
  | nil => exact ⟨v, rfl, fun z => (if_neg (List.not_mem_nil)).symm⟩
  | cons y zs ih =>
    obtain ⟨v', run, reads⟩ := ih (v.set y (s.peekWords (s.layout.zoneEntry y.val) 48))
    refine ⟨v', ?_, fun z => ?_⟩
    · unfold readEntries
      rw [Act.get_bind, Act.bind_ok (regionRead_ok sound _ _)]
      exact run
    · rw [reads z]
      by_cases later : z ∈ zs
      · rw [if_pos later, if_pos (List.mem_cons_of_mem y later)]
      · rw [if_neg later]
        by_cases same : z = y
        · subst same
          rw [if_pos List.mem_cons_self]
          exact Vector.getElem_set_self _
        · rw [if_neg fun h => (List.mem_cons.mp h).elim same later]
          exact Vector.getElem_set_ne _ _ fun h => same (Fin.ext h.symm)

/-- The whole page's entries, whatever they are read over. -/
theorem readEntries_all {s : State} (sound : s.failing = none) {zs : List ZoneNo} (all : ∀ z, z ∈ zs)
    (v : Vector (Vector Word 48) 64) : readEntries zs v s
      = .ok (Vector.ofFn fun z : ZoneNo => s.peekWords (s.layout.zoneEntry z.val) 48) s := by
  obtain ⟨v', run, reads⟩ := readEntries_run sound zs v
  have same : v' = Vector.ofFn fun z : ZoneNo => s.peekWords (s.layout.zoneEntry z.val) 48 := by
    refine Vector.ext fun i hi => ?_
    have read := reads ⟨i, hi⟩
    rw [if_pos (all _)] at read
    rw [Vector.getElem_ofFn]
    exact read
  rw [run, same]

/-- The part as an attach over pages that stand has loaded it. -/
def State.loadedBegun (u : State) (b : LayoutBlock) (zones : Vector Zone 64) : State :=
  { u.attachBegun with
    layout := b.layout
    zones := zones
    published := u.peek b.layout.zonePage
    written := u.peek (b.layout.controlPage + 4)
    taken := reckonTaken (u.peek (b.layout.controlPage + 4)) b.capacity (u.peek b.layout.controlPage)
    capacity := b.capacity
    lists := freshLists fun k => indexByte (u.peekWords b.layout.controlPage 16) k % b.layout.cellsPerList }

theorem attachLoaded_run {u : State} (sound : u.failing = none) (b : LayoutBlock) {zones : Vector Zone 64}
    (passes : pageRead u b.layout = some zones) :
    attachLoaded b.capacity { u.attachBegun with layout := b.layout } = .ok true (u.loadedBegun b zones) := by
  have header := regionRead_ok (s := { u.attachBegun with layout := b.layout }) sound b.layout.zonePage 16
  have entries := readEntries_all (s := { u.attachBegun with layout := b.layout }) sound List.mem_finRange
    (Vector.replicate 64 (Vector.replicate 48 0))
  have page (zones : Vector Zone 64) (published : Word) := regionRead_ok
    (s := { u.attachBegun with layout := b.layout, zones := zones, published := published }) sound b.layout.controlPage 16
  have minute : (u.peekWords b.layout.zonePage 16)[0] = u.peek b.layout.zonePage := State.getElem_peekWords u _ 16 0 (by omega)
  have taken : (u.peekWords b.layout.controlPage 16)[0] = u.peek b.layout.controlPage :=
    State.getElem_peekWords u _ 16 0 (by omega)
  have written : (u.peekWords b.layout.controlPage 16)[1] = u.peek (b.layout.controlPage + 4) :=
    State.getElem_peekWords u _ 16 1 (by omega)
  have passed : zonesOfPage (State.peekWords { u.attachBegun with layout := b.layout } b.layout.zonePage 16)
      (Vector.ofFn fun z : ZoneNo => State.peekWords { u.attachBegun with layout := b.layout } (b.layout.zoneEntry z.val) 48)
      = some zones := passes
  unfold attachLoaded
  rw [Act.get_bind, Act.bind_ok header, Act.bind_ok entries, passed]
  simp only
  rw [Act.modify_bind, Act.bind_ok (page _ _), Act.modify_bind]
  unfold State.loadedBegun
  rw [← minute, ← taken, ← written]
  rfl

/-! ### The region loaded (R69, R76, R147, R161) -/

/-- The part with the counts of the log that an attach over pages that stand begins with (R147). -/
def State.loadedUnit (u : State) (b : LayoutBlock) : State :=
  { u with
    layout := b.layout
    capacity := b.capacity
    written := u.peek (b.layout.controlPage + 4)
    taken := reckonTaken (u.peek (b.layout.controlPage + 4)) b.capacity (u.peek b.layout.controlPage) }

/-- The index byte of a list, by the words of the control page in host memory (R161, section 10.2). -/
theorem State.indexByte_eq (u : State) (off : Nat) (k : ListNo) :
    indexByte (u.peekWords off 16) k = byteOf (u.peek (off + 28 + 4 * (k.val / 4))) (k.val % 4) := by
  have word (i : Nat) (hi : i < 16) := State.getElem_peekWords u off 16 i hi
  have bound := k.isLt
  unfold indexByte
  rw [word 7 (by omega), word 8 (by omega)]
  split
  case isTrue low =>
    rw [Nat.mod_eq_of_lt low, Nat.div_eq_of_lt low]
  case isFalse high =>
    rw [show k.val - 4 = k.val % 4 by omega, show off + 4 * 8 = off + 28 + 4 * (k.val / 4) by omega]

theorem State.loadedBegun_next (u : State) (b : LayoutBlock) (zones : Vector Zone 64) (k : ListNo) :
    (u.loadedBegun b zones).lists[k]
      = ⟨byteOf (u.peek (b.layout.controlPage + 28 + 4 * (k.val / 4))) (k.val % 4) % b.layout.cellsPerList, false⟩ := by
  rw [← u.indexByte_eq]
  exact freshLists_next _ k

theorem State.loadedBegun_region (u : State) (prog : u.prog = none) {b : LayoutBlock} (valid : b.valid = true)
    (zones : Vector Zone 64) : RegionValid (u.loadedBegun b zones) := by
  refine .of_block valid rfl rfl (fun k => ?_) prog
  rw [u.loadedBegun_next]
  exact Nat.mod_lt _ (layoutValid_cells_pos valid)

/-- An attach over pages that stand has prepared its region, with no byte written (R69, R147, R161, R170). -/
theorem State.loadedBegun_prepared {u : State} (sound : u.failing = none) (prog : u.prog = none) {b : LayoutBlock}
    (valid : b.valid = true) (zones : Vector Zone 64) : Prepared u (u.loadedUnit b) (u.loadedBegun b zones) b where
  valid := valid
  frame := rfl
  sound := sound
  prog := prog
  lists k := by
    rw [u.loadedBegun_next]
    exact ⟨rfl, Nat.mod_lt _ (layoutValid_cells_pos valid)⟩
  view :=
    { sound := ⟨sound, sound⟩
      room := (u.loadedBegun_region prog valid zones).capacity_dvd.1
      base := rfl
      layout := rfl
      capacity := rfl
      counts := ⟨rfl, rfl⟩
      held := rfl
      flags := ⟨rfl, rfl⟩
      causes := fun _ _ => rfl
      bytes := fun _ _ _ _ _ => rfl }
  keeps := fun _ _ => rfl

/-- An attach over a valid layout block and a page that passes succeeds (R69, R170 to R172). -/
theorem loadedAttach_leaves {u : State} {b : LayoutBlock} {zones : Vector Zone 64}
    (block : b = layoutBlockOf (u.peekWords 0 42)) (sound : u.failing = none) (prog : u.prog = none) (valid : b.valid = true)
    (loads : b.fresh = false) (passes : pageRead u b.layout = some zones) :
    ∃ t, attach u.attachBegun = .ok () t ∧ Prepared u (u.loadedUnit b) (u.loadedBegun b zones) b
      ∧ WalkEnd ((u.loadedBegun b zones).setUp b) t.drive b := by
  have run := attachLoaded_run sound b passes
  have prepared := State.loadedBegun_prepared sound prog valid zones
  generalize u.loadedBegun b zones = y at run prepared
  obtain ⟨-, layout, -, failing⟩ := prepared.held
  obtain ⟨t, finished, ends⟩ := finishAttach_run prepared.region failing layout.symm
  have clear : ¬ b.fresh = true := by rw [loads]; decide
  exact ⟨t, attach_run block sound valid (by rw [if_neg clear]; exact run) finished, prepared, ends⟩

/-- A page loaded brings no counts: those after the walk are the records' (R69, R171). -/
theorem Prepared.loaded_zones {u v y t : State} {b : LayoutBlock} (p : Prepared u v y b) (h : WalkEnd (y.setUp b) t b) {z : ZoneNo}
    (uncounted : y.zones[z].occupancy = 0 ∧ y.zones[z].expiredPresent = 0) : t.zones[z]
      = if y.zones[z].defined then
          { y.zones[z] with
            occupancy := u.countRecords b.layout fun a => decide (a.zone = some z)
            expiredPresent := u.countRecords b.layout fun a => decide (a.zone = some z) && a.flags.expired }
        else y.zones[z] := by
  rw [p.zones h, uncounted.1, uncounted.2, Nat.zero_add, Nat.zero_add]

/-- The bytes that an attach over pages that stand changes (R172). -/
theorem KeepsBytes.of_walk {y t : State} {b : LayoutBlock} (h : KeepsBytes y t b.walkAreas) :
    KeepsBytes y t [(b.layout.controlPage + 4, 32), (b.layout.noticeLog, 16 * b.capacity),
      (b.layout.intakeLists, 8 * b.layout.cellsPerList * 64)] := by
  refine h.widen fun r hr => ?_
  unfold LayoutBlock.walkAreas at hr
  simp only [List.mem_cons, List.not_mem_nil, or_false] at hr
  rcases hr with rfl | rfl | rfl | rfl
  · exact ⟨(b.layout.controlPage + 4, 32), by simp, by simp, by simp⟩
  · exact ⟨(b.layout.intakeLists, 8 * b.layout.cellsPerList * 64), by simp, Nat.le_refl _, Nat.le_refl _⟩
  · exact ⟨(b.layout.controlPage + 4, 32), by simp, by simp, by simp⟩
  · exact ⟨(b.layout.noticeLog, 16 * b.capacity), by simp, Nat.le_refl _, Nat.le_refl _⟩

/-- Settles O11: the pages are loaded, then walked. -/
theorem loadedAttachContinuesFromThePages : Obligations.LoadedAttachContinuesFromThePages := by
  intro s stores enables zones b u taken written v idle sound prog range loads passes
  have block : b = layoutBlockOf (u.peekWords 0 42) := rfl
  obtain ⟨t, run, prepared, ends⟩ := loadedAttach_leaves block sound prog range.valid loads passes
  have frame := prepared.end_frame ends rfl
  obtain ⟨bytes, -⟩ := prepared.after ends
  refine ⟨t.drive, exec_start stores enables idle run, prepared.attached ends, fun z => ?zones, ?published, fun k => ?next, ?bytes⟩
  case zones => exact prepared.loaded_zones ends (loadedFrom_of_zoneOfEntry (zonesOfPage_zone passes z)).counts
  case published =>
    rw [frame]
    rfl
  case next =>
    have lists : t.drive.lists = (u.loadedBegun b zones).lists := by rw [frame]
    rw [lists, u.loadedBegun_next]
  case bytes => exact bytes.of_walk

end Sys2Proof.Machine
end

-- ==== Proofs: the class store ====
section
/-! The load of the class store, the figures in force, and what a programming writes and verifies (O4, O32, O38). -/

namespace Sys2Proof.Machine

/-! ### The worst rate of a table (R70) -/

theorem foldl_max_le_iff {b : Nat} (xs : List Nat) : ∀ {m : Nat}, xs.foldl max m ≤ b ↔ m ≤ b ∧ ∀ x ∈ xs, x ≤ b := by
  induction xs with
  | nil => simp
  | cons x xs ih => simp [ih, and_assoc]

/-- A condition on every entry of a rate table. -/
theorem Figures.forall_rates {f : Figures} {p : Nat → Prop} : (∀ r ∈ f.rates.toList, p r) ↔ ∀ i : Fin 48, p f.rates[i] := by
  rw [Vector.toList_eq_map]
  simp only [List.forall_mem_map, List.mem_finRange, forall_const]

theorem worstRate_le_iff {f : Figures} {b : Nat} : worstRate f ≤ b ↔ ∀ i : Fin 48, f.rates[i] ≤ b := by
  unfold worstRate
  rw [foldl_max_le_iff, Figures.forall_rates]
  exact and_iff_right (Nat.zero_le b)

theorem rate_le_worstRate (f : Figures) (i : Fin 48) : f.rates[i] ≤ worstRate f := worstRate_le_iff.mp (Nat.le_refl _) i

/-- The worst rate is one of the table's: a bound below it would have to miss an entry. -/
theorem exists_rate_eq_worstRate (f : Figures) : ∃ i : Fin 48, f.rates[i] = worstRate f := by
  by_contra none
  have below : ∀ i : Fin 48, f.rates[i] < worstRate f := fun i => by
    have := rate_le_worstRate f i
    have : f.rates[i] ≠ worstRate f := fun e => none ⟨i, e⟩
    omega
  have less : worstRate f ≤ worstRate f - 1 := worstRate_le_iff.mpr fun i => by
    have := below i
    omega
  have := below 0
  omega

/-! ### The ranges of a class record (spec/04 section 4.1) -/

/-- The ceiling's range is that of a limited or of an unlimited budget. -/
theorem ceiling_range_iff (budget ceiling : Nat) :
    (if budget = 0 then decide (ceiling ≤ 1000000) else decide (ceiling < budget)) = true
      ↔ (budget = 0 → ceiling ≤ 1000000) ∧ (budget ≠ 0 → ceiling < budget) := by
  by_cases unlimited : budget = 0
  · simp [unlimited]
  · simp [unlimited]

theorem Figures.inRange_iff (f : Figures) : f.inRange = true ↔ f.InRange := by
  simp only [Figures.inRange, Bool.and_eq_true, decide_eq_true_eq, List.all_eq_true, Figures.forall_rates, worstRate_le_iff,
    ceiling_range_iff, and_assoc]
  constructor
  · rintro ⟨budget, margin, rates, gapLow, gapHigh, recovery, unlimited, limited, setLow, setHigh, fullLow, fullHigh, minLow,
      minHigh, bakes⟩
    exact ⟨budget, margin, rates, gapLow, gapHigh, recovery, limited, unlimited, ⟨setLow, setHigh⟩, ⟨fullLow, fullHigh⟩,
      ⟨minLow, minHigh⟩, bakes⟩
  · rintro ⟨budget, margin, rates, gapLow, gapHigh, recovery, limited, unlimited, ⟨setLow, setHigh⟩, ⟨fullLow, fullHigh⟩,
      ⟨minLow, minHigh⟩, bakes⟩
    exact ⟨budget, margin, rates, gapLow, gapHigh, recovery, unlimited, limited, setLow, setHigh, fullLow, fullHigh, minLow,
      minHigh, bakes⟩

/-! ### The load (R72) -/

theorem eq_iff_getElem {α : Type} {n : Nat} {v w : Vector α n} : v = w ↔ ∀ i : Fin n, v[i] = w[i] :=
  ⟨fun e _ => by rw [e], fun h => Vector.ext fun i hi => h ⟨i, hi⟩⟩

theorem eq_ofFn_iff {α : Type} {n : Nat} {v : Vector α n} {f : Fin n → α} : v = Vector.ofFn f ↔ ∀ i : Fin n, v[i] = f i := by
  simp [eq_iff_getElem]

/-- A written record that R72 accepts: its copies agree, and its figures lie in their ranges. -/
def NvClass.Whole (r : NvClass) : Prop := (∀ i : Fin 30, r.complements[i] = ~~~ r.words[i]) ∧ (figuresOf r.words).InRange

theorem NvClass.whole_iff (r : NvClass) : r.Whole ↔ r.copiesAgree = true ∧ (figuresOf r.words).inRange = true := by
  unfold NvClass.Whole NvClass.copiesAgree
  rw [Figures.inRange_iff, decide_eq_true_eq, eq_ofFn_iff]

section
variable {r : NvClass}

theorem loadClass_interrupted (begun : r.inProgress = true) : loadClass r = .invalid .interrupted := by
  simp [loadClass, begun]

theorem loadClass_empty (rest : r.inProgress = false) (erased : r.writtenMarker = false) : loadClass r = .empty := by
  simp [loadClass, rest, erased]

theorem loadClass_damaged (rest : r.inProgress = false) (written : r.writtenMarker = true) (broken : ¬ r.Whole) :
    loadClass r = .invalid .damaged := by
  have fails : (!r.copiesAgree || !(figuresOf r.words).inRange) = true := by
    rw [r.whole_iff, ← Bool.and_eq_true] at broken
    rw [← Bool.not_and, Bool.not_eq_true_eq_eq_false]
    exact Bool.eq_false_of_not_eq_true broken
  simp only [loadClass, rest, written, fails, Bool.false_eq_true, Bool.not_true, ↓reduceIte]

theorem loadClass_valid (rest : r.inProgress = false) (written : r.writtenMarker = true) (whole : r.Whole) :
    loadClass r = .valid (figuresOf r.words) (worstRate (figuresOf r.words)) := by
  obtain ⟨agree, inRange⟩ := r.whole_iff.mp whole
  simp only [loadClass, rest, written, agree, inRange, Bool.false_eq_true, Bool.not_true, Bool.or_self, ↓reduceIte, validClass]

end

theorem loadClasses_getElem (nv : Vector NvClass 8) (c : ClassNo) : (loadClasses nv)[c] = loadClass nv[c] := by
  simp [loadClasses]

/-- Settles O4: case by case of R72, the worst rate being the largest of the table. -/
theorem classStoreLoadTakesTheFirstCase : Obligations.ClassStoreLoadTakesTheFirstCase := by
  intro nv c r whole
  rw [loadClasses_getElem]
  exact ⟨loadClass_interrupted, loadClass_empty, loadClass_damaged, fun rest written whole =>
    ⟨_, loadClass_valid rest written whole, rate_le_worstRate _, exists_rate_eq_worstRate _⟩⟩

/-! ### The figures in force (R29, R74) -/

theorem ClassState.figures?_eq_none {c : ClassState} (h : ∀ f worst, c ≠ .valid f worst) : c.figures? = none := by
  cases c with
  | valid f worst => exact absurd rfl (h f worst)
  | empty => rfl
  | invalid cause => rfl
  | programming => rfl

/-- The budget of a class that is VALID and limited. -/
def ClassState.limitedBudget (c : ClassState) : Option Nat := c.figures?.bind fun f => if f.budget = 0 then none else some f.budget

theorem ClassState.limitedBudget_eq_some {c : ClassState} {b : Nat} :
    c.limitedBudget = some b ↔ ∃ f worst, c = .valid f worst ∧ f.budget = b ∧ b ≠ 0 := by
  cases c with
  | valid f worst =>
    have own : (ClassState.valid f worst).limitedBudget = if f.budget = 0 then none else some f.budget := rfl
    rw [own]
    by_cases unlimited : f.budget = 0
    · rw [if_pos unlimited]
      refine ⟨nofun, ?_⟩
      rintro ⟨_, _, ⟨⟩, rfl, positive⟩
      exact absurd unlimited positive
    · rw [if_neg unlimited]
      refine ⟨fun e => ⟨f, worst, rfl, Option.some.inj e, Option.some.inj e ▸ unlimited⟩, ?_⟩
      rintro ⟨_, _, ⟨⟩, rfl, -⟩
      rfl
  | empty => exact ⟨nofun, nofun⟩
  | invalid cause => exact ⟨nofun, nofun⟩
  | programming => exact ⟨nofun, nofun⟩

/-- The limited budgets of the classes VALID now, in class order. -/
def limitedBudgets (classes : Vector ClassState 8) : List Nat := classes.toList.filterMap ClassState.limitedBudget

theorem mem_limitedBudgets {classes : Vector ClassState 8} {b : Nat} :
    b ∈ limitedBudgets classes ↔ ∃ (j : ClassNo) (f : Figures) (worst : Nat), classes[j] = .valid f worst ∧ f.budget = b ∧ b ≠ 0 := by
  unfold limitedBudgets
  rw [Vector.toList_eq_map]
  simp only [List.mem_filterMap, List.mem_map, List.mem_finRange, true_and, exists_exists_eq_and,
    ClassState.limitedBudget_eq_some]

theorem fallbackBudget_eq (classes : Vector ClassState 8) : fallbackBudget classes = ((limitedBudgets classes).min?).getD 1 := by
  unfold fallbackBudget limitedBudgets
  refine congrArg (fun budgets : List Nat => (budgets.min?).getD 1) (List.filterMap_congr fun c _ => ?_)
  unfold ClassState.limitedBudget
  cases c.figures? with
  | none => rfl
  | some f => rfl

/-- The fallback budget is the smallest limited budget of the VALID classes, or 1 minute where there is none (R74). -/
theorem fallbackBudget_least (classes : Vector ClassState 8) :
    let b := fallbackBudget classes
    (∃ (j : ClassNo) (f : Figures) (worst : Nat), classes[j] = .valid f worst ∧ f.budget = b ∧ b ≠ 0
        ∧ ∀ (i : ClassNo) (g : Figures) (w : Nat), classes[i] = .valid g w → g.budget ≠ 0 → b ≤ g.budget)
      ∨ (b = 1 ∧ ∀ (i : ClassNo) (g : Figures) (w : Nat), classes[i] = .valid g w → g.budget = 0) := by
  rw [fallbackBudget_eq]
  have limited {i : ClassNo} {g : Figures} {w : Nat} (valid : classes[i] = .valid g w) (positive : g.budget ≠ 0) :
      g.budget ∈ limitedBudgets classes := mem_limitedBudgets.mpr ⟨i, g, w, valid, rfl, positive⟩
  cases least : (limitedBudgets classes).min? with
  | none =>
    have empty : limitedBudgets classes = [] := List.min?_eq_none_iff.mp least
    refine .inr ⟨rfl, fun i g w valid => by_contra fun positive => ?_⟩
    have := limited valid positive
    rw [empty] at this
    exact List.not_mem_nil this
  | some b =>
    obtain ⟨member, below⟩ := List.min?_eq_some_iff.mp least
    obtain ⟨j, f, worst, valid, own, positive⟩ := mem_limitedBudgets.mp member
    exact .inl ⟨j, f, worst, valid, own, positive, fun i g w valid positive => below _ (limited valid positive)⟩

theorem State.inForce_valid {s : State} {c : ClassNo} {f : Figures} {worst : Nat} (h : s.classes[c] = .valid f worst) :
    s.inForce c = ⟨if f.budget = 0 then none else some (f.budget * 256), f.margin * 256⟩ := by
  unfold State.inForce
  rw [h]
  rfl

theorem State.inForce_fallback {s : State} {c : ClassNo} (h : s.classes[c].figures? = none) :
    s.inForce c = ⟨some (fallbackBudget s.classes * 256), 0⟩ := by
  unfold State.inForce
  rw [h]

/-- The rates of a class that is not VALID (R35, R74, R127). -/
theorem fallback_rates {c : ClassState} (h : c.figures? = none) :
    (∀ t h, tableRate c t h = 4095) ∧ worstOf c = 4095 ∧ gapRateOf c = 4095 := by
  cases c with
  | valid f worst => cases h
  | empty => exact ⟨fun _ _ => rfl, rfl, rfl⟩
  | invalid cause => exact ⟨fun _ _ => rfl, rfl, rfl⟩
  | programming => exact ⟨fun _ _ => rfl, rfl, rfl⟩

theorem State.exitCredit_fallback {s : State} {a : Account} (h : s.classes[a.cls].figures? = none) (n : Nat) (z : ZoneNo) :
    s.exitCredit n z a = ⟨a, 0, []⟩ := by
  unfold State.exitCredit
  rw [h]
  rfl

theorem InForce.reached_iff (f : InForce) (e : Nat) : f.reached e = true ↔ ∃ b, f.budget = some b ∧ b ≤ e := by
  unfold InForce.reached
  cases f.budget with
  | none => simp
  | some b => simp

theorem InForce.warnable_iff (f : InForce) (e : Nat) :
    f.warnable e = true ↔ ∃ b, f.budget = some b ∧ f.margin ≠ 0 ∧ b - f.margin ≤ e := by
  unfold InForce.warnable InForce.limited InForce.warningLevel
  cases f.budget with
  | none => simp
  | some b => simp

/-- Settles O32: the fallback by the least of the limited budgets, a VALID class by its own figures. -/
theorem figuresInForceAreTheClassesOrTheFallbacks : Obligations.FiguresInForceAreTheClassesOrTheFallbacks := by
  refine ⟨fun s c other => ?_, fun s c f worst valid => ?_, fun f e => ⟨f.reached_iff e, f.warnable_iff e⟩⟩
  · have none : s.classes[c].figures? = none := ClassState.figures?_eq_none other
    obtain ⟨table, worst, gap⟩ := fallback_rates none
    have own := State.inForce_fallback none
    refine ⟨⟨fallbackBudget s.classes, by rw [own], by rw [own], fallbackBudget_least s.classes⟩, table, worst, gap, ?_⟩
    rintro n z a rfl
    exact State.exitCredit_fallback none n z
  · rw [State.inForce_valid valid]
    exact ⟨rfl, rfl⟩

/-! ### The end of a programming (R79) -/

theorem programmed_words (image : Vector Word 30) (defects : List NvDefect) (i : Fin 30) :
    (programmed image defects).words[i] = image[i] ^^^ defectBits defects false i.val
      ∧ (programmed image defects).complements[i] = ~~~ image[i] ^^^ defectBits defects true i.val := by
  simp [programmed]

theorem programmed_nil_words (image : Vector Word 30) : (programmed image []).words = image :=
  Vector.ext fun i hi => ((programmed_words image [] ⟨i, hi⟩).1).trans BitVec.xor_zero

/-- The in-progress marker is erased exactly if every comparison and every range check holds (R79). -/
theorem programmed_inProgress (image : Vector Word 30) (defects : List NvDefect) :
    let r := programmed image defects
    r.inProgress = false ↔ (∀ i : Fin 30, r.words[i] = image[i] ∧ r.complements[i] = ~~~ image[i]) ∧ (figuresOf image).InRange := by
  intro r
  have verified : r.inProgress = !(decide (r.words = image)
      && decide (r.complements = Vector.ofFn fun i : Fin 30 => ~~~ image[i]) && (figuresOf image).inRange) := by simp only [r, programmed]
  clear_value r
  rw [verified, Bool.not_eq_false', Bool.and_eq_true, Bool.and_eq_true, decide_eq_true_eq, decide_eq_true_eq, eq_ofFn_iff,
    eq_iff_getElem, Figures.inRange_iff, forall_and]

theorem State.endProgramming_idle {s : State} (h : ∀ p, s.prog = some p → p.ended ≠ none) (defects : List NvDefect) :
    s.endProgramming defects = s := by
  unfold State.endProgramming
  cases flight : s.prog with
  | none => rfl
  | some p =>
    cases ended : p.ended with
    | none => exact absurd ended (h p flight)
    | some success => simp only [ended]

theorem State.endProgramming_flight {s : State} {p : Programming} (flight : s.prog = some p) (running : p.ended = none)
    (defects : List NvDefect) :
    s.endProgramming defects = { s with
      nv := s.nv.set p.cls (programmed p.image defects)
      prog := some { p with ended := some (!(programmed p.image defects).inProgress) } } := by
  unfold State.endProgramming
  rw [flight]
  simp only [running]

/-- The command has no region access, so it runs in any engine state (R85). -/
theorem exec_classProgrammingEnd (s : State) (defects : List NvDefect) :
    exec (.classProgrammingEnd defects) s = .next (s.endProgramming defects).drive :=
  conclude_ok (Act.modify_eq _ s)

/-- Settles O38: by what is in flight. -/
theorem programmingEndWritesAndVerifies : Obligations.ProgrammingEndWritesAndVerifies := by
  intro s defects
  refine ⟨fun idle => ?_, fun p flight running => ?_⟩
  · rw [exec_classProgrammingEnd, State.endProgramming_idle idle]
  · refine ⟨_, programmed p.image defects, exec_classProgrammingEnd s defects, ?_, programmed_words p.image defects, rfl,
      programmed_inProgress p.image defects, ?_⟩
    · rintro rfl
      exact programmed_nil_words p.image
    · rw [State.endProgramming_flight flight running]
      rfl

end Sys2Proof.Machine
end

-- ==== Proofs: CLASSWRITE and its completion ====
section
/-! A CLASSWRITE refused or begun, and the completion that applies its outcome (O37, O39). -/

namespace Sys2Proof.Machine

section
variable {s u : State} {k : ListNo} {kind : Nat} {c : TakenCell} {r : Result}

/-! ### The checks of CLASSWRITE (R77) -/

theorem any_isProgramming (classes : Vector ClassState 8) :
    classes.toList.any ClassState.isProgramming = true ↔ ∃ j : ClassNo, classes[j] = .programming := by
  rw [Vector.toList_eq_map]
  simp only [List.any_eq_true, List.mem_map, List.mem_finRange, true_and, exists_exists_eq_and, ClassState.isProgramming_eq]

/-- The checks of the image, in the order of R77. -/
theorem State.imageRefusal_eq (s : State) (cls : ClassNo) (image : Vector Word 30) :
    s.imageRefusal cls image =
      if (figuresOf image).inRange = false then some .badImage
      else if ∃ j : ClassNo, s.classes[j] = .programming then some .classBusy
      else if (∃ j : ClassNo, j = cls ∧ (s.classes[j].figures?).isSome = true) ∧ 0 < s.live[cls] then some .classInUse
      else if 0 < s.live[cls] ∧ (figuresOf image).bakeLimit < s.highest[cls] then some .badImage
      else none := by
  unfold State.imageRefusal
  refine ite_congr (by rw [Bool.not_eq_true']) (fun _ => rfl) fun _ => ite_congr ?_ (fun _ => rfl) fun _ =>
    ite_congr ?_ (fun _ => rfl) fun _ => rfl
  · exact propext (any_isProgramming s.classes)
  · rw [exists_eq_left]

/-- The first of CLASSWRITE's checks that fails (R77). -/
def State.classwriteRefusal (s : State) (c : TakenCell) : Option Result :=
  if 7 < c.classAsked then some .badClass
  else if c.imageOffset % 4 ≠ 0 ∨ s.layout.regionSize < c.imageOffset + imageBytes then some .badImage
  else s.imageRefusal (Fin.ofNat 8 c.classAsked) (s.peekWords c.imageOffset 30)

/-- CLASSWRITE is refused by the first check that fails. -/
theorem classwriteWork_refused (sound : u.failing = none) (refused : u.classwriteRefusal c = some r) :
    classwriteWork c u = .ok (some (refusedWith r)) u := by
  unfold State.classwriteRefusal at refused
  unfold classwriteWork
  rw [Act.get_bind]
  split at refused
  · next class_ =>
    cases refused
    rw [if_pos class_]
    rfl
  next class_ =>
  rw [if_neg class_]
  split at refused
  · next offset =>
    cases refused
    rw [if_pos offset]
    rfl
  next offset =>
  rw [if_neg offset, Act.bind_ok (regionRead_ok sound _ _), Act.get_bind]
  simp only [refused]
  rfl

/-- Where no check fails, CLASSWRITE begins the programming and answers nothing (R78). -/
theorem classwriteWork_begins (sound : u.failing = none) (passes : u.classwriteRefusal c = none) :
    classwriteWork c u
      = .ok none (u.beginProgramming (Fin.ofNat 8 c.classAsked) (u.peekWords c.imageOffset 30) c) := by
  unfold State.classwriteRefusal at passes
  unfold classwriteWork
  rw [Act.get_bind]
  split at passes
  · cases passes
  next class_ =>
  rw [if_neg class_]
  split at passes
  · cases passes
  next offset =>
  rw [if_neg offset, Act.bind_ok (regionRead_ok sound _ _), Act.get_bind]
  simp only [passes]
  rfl

/-! ### A taken cell that is not answered (R78) -/

/-- Work that answers nothing leaves the cell TAKEN and the engine FREE (R78). -/
theorem serveTaken_unanswered {t : State} (h : s.intakeRefusal c = none) {work : TakenCell → Act (Option Answer)}
    (hw : work c s = .ok none t) : serveTaken c work s = .ok () { t with engine := .free } := by
  unfold serveTaken
  rw [Act.get_bind, h]
  exact Act.bind_ok hw

theorem State.peek_congr {s t : State} (mem : t.mem = s.mem) (base : t.base = s.base) (off : Nat) : t.peek off = s.peek off := by
  unfold State.peek
  rw [mem, base]

/-- A take changes the cells, the intake unit and the engine alone (R164). -/
theorem State.afterTake_frame (s : State) (k : ListNo) : s.afterTake k
    = { s with
        mem := (s.afterTake k).mem, lists := (s.afterTake k).lists, lastServed := (s.afterTake k).lastServed
        engine := (s.afterTake k).engine } := rfl

theorem State.afterTake_takenFrom (s : State) (k : ListNo) : TakenFrom s (s.afterTake k) k where
  index := congrArg ListState.next (Vector.getElem_set_self _)
  shown := s.afterTake_index k
  others j hj := Vector.getElem_set_ne k.isLt j.isLt fun e => hj (Fin.ext e.symm)
  served := rfl

theorem TakenFrom.of_eq {t : State} (h : TakenFrom s u k) (lists : t.lists = u.lists) (served : t.lastServed = u.lastServed)
    (mem : t.mem = u.mem) (base : t.base = u.base) : TakenFrom s t k where
  index := by rw [lists]; exact h.index
  shown := by
    rw [State.peek_congr mem base, indexWord_congr (s := u) (t := t) _ fun j => by rw [lists]]
    exact h.shown
  others j hj := by rw [lists]; exact h.others j hj
  served := served.trans h.served

/-- The word of the list's index is written apart from the cell (R164). -/
theorem RegionValid.afterTake_cell (h : RegionValid s) (k : ListNo) :
    (s.afterTake k).peek (s.nextCell k) = cellWord cellTaken (s.offered k).words[0] := by
  have apart := h.cell_apart k (n := 0) h.tableLow _ List.mem_cons_self (s.nextCell k, 64) (List.mem_singleton.mpr rfl)
  unfold Apart State.indexArea at apart
  unfold State.afterTake
  rw [State.peek_poke_apart (by simp only [List.length_cons, List.length_nil] at apart ⊢; omega)]
  exact State.peek_poke s (s.nextCell k) _ 0 (by simp)

/-- What shows of a cell that was taken and not answered (R78, R164). -/
theorem Offers.leaves_taken {t : State} (h : Offers s k kind) (lists : t.lists = (s.afterTake k).lists)
    (served : t.lastServed = (s.afterTake k).lastServed) (mem : t.mem = (s.afterTake k).mem)
    (base : t.base = (s.afterTake k).base) :
    TakenFrom s t k ∧ t.lists[k].eligible = false
      ∧ t.peek (s.nextCell k) = wordOfBytes 2 kind (byteOf (s.offered k).words[0] 2 % 2) 0
      ∧ KeepsBytes s t [(s.nextCell k, 4), s.indexArea k] := by
  refine ⟨(s.afterTake_takenFrom k).of_eq lists served mem base, ?eligible, ?cell, fun x hx => ?bytes⟩
  case eligible =>
    rw [lists]
    exact congrArg ListState.eligible (Vector.getElem_set_self _)
  case cell =>
    rw [State.peek_congr mem base, h.service.region.afterTake_cell k, ← h.kind_eq]
    rfl
  case bytes =>
    rw [mem]
    exact s.afterTake_keeps k x hx

/-- CLASSWRITE accepted changes the class, its nonvolatile marker and what is in flight, besides the take (R78). -/
theorem State.begun_frame (s : State) (k : ListNo) (cls : ClassNo) (image : Vector Word 30) (c : TakenCell) :
    let u := s.afterTake k
    let t := ({ u.beginProgramming cls image c with engine := .free } : State).drive
    t = { s with
      mem := u.mem
      lists := u.lists
      lastServed := u.lastServed
      classes := s.classes.set cls .programming
      nv := s.nv.set cls { s.nv[cls] with inProgress := true }
      prog := some ⟨cls, image, c, none⟩
      engine := .free
      lines := t.lines } := by
  have took := s.afterTake_frame k
  intro u
  change u = _ at took
  clear_value u
  rw [took]
  rfl

/-- Settles O37: by the first check that fails; where none does, the take and the class's marker are all that shows. -/
theorem classwriteRefusesOrBeginsProgramming : Obligations.ClasswriteRefusesOrBeginsProgramming := by
  intro s k h c cls image f refusal
  have sound : (s.afterTake k).failing = none := h.offers.service.sound
  have own : (s.afterTake k).classwriteRefusal c = refusal := by
    unfold State.classwriteRefusal
    rw [State.imageRefusal_eq]
    rfl
  refine ⟨f.inRange_iff, fun r refused => ?_, fun passes => ?_⟩
  · exact h.refuses (kinds := (· == 10)) rfl (work := classwriteWork) (classwriteWork_refused sound (own.trans refused))
  · have run : serveCell (· == 10) classwriteWork s
        = .ok () { (s.afterTake k).beginProgramming cls image c with engine := .free } := by
      rw [serveCell_offered h.offers rfl]
      exact serveTaken_unanswered h.not_refused (classwriteWork_begins sound (own.trans passes))
    have ran := conclude_ok run
    have frame := s.begun_frame k cls image c
    simp only at frame
    generalize ({ (s.afterTake k).beginProgramming cls image c with engine := .free } : State).drive = t at ran frame
    have lists : t.lists = (s.afterTake k).lists := by rw [frame]
    have mem : t.mem = (s.afterTake k).mem := by rw [frame]
    have served : t.lastServed = (s.afterTake k).lastServed := by rw [frame]
    obtain ⟨taken, eligible, cell, bytes⟩ := h.offers.leaves_taken lists served mem (by rw [frame]; rfl)
    rw [← mem, ← lists, ← served, ← State.mayTakeCell_free h.offers.free] at frame
    exact ⟨t, ran, taken, eligible, cell, bytes, frame⟩

end

section
variable {s t u x : State} {p : Programming} {success : Bool} {c : TakenCell} {a : Answer}

/-! ### The outcome of a programming (R82, R84) -/

/-- The class store and the watch pool with the outcome of a programming applied (R82, R84). -/
def State.applied (s : State) (p : Programming) (success : Bool) : State := if success then s.makeValid p else s.makeInvalid p

/-- The notice of the outcome (R82, R84). -/
def State.outcomeNotice (s : State) (p : Programming) (success : Bool) : Notice :=
  if success then programmedNotice s.minute p (s.entriesOf p.cls).length
  else classFaultNotice s.minute p.cls .verifyFailed s.live[p.cls]

/-- The answer to the cell of the CLASSWRITE (R82, R84). -/
def State.outcomeAnswer (s : State) (p : Programming) (success : Bool) : Answer :=
  if success then programmedAnswer p (s.entriesOf p.cls).length s.live[p.cls] else programFailedAnswer p s.live[p.cls]

theorem State.removeClass_eq (s : State) (cls : ClassNo) (limited : Bool) : s.removeClass cls limited
    = { s with
        watch := s.watch.filter fun e => decide (e.cls ≠ cls)
        dueQueue := s.dueQueue.filter fun q => !(s.entriesOf cls).any fun e => decide (e.position = q)
        unwatched := if limited then min 32768 (s.unwatched + (s.entriesOf cls).length) else s.unwatched } := by
  cases limited with
  | false => rfl
  | true => rfl

/-- Beside the class store and the pool nothing changes. -/
theorem State.applied_frame (s : State) (p : Programming) (success : Bool) : s.applied p success
    = { s with
        classes := (s.applied p success).classes
        prog := none
        watch := (s.applied p success).watch
        dueQueue := (s.applied p success).dueQueue
        unwatched := (s.applied p success).unwatched } := by
  unfold State.applied State.makeValid
  cases success with
  | false => rfl
  | true =>
    rw [State.removeClass_eq]
    rfl

/-- The class and the pool as the outcome leaves them: the entries of the class removed in success (R82, R84, R113). -/
structure OutcomeShown (s : State) (p : Programming) (success : Bool) (t : State) : Prop where
  classes : t.classes = s.classes.set p.cls
    (if success then .valid (figuresOf p.image) (worstRate (figuresOf p.image)) else .invalid .verifyFailed)
  watch : t.watch = if success then s.watch.filter fun e => decide (e.cls ≠ p.cls) else s.watch
  dueQueue : t.dueQueue = if success then s.dueQueue.filter fun q => !(s.entriesOf p.cls).any fun e => decide (e.position = q)
    else s.dueQueue
  unwatched : t.unwatched = if success = true ∧ (figuresOf p.image).budget ≠ 0 then
      min 32768 (s.unwatched + (s.entriesOf p.cls).length) else s.unwatched

theorem State.applied_shown (s : State) (p : Programming) (success : Bool) : OutcomeShown s p success (s.applied p success) := by
  unfold State.applied State.makeValid
  cases success with
  | false => exact ⟨rfl, rfl, rfl, rfl⟩
  | true =>
    rw [State.removeClass_eq]
    exact ⟨rfl, rfl, rfl, ite_congr (by simp) (fun _ => rfl) fun _ => rfl⟩

theorem OutcomeShown.of_eq (h : OutcomeShown s p success u) (classes : t.classes = u.classes) (watch : t.watch = u.watch)
    (dueQueue : t.dueQueue = u.dueQueue) (unwatched : t.unwatched = u.unwatched) : OutcomeShown s p success t :=
  ⟨classes.trans h.classes, watch.trans h.watch, dueQueue.trans h.dueQueue, unwatched.trans h.unwatched⟩

/-! ### When the completion is applied (R81, R85) -/

theorem applyCompletion_running (running : s.engineState = .running) (p : Programming) (success : Bool) :
    applyCompletion p success s
      = (do reportNotices [s.outcomeNotice p success]; completeCell p.cell (s.outcomeAnswer p success) : Act Unit)
        (s.applied p success) := by
  unfold applyCompletion
  rw [Act.get_bind]
  cases success with
  | false =>
    simp only [Bool.false_eq_true, ↓reduceIte, running]
    rfl
  | true =>
    simp only [↓reduceIte, running]
    rfl

/-- Where the part is not RUNNING the class and the pool alone change (R85). -/
theorem applyCompletion_stopped (other : s.engineState ≠ .running) (p : Programming) (success : Bool) :
    applyCompletion p success s = .ok () (s.applied p success) := by
  unfold applyCompletion
  rw [Act.get_bind]
  cases success with
  | false =>
    simp only [Bool.false_eq_true, ↓reduceIte, other]
    rfl
  | true =>
    simp only [↓reduceIte, other]
    rfl

theorem classCompletion_ended (flight : s.prog = some p) (ended : p.ended = some success) :
    classCompletion s = (if s.engine = .free ∧ (s.engineState = .running ∨ s.engineState = .faulted) then
      applyCompletion p success else pure () : Act Unit) s := by
  unfold classCompletion
  rw [Act.get_bind, flight]
  simp only [ended]

theorem classCompletion_idle (idle : ∀ p, s.prog = some p → p.ended = none) : classCompletion s = .ok () s := by
  unfold classCompletion
  rw [Act.get_bind]
  cases flight : s.prog with
  | none => rfl
  | some p =>
    simp only [idle p flight]
    rfl

/-! ### A cell completed from whatever stands (R166) -/

/-- The state after an inspection (R162). -/
def State.inspected (u : State) (k : ListNo) : State :=
  if u.lists[k].eligible = true then u else u.setEligible k (decide (byteOf (u.peek (u.nextCell k)) 0 = cellPosted))

theorem State.inspected_frame (u : State) (k : ListNo) : u.inspected k = { u with lists := (u.inspected k).lists } := by
  unfold State.inspected
  split
  · rfl
  · rfl

/-- An inspection keeps every index, and makes its own list eligible if its next cell is POSTED (R162). -/
theorem State.inspected_lists (u : State) (k j : ListNo) :
    (u.inspected k).lists[j].next = u.lists[j].next
      ∧ (u.inspected k).lists[j].eligible = (u.lists[j].eligible
          || (decide (j = k) && decide (byteOf (u.peek (u.nextCell j)) 0 = cellPosted))) := by
  unfold State.inspected
  by_cases own : j = k
  · subst own
    cases marked : u.lists[j].eligible with
    | true => exact ⟨rfl, by rw [if_pos rfl, marked, Bool.true_or]⟩
    | false => simp [State.setEligible]
  · have ne : ¬ k.val = j.val := fun e => own (Fin.ext e.symm)
    cases u.lists[k].eligible with
    | true => simp [own]
    | false => simp [State.setEligible, own, ne]

/-- What `t` is once a cell is completed from `x`, its list inspected and the lines driven. -/
structure CompletedFrom (x t : State) (c : TakenCell) (a : Answer) : Prop where
  frame : t = { x with
    mem := t.mem
    engine := .free
    causes := t.causes
    messages := t.messages
    lists := t.lists
    lines := t.lines }
  mem : t.mem = (x.doneCell c a).mem
  causes : ∀ i, t.causes.getLsbD i = (x.causes.getLsbD i || (c.notify && decide (i = 2)))
  lists : ∀ j : ListNo, t.lists[j].next = x.lists[j].next
    ∧ t.lists[j].eligible = (x.lists[j].eligible
        || (decide (j = c.list) && decide (byteOf (t.peek (t.nextCell j)) 0 = cellPosted)))

theorem completeCell_from (sound : x.failing = none) (c : TakenCell) (a : Answer) :
    ∃ t, completeCell c a x = .ok () t ∧ CompletedFrom x t.drive c a := by
  have completed := x.completed_frame c a
  have causes := x.completed_causes c a
  have run : completeCell c a x = .ok () ((x.completed c a).inspected c.list) := by
    rw [completeCell_ok sound, inspect_ok (by rw [State.completed_failing]; exact sound)]
    rfl
  have inspected := (x.completed c a).inspected_frame c.list
  have marks := (x.completed c a).inspected_lists c.list
  generalize x.completed c a = y at completed causes run inspected marks
  refine ⟨_, run, ?_⟩
  generalize y.inspected c.list = v at inspected marks
  have lists : y.lists = x.lists := by rw [completed]
  refine ⟨?frame, ?mem, fun i => ?causes, fun j => ?lists⟩
  case frame =>
    obtain ⟨ls, driven⟩ : ∃ ls, v.drive = { v with lines := ls } := ⟨_, rfl⟩
    rw [driven, inspected, completed]
  case mem =>
    show v.mem = _
    rw [inspected, completed]
  case causes =>
    show v.causes.getLsbD i = _
    rw [inspected]
    exact causes i
  case lists =>
    obtain ⟨next, eligible⟩ := marks j
    have cell : v.drive.nextCell j = y.nextCell j := by
      show v.layout.cell j v.lists[j].next = _
      rw [next, inspected]
      rfl
    have word : v.drive.peek (y.nextCell j) = y.peek (y.nextCell j) :=
      State.peek_congr (by show v.mem = _; rw [inspected]) (by rw [inspected]; rfl) _
    rw [cell, word, ← lists]
    exact ⟨next, eligible⟩

theorem CompletedFrom.ended {off : Nat} (h : CompletedFrom x t c a) (at_ : x.layout.cell c.list c.index = off) :
    Ended x x t (cellAreas off) where
  frame := by
    have frame := h.frame
    conv_lhs => rw [frame]
    rw [frame]
    rfl
  engine := by rw [h.frame]
  sets := by rw [h.frame]
  unit := by rw [h.frame]; exact ⟨rfl, rfl, rfl, rfl, rfl⟩
  causes i hi := by rw [h.causes, decide_eq_false (show ¬ i = 2 by omega), Bool.and_false, Bool.or_false]
  bytes p hp := by rw [h.mem]; exact x.doneCell_keeps c a at_ p hp

theorem CompletedFrom.doneCell {off : Nat} (h : CompletedFrom x t c a) (at_ : x.layout.cell c.list c.index = off)
    (causes : ∀ i, 2 ≤ i → x.causes.getLsbD i = s.causes.getLsbD i) : DoneCell s t off c a := by
  obtain ⟨state, tag, result⟩ := x.doneCell_words c a at_
  have base : t.base = (x.doneCell c a).base := by rw [h.frame]; rfl
  have words := State.peekWords_congr h.mem base
  have word := State.peek_congr h.mem base
  refine ⟨(word _).trans state, (word _).trans tag, (words _ _).trans result, ?_, fun i hi => ?_⟩
  · rw [h.causes, causes 2 (Nat.le_refl _), decide_eq_true rfl, Bool.and_true]
    rfl
  · rw [h.causes, causes i (by omega), decide_eq_false (show ¬ i = 2 by omega), Bool.and_false, Bool.or_false]

/-! ### The completion in service (R81 to R84) -/

/-- A cell lies apart from what the notice unit writes. -/
theorem RegionValid.flight_apart (h : RegionValid s) (k : ListNo) {i : Nat} (hi : i < s.layout.cellsPerList) :
    ∀ r ∈ s.noticeAreas, AllApart (cellAreas (s.layout.cell k i)) r := by
  obtain ⟨-, -, pageLists, -, -, logLists⟩ := h.areasApart
  obtain ⟨low, high⟩ := s.layout.cellAt_within (c := (k, i)) hi
  unfold Layout.cellAt at low high
  intro q hq r hr
  simp only [State.noticeAreas, cellAreas, List.mem_cons, List.not_mem_nil, or_false] at hq hr
  unfold Apart at *
  rcases hq with rfl | rfl <;> rcases hr with rfl | rfl <;> simp only at * <;> omega

/-- The notice unit sees nothing of the outcome applied. -/
theorem InService.appliedView (h : InService s) (p : Programming) (success : Bool) : SameView s (s.applied p success) := by
  rw [s.applied_frame]
  exact ⟨⟨h.sound, h.sound⟩, h.region.capacity_dvd.1, rfl, rfl, rfl, ⟨rfl, rfl⟩, rfl, ⟨rfl, rfl⟩, fun _ _ => rfl,
    fun _ _ _ _ _ => rfl⟩

/-- The notice handed over and the cell completed (R82, R84). -/
theorem InService.completes (h : InService s) (flight : s.prog = some p) (success : Bool) (n : Notice) (a : Answer) :
    let off := s.layout.cell p.cell.list p.cell.index
    ∃ x t, (do reportNotices [n]; completeCell p.cell a : Act Unit) (s.applied p success) = .ok () t
      ∧ UnitFrame (s.applied p success) x ∧ CompletedFrom x t.drive p.cell a ∧ NoticesGo s t.drive [n]
      ∧ DoneCell s t.drive off p.cell a ∧ KeepsBytes s t.drive (cellAreas off ++ s.noticeAreas) := by
  intro off
  have view := h.appliedView p success
  have applied := s.applied_frame p success
  generalize s.applied p success = u at view applied
  obtain ⟨missed, v, x, runS, runU, same, unit⟩ := handNotices_follows [n] s u view
  obtain ⟨missed', v', runS', frameS⟩ := handNotices_frame [n] h.sound
  rw [runS] at runS'
  cases runS'
  have sound : x.failing = none := unit.frame.failing.trans view.sound.2
  have layout : x.layout = s.layout := by rw [unit.frame]; exact view.layout
  have base : x.base = s.base := unit.frame.base.trans view.base
  have at_ : x.layout.cell p.cell.list p.cell.index = off := by rw [layout]
  have causes : ∀ i, 2 ≤ i → x.causes.getLsbD i = s.causes.getLsbD i := fun i hi => by
    rw [unit.causes i hi, applied]
  obtain ⟨t, run, done⟩ := completeCell_from sound p.cell a
  have ended := done.ended at_
  have apart := h.region.flight_apart p.cell.list (h.region.flight p flight)
  have tbase : t.drive.base = s.base := by
    rw [done.frame]
    exact base
  have unitShown : SameUnit s v t.drive := ended.sameUnit base apart (same.sameUnit frameS)
  refine ⟨x, t, ?run, unit, done, .of_run h.region h.sound runS (by simpa using unitShown) tbase, done.doneCell at_ causes, ?bytes⟩
  case run =>
    have reported : reportNotices [n] u = .ok () x := (Act.bind_ok runU).trans rfl
    rw [Act.bind_ok reported, run]
  case bytes =>
    have areas : u.noticeAreas = s.noticeAreas := by
      unfold State.noticeAreas
      rw [view.layout, view.capacity]
    have handed : KeepsBytes s x s.noticeAreas := fun q hq => by
      rw [unit.bytes q (by unfold State.outside at *; rw [areas, view.base]; exact hq), applied]
    exact (handed.mono (List.subset_append_right _ _)).trans base (ended.bytes.mono (List.subset_append_left _ _))

/-- A completion in service changes, besides the outcome applied, the cell and the notice unit alone. -/
theorem CompletedFrom.serviceFrame (h : CompletedFrom x t c a) (unit : UnitFrame u x) (free : s.engine = .free)
    (applied : u = { s with
      classes := u.classes, prog := none, watch := u.watch, dueQueue := u.dueQueue, unwatched := u.unwatched }) :
    t = { s with
      mem := t.mem
      lists := t.lists
      classes := u.classes
      prog := none
      watch := u.watch
      dueQueue := u.dueQueue
      unwatched := u.unwatched
      written := x.written
      taken := x.taken
      heldNotices := x.heldNotices
      logFull := x.logFull
      noticesDropped := x.noticesDropped
      causes := t.causes
      messages := t.messages
      lines := t.lines } := by
  have first := h.frame
  have second := unit.frame
  unfold NoticeFrame at second
  rw [← free] at first
  conv_lhs => rw [first, second, applied]

/-- Settles O39: by what is in flight and by the engine's state; in service the outcome, its notice and its cell. -/
theorem completionAppliesTheOutcome : Obligations.CompletionAppliesTheOutcome := by
  intro s
  refine ⟨fun idle => conclude_ok (classCompletion_idle idle), ?_⟩
  intro p success flight ended f mine off shape
  have begun := classCompletion_ended flight ended
  have applied := s.applied_frame p success
  have shown := s.applied_shown p success
  have shaped (t : State) (h : OutcomeShown s p success t) : shape t (worstRate f) :=
    ⟨rate_le_worstRate f, exists_rate_eq_worstRate f, h.classes, h.watch, h.dueQueue, h.unwatched⟩
  refine ⟨fun service free => ?service, fun faulted free => ?faulted, fun other => ?other⟩
  case service =>
    rw [if_pos ⟨free, .inl service.running⟩, applyCompletion_running service.running] at begun
    obtain ⟨x, t, run, unit, done, go, cell, bytes⟩ :=
      service.completes flight success (s.outcomeNotice p success) (s.outcomeAnswer p success)
    generalize s.applied p success = u at begun run unit applied shown
    have frame := done.serviceFrame unit free applied
    have lists : x.lists = s.lists := by rw [unit.frame, applied]
    have ran := conclude_ok (begun.trans run)
    generalize t.drive = v at ran done go cell bytes frame
    refine ⟨v, worstRate f, ran, shaped v (shown.of_eq (by rw [frame]) (by rw [frame]) (by rw [frame]) (by rw [frame])),
      ?notice, ?answer, fun j => ?lists, bytes, by rw [frame]⟩
    case notice =>
      cases success with
      | false => exact go
      | true => exact go
    case answer =>
      cases success with
      | false => exact cell
      | true => exact cell
    case lists =>
      rw [← lists]
      exact done.lists j
  case faulted =>
    have stopped : s.engineState ≠ .running := by rw [faulted]; decide
    rw [if_pos ⟨free, .inr faulted⟩, applyCompletion_stopped stopped] at begun
    refine ⟨_, worstRate f, conclude_ok begun, shaped _ (shown.of_eq rfl rfl rfl rfl), ?_⟩
    generalize s.applied p success = u at applied
    obtain ⟨ls, driven⟩ : ∃ ls, u.drive = { u with lines := ls } := ⟨_, rfl⟩
    rw [driven, applied]
  case other =>
    have cannot : ¬ (s.engine = .free ∧ (s.engineState = .running ∨ s.engineState = .faulted)) := by
      rintro ⟨free, state⟩
      rcases other with busy | idle | attaching
      · exact busy free
      · rw [idle] at state
        exact absurd state (by decide)
      · rw [attaching] at state
        exact absurd state (by decide)
    rw [if_neg cannot] at begun
    exact conclude_ok begun

end

end Sys2Proof.Machine
end

-- ==== Proofs: exit credits ====
section
/-! Dry recovery and the bake credit, as the exit of the source zone gives them (O30, O31). -/

namespace Sys2Proof.Machine

section
variable {s : State} {z : ZoneNo} {a : Account} {f : Figures} {worst : Nat}

/-! ### The credit of the source zone's type (R90) -/

theorem State.exitCredit_dry (valid : s.classes[a.cls] = .valid f worst) (dry : s.zones[z].type = .typeDry) (n : Nat) :
    s.exitCredit n z a = dryRecovery f s.minute n (stayMinutes a.aux s.zones[z].dry) a := by
  unfold State.exitCredit
  rw [valid, dry]
  rfl

theorem State.exitCredit_bake (valid : s.classes[a.cls] = .valid f worst) (bake : s.zones[z].type = .typeBake) (n : Nat) :
    s.exitCredit n z a =
      bakeCredit f (s.inForce a.cls) s.minute n (stayMinutes a.aux s.zones[z].bake[a.cls]) a := by
  unfold State.exitCredit
  rw [valid, bake]
  rfl

/-! ### Dry recovery (R92, R93) -/

/-- The stay reaches the required minutes, f × E / 4,096 rounded up, where 4,096 times the stay reaches f × E (R92). -/
theorem requiredDry_le_iff (f : Figures) (exposure minutes : Nat) :
    requiredDry f exposure ≤ minutes ↔ f.recovery * exposure ≤ minutes * 4096 := by
  unfold requiredDry
  omega

theorem recovers_iff (f : Figures) (a : Account) (minutes : Nat) :
    recovers f a minutes = true ↔ 0 < f.recovery ∧ a.flags.expired = false ∧ 0 < a.exposure.toNat
      ∧ a.exposure.toNat ≤ f.ceiling * 256 ∧ f.recovery * a.exposure.toNat ≤ minutes * 4096 := by
  unfold recovers
  simp only [Bool.and_eq_true, Bool.not_eq_true', decide_eq_true_eq, requiredDry_le_iff, and_assoc]

/-- Settles O30: the five conditions are the model's test, and each outcome is a branch of the recovery. -/
theorem dryRecoveryIsAllOrNothing : Obligations.DryRecoveryIsAllOrNothing := by
  intro s n z a f worst valid dry minutes eligible
  have judged : recovers f a minutes = true ↔ eligible := recovers_iff f a minutes
  rw [State.exitCredit_dry valid dry]
  exact ⟨fun holds => if_pos (judged.mpr holds), fun fails => if_neg (mt judged.mp fails)⟩

/-! ### The bake credit (R95, R96) -/

/-- The cases of R95, those without a credit first: a full bake is never too short, whatever the minimum. -/
theorem bakeCreditOf_eq (f : Figures) (a : Account) (minutes : Nat) :
    bakeCreditOf f a minutes =
      if a.bakeCount = f.bakeLimit ∨ (minutes < f.fullBake ∧ minutes < f.minBake) then none
      else some (if f.fullBake ≤ minutes then a.exposure.toNat else a.exposure.toNat * minutes / f.fullBake) := by
  unfold bakeCreditOf
  by_cases exhausted : a.bakeCount = f.bakeLimit
  · rw [if_pos exhausted, if_pos (.inl exhausted)]
  rw [if_neg exhausted]
  by_cases full : f.fullBake ≤ minutes
  · rw [if_pos full, if_neg (by omega), if_pos full]
  rw [if_neg full, if_neg full]
  by_cases proportional : f.minBake ≤ minutes
  · rw [if_pos proportional, if_neg (by omega)]
  · rw [if_neg proportional, if_pos (by omega)]

/-- A share of a bake shorter than the full bake is at most the whole (R95). -/
theorem proportional_le {exposure minutes full : Nat} (short : minutes ≤ full) : exposure * minutes / full ≤ exposure :=
  Nat.div_le_of_le_mul (by rw [Nat.mul_comm full]; exact Nat.mul_le_mul_left exposure short)

theorem bakeCredit_of_none {minutes : Nat} (uncounted : bakeCreditOf f a minutes = none) (g : InForce) (minute : Word) (n : Nat) :
    bakeCredit f g minute n minutes a = ⟨a, 0, []⟩ := by
  unfold bakeCredit
  rw [uncounted]
  rfl

theorem bakeCredit_of_some {minutes k : Nat} (counted : bakeCreditOf f a minutes = some k) (g : InForce) (minute : Word) (n : Nat) :
    bakeCredit f g minute n minutes a =
      ⟨creditTests g
          { a with bakeCount := a.bakeCount + 1, exposure := word (a.exposure.toNat - k), lastCredit := word k },
        word k, [⟨.bakeCredit, n, minute, word k, word minutes⟩]⟩ := by
  unfold bakeCredit
  rw [counted]

/-! ### The tests after a bake (R97) -/

/-- The expiry minute becomes 0 only where EXPIRED goes from set to clear (R8). -/
theorem Account.unexpire_eq (a : Account) :
    a.unexpire =
      { a with
        flags := { a.flags with expired := false }
        expiryMinute := if a.flags.expired = true then 0 else a.expiryMinute } := by
  unfold Account.unexpire
  split
  · rfl
  · next clear =>
    rw [← Bool.eq_false_of_not_eq_true clear]

/-- The tests after a credit, as those of the two levels: a limited budget not reached, and a warning level not reached (R97). -/
theorem creditTests_eq (g : InForce) (a : Account) :
    creditTests g a =
      let below := !g.reached a.exposure.toNat
      let belowWarning := !g.limited || (decide (g.margin ≠ 0) && decide (a.exposure.toNat < g.warningLevel))
      { a with
        expiryMinute := if below = true ∧ a.flags.expired = true then 0 else a.expiryMinute
        flags := { a.flags with
          expired := a.flags.expired && !below
          warned := a.flags.warned && !belowWarning } } := by
  unfold creditTests
  rw [Account.unexpire_eq]
  generalize (!g.limited || (decide (g.margin ≠ 0) && decide (a.exposure.toNat < g.warningLevel))) = belowWarning
  cases g.reached a.exposure.toNat with
  | true => cases belowWarning <;> simp [Account.warn]
  | false => cases belowWarning <;> simp [Account.warn]

/-- E is below the budget of a VALID class: the budget is unlimited, or E is less (R29). -/
theorem State.not_reached_valid {c : ClassNo} (valid : s.classes[c] = .valid f worst) (e : Nat) :
    (!(s.inForce c).reached e) = decide (f.budget = 0 ∨ e < f.budget * 256) := by
  rw [State.inForce_valid valid, Bool.eq_iff_iff]
  unfold InForce.reached
  by_cases unlimited : f.budget = 0 <;> simp [unlimited]

/-- E is below the warning level of a VALID class: the budget is unlimited, or there is a margin and E is less (R29, R97). -/
theorem State.belowWarning_valid {c : ClassNo} (valid : s.classes[c] = .valid f worst) (e : Nat) :
    (!(s.inForce c).limited || (decide ((s.inForce c).margin ≠ 0) && decide (e < (s.inForce c).warningLevel)))
      = decide (f.budget = 0 ∨ (f.margin ≠ 0 ∧ e < f.budget * 256 - f.margin * 256)) := by
  rw [State.inForce_valid valid]
  unfold InForce.limited InForce.warningLevel
  by_cases unlimited : f.budget = 0 <;> simp [unlimited]

/-- Settles O31: by the cases of R95; the credit is at most E, so what it leaves fits a word. -/
theorem bakeCreditByTheFirstCaseThatApplies : Obligations.BakeCreditByTheFirstCaseThatApplies := by
  intro s n z a f worst valid bake minutes earnsNone credit left below belowWarning
  have decided : bakeCreditOf f a minutes = if earnsNone then none else some credit := bakeCreditOf_eq f a minutes
  have most : credit ≤ a.exposure.toNat := by
    by_cases full : f.fullBake ≤ minutes
    · exact (if_pos full).le
    · exact (if_neg full).trans_le (proportional_le (Nat.le_of_not_le full))
  have fits : (word (a.exposure.toNat - credit)).toNat = left :=
    (BitVec.toNat_ofNat _ _).trans (Nat.mod_eq_of_lt (lt_of_le_of_lt (Nat.sub_le _ _) a.exposure.isLt))
  have exit : s.exitCredit n z a = bakeCredit f (s.inForce a.cls) s.minute n minutes a := State.exitCredit_bake valid bake n
  refine ⟨fun uncounted => ?_, fun counted => ⟨most, ?_⟩⟩
  · exact exit.trans (bakeCredit_of_none (decided.trans (if_pos uncounted)) _ _ _)
  · rw [exit, bakeCredit_of_some (decided.trans (if_neg counted))]
    simp only [creditTests_eq, State.not_reached_valid valid, State.belowWarning_valid valid, decide_eq_true_eq, fits]
    rfl

end

end Sys2Proof.Machine
end

-- ==== Proofs: the watch pool kept sound ====
section
/-! What each operation of the watch pool makes of a sound pool, which work leaves the pool alone, and that every step keeps it sound
(O55). -/

namespace Sys2Proof.Machine

/-! ### The operations of a sound pool (R102 to R107, R113) -/

/-- The watch pool: its entries, its due queue and the unwatched count. -/
def State.pool (s : State) : List WatchEntry × List Nat × Nat := (s.watch, s.dueQueue, s.unwatched)

theorem State.pool_eq_iff {s t : State} :
    t.pool = s.pool ↔ t.watch = s.watch ∧ t.dueQueue = s.dueQueue ∧ t.unwatched = s.unwatched := by
  simp [State.pool]

/-- Two entries of one position are one. -/
theorem PoolSound.entry_eq {s : State} (h : PoolSound s) {x y : WatchEntry} (hx : x ∈ s.watch) (hy : y ∈ s.watch)
    (same : x.position = y.position) : x = y := List.inj_on_of_nodup_map h.positions hx hy same

/-- A pool without entries, and with none counted unwatched, is sound (R102). -/
theorem PoolSound.of_empty {s : State} (watch : s.watch = []) (queue : s.dueQueue = []) (counted : s.unwatched = 0) :
    PoolSound s := by
  constructor <;> simp [watch, queue, counted]

/-- A pool that keeps some of its entries, and in its due queue the positions of those alone (R106). -/
theorem PoolSound.filter {s t : State} (h : PoolSound s) {p : WatchEntry → Bool} {q : Nat → Bool}
    (watch : t.watch = s.watch.filter p) (queue : t.dueQueue = s.dueQueue.filter q) (counted : t.unwatched ≤ 32768)
    (kept : ∀ e ∈ s.watch, q e.position = true → p e = true) : PoolSound t where
  counted := counted
  accounts := by rw [watch]; exact h.accounts.sublist (List.filter_sublist.map _)
  positions := by rw [watch]; exact h.positions.sublist (List.filter_sublist.map _)
  range e he := by
    rw [watch] at he
    exact h.range e (List.mem_of_mem_filter he)
  order := by rw [watch]; exact h.order.filter p
  queued := by rw [queue]; exact h.queued.filter q
  due x hx := by
    rw [queue] at hx
    obtain ⟨inQueue, keptThere⟩ := List.mem_filter.mp hx
    obtain ⟨e, he, rfl, due⟩ := h.due x inQueue
    rw [watch]
    exact ⟨e, List.mem_filter.mpr ⟨he, kept e he keptThere⟩, rfl, due⟩

/-- The same entries, the due queue shortened, and another count (R109, R113). -/
theorem PoolSound.dequeue {s t : State} (h : PoolSound s) (watch : t.watch = s.watch) (queue : t.dueQueue.Sublist s.dueQueue)
    (counted : t.unwatched ≤ 32768) : PoolSound t where
  counted := counted
  accounts := by rw [watch]; exact h.accounts
  positions := by rw [watch]; exact h.positions
  range := by rw [watch]; exact h.range
  order := by rw [watch]; exact h.order
  queued := h.queued.sublist queue
  due x hx := by rw [watch]; exact h.due x (queue.subset hx)

theorem PoolSound.recount {s : State} (h : PoolSound s) {k : Nat} (counted : k ≤ 32768) : PoolSound { s with unwatched := k } :=
  h.dequeue rfl (.refl _) counted

theorem PoolSound.of_pool {s t : State} (h : PoolSound s) (same : t.pool = s.pool) : PoolSound t := by
  obtain ⟨watch, queue, counted⟩ := State.pool_eq_iff.mp same
  exact h.dequeue watch (by rw [queue]) (by rw [counted]; exact h.counted)

/-- A removal leaves the entries of the other accounts, and takes the account's position off the due queue (R106). -/
theorem PoolSound.removeEntry_eq {s : State} (h : PoolSound s) (n : Nat) : s.removeEntry n = { s with
    watch := s.watch.filter fun e => decide (e.account ≠ n)
    dueQueue := s.dueQueue.filter fun p => !s.watch.any fun e => decide (e.account = n ∧ e.position = p) } := by
  have watch := s.removeEntry_watch n
  unfold State.removeEntry at watch ⊢
  cases found : s.entryOf n with
  | none =>
    have none := State.entryOf_none found
    rw [found] at watch
    have queue : s.dueQueue = s.dueQueue.filter fun p => !s.watch.any fun e => decide (e.account = n ∧ e.position = p) := by
      refine (List.filter_eq_self.mpr fun p _ => ?_).symm
      simp only [Bool.not_eq_true', List.any_eq_false, decide_eq_true_eq]
      exact fun e he same => none e he same.1
    simp only
    rw [← watch, ← queue]
  | some e =>
    have his : e.account = n := by simpa using List.find?_some found
    have mem := List.mem_of_find?_eq_some found
    have queue : (s.dueQueue.filter fun p => decide (p ≠ e.position))
        = s.dueQueue.filter fun p => !s.watch.any fun x => decide (x.account = n ∧ x.position = p) := by
      refine List.filter_congr fun p _ => ?_
      rw [Bool.eq_iff_iff]
      simp only [decide_eq_true_eq, Bool.not_eq_true', List.any_eq_false]
      refine ⟨fun other x hx same => other ?_, fun none same => none e mem ⟨his, same.symm⟩⟩
      have : x = e := List.inj_on_of_nodup_map h.accounts hx mem (same.1.trans his.symm)
      rw [← same.2, this]
    simp only
    rw [queue]

theorem PoolSound.removeEntry {s : State} (h : PoolSound s) (n : Nat) : PoolSound (s.removeEntry n) := by
  rw [h.removeEntry_eq n]
  refine h.filter rfl rfl h.counted fun e he kept => ?_
  simp only [Bool.not_eq_true', List.any_eq_false, decide_eq_true_eq] at kept
  exact decide_eq_true fun his => kept e he ⟨his, rfl⟩

/-- An entry of a new account at a free position, put in its list and, if due, into the due queue (R103, R105). -/
theorem PoolSound.putEntry {s : State} (h : PoolSound s) {e : WatchEntry} (account : ∀ x ∈ s.watch, x.account ≠ e.account)
    (position : ∀ x ∈ s.watch, x.position ≠ e.position) (range : e.position < poolSize) : PoolSound (s.putEntry e) := by
  have unqueued : e.position ∉ s.dueQueue := fun inQueue => by
    obtain ⟨x, hx, same, -⟩ := h.due _ inQueue
    exact position x hx same
  unfold State.putEntry
  simp only
  generalize decide (e.threshold.toNat ≤ (s.tallyOf e).toNat) = due
  refine ⟨h.counted, ?_, ?_, fun x hx => ?_, placeEntry_order _ h.order, ?_, fun p hp => ?_⟩
  · refine ((placeEntry_perm _ _).map _).nodup_iff.mpr (List.nodup_cons.mpr ⟨fun mem => ?_, h.accounts⟩)
    obtain ⟨x, hx, same⟩ := List.mem_map.mp mem
    exact account x hx same
  · refine ((placeEntry_perm _ _).map _).nodup_iff.mpr (List.nodup_cons.mpr ⟨fun mem => ?_, h.positions⟩)
    obtain ⟨x, hx, same⟩ := List.mem_map.mp mem
    exact position x hx same
  · rcases (mem_placeEntry _ x _).mp hx with rfl | old
    · exact range
    · exact h.range x old
  · cases due with
    | false => exact h.queued
    | true => exact h.queued.append (List.nodup_singleton _) (by simpa using unqueued)
  · have old (inQueue : p ∈ s.dueQueue) : ∃ x ∈ placeEntry { e with due := due } s.watch, x.position = p ∧ x.due = true := by
      obtain ⟨x, hx, same, isDue⟩ := h.due p inQueue
      exact ⟨x, (mem_placeEntry _ _ _).mpr (.inr hx), same, isDue⟩
    cases due with
    | false => exact old hp
    | true =>
      rcases List.mem_append.mp hp with inQueue | new
      · exact old inQueue
      · exact ⟨_, (mem_placeEntry _ _ _).mpr (.inl rfl), (List.mem_singleton.mp new).symm, rfl⟩

theorem State.removeEntry_others (s : State) {n : Nat} {x : WatchEntry} (hx : x ∈ (s.removeEntry n).watch) :
    x ∈ s.watch ∧ x.account ≠ n := by
  rw [s.removeEntry_watch] at hx
  simpa using List.mem_filter.mp hx

theorem PoolSound.insertEntry {s : State} (h : PoolSound s) (n : Nat) (z : ZoneNo) (c : ClassNo) (threshold : DWord)
    (stage : Stage) : PoolSound (s.insertEntry n z c threshold stage).1 := by
  unfold State.insertEntry
  simp only
  cases free : (s.removeEntry n).freePosition with
  | none => exact h.removeEntry n
  | some p =>
    obtain ⟨range, position⟩ := State.freePosition_spec free
    exact (h.removeEntry n).putEntry (fun x hx => (s.removeEntry_others hx).2) position range

theorem PoolSound.tryWatch {s : State} (h : PoolSound s) (n : Nat) (a : Account) : PoolSound (s.tryWatch n a).1 := by
  unfold State.tryWatch
  split
  · exact h
  · split
    · exact h.insertEntry ..
    · exact h

theorem PoolSound.raiseUnwatched {s : State} (h : PoolSound s) (k : Nat) : PoolSound (s.raiseUnwatched k) :=
  h.recount (Nat.min_le_left _ _)

/-- The unwatched count lowered by one (R113). -/
theorem PoolSound.oneLess {s : State} (h : PoolSound s) : PoolSound { s with unwatched := s.unwatched - 1 } :=
  h.recount ((Nat.sub_le _ _).trans h.counted)

theorem PoolSound.watchAccount {s : State} (h : PoolSound s) (n : Nat) (a : Account) : PoolSound (s.watchAccount n a) := by
  unfold State.watchAccount
  simp only
  split
  · exact (h.tryWatch n a).raiseUnwatched 1
  · exact h.tryWatch n a

theorem PoolSound.reachUnwatched {s : State} (h : PoolSound s) (n : Nat) (a : Account) : PoolSound (s.reachUnwatched n a) := by
  unfold State.reachUnwatched
  split
  · exact h.oneLess
  · exact h

theorem PoolSound.unpooled {s : State} (h : PoolSound s) (n : Nat) (a : Account) : PoolSound (s.unpooled n a) :=
  (h.reachUnwatched n a).removeEntry n

theorem PoolSound.repooled {s : State} (h : PoolSound s) (n : Nat) (a e : Account) : PoolSound (s.repooled n a e) :=
  (h.unpooled n a).watchAccount n e

theorem PoolSound.patrolWatch {s : State} (h : PoolSound s) (n : Nat) (a : Account) : PoolSound (s.patrolWatch n a) := by
  unfold State.patrolWatch
  simp only
  split
  · exact (h.tryWatch n a).oneLess
  · exact h.tryWatch n a

/-- An entry of the pool goes in again in its own position, which its removal has freed (R27). -/
theorem PoolSound.rewatch {s : State} (h : PoolSound s) {e : WatchEntry} (he : e ∈ s.watch) (a : Account) :
    PoolSound (s.rewatch e a) := by
  have removed := h.removeEntry e.account
  unfold State.rewatch
  cases (s.inForce a.cls).budget with
  | none => exact removed
  | some b =>
    refine removed.putEntry (fun x hx => (s.removeEntry_others hx).2) (fun x hx same => ?_) (h.range e he)
    obtain ⟨old, other⟩ := s.removeEntry_others hx
    exact other (congrArg WatchEntry.account (h.entry_eq old he same))

/-- The entries of a class removed, and with them their positions (R82, R106). -/
theorem PoolSound.removeClass {s : State} (h : PoolSound s) (cls : ClassNo) (limited : Bool) :
    PoolSound (s.removeClass cls limited) := by
  refine h.filter rfl rfl ?_ fun e he kept => ?_
  · cases limited
    · exact h.counted
    · exact (h.raiseUnwatched _).counted
  · simp only [Bool.not_eq_true', List.any_eq_false, decide_eq_true_eq, State.entriesOf, List.mem_filter] at kept
    exact decide_eq_true fun same => kept e ⟨he, same⟩ rfl

theorem PoolSound.makeValid {s : State} (h : PoolSound s) (p : Programming) : PoolSound (s.makeValid p) := by
  have landed : PoolSound { s with classes := s.classes.set p.cls (validClass (figuresOf p.image)), prog := none } := h.of_pool rfl
  exact landed.removeClass _ _

/-- An entry that an examination finds: not yet due, its list's tally changed and at its threshold (R107). -/
def State.finds (s : State) (before : Vector Zone 64) (e : WatchEntry) : Bool :=
  !e.due && decide (before[e.zone].exposure[e.cls] ≠ s.tallyOf e) && decide (e.threshold.toNat ≤ (s.tallyOf e).toNat)

/-- An examination marks due what it finds. -/
def State.examined (s : State) (before : Vector Zone 64) (e : WatchEntry) : WatchEntry :=
  if s.finds before e then { e with due := true } else e

theorem State.examine_eq (s : State) (before : Vector Zone 64) : s.examine before = { s with
    watch := s.watch.map (s.examined before)
    dueQueue := s.dueQueue ++ (s.watch.filter (s.finds before)).map WatchEntry.position } := rfl

/-- An examination changes an entry's due mark alone. -/
theorem State.examined_frame (s : State) (before : Vector Zone 64) (e : WatchEntry) :
    s.examined before e = { e with due := e.due || s.finds before e } := by
  unfold State.examined
  cases s.finds before e <;> simp

theorem PoolSound.examine {s : State} (h : PoolSound s) (before : Vector Zone 64) : PoolSound (s.examine before) := by
  have frame := s.examined_frame before
  have field {α : Type} (f : WatchEntry → α) (same : ∀ e, f (s.examined before e) = f e) :
      (s.watch.map (s.examined before)).map f = s.watch.map f := by
    rw [List.map_map]
    exact List.map_congr_left fun e _ => same e
  have undue {e : WatchEntry} (found : s.finds before e = true) : e.due = false := by
    simp only [State.finds, Bool.and_eq_true, Bool.not_eq_true'] at found
    exact found.1.1
  rw [s.examine_eq]
  constructor
  case counted => exact h.counted
  case accounts => rw [field _ fun e => by rw [frame]]; exact h.accounts
  case positions => rw [field _ fun e => by rw [frame]]; exact h.positions
  case range =>
    intro x hx
    obtain ⟨e, he, rfl⟩ := List.mem_map.mp hx
    rw [frame]
    exact h.range e he
  case order =>
    refine List.pairwise_map.mpr (h.order.imp fun {x y} less => ?_)
    rw [frame, frame]
    exact less
  case queued =>
    refine h.queued.append (h.positions.sublist (List.filter_sublist.map _)) fun p inQueue new => ?_
    obtain ⟨x, hx, rfl⟩ := List.mem_map.mp new
    obtain ⟨old, found⟩ := List.mem_filter.mp hx
    obtain ⟨y, hy, same, due⟩ := h.due _ inQueue
    rw [h.entry_eq hy old same, undue found] at due
    cases due
  case due =>
    have marked {e : WatchEntry} (he : e ∈ s.watch) (isDue : e.due = true ∨ s.finds before e = true) :
        ∃ x ∈ s.watch.map (s.examined before), x.position = e.position ∧ x.due = true := by
      refine ⟨_, List.mem_map_of_mem he, ?_, ?_⟩ <;> rw [frame]
      simpa using isDue
    intro p hp
    rcases List.mem_append.mp hp with inQueue | new
    · obtain ⟨e, he, rfl, due⟩ := h.due p inQueue
      exact marked he (.inl due)
    · obtain ⟨e, he, rfl⟩ := List.mem_map.mp new
      obtain ⟨old, found⟩ := List.mem_filter.mp he
      exact marked old (.inr found)

theorem PoolSound.takeHandover {s : State} (h : PoolSound s) (e : WatchEntry) : PoolSound (s.takeHandover e) :=
  h.dequeue rfl (List.tail_sublist _) h.counted

/-! ### Work that leaves the pool alone -/

section

variable {α β : Type}

/-- Work that leaves the watch pool as it was, cut or not. -/
def Act.OffPool (a : Act α) : Prop := ∀ p, Act.Keeps (fun s => s.pool = p) a

/-- Work off the pool keeps what depends on the pool alone. -/
theorem Act.OffPool.keeps {I : State → Prop} {a : Act α} (off : a.OffPool) (depends : ∀ s t, t.pool = s.pool → I s → I t) :
    Act.Keeps I a := by
  intro s hs
  have done := off s.pool s rfl
  revert done
  cases a s with
  | ok x t => exact fun done => depends s t done hs
  | error e t => exact fun done => depends s t done hs

/-- Work off the pool keeps it sound. -/
theorem Act.OffPool.sound {a : Act α} (off : a.OffPool) : Act.Keeps PoolSound a := off.keeps fun _ _ same h => h.of_pool same

theorem Act.offPool_pure (x : α) : Act.OffPool (pure x) := fun _ => Act.keeps_pure x

theorem Act.offPool_bind {a : Act α} {f : α → Act β} (ha : a.OffPool) (hf : ∀ x, Act.OffPool (f x)) : Act.OffPool (a >>= f) :=
  fun p => Act.keeps_bind (ha p) fun x => hf x p

theorem Act.offPool_get {f : State → Act β} (hf : ∀ s, Act.OffPool (f s)) : Act.OffPool (get >>= f) :=
  fun p => Act.keeps_get_any fun s => hf s p

theorem Act.offPool_modify {f : State → State} (hf : ∀ s, (f s).pool = s.pool) : Act.OffPool (modify f) :=
  fun _ => Act.keeps_modify fun s hs => (hf s).trans hs

theorem Act.offPool_ite {c : Prop} [Decidable c] {a b : Act α} (ha : a.OffPool) (hb : b.OffPool) :
    Act.OffPool (if c then a else b) := fun p => Act.keeps_ite (ha p) (hb p)

/-- Work that answers what it read. -/
theorem Act.OffPool.answers {a : Act α} (h : a.OffPool) (f : α → β) : Act.OffPool (do let x ← a; pure (f x)) :=
  Act.offPool_bind h fun _ => Act.offPool_pure _

theorem Act.offPool_forEach {xs : List α} {f : α → Act Unit} (h : ∀ x, Act.OffPool (f x)) : Act.OffPool (forEach xs f) :=
  fun p => Act.keeps_forEach fun x _ => h x p

theorem Act.offPool_sumOver {xs : List α} {f : α → Act Nat} (h : ∀ x, Act.OffPool (f x)) : Act.OffPool (sumOver xs f) :=
  fun p => Act.keeps_sumOver fun x _ => h x p

end

theorem regionRead_offPool (off n : Nat) : (regionRead off n).OffPool := fun _ => regionRead_keeps (fun _ _ h => h) off n

theorem regionWriteLanding_offPool (lands : Nat → Nat) (off : Nat) (ws : List Word) :
    (regionWriteLanding lands off ws).OffPool :=
  fun _ => regionWriteLanding_keeps (fun _ _ h => h) (fun _ _ _ h => h) lands off ws

theorem regionWrite_offPool (off : Nat) (ws : List Word) : (regionWrite off ws).OffPool := regionWriteLanding_offPool _ off ws

theorem regionWriteWhole_offPool (off : Nat) (ws : List Word) : (regionWriteWhole off ws).OffPool :=
  regionWriteLanding_offPool _ off ws

theorem landStores_offPool (stores : HostStores) : (landStores stores).OffPool := Act.offPool_modify fun _ => rfl

theorem State.raiseCause_pool (s : State) (c : Cause) : (s.raiseCause c).pool = s.pool := by simp [State.pool]

/-! ### The notice unit and the cache -/

theorem writeNotice_offPool (n : Notice) (held : List Notice) : (writeNotice n held).OffPool :=
  Act.offPool_get fun _ => Act.offPool_bind (regionWrite_offPool _ _) fun _ =>
    Act.offPool_bind (Act.offPool_modify fun _ => State.raiseCause_pool _ _) fun _ =>
      Act.offPool_get fun _ => regionWriteWhole_offPool _ _

theorem drain_offPool (k : Nat) : (drain k).OffPool := by
  induction k with
  | zero => exact Act.offPool_pure _
  | succ k ih =>
    refine Act.offPool_get fun s => Act.offPool_ite ?_ (Act.offPool_pure _)
    cases nextHeld s.heldNotices with
    | none => exact Act.offPool_pure _
    | some n => exact Act.offPool_bind (writeNotice_offPool _ _) fun _ => ih

theorem readTaken_offPool : readTaken.OffPool :=
  Act.offPool_get fun _ => Act.offPool_bind (regionRead_offPool _ _) fun _ =>
    Act.offPool_bind (Act.offPool_modify fun _ => rfl) fun _ => Act.offPool_get fun _ => drain_offPool _

theorem receiveNotice_offPool (n : Notice) : (receiveNotice n).OffPool := by
  have hold {f : State → State} (h : ∀ s, (f s).pool = s.pool) : Act.OffPool (do modify f; readTaken; pure false) :=
    Act.offPool_bind (Act.offPool_modify h) fun _ => readTaken_offPool.answers _
  refine Act.offPool_get fun s =>
    Act.offPool_ite (Act.offPool_ite ?logged ?read) (Act.offPool_ite ?merged (Act.offPool_ite ?held ?dropped))
  case logged => exact (writeNotice_offPool _ _).answers _
  case read =>
    exact Act.offPool_bind readTaken_offPool fun _ => Act.offPool_get fun _ =>
      Act.offPool_ite ((writeNotice_offPool _ _).answers _) (Act.offPool_bind (Act.offPool_modify fun _ => rfl) fun _ => Act.offPool_pure _)
  case merged => exact hold fun _ => rfl
  case held => exact hold fun _ => rfl
  case dropped => exact readTaken_offPool.answers _

theorem handNotices_offPool (ns : List Notice) : (handNotices ns).OffPool := by
  induction ns with
  | nil => exact Act.offPool_pure _
  | cons n ns ih =>
    exact Act.offPool_bind (receiveNotice_offPool n) fun _ =>
      Act.offPool_ite (Act.offPool_bind (Act.offPool_modify fun _ => rfl) fun _ => ih.answers _) (ih.answers _)

theorem reportNotices_offPool (ns : List Notice) : (reportNotices ns).OffPool := (handNotices_offPool ns).answers _

theorem readUncached_offPool (n : Nat) : (readUncached n).OffPool :=
  Act.offPool_get fun _ => (regionRead_offPool _ _).answers _

theorem fetchRecord_offPool (n : Nat) : (fetchRecord n).OffPool := by
  refine Act.offPool_get fun s => ?_
  split
  · exact Act.offPool_bind (Act.offPool_modify fun _ => rfl) fun _ => Act.offPool_pure _
  · refine Act.offPool_ite (Act.offPool_bind (regionRead_offPool _ _) fun ws => Act.offPool_ite (Act.offPool_pure _) ?_)
      (readUncached_offPool n)
    exact Act.offPool_bind (Act.offPool_modify fun _ => rfl) fun _ => Act.offPool_pure _

theorem patrolFetch_offPool (n : Nat) : (patrolFetch n).OffPool := by
  refine Act.offPool_get fun s => ?_
  split
  · exact Act.offPool_pure _
  · exact readUncached_offPool n

theorem writeThrough_offPool (n : Nat) (a : Account) : (writeThrough n a).OffPool :=
  Act.offPool_bind (Act.offPool_modify fun _ => rfl) fun _ => Act.offPool_get fun _ => (regionWrite_offPool _ _).answers _

theorem markMissed_offPool (n : Nat) (dropped : Bool) : (markMissed n dropped).OffPool := by
  refine Act.offPool_ite (Act.offPool_bind (fetchRecord_offPool n) fun f => ?_) (Act.offPool_pure _)
  cases f with
  | corrupt => exact Act.offPool_modify fun _ => rfl
  | malformed => exact Act.offPool_modify fun _ => rfl
  | record a => exact Act.offPool_ite (Act.offPool_pure _) ((writeThrough_offPool _ _).answers _)

theorem settleAccount_offPool (n : Nat) (a : Account) {counts : State → State} (h : ∀ s, (counts s).pool = s.pool)
    (ns : List Notice) : (settleAccount n a counts ns).OffPool :=
  Act.offPool_bind (writeThrough_offPool n a) fun _ => Act.offPool_bind (Act.offPool_modify h) fun _ =>
    Act.OffPool.answers (Act.offPool_bind (handNotices_offPool ns) fun _ => markMissed_offPool n _) _

/-! ### The account kinds keep the pool sound (R11 to R26) -/

theorem Act.sound_modify {f : State → State} (h : ∀ s, PoolSound s → PoolSound (f s)) : Act.Keeps PoolSound (modify f) :=
  Act.keeps_modify h

theorem onAccount_poolSound (c : TakenCell) (compareTag : Bool) (zonesOf : Account → List Nat)
    {work : Nat → Account → Act Answer} (h : ∀ n a, Act.Keeps PoolSound (work n a)) :
    Act.Keeps PoolSound (onAccount c compareTag zonesOf work) := by
  refine Act.keeps_get_any fun s =>
    Act.keeps_ite (Act.keeps_pure _) (Act.keeps_bind (fetchRecord_offPool _).sound fun f => ?_)
  cases f with
  | corrupt => exact Act.keeps_then_pure (reportNotices_offPool _).sound _
  | malformed => exact Act.keeps_then_pure (reportNotices_offPool _).sound _
  | record a => exact Act.keeps_ite (Act.keeps_pure _) (Act.keeps_ite (Act.keeps_pure _) (h _ a))

theorem State.noteBake_pool (s : State) (a b : Account) : (s.noteBake a b).pool = s.pool := by
  unfold State.noteBake
  split <;> rfl

theorem enrolAccount_offPool (c : TakenCell) (n : Nat) (a : Account) : (enrolAccount c n a).OffPool := by
  refine Act.offPool_get fun s => Act.offPool_ite (Act.offPool_pure _) (Act.offPool_ite (Act.offPool_pure _) ?_)
  simp only
  split
  · exact Act.offPool_pure _
  · exact Act.offPool_ite (Act.offPool_pure _) ((settleAccount_offPool _ _ (fun _ => by rfl) _).answers _)

theorem openAccount_poolSound (c : TakenCell) (n : Nat) (a : Account) : Act.Keeps PoolSound (openAccount c n a) :=
  Act.keeps_get_any fun _ => Act.keeps_ite (Act.keeps_pure _) (Act.keeps_ite (Act.keeps_pure _)
    (Act.keeps_bind (Act.sound_modify fun _ h => h.watchAccount _ _) fun _ =>
      Act.keeps_then_pure (settleAccount_offPool _ _ (fun _ => by rfl) _).sound _))

theorem moveAccount_poolSound (c : TakenCell) (n : Nat) (a : Account) : Act.Keeps PoolSound (moveAccount c n a) := by
  refine Act.keeps_get_any fun s => ?_
  cases a.zone with
  | none => exact Act.keeps_pure _
  | some src =>
    exact Act.keeps_ite (Act.keeps_pure _) (Act.keeps_ite (Act.keeps_pure _)
      (Act.keeps_bind (Act.sound_modify fun _ h => h.repooled n a _) fun _ =>
        Act.keeps_then_pure (settleAccount_offPool _ _ (fun _ => by rw [State.noteBake_pool]; rfl) _).sound _))

theorem bagAccount_poolSound (n : Nat) (a : Account) : Act.Keeps PoolSound (bagAccount n a) := by
  refine Act.keeps_get_any fun s => ?_
  cases a.zone with
  | none => exact Act.keeps_pure _
  | some z =>
    exact Act.keeps_bind (Act.sound_modify fun _ h => h.unpooled n a) fun _ =>
      Act.keeps_then_pure (settleAccount_offPool _ _ (fun _ => by rw [State.noteBake_pool]; rfl) _).sound _

theorem retireAccount_poolSound (n : Nat) (a : Account) : Act.Keeps PoolSound (retireAccount n a) := by
  refine Act.keeps_get_any fun s => Act.keeps_ite (Act.keeps_pure _) ?_
  cases a.zone with
  | none => exact Act.keeps_then_pure (settleAccount_offPool _ _ (fun _ => by rfl) _).sound _
  | some z =>
    exact Act.keeps_bind (Act.sound_modify fun _ h => h.unpooled n a) fun _ =>
      Act.keeps_then_pure (settleAccount_offPool _ _ (fun _ => by rfl) _).sound _

theorem amendAccount_poolSound (c : TakenCell) (n : Nat) (a : Account) : Act.Keeps PoolSound (amendAccount c n a) := by
  refine Act.keeps_get_any fun s => ?_
  cases s.amendRefusal c a with
  | some r => exact Act.keeps_pure _
  | none =>
    have settles := settleAccount_offPool n (s.amended c n a).1 (counts := fun t => t.countAmend a (s.amended c n a).1)
      (fun _ => State.pool_eq_iff.mpr (State.countAmend_pool _ _ _)) (s.amended c n a).2
    exact Act.keeps_ite (Act.keeps_bind (Act.sound_modify fun _ h => h.repooled n a _) fun _ => (settles.answers _).sound)
      (settles.answers _).sound

theorem queryAccount_offPool (n : Nat) (a : Account) : (queryAccount n a).OffPool :=
  Act.offPool_get fun _ => Act.offPool_ite (Act.offPool_pure _) (Act.offPool_pure _)

/-! ### The other kinds of cell -/

theorem climateWork_offPool (c : TakenCell) : (climateWork c).OffPool :=
  Act.offPool_get fun _ => Act.offPool_ite (Act.offPool_pure _)
    (Act.offPool_bind (Act.offPool_modify fun _ => rfl) fun _ => (reportNotices_offPool _).answers _)

theorem zonesetWork_offPool (c : TakenCell) : (zonesetWork c).OffPool :=
  Act.offPool_get fun _ => Act.offPool_ite (Act.offPool_pure _) (Act.offPool_ite (Act.offPool_pure _)
    (Act.offPool_ite (Act.offPool_pure _) (Act.offPool_bind (Act.offPool_modify fun _ => rfl) fun _ => Act.offPool_pure _)))

theorem State.tuned_pool (s : State) (c : TakenCell) (maps : Vector AuthMap 8) : (s.tuned c maps).pool = s.pool := by
  unfold State.tuned
  cases cacheModeOf c.tuneMode with
  | none => rfl
  | some m => cases m <;> rfl

theorem tuneWork_offPool (c : TakenCell) : (tuneWork c).OffPool := by
  have applies (maps : Vector AuthMap 8) : (applyTune c maps).OffPool :=
    Act.offPool_bind (Act.offPool_modify fun _ => State.tuned_pool _ _ _) fun _ =>
      Act.offPool_get fun _ => Act.offPool_pure _
  exact Act.offPool_get fun _ => Act.offPool_ite (Act.offPool_pure _) (Act.offPool_ite
    (Act.offPool_bind (regionRead_offPool _ _) fun _ => Act.offPool_ite (applies _) (Act.offPool_pure _)) (applies _))

theorem classwriteWork_offPool (c : TakenCell) : (classwriteWork c).OffPool := by
  refine Act.offPool_get fun s => Act.offPool_ite (Act.offPool_pure _) (Act.offPool_ite (Act.offPool_pure _)
    (Act.offPool_bind (regionRead_offPool _ _) fun image => Act.offPool_get fun t => ?_))
  simp only
  split
  · exact Act.offPool_pure _
  · exact Act.offPool_bind (Act.offPool_modify fun _ => rfl) fun _ => Act.offPool_pure _

/-! ### The intake (R162 to R166) -/

theorem inspect_offPool (k : ListNo) : (inspect k).OffPool :=
  Act.offPool_get fun _ => Act.offPool_ite (Act.offPool_pure _)
    (Act.offPool_bind (regionRead_offPool _ _) fun _ => Act.offPool_modify fun _ => rfl)

theorem takeCell_offPool (k : ListNo) : (takeCell k).OffPool :=
  Act.offPool_get fun _ => Act.offPool_bind (regionRead_offPool _ _) fun _ => Act.offPool_bind (regionWrite_offPool _ _) fun _ =>
    Act.offPool_bind (Act.offPool_modify fun _ => rfl) fun _ => Act.offPool_get fun _ => (regionWrite_offPool _ _).answers _

theorem completeCell_offPool (c : TakenCell) (a : Answer) : (completeCell c a).OffPool :=
  Act.offPool_get fun _ => Act.offPool_bind (regionWrite_offPool _ _) fun _ =>
    Act.offPool_bind (regionWrite_offPool _ _) fun _ => Act.offPool_bind (regionWriteWhole_offPool _ _) fun _ =>
      Act.offPool_bind (Act.offPool_modify fun _ => rfl) fun _ =>
        Act.offPool_ite (Act.offPool_bind (Act.offPool_modify fun _ => State.raiseCause_pool _ _) fun _ => inspect_offPool _)
          (inspect_offPool _)

/-- The command of a kind of cell keeps the pool sound if its work does (R163 to R166). -/
theorem serveCell_poolSound {kinds : Nat → Bool} {work : TakenCell → Act (Option Answer)}
    (h : ∀ c, Act.Keeps PoolSound (work c)) : Act.Keeps PoolSound (serveCell kinds work) := by
  refine Act.keeps_get_any fun s => Act.keeps_ite ?_ (Act.keeps_pure _)
  cases s.chosenList with
  | none => exact Act.keeps_pure _
  | some k =>
    refine Act.keeps_ite (Act.keeps_bind (takeCell_offPool k).sound fun c => Act.keeps_get_any fun t => ?_) (Act.keeps_pure _)
    cases t.intakeRefusal c with
    | some r => exact (completeCell_offPool c _).sound
    | none =>
      refine Act.keeps_bind (h c) fun answer => ?_
      cases answer with
      | some a => exact (completeCell_offPool c a).sound
      | none => exact Act.OffPool.sound (Act.offPool_modify fun _ => rfl)

theorem cellNoLongerPosted_offPool : cellNoLongerPosted.OffPool := by
  refine Act.offPool_get fun s => Act.offPool_ite ?_ (Act.offPool_pure _)
  cases s.chosenList with
  | none => exact Act.offPool_pure _
  | some k =>
    exact Act.offPool_ite (Act.offPool_pure _)
      (Act.offPool_bind (regionRead_offPool _ _) fun _ => Act.offPool_modify fun _ => rfl)

/-! ### Hand-overs and the patrol (R27, R28, R115 to R118) -/

theorem freeEngine_offPool : freeEngine.OffPool := Act.offPool_modify fun _ => rfl

theorem dropFaulty_poolSound (e : WatchEntry) (what : Nat) : Act.Keeps PoolSound (dropFaulty e what) :=
  Act.keeps_bind (Act.sound_modify fun _ h => h.removeEntry _) fun _ =>
    Act.keeps_get_any fun _ => (reportNotices_offPool _).sound

/-- A warning given to an entry that stands in the pool (R27). -/
theorem giveWarning_poolSound (e : WatchEntry) (a : Account) :
    Act.Does (fun t => PoolSound t ∧ e ∈ t.watch) (giveWarning e a) (fun _ => PoolSound) PoolSound :=
  Act.does_get fun _ _ => Act.does_bind (R := fun _ => PoolSound)
    (Act.does_modify fun _ ⟨_, h, he⟩ => h.rewatch he a) fun _ =>
      Act.keeps_ite (Act.keeps_pure _) (Act.keeps_then_pure (settleAccount_offPool _ _ (fun _ => by rfl) _).sound _)

theorem giveExpiry_poolSound (e : WatchEntry) (a : Account) : Act.Keeps PoolSound (giveExpiry e a) :=
  Act.keeps_get_any fun _ => Act.keeps_bind (Act.sound_modify fun _ h => h.removeEntry _) fun _ =>
    Act.keeps_then_pure (settleAccount_offPool _ _ (fun _ => by rfl) _).sound _

/-- The service of a hand-over keeps the pool sound if its work does, begun with its entry in the pool (R9, R109). -/
theorem serveHandover_poolSound {e : WatchEntry} {work : Fetched → Act Unit}
    (h : ∀ f, Act.Does (fun t => PoolSound t ∧ e ∈ t.watch) (work f) (fun _ => PoolSound) PoolSound) :
    Act.Does (fun t => PoolSound t ∧ e ∈ t.watch) (serveHandover e work) (fun _ => PoolSound) PoolSound := by
  have fetch : Act.Keeps (fun t => PoolSound t ∧ e ∈ t.watch) (fetchRecord e.account) :=
    (fetchRecord_offPool _).keeps fun s t same ⟨sound, he⟩ =>
      ⟨sound.of_pool same, by rw [(State.pool_eq_iff.mp same).1]; exact he⟩
  exact Act.does_bind (Act.does_modify (Q := fun _ t => PoolSound t ∧ e ∈ t.watch) fun t ⟨sound, he⟩ =>
    ⟨sound.takeHandover e, he⟩) fun _ =>
      Act.does_bind (Act.does_weaken fetch (fun _ h => h) (fun _ _ h => h) fun _ h => h.1) fun f =>
        Act.does_bind (h f) fun _ => freeEngine_offPool.sound

theorem serveWarning_poolSound (e : WatchEntry) :
    Act.Does (fun t => PoolSound t ∧ e ∈ t.watch) (serveWarning e) (fun _ => PoolSound) PoolSound := by
  rw [serveWarning_eq]
  refine serveHandover_poolSound fun f => ?_
  cases f with
  | corrupt => exact Act.does_from (dropFaulty_poolSound e 1) fun _ h => h.1
  | malformed => exact Act.does_from (dropFaulty_poolSound e 2) fun _ h => h.1
  | record a =>
    exact Act.does_ite (fun _ => Act.does_modify fun _ h => h.1.removeEntry _) fun _ => giveWarning_poolSound e a

theorem serveExpiry_poolSound (e : WatchEntry) :
    Act.Does (fun t => PoolSound t ∧ e ∈ t.watch) (serveExpiry e) (fun _ => PoolSound) PoolSound := by
  have faulty (what : Nat) : Act.Keeps PoolSound (expireFaulty e what) :=
    Act.keeps_bind (Act.sound_modify fun _ h => h.of_pool rfl) fun _ => dropFaulty_poolSound e what
  rw [serveExpiry_eq]
  refine serveHandover_poolSound fun f => ?_
  cases f with
  | corrupt => exact Act.does_from (faulty 1) fun _ h => h.1
  | malformed => exact Act.does_from (faulty 2) fun _ h => h.1
  | record a =>
    exact Act.does_ite (fun _ => Act.does_modify fun _ h => h.1.removeEntry _) fun _ =>
      Act.does_from (giveExpiry_poolSound e a) fun _ h => h.1

/-- The entry a hand-over presents stands in the pool (R109). -/
theorem State.handoverAt_mem {s : State} {stage : Stage} {e : WatchEntry} (h : s.handoverAt stage = some e) : e ∈ s.watch := by
  have presented : s.handover = some e := by
    unfold State.handoverAt at h
    split at h
    · split at h
      · next x found => split at h <;> cases h; exact found
      · cases h
    · cases h
  unfold State.handover at presented
  split at presented
  · split at presented
    · cases presented
    · exact List.mem_of_find?_eq_some presented
  · cases presented

/-- A hand-over is served where one is presented (R10). -/
theorem handover_poolSound {stage : Stage} {serve : WatchEntry → Act Unit}
    (h : ∀ e, Act.Does (fun t => PoolSound t ∧ e ∈ t.watch) (serve e) (fun _ => PoolSound) PoolSound) :
    Act.Keeps PoolSound (do
      let s ← get
      match s.handoverAt stage with
      | some e => serve e
      | none => pure ()) := by
  refine Act.keeps_get fun s _ => ?_
  cases given : s.handoverAt stage with
  | none => exact Act.does_pure fun _ h => h.2
  | some e => exact Act.does_from (h e) fun t ⟨same, sound⟩ => ⟨sound, same ▸ State.handoverAt_mem given⟩

theorem patrolReadOne_offPool : patrolReadOne.OffPool := by
  refine Act.offPool_get fun s => Act.offPool_ite (Act.offPool_bind (patrolFetch_offPool _) fun f =>
    Act.offPool_bind (Act.offPool_modify fun _ => rfl) fun _ => Act.offPool_get fun t => ?_) (Act.offPool_pure _)
  cases f with
  | corrupt => exact reportNotices_offPool _
  | malformed => exact reportNotices_offPool _
  | record a => exact Act.offPool_ite (Act.offPool_modify fun _ => rfl) (Act.offPool_pure _)

theorem patrolSettle_poolSound (n : Nat) (z : ZoneNo) (a : Account) : Act.Keeps PoolSound (patrolSettle n z a) := by
  refine Act.keeps_get_any fun s => Act.keeps_ite ?expiry (Act.keeps_ite ?warning ?watch)
  case expiry =>
    exact Act.keeps_get_any fun _ => Act.keeps_bind (Act.sound_modify fun _ h => h.oneLess) fun _ =>
      Act.keeps_then_pure (settleAccount_offPool _ _ (fun _ => by rfl) _).sound _
  case warning =>
    exact Act.keeps_get_any fun _ => Act.keeps_bind (Act.sound_modify fun _ h => h.patrolWatch _ _) fun _ =>
      Act.keeps_then_pure (settleAccount_offPool _ _ (fun _ => by rfl) _).sound _
  case watch => exact Act.sound_modify fun _ h => h.patrolWatch _ _

theorem patrolWork_poolSound : Act.Keeps PoolSound patrolWork := by
  refine Act.keeps_get_any fun s => Act.keeps_ite ?_ (Act.keeps_pure _)
  cases s.heldAccount with
  | none => exact Act.keeps_pure _
  | some n =>
    have reports (ns : List Notice) : Act.Keeps PoolSound (do reportNotices ns; freeEngine) :=
      Act.OffPool.sound (Act.offPool_bind (reportNotices_offPool ns) fun _ => freeEngine_offPool)
    refine Act.keeps_bind (Act.sound_modify fun _ h => h.of_pool rfl) fun _ =>
      Act.keeps_bind (fetchRecord_offPool n).sound fun f => Act.keeps_get_any fun t => ?_
    cases f with
    | corrupt => exact reports _
    | malformed => exact reports _
    | record a =>
      simp only
      cases a.zone with
      | none => exact freeEngine_offPool.sound
      | some z =>
        exact Act.keeps_ite (Act.keeps_bind (patrolSettle_poolSound n z a) fun _ => freeEngine_offPool.sound)
          freeEngine_offPool.sound

/-! ### Publications, timers and the clock -/

theorem writeZonePage_offPool (zones : Vector Zone 64) (published : Word) : (writeZonePage zones published).OffPool :=
  Act.offPool_get fun _ => Act.offPool_bind (Act.offPool_forEach fun _ => regionWrite_offPool _ _) fun _ =>
    Act.offPool_bind (regionWrite_offPool _ _) fun _ => Act.offPool_bind (regionWrite_offPool _ _) fun _ =>
      regionWriteWhole_offPool _ _

theorem publish_offPool : publish.OffPool :=
  Act.offPool_bind (Act.offPool_modify fun _ => rfl) fun _ => Act.offPool_get fun _ =>
    Act.offPool_bind (writeZonePage_offPool _ _) fun _ => regionWrite_offPool _ _

theorem finishPublication_offPool : finishPublication.OffPool :=
  Act.offPool_get fun _ => Act.offPool_ite publish_offPool (Act.offPool_pure _)

theorem writeClockWords_offPool : writeClockWords.OffPool :=
  Act.offPool_get fun _ => Act.offPool_ite (regionWrite_offPool _ _) (Act.offPool_pure _)

theorem inspections_offPool (ks : List ListNo) : Act.OffPool (do forEach ks inspect; readTaken) :=
  Act.offPool_bind (Act.offPool_forEach inspect_offPool) fun _ => readTaken_offPool

theorem nudgeCommand_offPool (mask : BitVec 8) : (nudgeCommand mask).OffPool :=
  Act.offPool_get fun _ => Act.offPool_ite (inspections_offPool _) (Act.offPool_pure _)

theorem scanExpiry_offPool : scanExpiry.OffPool :=
  Act.offPool_get fun _ => Act.offPool_ite (inspections_offPool _) (Act.offPool_pure _)

theorem State.advanceMinute_pool (s : State) (m : Word) (stall : Fin 16) : (s.advanceMinute m stall).pool = s.pool := by
  simp [State.pool]

theorem boundary_poolSound : Act.Keeps PoolSound boundary := by
  refine Act.keeps_get fun s hs => ?_
  cases s.clock with
  | unset => exact Act.does_pure fun _ h => h.2
  | held m stall =>
    exact Act.does_bind (R := fun _ => PoolSound)
      (Act.does_set fun _ _ => hs.of_pool (State.advanceMinute_pool s m stall)) fun _ =>
        Act.keeps_bind (reportNotices_offPool _).sound fun _ =>
          Act.keeps_bind (Act.sound_modify fun _ h => h.examine _) fun _ => Act.sound_modify fun _ h => h.of_pool rfl

theorem State.pool_charged (s : State) (zones : Vector Zone 64) (clock : Clock) :
    { s with zones := zones, clock := clock, remaining := 0 }.pool = s.pool := rfl

/-- The work stands as a variable `a`, so that Lean does not unfold its 64 zones where the lemma is applied. -/
theorem gapAccrual_poolSound {start value : Word} {g cleared : Nat} {a : Act Unit} (ha : gapAccrual start value g cleared = a) :
    Act.Keeps PoolSound a := by
  rw [← ha]
  refine Act.keeps_get_any ?_
  intro s
  extract_lets charged
  clear_value charged
  exact Act.keeps_bind (Act.sound_modify fun t h => h.of_pool (t.pool_charged _ _)) fun _ =>
    Act.keeps_bind (reportNotices_offPool _).sound fun _ => Act.keeps_bind (Act.sound_modify fun _ h => h.examine _) fun _ =>
      Act.keeps_bind (reportNotices_offPool _).sound fun _ => publish_offPool.sound

theorem setFromUnset_poolSound (v : Word) : Act.Keeps PoolSound (setFromUnset v) := by
  refine Act.keeps_get_any fun s => ?_
  generalize ha : gapAccrual s.published v (v.toNat - s.published.toNat) 0 = a
  exact Act.keeps_ite
    (Act.OffPool.sound (Act.offPool_bind (Act.offPool_modify fun _ => rfl) fun _ => publish_offPool.answers _))
    (Act.keeps_ite (Act.keeps_pure _) (Act.keeps_then_pure (gapAccrual_poolSound ha) _))

theorem stepForward_poolSound (m : Word) (stall : Fin 16) (k : Nat) : Act.Keeps PoolSound (stepForward m stall k) :=
  Act.keeps_bind (Act.sound_modify fun _ h => h.of_pool rfl) fun _ =>
    Act.keeps_ite (writeClockWords_offPool.answers _).sound
      (Act.keeps_bind (Act.keeps_repeatAct boundary_poolSound _) fun _ => (publish_offPool.answers _).sound)

theorem correct_poolSound (m : Word) (stall : Fin 16) (v : Word) : Act.Keeps PoolSound (correct m stall v) := by
  unfold correct
  simp only
  generalize ha : gapAccrual m v (v.toNat - m.toNat) stall.val = a
  exact Act.keeps_ite (Act.keeps_pure _) (Act.keeps_ite (stepForward_poolSound _ _ _)
    (Act.keeps_ite (Act.keeps_then_pure (gapAccrual_poolSound ha) _)
      (Act.keeps_ite (Act.keeps_bind (Act.sound_modify fun _ h => h.of_pool rfl) fun _ =>
        (writeClockWords_offPool.answers _).sound) (Act.keeps_pure _))))

theorem clocksetWork_poolSound (c : TakenCell) : Act.Keeps PoolSound (clocksetWork c) := by
  have applies (v : Word) : Act.Keeps PoolSound (applyClock v) := by
    refine Act.keeps_bind finishPublication_offPool.sound fun _ => Act.keeps_get_any fun s => ?_
    cases s.clock with
    | unset => exact setFromUnset_poolSound v
    | held m stall => exact correct_poolSound m stall v
  exact Act.keeps_get_any fun _ => Act.keeps_ite (Act.keeps_pure _)
    (Act.keeps_bind (applies _) fun _ => Act.keeps_get_any fun _ => Act.keeps_pure _)

theorem minuteExpiry_poolSound : Act.Keeps PoolSound minuteExpiry := by
  refine Act.keeps_bind finishPublication_offPool.sound fun _ => Act.keeps_get_any fun s => ?_
  cases s.clock with
  | unset => exact Act.keeps_pure _
  | held m stall =>
    exact Act.keeps_ite (Act.keeps_bind (Act.sound_modify fun _ h => h.of_pool rfl) fun _ => writeClockWords_offPool.sound)
      (Act.keeps_ite (Act.keeps_bind boundary_poolSound fun _ => Act.sound_modify fun _ h => h.of_pool rfl)
        (Act.keeps_pure _))

/-! ### Attachment (R170 to R172) -/

theorem walkAccount_poolSound (n : Nat) : Act.Keeps PoolSound (walkAccount n) := by
  have faulty (ns : List Notice) : Act.Keeps PoolSound (do reportNotices ns; pure 1) :=
    ((reportNotices_offPool ns).answers _).sound
  refine Act.keeps_bind (readUncached_offPool n).sound fun f => Act.keeps_get_any fun s => ?_
  cases f with
  | corrupt => exact faulty _
  | malformed => exact faulty _
  | record a =>
    refine Act.keeps_ite (Act.keeps_pure _) (Act.keeps_bind (Act.sound_modify fun _ h => h.of_pool rfl) fun _ => ?_)
    cases a.zone with
    | none => exact Act.keeps_pure _
    | some z =>
      refine Act.keeps_get_any fun s => Act.keeps_ite (Act.keeps_then_pure (Act.sound_modify fun t h => ?_) _) (faulty _)
      exact PoolSound.watchAccount (s := t.countZone z 1 a.expiredCount) (h.of_pool rfl) n a

theorem walkCells_offPool : walkCells.OffPool := by
  refine Act.offPool_get fun _ => Act.offPool_sumOver fun k => Act.offPool_sumOver fun i => Act.offPool_get fun s =>
    Act.offPool_bind (regionRead_offPool _ _) fun w0 => Act.offPool_ite ?_ (Act.offPool_pure _)
  refine Act.offPool_bind (regionRead_offPool _ _) fun w1 => Act.offPool_bind (regionWrite_offPool _ _) fun _ =>
    Act.offPool_bind (regionWrite_offPool _ _) fun _ => Act.offPool_bind (regionWriteWhole_offPool _ _) fun _ => ?_
  exact Act.offPool_ite (Act.offPool_bind (Act.offPool_modify fun _ => State.raiseCause_pool _ _) fun _ => Act.offPool_pure _) (Act.offPool_pure _)

theorem endAttach_offPool (fresh : Bool) (abandoned faulty : Nat) : (endAttach fresh abandoned faulty).OffPool :=
  Act.offPool_get fun _ => Act.offPool_bind (reportNotices_offPool _) fun _ =>
    Act.offPool_bind (Act.offPool_modify fun _ => rfl) fun _ => Act.offPool_get fun _ =>
      Act.offPool_bind (regionWrite_offPool _ _) fun _ => Act.offPool_modify fun _ => State.raiseCause_pool _ _

/-- The pool is emptied before the walk fills it (R120). -/
theorem finishAttach_poolSound (b : LayoutBlock) : Act.Keeps PoolSound (finishAttach b) :=
  Act.keeps_bind (Act.sound_modify fun _ _ => .of_empty rfl rfl rfl) fun _ =>
    Act.keeps_bind (Act.keeps_sumOver fun n _ => walkAccount_poolSound n) fun _ =>
      Act.keeps_bind walkCells_offPool.sound fun _ => (endAttach_offPool _ _ _).sound

theorem attachFresh_offPool (capacity : Nat) (flag : Word) : (attachFresh capacity flag).OffPool :=
  Act.offPool_bind (Act.offPool_modify fun _ => rfl) fun _ => Act.offPool_get fun _ =>
    Act.offPool_bind (writeZonePage_offPool _ _) fun _ => Act.offPool_get fun _ =>
      Act.offPool_bind (regionWrite_offPool _ _) fun _ => regionWrite_offPool _ _

theorem readEntries_offPool (zs : List (Fin 64)) : ∀ v, (readEntries zs v).OffPool := by
  induction zs with
  | nil => exact fun _ => Act.offPool_pure _
  | cons z zs ih => exact fun v => Act.offPool_get fun _ => Act.offPool_bind (regionRead_offPool _ _) fun _ => ih _

theorem State.failAttach_pool (s : State) (code : AttachFail) : (s.failAttach code).pool = s.pool :=
  State.raiseCause_pool _ _

theorem attachLoaded_offPool (capacity : Nat) : (attachLoaded capacity).OffPool := by
  refine Act.offPool_get fun _ => Act.offPool_bind (regionRead_offPool _ _) fun header =>
    Act.offPool_bind (readEntries_offPool _ _) fun entries => ?_
  cases zonesOfPage header entries with
  | none => exact Act.offPool_bind (Act.offPool_modify fun _ => State.failAttach_pool _ _) fun _ => Act.offPool_pure _
  | some zones =>
    exact Act.offPool_bind (Act.offPool_modify fun _ => rfl) fun _ => Act.offPool_bind (regionRead_offPool _ _) fun _ =>
      Act.offPool_bind (Act.offPool_modify fun _ => rfl) fun _ => Act.offPool_pure _

theorem startCommand_poolSound : Act.Keeps PoolSound startCommand :=
  Act.keeps_get_any fun _ => Act.keeps_ite (Act.keeps_bind (Act.sound_modify fun _ h => h.of_pool rfl) fun _ =>
    Act.keeps_bind (regionRead_offPool _ _).sound fun _ => Act.keeps_ite
      (Act.keeps_bind (Act.sound_modify fun _ h => h.of_pool rfl) fun _ => Act.keeps_ite
        (Act.keeps_bind (attachFresh_offPool _ _).sound fun _ => finishAttach_poolSound _)
        (Act.keeps_bind (attachLoaded_offPool _).sound fun _ =>
          Act.keeps_ite (finishAttach_poolSound _) (Act.keeps_pure _)))
      (Act.sound_modify fun _ h => h.of_pool (State.failAttach_pool _ _))) (Act.keeps_pure _)

/-! ### Registers, stops and the class store -/

/-- A reset empties the pool (R175). -/
theorem reset_poolSound (causes : State → BitVec 3) : Act.Keeps PoolSound (modify fun t => t.resetWith (causes t)) :=
  Act.sound_modify fun _ _ => .of_empty rfl rfl rfl

theorem storeEnables_offPool (enables : BitVec 5) : (storeEnables enables).OffPool := Act.offPool_modify fun _ => rfl

theorem stopCommand_offPool : stopCommand.OffPool := Act.offPool_modify fun _ => by split <;> rfl

theorem writeRegister_poolSound (reg : RegName) (value : Word) : Act.Keeps PoolSound (writeRegister reg value) := by
  cases reg with
  | id => exact Act.keeps_pure _
  | baseLo => exact Act.OffPool.sound (Act.offPool_modify fun _ => by split <;> rfl)
  | baseHi => exact Act.OffPool.sound (Act.offPool_modify fun _ => by split <;> rfl)
  | control =>
    exact Act.keeps_ite (reset_poolSound _) (Act.keeps_bind (storeEnables_offPool _).sound fun _ =>
      Act.keeps_ite startCommand_poolSound (Act.keeps_ite stopCommand_offPool.sound (Act.keeps_pure _)))

theorem stopCompletion_offPool : stopCompletion.OffPool :=
  Act.offPool_get fun _ => Act.offPool_ite
    (Act.offPool_bind readTaken_offPool fun _ => Act.offPool_bind (Act.offPool_modify fun _ => rfl) fun _ =>
      Act.offPool_bind publish_offPool fun _ => Act.offPool_get fun _ => Act.offPool_bind (regionWriteWhole_offPool _ _) fun _ =>
        Act.offPool_bind (Act.offPool_modify fun _ => rfl) fun _ => Act.offPool_get fun _ =>
          Act.offPool_bind (regionWrite_offPool _ _) fun _ => Act.offPool_modify fun _ => rfl) (Act.offPool_pure _)

theorem failAccess_offPool (after written : Nat) : (failAccess after written).OffPool := by
  intro p s hs
  cases after with
  | zero => by_cases attached : s.attached = true <;> simpa [failAccess, attached] using hs
  | succ n => by_cases faulted : s.engineState = .faulted <;> simpa [failAccess, faulted, State.pool] using hs

theorem State.endProgramming_pool (s : State) (defects : List NvDefect) : (s.endProgramming defects).pool = s.pool := by
  unfold State.endProgramming
  split
  · rfl
  · split <;> rfl

theorem classCompletion_poolSound : Act.Keeps PoolSound classCompletion := by
  have ends (running : Prop) [Decidable running] (ns : List Notice) (c : TakenCell) (a : Answer) :
      Act.Keeps PoolSound (if running then do reportNotices ns; completeCell c a else pure ()) :=
    Act.OffPool.sound (Act.offPool_ite
      (Act.offPool_bind (reportNotices_offPool _) fun _ => completeCell_offPool _ _) (Act.offPool_pure _))
  refine Act.keeps_get_any fun s => ?_
  cases s.prog with
  | none => exact Act.keeps_pure _
  | some p =>
    simp only
    cases p.ended with
    | none => exact Act.keeps_pure _
    | some success =>
      refine Act.keeps_ite (Act.keeps_get fun u hu => ?_) (Act.keeps_pure _)
      cases success with
      | true =>
        exact Act.does_bind (R := fun _ => PoolSound)
          (Act.does_set fun _ _ => hu.makeValid p) fun _ => ends _ _ _ _
      | false =>
        exact Act.does_bind (R := fun _ => PoolSound) (Act.does_set fun _ _ => hu.of_pool rfl) fun _ => ends _ _ _ _

/-! ### Every command -/

/-- Driving the lines and entering FAULTED leave the pool alone (R174). -/
theorem State.enterFaulted_pool (s : State) : s.enterFaulted.pool = s.pool := State.raiseCause_pool _ _

/-- A command keeps the pool sound if its work does. -/
theorem conclude_poolSound {a : Act Unit} {s t : State} (ran : conclude a s = .next t) (hs : PoolSound s)
    (h : Act.Keeps PoolSound a) : PoolSound t := by
  cases ran
  exact State.after_keeps h (fun u hu => hu.of_pool rfl) (fun u hu => hu.of_pool u.enterFaulted_pool) hs

/-- Every command keeps the pool sound. -/
theorem exec_poolSound (c : Instr) {s t : State} (hs : PoolSound s) (ran : exec c s = .next t) : PoolSound t := by
  have cell {kinds : Nat → Bool} {work : TakenCell → Act (Option Answer)} (ran : conclude (serveCell kinds work) s = .next t)
      (h : ∀ c, Act.Keeps PoolSound (work c)) : PoolSound t := conclude_poolSound ran hs (serveCell_poolSound h)
  have account {kinds : Nat → Bool} {compareTag : Bool} {zonesOf : TakenCell → Account → List Nat}
      {work : TakenCell → Nat → Account → Act Answer}
      (ran : conclude (serveCell kinds fun c => do
        let r ← onAccount c compareTag (zonesOf c) (work c)
        pure (some r)) s = .next t)
      (h : ∀ c n a, Act.Keeps PoolSound (work c n a)) : PoolSound t :=
    cell ran fun c => Act.keeps_then_pure (onAccount_poolSound c _ _ (h c)) _
  have host {stores : HostStores} {a : Act Unit} (ran : conclude (do landStores stores; a) s = .next t)
      (h : Act.Keeps PoolSound a) : PoolSound t :=
    conclude_poolSound ran hs (Act.keeps_bind (landStores_offPool stores).sound fun _ => h)
  cases c with
  | powerOnReset => exact conclude_poolSound ran hs (reset_poolSound _)
  | pinReset => exact conclude_poolSound ran hs (reset_poolSound _)
  | softReset stores => exact host ran (reset_poolSound _)
  | start stores enables =>
    exact host ran (Act.keeps_bind (storeEnables_offPool enables).sound fun _ => startCommand_poolSound)
  | stop stores enables =>
    exact host ran (Act.keeps_bind (storeEnables_offPool enables).sound fun _ => stopCommand_offPool.sound)
  | stopCompletion => exact conclude_poolSound ran hs stopCompletion_offPool.sound
  | registerWrite stores reg value => exact host ran (writeRegister_poolSound reg value)
  | statusWrite stores value => exact host ran (Act.sound_modify fun _ h => h.of_pool rfl)
  | nudge stores mask => exact host ran (nudgeCommand_offPool mask).sound
  | intakeScanTimerExpiry => exact conclude_poolSound ran hs scanExpiry_offPool.sound
  | minuteTimerExpiry => exact conclude_poolSound ran hs minuteExpiry_poolSound
  | zonePagePublication => exact conclude_poolSound ran hs finishPublication_offPool.sound
  | enrol => exact account ran fun c n a => (enrolAccount_offPool c n a).sound
  | openInto => exact account ran openAccount_poolSound
  | move => exact account ran moveAccount_poolSound
  | bag => exact account ran fun _ => bagAccount_poolSound
  | retire => exact account ran fun _ => retireAccount_poolSound
  | amend => exact account ran amendAccount_poolSound
  | query => exact account ran fun _ n a => (queryAccount_offPool n a).sound
  | climate => exact cell ran fun c => (climateWork_offPool c).sound
  | zoneset => exact cell ran fun c => (zonesetWork_offPool c).sound
  | classwrite => exact cell ran fun c => (classwriteWork_offPool c).sound
  | clockset => exact cell ran clocksetWork_poolSound
  | tune => exact cell ran fun c => (tuneWork_offPool c).sound
  | unknownKind => exact cell ran fun _ => Act.keeps_pure _
  | classProgrammingEnd defects =>
    exact conclude_poolSound ran hs (Act.sound_modify fun u h => h.of_pool (u.endProgramming_pool defects))
  | classCompletion => exact conclude_poolSound ran hs classCompletion_poolSound
  | warningHandover => exact conclude_poolSound ran hs (handover_poolSound serveWarning_poolSound)
  | expiryHandover => exact conclude_poolSound ran hs (handover_poolSound serveExpiry_poolSound)
  | patrolRead => exact conclude_poolSound ran hs patrolReadOne_offPool.sound
  | patrolWork => exact conclude_poolSound ran hs patrolWork_poolSound
  | regionAccessFailure after written => exact conclude_poolSound ran hs (failAccess_offPool after written).sound
  | cellNoLongerPosted => exact conclude_poolSound ran hs cellNoLongerPosted_offPool.sound

/-- Settles O55: the case of an empty queue, and every command by what its work keeps. -/
theorem everyStepKeepsThePoolSound : Obligations.EveryStepKeepsThePoolSound := by
  intro s t h ran
  unfold step at ran
  cases front : s.pending with
  | nil =>
    rw [front] at ran
    cases ran
    exact h
  | cons c rest =>
    rw [front] at ran
    exact exec_poolSound c (s := { s with pending := rest }) (h.of_pool rfl) ran

end Sys2Proof.Machine
end

-- ==== Proofs: the operations of the watch pool ====
section
/-! The place and position of an insertion, the count of a work that finds no position, and the hand-over presented (O45). -/

namespace Sys2Proof.Machine

/-! ### The place of an entry in its list (R103) -/

/-- An entry stands before another in an earlier list, or in the same one at or below its threshold (R103). -/
def WatchEntry.Stands (x e : WatchEntry) : Prop :=
  8 * x.zone.val + x.cls.val < 8 * e.zone.val + e.cls.val
    ∨ (x.zone = e.zone ∧ x.cls = e.cls ∧ x.threshold.toNat ≤ e.threshold.toNat)

/-- Where an entry is placed in a list: after those that stand before it, and before the others (R103). -/
def WatchEntry.Placed (e : WatchEntry) (old new : List WatchEntry) : Prop :=
  ∃ before after, old = before ++ after ∧ new = before ++ e :: after
    ∧ (∀ x ∈ before, x.Stands e) ∧ ∀ x ∈ after, ¬ x.Stands e

/-- The order of R103 by the numbers of the lists is that by their zones and classes. -/
theorem WatchEntry.before_iff_stands (x e : WatchEntry) : x.before e = true ↔ x.Stands e := by
  rw [WatchEntry.before_iff]
  unfold WatchEntry.inOrder WatchEntry.Stands WatchEntry.list
  rw [← and_assoc, Fin.ext_iff, Fin.ext_iff]
  omega

/-- Once an entry does not stand before another, none after it in order does. -/
theorem WatchEntry.stands_of_inOrder {x y e : WatchEntry} (less : x.inOrder y) (stands : y.Stands e) : x.Stands e := by
  rw [← WatchEntry.before_iff_stands, WatchEntry.before_iff] at stands ⊢
  exact WatchEntry.inOrder_trans less stands

theorem placeEntry_placed (e : WatchEntry) {xs : List WatchEntry} (order : xs.Pairwise WatchEntry.inOrder) :
    e.Placed xs (placeEntry e xs) := by
  induction xs with
  | nil => exact ⟨[], [], rfl, rfl, by simp, by simp⟩
  | cons x xs ih =>
    obtain ⟨first, rest⟩ := List.pairwise_cons.mp order
    unfold placeEntry
    split
    · next stands =>
      obtain ⟨before, after, rfl, new, low, high⟩ := ih rest
      refine ⟨x :: before, after, rfl, by rw [new]; rfl, fun y hy => ?_, high⟩
      rcases List.mem_cons.mp hy with rfl | hy
      · exact (WatchEntry.before_iff_stands _ _).mp stands
      · exact low y hy
    · next high =>
      rw [WatchEntry.before_iff_stands] at high
      refine ⟨[], x :: xs, rfl, rfl, by simp, fun y hy => ?_⟩
      rcases List.mem_cons.mp hy with rfl | hy
      · exact high
      · exact fun stands => high (WatchEntry.stands_of_inOrder (first y hy) stands)

/-! ### Free positions (R102) -/

/-- The positions of a sound pool are different numbers below 4,096. -/
theorem PoolSound.positions_subset {s : State} (h : PoolSound s) : s.watch.map WatchEntry.position ⊆ List.range 4096 := by
  intro p hp
  obtain ⟨e, he, rfl⟩ := List.mem_map.mp hp
  exact List.mem_range.mpr (h.range e he)

theorem PoolSound.length_le {s : State} (h : PoolSound s) : s.watch.length ≤ 4096 := by
  simpa using (List.subperm_of_subset h.positions h.positions_subset).length_le

/-- No position is free in a pool that uses them all. -/
theorem PoolSound.freePosition_full {s : State} (h : PoolSound s) (full : s.watch.length = 4096) : s.freePosition = none := by
  cases free : s.freePosition with
  | none => rfl
  | some p =>
    obtain ⟨low, unused⟩ := State.freePosition_spec free
    have fresh : p ∉ s.watch.map WatchEntry.position := fun mem => by
      obtain ⟨e, he, same⟩ := List.mem_map.mp mem
      exact unused e he same
    have more : p :: s.watch.map WatchEntry.position ⊆ List.range 4096 :=
      List.cons_subset.mpr ⟨List.mem_range.mpr low, h.positions_subset⟩
    have := (List.subperm_of_subset (List.nodup_cons.mpr ⟨fresh, h.positions⟩) more).length_le
    simp [full] at this

/-- A position is in use exactly where an entry has it. -/
theorem State.position_unused {s : State} {p : Nat} :
    (!s.watch.any fun e => decide (e.position = p)) = true ↔ ∀ e ∈ s.watch, e.position ≠ p := by
  simp

/-- Where the pool is not full its lowest free position is found. -/
theorem State.freePosition_lowest {s : State} (room : s.watch.length < 4096) :
    ∃ p, s.freePosition = some p ∧ p < 4096 ∧ (∀ e ∈ s.watch, e.position ≠ p) ∧ ∀ q, q < p → ∃ e ∈ s.watch, e.position = q := by
  cases free : s.freePosition with
  | none =>
    have used : List.range 4096 ⊆ s.watch.map WatchEntry.position := fun p hp => by
      have := List.find?_eq_none.mp free p (by simpa [poolSize, List.mem_range'_1] using hp)
      rw [State.position_unused] at this
      push Not at this
      exact List.mem_map.mpr this
    have := (List.subperm_of_subset List.nodup_range used).length_le
    simp at this
    omega
  | some p =>
    obtain ⟨low, unused⟩ := State.freePosition_spec free
    obtain ⟨-, -, lowest⟩ := List.find?_range'_eq_some.mp free
    refine ⟨p, rfl, low, unused, fun q hq => ?_⟩
    simpa using lowest q (Nat.zero_le q) hq

/-! ### Insertion (R103 to R105) -/

section
variable {s : State} {n : Nat} {z : ZoneNo} {c : ClassNo} {threshold : DWord} {stage : Stage}

theorem PoolSound.insertEntry_full (h : PoolSound s) (full : (s.removeEntry n).watch.length = 4096) :
    s.insertEntry n z c threshold stage = (s.removeEntry n, false) := by
  unfold State.insertEntry
  simp only [(h.removeEntry n).freePosition_full full]

/-- Where the pool has room, the entry takes the lowest free position, its place in its list and, if due, in the due queue. -/
theorem PoolSound.insertEntry_room (h : PoolSound s) (room : (s.removeEntry n).watch.length < 4096) :
    let r := s.insertEntry n z c threshold stage
    let due := decide (threshold.toNat ≤ s.zones[z].exposure[c].toNat)
    ∃ p, p < 4096 ∧ (∀ e ∈ (s.removeEntry n).watch, e.position ≠ p)
      ∧ (∀ q, q < p → ∃ e ∈ (s.removeEntry n).watch, e.position = q)
      ∧ WatchEntry.Placed ⟨p, n, z, c, threshold, stage, due⟩ (s.removeEntry n).watch r.1.watch
      ∧ r = ({ s.removeEntry n with
          watch := r.1.watch
          dueQueue := if due then (s.removeEntry n).dueQueue ++ [p] else (s.removeEntry n).dueQueue }, true) := by
  obtain ⟨p, free, low, unused, lowest⟩ := State.freePosition_lowest room
  have zones : (s.removeEntry n).zones = s.zones := s.removeEntry_zones n
  have made : s.insertEntry n z c threshold stage = ((s.removeEntry n).putEntry ⟨p, n, z, c, threshold, stage, false⟩, true) := by
    unfold State.insertEntry
    simp only [free]
  intro r due
  have is : r = ((s.removeEntry n).putEntry ⟨p, n, z, c, threshold, stage, false⟩, true) := made
  have isDue : due = decide (threshold.toNat ≤ (s.removeEntry n).zones[z].exposure[c].toNat) := by rw [zones]
  rw [is, isDue]
  exact ⟨p, low, unused, lowest, placeEntry_placed _ (h.removeEntry n).order, rfl⟩

end

/-! ### The insertion step for an account (R105, R113) -/

section
variable {s : State} {n : Nat} {a : Account}

theorem State.eligible_iff : s.eligible a = true ↔
    ∃ z b, a.zone = some z ∧ (s.inForce a.cls).budget = some b ∧ a.flags.expired = false := by
  unfold State.eligible InForce.limited
  simp [Option.isSome_iff_exists, and_assoc]

/-- An account that is not eligible gets no entry, and is not counted (R105, R113). -/
theorem State.watch_ineligible (out : a.zone = none ∨ (s.inForce a.cls).budget = none ∨ a.flags.expired = true) :
    s.tryWatch n a = (s, false) ∧ s.watchAccount n a = s ∧ s.reachUnwatched n a = s := by
  have ineligible : s.eligible a = false := by
    rw [← Bool.not_eq_true, State.eligible_iff]
    rintro ⟨z, b, zone, budget, unexpired⟩
    simp [zone, budget, unexpired] at out
  have tried : s.tryWatch n a = (s, false) := by
    unfold State.tryWatch
    split
    · rfl
    · next unexpired =>
      split
      · next z b zone budget => simp [zone, budget, unexpired] at out
      · rfl
  unfold State.watchAccount State.reachUnwatched
  simp [tried, ineligible]

variable {z : ZoneNo} {b : Nat}

/-- An eligible account is inserted at the threshold and stage of R47 and R48. -/
theorem State.tryWatch_eligible (zone : a.zone = some z) (budget : (s.inForce a.cls).budget = some b)
    (unexpired : a.flags.expired = false) :
    let point := watchPoint b (s.inForce a.cls).margin a s.zones[z].exposure[a.cls]
    s.tryWatch n a = s.insertEntry n z a.cls point.1 point.2 := by
  unfold State.tryWatch
  simp [unexpired, zone, budget]

/-- An eligible account that finds no position is counted unwatched; one reached without an entry lowers the count (R113). -/
theorem State.watch_eligible (zone : a.zone = some z) (budget : (s.inForce a.cls).budget = some b)
    (unexpired : a.flags.expired = false) :
    s.watchAccount n a = (if (s.tryWatch n a).2 then (s.tryWatch n a).1
        else { (s.tryWatch n a).1 with unwatched := min 32768 (s.unwatched + 1) })
      ∧ s.reachUnwatched n a = if s.watched n then s else { s with unwatched := s.unwatched - 1 } := by
  have eligible : s.eligible a = true := State.eligible_iff.mpr ⟨z, b, zone, budget, unexpired⟩
  have unwatched : (s.tryWatch n a).1.unwatched = s.unwatched := by rw [s.tryWatch_frame]
  unfold State.watchAccount State.reachUnwatched State.raiseUnwatched
  simp only [eligible, Bool.true_and, unwatched, unwatchedMax]
  constructor
  · cases (s.tryWatch n a).2 <;> rfl
  · cases s.watched n <;> rfl

end

/-! ### The hand-over presented (R10, R81, R109) -/

theorem State.ready_iff (s : State) : s.ready = true ↔ s.engineState = .running ∧ ∃ m stall, s.clock = .held m stall := by
  unfold State.ready State.clockSet
  cases s.clock <;> simp

/-- The entry at a position in a sound pool. -/
theorem PoolSound.entryAt_iff {s : State} (h : PoolSound s) {p : Nat} {e : WatchEntry} :
    s.entryAt p = some e ↔ e ∈ s.watch ∧ e.position = p := by
  unfold State.entryAt
  refine ⟨fun found => ⟨List.mem_of_find?_eq_some found, by simpa using List.find?_some found⟩, fun ⟨he, same⟩ => ?_⟩
  cases found : s.watch.find? fun x => decide (x.position = p) with
  | none => simpa [same] using List.find?_eq_none.mp found e he
  | some x =>
    have its : x.position = p := by simpa using List.find?_some found
    rw [h.entry_eq (List.mem_of_find?_eq_some found) he (its.trans same.symm)]

/-- The head of the due queue is presented while the part is RUNNING with its clock set (R109). -/
theorem PoolSound.handover_iff {s : State} (h : PoolSound s) (e : WatchEntry) :
    s.handover = some e ↔ s.engineState = .running ∧ (∃ m stall, s.clock = .held m stall)
      ∧ e ∈ s.watch ∧ s.dueQueue.head? = some e.position := by
  rw [← and_assoc, ← s.ready_iff]
  unfold State.handover
  by_cases ready : s.ready = true
  · rw [if_pos ready]
    cases s.dueQueue with
    | nil => simp
    | cons p queue => simp [h.entryAt_iff, ready, eq_comm]
  · simp [ready]

/-- No completion waits unless a programming in flight has ended (R81). -/
theorem State.completionWaits_iff (s : State) : s.completionWaits = false ↔ ∀ p, s.prog = some p → p.ended = none := by
  unfold State.completionWaits
  cases s.prog <;> simp

/-- The hand-over presented is taken at its stage when the engine may work (R10, R81). -/
theorem State.handoverAt_iff (s : State) (stage : Stage) (e : WatchEntry) :
    s.handoverAt stage = some e ↔ s.mayWork = true ∧ s.handover = some e ∧ e.stage = stage := by
  unfold State.handoverAt
  split
  · next work =>
    cases s.handover with
    | none => simp
    | some x =>
      simp only [work, Option.some.injEq, true_and, Option.ite_none_right_eq_some]
      exact ⟨fun ⟨staged, same⟩ => ⟨same, same ▸ staged⟩, fun ⟨same, staged⟩ => ⟨same ▸ staged, same⟩⟩
  · next work => simp [work]

theorem State.mayWork_iff (s : State) : s.mayWork = true ↔
    s.engineState = .running ∧ s.stopping = false ∧ s.engine = .free ∧ ∀ p, s.prog = some p → p.ended = none := by
  unfold State.mayWork
  simp [← s.completionWaits_iff, and_assoc]

/-- Settles O45: operation by operation. -/
theorem watchPoolInsertsRemovesAndExamines : Obligations.WatchPoolInsertsRemovesAndExamines := by
  intro s h tally stands placed others left
  have removed (n : Nat) : s.removeEntry n = { s with watch := others n, dueQueue := left n } := h.removeEntry_eq n
  have watch (n : Nat) : (s.removeEntry n).watch = others n := s.removeEntry_watch n
  refine ⟨fun n => ⟨removed n, by simp [State.watched]⟩, fun e => placeEntry_placed e h.order, fun n z c th stage => ?_,
    fun before => ?_, fun n a => ?_, fun e => ⟨h.handover_iff e, fun stage => ?_⟩⟩
  · refine ⟨fun full => ?_, fun room => ?_⟩
    · rw [h.insertEntry_full ((congrArg List.length (watch n)).trans full), removed]
    · obtain ⟨p, low, unused, lowest, place, made⟩ := h.insertEntry_room (z := z) (c := c) (threshold := th) (stage := stage)
        ((congrArg List.length (watch n)).trans_lt room)
      rw [removed] at unused lowest place made
      exact ⟨p, low, unused, lowest, place, made⟩
  · intro due
    have finds : s.finds before = fun e => !e.due && due e := funext fun e => Bool.and_assoc _ _ _
    have marks : s.examined before = fun e => { e with due := e.due || due e } := funext fun e => by
      rw [s.examined_frame, finds]
      simp only
      cases e.due <;> simp
    rw [s.examine_eq, finds, marks]
  · refine ⟨State.watch_ineligible, fun z b zone budget unexpired => ?_⟩
    have tried := State.tryWatch_eligible (n := n) zone budget unexpired
    obtain ⟨watched, reached⟩ := State.watch_eligible (n := n) zone budget unexpired
    rw [tried] at watched
    exact ⟨tried, watched, reached⟩
  · have running (presented : s.handover = some e) : s.engineState = .running := ((h.handover_iff e).mp presented).1
    rw [s.handoverAt_iff, s.mayWork_iff]
    tauto

end Sys2Proof.Machine
end

-- ==== Proofs: the patrol ====
section
/-! The patrol's reads, and the engine's work on the account it holds (O48, O49). -/

namespace Sys2Proof.Machine

section
variable {s x : State} {n : Nat} {a : Account} {z : ZoneNo}

/-! ### What the patrol asks of a record (R115) -/

/-- The patrol wants an account in a defined zone that is eligible and has no entry (R115). -/
theorem State.patrolWants_iff (zone : a.zone = some z) : s.patrolWants n a = true ↔
    s.zones[z].type ≠ .typeNone ∧ (s.inForce a.cls).budget ≠ none ∧ a.flags.expired = false ∧ ∀ e ∈ s.watch, e.account ≠ n := by
  unfold State.patrolWants State.eligible InForce.limited Zone.defined State.watched
  simp [zone, and_assoc, Option.isSome_iff_ne_none]

theorem State.patrolWants_nowhere (zone : a.zone = none) : s.patrolWants n a = false := by
  unfold State.patrolWants
  rw [zone]
  rfl

/-- A RUNNING part's patrol may read (R115, R119). -/
theorem InService.mayPatrol_iff (service : InService s) : s.mayPatrol = true ↔
    s.stopping = false ∧ (∃ m, s.clock = .held m 0) ∧ 0 < s.remaining ∧ s.heldAccount = none := by
  have runs : s.clockRuns = true ↔ ∃ m, s.clock = .held m 0 := by
    unfold State.clockRuns clockCode
    cases s.clock with
    | unset => simp
    | held m stall => by_cases still : stall = 0 <;> simp [still]
  unfold State.mayPatrol
  simp [service.running, runs, and_assoc]

/-! ### PATROL_READ (R115, R116) -/

/-- The command of a patrol's read, from the run of what it decides on the record. -/
theorem InService.patrolRead_run (service : InService s) (may : s.mayPatrol = true)
    (run : patrolDecide s.cursor (s.fetched s.cursor) s.patrolStep = .ok () x) : exec .patrolRead s = .next x.drive := by
  refine conclude_ok ?_
  unfold patrolReadOne
  rw [Act.get_bind, if_pos may, Act.bind_ok (patrolFetch_ok service.sound _), Act.modify_bind, run]

/-- The notice unit does not see the patrol (R114). -/
theorem InService.patrol_view (service : InService s) (cursor remaining : Nat) (held : Option Nat) :
    SameView s { s with cursor := cursor, remaining := remaining, heldAccount := held } :=
  ⟨⟨service.sound, service.sound⟩, service.region.capacity_dvd.1, rfl, rfl, rfl, ⟨rfl, rfl⟩, rfl, ⟨rfl, rfl⟩, fun _ _ => rfl,
    fun _ _ _ _ _ => rfl⟩

theorem SameUnit.drive {v t : State} (h : SameUnit s v t) : SameUnit s v t.drive := ⟨h.counts, h.held, h.flags, h.causes, h.bytes⟩

/-- No notice is handed over between two states with one notice unit. -/
theorem SameView.noNotices {t : State} (view : SameView s t) (region : RegionValid s) : NoticesGo s t.drive [] := by
  have unit : SameUnit s s t := view.sameUnit (.refl s)
  exact .of_run (missed := false) region view.sound.1 rfl (by simpa using unit.drive) view.base

/-- A faulty record is reported at once (R116). -/
theorem InService.patrolDecide_faulty (service : InService s) (faulty : s.recordOf n = none) :
    ∃ x, patrolDecide n (s.fetched n) s.patrolStep = .ok () x ∧ UnitFrame s.patrolStep x
      ∧ NoticesGo s x.drive [⟨.recordFault, n, s.minute, word (s.faultOf n), 3⟩] := by
  obtain ⟨missed, v, x, runS, run, same, frame⟩ :=
    handNotices_follows [recordFault n s.minute (s.faultOf n) 3] s s.patrolStep (service.patrol_view _ _ _)
  obtain ⟨_, _, runS', frameS⟩ := handNotices_frame [recordFault n s.minute (s.faultOf n) 3] service.sound
  rw [runS] at runS'
  cases runS'
  have unit : SameUnit s v x := same.sameUnit frameS
  have report : reportNotices [recordFault n s.minute (s.faultOf n) 3] s.patrolStep = .ok () x := by
    unfold reportNotices
    rw [Act.bind_ok run]
    rfl
  refine ⟨x, ?_, frame, .of_run service.region service.sound runS ?_ frame.frame.base⟩
  · rcases s.faulty_fetch faulty with ⟨found, fault⟩ | ⟨found, fault⟩
    · rw [found, ← report, fault]; rfl
    · rw [found, ← report, fault]; rfl
  · rw [Bool.and_false, Bool.or_false]
    exact unit.drive

/-- A good record is passed over, or its account held (R115). -/
theorem patrolDecide_record (found : s.fetched n = .record a) : patrolDecide n (s.fetched n) s.patrolStep
    = .ok () { s.patrolStep with heldAccount := if s.patrolWants n a then some n else s.heldAccount } := by
  have wants : s.patrolStep.patrolWants n a = s.patrolWants n a := rfl
  rw [found]
  unfold patrolDecide
  rw [Act.get_bind]
  simp only [wants]
  cases s.patrolWants n a <;> rfl

/-- Settles O48, by what the read finds. -/
theorem patrolReadHoldsAnUnwatchedAccount : Obligations.PatrolReadHoldsAnUnwatchedAccount := by
  intro s service n ready
  refine ⟨fun idle => ?_, fun go => ?_⟩
  · refine conclude_ok ?_
    unfold patrolReadOne
    rw [Act.get_bind, if_neg fun may => idle (service.mayPatrol_iff.mp may)]
    rfl
  have runs {x : State} := service.patrolRead_run (x := x) (service.mayPatrol_iff.mpr go)
  have unheld : s.heldAccount = none := go.2.2.2
  cases record : s.recordOf n with
  | none =>
    obtain ⟨x, run, frame, notices⟩ := service.patrolDecide_faulty record
    have same := frame.frame
    unfold NoticeFrame at same
    refine ⟨x.drive, runs run, notices, frame.bytes, ?_, ?_⟩
    · show x.heldAccount = none
      rw [same]
      exact unheld
    · show x.drive = _
      rw [same]
      rfl
  | some a =>
    refine ⟨_, runs (patrolDecide_record (State.fetched_of_recordOf record)),
      (service.patrol_view _ _ _).noNotices service.region, .refl _ _, ?_, rfl⟩
    show (if s.patrolWants n a then some n else s.heldAccount) = _
    rw [unheld]
    cases zone : a.zone with
    | none => simp only [zone, State.patrolWants_nowhere zone]; rfl
    | some z => simp only [zone]; exact if_congr (State.patrolWants_iff zone) rfl rfl

end

/-! ### The engine's work on the account held (R117) -/

/-- The part once the engine has taken over the account that the patrol held. -/
def State.released (s : State) : State := { s with heldAccount := none }

/-- The part with the engine at work on an account for the patrol (R9, R117). -/
def State.patrolling (s : State) (n : Nat) : State := { s.released with engine := .patrol n }

/-- The state the work starts from: the account fetched again. -/
def State.refetched (s : State) (n : Nat) : State := (s.patrolling n).mapSet n fun _ => s.setAfterFetch n

section
variable {s L x : State} {n : Nat} {a : Account} {z : ZoneNo}

theorem InService.patrol_ready (service : InService s) (hn : n < s.layout.tableSize) :
    Ready s.released (s.patrolling n) s.released (s.refetched n) n
      ∧ fetchRecord n (s.patrolling n) = .ok (s.fetched n) (s.refetched n) := by
  have region : RegionValid s.released := service.region.of_eq rfl rfl service.region.next service.region.flight
  have start : During s.released (s.patrolling n) s.released (s.patrolling n) [] :=
    ⟨rfl, rfl, ⟨rfl, rfl, rfl⟩, rfl, .refl _ _, fun _ _ => rfl⟩
  have keeps : KeepsBytes s.released (s.patrolling n) [] := fun _ _ => rfl
  obtain ⟨fetch, set⟩ := start.fetch (n := n) service.sound rfl keeps (fun r hr => absurd hr List.not_mem_nil)
  have view : SameView s.released (s.patrolling n) :=
    start.sameView region service.sound keeps (fun _ _ r hr => absurd hr List.not_mem_nil) ⟨rfl, rfl⟩ rfl ⟨rfl, rfl⟩ rfl
  exact ⟨⟨region, hn, start.mapSet _ _, view.mapSet _ _, set⟩, fetch⟩

theorem InService.released_afterNotices (service : InService s) (e : Account) (ns : List Notice) :
    s.released.afterNotices e ns = s.afterNotices e ns := by
  obtain ⟨missed, v, x, runS, run, -⟩ := handNotices_follows ns s s.released (service.patrol_view s.cursor s.remaining none)
  rw [State.afterNotices_eq runS, State.afterNotices_eq run]

/-- What the patrol's work does with a record fetched again (R117). -/
def patrolServes (n : Nat) (f : Fetched) : Act Unit := do
  let s ← get
  match f with
  | .corrupt => reportNotices [recordFault n s.minute 1 3]
  | .malformed => reportNotices [recordFault n s.minute 2 3]
  | .record a =>
    match a.zone with
    | some z => if s.patrolWants n a then patrolSettle n z a else pure ()
    | none => pure ()

theorem servePatrol_eq (n : Nat) : servePatrol n = (do
    modify fun t => { t with heldAccount := none, engine := .patrol n }
    let f ← fetchRecord n
    patrolServes n f
    freeEngine) := by
  unfold servePatrol
  congr
  funext _
  congr
  funext f
  cases f with
  | corrupt => rfl
  | malformed => rfl
  | record a =>
    unfold patrolServes
    funext s
    rw [Act.get_bind]
    cases zone : a.zone with
    | none => simp only [zone]; rfl
    | some z =>
      simp only [zone]
      show (if s.patrolWants n a = true then (do patrolSettle n z a; freeEngine) else freeEngine) s =
        ((if s.patrolWants n a = true then patrolSettle n z a else pure ()) >>= fun _ => freeEngine) s
      split <;> rfl

/-- The command of the patrol's work, from the run of what it does with the record. -/
theorem InService.patrolWork_run (service : InService s) (work : s.mayWork = true) (idle : s.handover = none)
    (held : s.heldAccount = some n) (hn : n < s.layout.tableSize)
    (run : patrolServes n (s.fetched n) (s.refetched n) = .ok () x) : exec .patrolWork s = .next x.freed := by
  refine conclude_ok (t := { x with engine := .free }) ?_
  unfold patrolWork
  rw [Act.get_bind, if_pos (by simp [work, idle]), held]
  simp only
  rw [servePatrol_eq, Act.modify_bind]
  refine (Act.bind_ok (service.patrol_ready hn).2).trans ?_
  rw [Act.bind_ok run]
  rfl

/-- What the work leaves: the zones and the pool of its ledger, and besides them the memory, the account's set and the notice unit
alone changed. -/
theorem During.patrolFrame {areas : List (Nat × Nat)} (d : During s.released (s.patrolling n) L x areas) (free : s.engine = .free)
    {w : State} {zones : Vector Zone 64}
    (ledger : L = { s.released with
      zones := zones, watch := w.watch, dueQueue := w.dueQueue, unwatched := w.unwatched }) :
    x.freed = { s with
      mem := x.freed.mem
      cacheSets := x.freed.cacheSets
      zones := zones
      heldAccount := none
      watch := w.watch
      dueQueue := w.dueQueue
      unwatched := w.unwatched
      written := x.freed.written
      taken := x.freed.taken
      heldNotices := x.freed.heldNotices
      logFull := x.freed.logFull
      noticesDropped := x.freed.noticesDropped
      causes := x.freed.causes
      messages := x.freed.messages
      lines := x.freed.lines } := by
  have outcome := d.freed.outcome d.ledger free
  have lists : x.freed.lists = s.lists := d.intake.1
  have lastServed : x.freed.lastServed = s.lastServed := d.intake.2.1
  have frame := outcome.frame
  rw [outcome.zones, outcome.live, outcome.highest, outcome.watch, outcome.dueQueue, outcome.unwatched, lists, lastServed,
    ledger] at frame
  exact frame

/-- What work that writes no record shows. -/
theorem During.patrolShows {ns : List Notice} (d : During s.released (s.patrolling n) L x s.noticeAreas)
    (unit : UnitGoes s.released x ns false) (set : OwnSet s.released x n (s.setAfterFetch n)) (service : InService s)
    (hn : n < s.layout.tableSize) :
    CacheAfter s x.freed n none ∧ NoticesGo s x.freed ns ∧ KeepsBytes s x.freed s.noticeAreas :=
  ⟨OwnSet.cacheAfter (written := none) ⟨set.own, set.others⟩ service.sound,
    .of_view (service.patrol_view s.cursor s.remaining none) (unit.freed (service.patrol_ready hn).1.region service.sound d.base), d.bytes⟩

/-- What work that wrote its account's record shows. -/
theorem Settled.patrolShows {b : Account} {ns : List Notice}
    (h : Settled s.released (s.patrolling n) L x n b ns ((s.layout.record n, 64) :: s.noticeAreas)) (service : InService s)
    (hn : n < s.layout.tableSize) (bakes : b.bakeCount ≤ 15) :
    CacheAfter s x.freed n (some (s.afterNotices b ns)) ∧ Written s x.freed n (s.afterNotices b ns)
      ∧ NoticesGo s x.freed ns ∧ KeepsBytes s x.freed ((s.layout.record n, 64) :: s.noticeAreas) := by
  have unit := h.unit
  rw [decide_eq_false (show ¬ 15 < b.bakeCount by omega)] at unit
  have set := h.set
  have written := h.written
  rw [service.released_afterNotices] at set written
  exact ⟨OwnSet.cacheAfter (written := some _) ⟨set.own, set.others⟩ service.sound, ⟨written.table, written.line⟩,
    .of_view (service.patrol_view s.cursor s.remaining none) (unit.freed (service.patrol_ready hn).1.region service.sound h.during.base), h.during.bytes⟩

/-! ### The unwatched count and the pool (R113, R117) -/

theorem State.oneLessUnwatched_ledgerwise : Ledgerwise State.oneLessUnwatched := ⟨fun _ _ => rfl, fun _ => rfl⟩

/-- The pool with an entry tried for an account, the unwatched count lowered by one where it was made (R113). -/
def State.entered (s : State) (n : Nat) (b : Account) : State :=
  let p := s.tryWatch n b
  if p.2 then { p.1 with unwatched := s.unwatched - 1 } else p.1

theorem State.patrolWatch_eq (s : State) (n : Nat) (b : Account) : s.patrolWatch n b = s.entered n b := by
  have unwatched : (s.tryWatch n b).1.unwatched = s.unwatched := by rw [s.tryWatch_frame]
  unfold State.patrolWatch State.entered State.oneLessUnwatched
  simp only [unwatched]

theorem State.entered_frame (s : State) (n : Nat) (b : Account) : s.entered n b = { s with
    watch := (s.entered n b).watch, dueQueue := (s.entered n b).dueQueue, unwatched := (s.entered n b).unwatched } := by
  have frame := s.tryWatch_frame n b
  unfold State.entered
  generalize s.tryWatch n b = p at frame
  obtain ⟨t, made⟩ := p
  simp only at frame ⊢
  cases made <;> rw [frame] <;> rfl

theorem State.patrolWatch_ledgerwise (n : Nat) (b : Account) : Ledgerwise fun s => s.patrolWatch n b where
  besides L u := by
    unfold State.patrolWatch
    rw [L.tryWatch_besides]
    simp only
    split <;> rfl
  change L := State.withLedger_of_pool (by rw [L.patrolWatch_eq]; exact L.entered_frame n b)

/-- The pool does not depend on the account held. -/
theorem State.released_entered (s : State) (n : Nat) (b : Account) :
    (s.released.entered n b).pool = (s.entered n b).pool := by
  have same : SamePool s s.released := ⟨rfl, rfl, rfl, rfl, fun _ => rfl⟩
  obtain ⟨pool, made⟩ := same.tryWatch n b
  unfold State.entered State.pool
  simp only [made]
  cases (s.tryWatch n b).2 with
  | false => simp [pool.watch, pool.dueQueue, pool.unwatched]
  | true => simp only [↓reduceIte, pool.watch, pool.dueQueue]; rfl

/-- The ledger of work that tries an entry for the account. -/
theorem State.released_patrolWatch (s : State) (n : Nat) (b : Account) : s.released.patrolWatch n b = { s.released with
    watch := (s.entered n b).watch, dueQueue := (s.entered n b).dueQueue, unwatched := (s.entered n b).unwatched } := by
  obtain ⟨watch, dueQueue, unwatched⟩ := State.pool_eq_iff.mp (s.released_entered n b)
  have frame := s.released.entered_frame n b
  rw [watch, dueQueue, unwatched] at frame
  rw [s.released.patrolWatch_eq, frame]

/-! ### Expiry, warning or entry (R117, R118) -/

/-- The account's exposure as it now is (R41, R117). -/
def State.patrolExposure (s : State) (z : ZoneNo) (a : Account) : Word := currentExposure a s.zones[z].exposure[a.cls]

/-- A late expiry (R118). -/
theorem lateExpiry_run (ready : Ready s.released (s.patrolling n) s.released (s.refetched n) n)
    (found : s.fetched n = .record a) (bakes : a.bakeCount ≤ 15) (zone : a.zone = some z) (now : Word) :
    ∃ x, lateExpiry n z a now (s.refetched n) = .ok () x
      ∧ Settled s.released (s.patrolling n) (s.released.oneLessUnwatched.countZone z 0 1) x n
          { a with flags := { a.flags with expired := true }, expiryMinute := s.minute, sequence := a.sequence + 1 }
          [⟨.expired, n, s.minute, word z.val, now⟩] ((s.layout.record n, 64) :: s.noticeAreas) := by
  have lowered := ready.ledgerwise State.oneLessUnwatched_ledgerwise
  obtain ⟨x, run, settled⟩ := lowered.settle found (State.countZone_ledgerwise z 0 1) (a.expire s.minute)
    (fun _ => by simp [Account.expire, zone]) (by show a.bakeCount < 256; omega) [⟨.expired, n, s.minute, word z.val, now⟩]
  refine ⟨x, ?_, settled⟩
  unfold lateExpiry
  rw [Act.get_bind, Act.modify_bind]
  exact (Act.bind_ok run).trans rfl

/-- A warning given late, with an entry (R117). -/
theorem lateWarning_run (ready : Ready s.released (s.patrolling n) s.released (s.refetched n) n)
    (found : s.fetched n = .record a) (bakes : a.bakeCount ≤ 15) (zone : a.zone = some z) (now : Word) :
    ∃ x, lateWarning n z a now (s.refetched n) = .ok () x
      ∧ Settled s.released (s.patrolling n) (s.released.patrolWatch n (a.warn true)) x n
          { a with flags := { a.flags with warned := true }, sequence := a.sequence + 1 }
          [⟨.expiryWarning, n, s.minute, word z.val, now⟩] ((s.layout.record n, 64) :: s.noticeAreas) := by
  have entered := ready.ledgerwise (State.patrolWatch_ledgerwise n (a.warn true))
  obtain ⟨x, run, settled⟩ := entered.settle found .refl (a.warn true) (fun _ => by simp [Account.warn, zone])
    (by show a.bakeCount < 256; omega) [⟨.expiryWarning, n, s.minute, word z.val, now⟩]
  refine ⟨x, ?_, settled⟩
  unfold lateWarning
  rw [Act.get_bind, Act.modify_bind]
  exact (Act.bind_ok run).trans rfl

/-- What the work does with a record that it wants, by the account's exposure (R117). -/
theorem patrolServes_wanted (found : s.fetched n = .record a) (zone : a.zone = some z) (wants : s.patrolWants n a = true) :
    let f := s.inForce a.cls
    let now := s.patrolExposure z a
    patrolServes n (s.fetched n) (s.refetched n) =
      if f.reached now.toNat then lateExpiry n z a now (s.refetched n)
      else if f.warnable now.toNat && !a.flags.warned then lateWarning n z a now (s.refetched n)
      else .ok () ((s.refetched n).patrolWatch n a) := by
  intro f now
  have asked : (s.refetched n).patrolWants n a = true := wants
  have settles : patrolServes n (s.fetched n) (s.refetched n) = patrolSettle n z a (s.refetched n) := by
    rw [found]
    unfold patrolServes
    rw [Act.get_bind]
    simp only [zone]
    rw [if_pos asked]
  rw [settles]
  unfold patrolSettle
  rw [Act.get_bind]
  show (if f.reached now.toNat then lateExpiry n z a now else if f.warnable now.toNat && !a.flags.warned then
    lateWarning n z a now else modify fun t : State => t.patrolWatch n a) (s.refetched n) = _
  split
  · rfl
  · split <;> rfl

/-- A record no longer wanted is passed over (R117). -/
theorem patrolServes_unwanted (found : s.fetched n = .record a) (wants : s.patrolWants n a = false) :
    patrolServes n (s.fetched n) (s.refetched n) = .ok () (s.refetched n) := by
  have asked : (s.refetched n).patrolWants n a = false := wants
  rw [found]
  unfold patrolServes
  rw [Act.get_bind]
  cases zone : a.zone with
  | none => simp only [zone]; rfl
  | some z => simp only [zone, asked, Bool.false_eq_true, ↓reduceIte]; rfl

/-- A faulty record is reported (R117). -/
theorem patrolServes_faulty (ready : Ready s.released (s.patrolling n) s.released (s.refetched n) n)
    (faulty : s.recordOf n = none) :
    ∃ x, patrolServes n (s.fetched n) (s.refetched n) = .ok () x
      ∧ UnitGoes s.released x [⟨.recordFault, n, s.minute, word (s.faultOf n), 3⟩] false
      ∧ UnitFrame (s.refetched n) x ∧ During s.released (s.patrolling n) s.released x s.noticeAreas := by
  obtain ⟨x, run, reported⟩ := ready.report [recordFault n s.minute (s.faultOf n) 3]
  refine ⟨x, ?_, reported⟩
  rcases s.faulty_fetch faulty with ⟨found, fault⟩ | ⟨found, fault⟩
  · rw [found, ← run, fault]; rfl
  · rw [found, ← run, fault]; rfl

end

/-- The engine is FREE where it may work (R9). -/
theorem State.mayWork_free {s : State} (h : s.mayWork = true) : s.engine = .free := (s.mayWork_iff.mp h).2.2.1

/-- Nothing is done where the patrol's work cannot be taken (R10). -/
theorem patrolWork_idle {s : State} (h : s.mayWork = false ∨ s.handover ≠ none ∨ s.heldAccount = none) :
    patrolWork s = .ok () s := by
  unfold patrolWork
  rw [Act.get_bind]
  by_cases taken : (s.mayWork && s.handover.isNone) = true
  · rw [if_pos taken]
    simp only [Bool.and_eq_true, Option.isNone_iff_eq_none] at taken
    have unheld : s.heldAccount = none := by simpa [taken.1, taken.2] using h
    rw [unheld]
    rfl
  · rw [if_neg taken]
    rfl

/-- Settles O49, by what the fetch finds and what the exposure then is. -/
theorem patrolWorkExpiresWarnsOrWatches : Obligations.PatrolWorkExpiresWarnsOrWatches := by
  intro s
  refine ⟨fun idle => conclude_ok (patrolWork_idle idle), fun n service work presented held hn => ?_⟩
  intro frame
  have ready := (service.patrol_ready hn).1
  have free := State.mayWork_free work
  have runs {x : State} := service.patrolWork_run (x := x) work presented held hn
  refine ⟨fun faulty => ?_, fun a record => ⟨fun passed => ?_, fun z zone wants => ?_⟩⟩
  · obtain ⟨x, run, unit, unitFrame, during⟩ := patrolServes_faulty ready faulty
    obtain ⟨cache, notices, bytes⟩ := during.patrolShows unit (ready.set.of_eq (by rw [unitFrame.frame])) service hn
    exact ⟨x.freed, runs run, ⟨cache, during.patrolFrame free rfl⟩, bytes, notices⟩
  · have found := State.fetched_of_recordOf record
    have during := ready.during.mono (List.nil_subset s.noticeAreas)
    obtain ⟨cache, notices, -⟩ := during.patrolShows ready.idle ready.set service hn
    exact ⟨_, runs (patrolServes_unwanted found passed), ⟨cache, during.patrolFrame free rfl⟩, rfl, notices⟩
  intro f now entered expiry expired warning warned warnedLast
  have found := State.fetched_of_recordOf record
  obtain ⟨bakes, -⟩ := State.recordOf_sound record
  have does := patrolServes_wanted found zone wants
  refine ⟨fun reached => ?_, fun below near clear => ?_, fun below far => ?_⟩
  · obtain ⟨x, run, settled⟩ := lateExpiry_run ready found bakes zone now
    obtain ⟨cache, written, go, bytes⟩ := settled.patrolShows service hn bakes
    exact ⟨_, runs (does.trans ((if_pos reached).trans run)), ⟨cache, settled.during.patrolFrame free rfl⟩, written, go, bytes⟩
  · obtain ⟨x, run, settled⟩ := lateWarning_run ready found bakes zone now
    obtain ⟨cache, written, go, bytes⟩ := settled.patrolShows service hn bakes
    have warns : (f.warnable now.toNat && !a.flags.warned) = true := by rw [near, clear]; rfl
    exact ⟨_, runs (does.trans ((if_neg (Bool.eq_false_iff.mp below)).trans ((if_pos warns).trans run))),
      ⟨cache, settled.during.patrolFrame free (s.released_patrolWatch n _)⟩, written, go, bytes⟩
  · have watched := ready.ledgerwise (State.patrolWatch_ledgerwise n a)
    have during := watched.during.mono (List.nil_subset s.noticeAreas)
    obtain ⟨cache, notices, -⟩ := during.patrolShows watched.idle watched.set service hn
    have quiet : ¬ (f.warnable now.toNat && !a.flags.warned) = true := by
      rcases far with far | far <;> simp [far]
    have mem : ((s.refetched n).patrolWatch n a).mem = s.mem := by
      rw [ready.during.step (State.patrolWatch_ledgerwise n a)]
      rfl
    exact ⟨_, runs (does.trans ((if_neg (Bool.eq_false_iff.mp below)).trans (if_neg quiet))),
      ⟨cache, during.patrolFrame free (s.released_patrolWatch n a)⟩, mem, notices⟩

end Sys2Proof.Machine
end

-- ==== Proofs: the course of the clock's work ====
section
/-! What the accrual unit's work changes, besides what the notice unit does and the pages show (R66, R121, R123, R127). -/

namespace Sys2Proof.Machine

/-! ### The places the clock's work writes -/

/-- The pages keep clear of what the notice unit works on. -/
theorem RegionValid.pages_offUnit {s : State} (h : RegionValid s) : OffUnit s s.pageAreas := by
  obtain ⟨-, pageLog, -, -, -, -⟩ := h.areasApart
  obtain ⟨-, -, -, -, -, controlZone, -, zoneLog, -⟩ := h.pagesApart
  intro q hq r hr
  simp only [State.unitPlaces, State.pageAreas, zonePageBytes, List.mem_cons, List.not_mem_nil, or_false] at hq hr
  unfold Apart at *
  rcases hq with rfl | rfl <;> rcases hr with rfl | rfl <;> simp only at * <;> omega

/-- What the clock's work writes lies apart from the word of a list's index. -/
theorem RegionValid.clock_index {s : State} (h : RegionValid s) (k : ListNo) :
    AllApart (s.pageAreas ++ s.noticeAreas) (s.indexArea k) := by
  obtain ⟨-, pageLog, -, -, -, -⟩ := h.areasApart
  have controlZone := h.pagesApart.controlZone
  have := k.isLt
  intro r hr
  simp only [State.pageAreas, zonePageBytes, State.noticeAreas, State.indexArea, List.cons_append, List.nil_append,
    List.mem_cons, List.not_mem_nil, or_false] at *
  unfold Apart at *
  rcases hr with rfl | rfl | rfl | rfl <;> simp only at * <;> omega

/-- A cell's words lie apart from the word of its list's index. -/
theorem RegionValid.cellAreas_index {s : State} (h : RegionValid s) (k : ListNo) :
    AllApart (cellAreas (s.nextCell k)) (s.indexArea k) := by
  have whole := h.cell_apart k h.tableLow _ List.mem_cons_self (s.nextCell k, 64) (List.mem_singleton.mpr rfl)
  intro r hr
  simp only [cellAreas, List.mem_cons, List.not_mem_nil, or_false] at hr
  unfold Apart at *
  rcases hr with rfl | rfl <;> simp only at * <;> omega

/-- A cell's words lie apart from the pages. -/
theorem RegionValid.cellAreas_pages {s : State} (h : RegionValid s) (k : ListNo) :
    ∀ q ∈ s.pageAreas, AllApart (cellAreas (s.nextCell k)) q := by
  have pageLists := h.areasApart.pageLists
  have zoneLists := h.pagesApart.zoneLists
  have cell := h.cell_within k
  intro q hq r hr
  simp only [State.pageAreas, zonePageBytes, cellAreas, List.mem_cons, List.not_mem_nil, or_false] at hq hr
  unfold Apart at *
  rcases hq with rfl | rfl <;> rcases hr with rfl | rfl <;> simp only at * <;> omega

/-! ### Changes of the accrual unit -/

/-- The state `s` with the zone table, the clock, the publication, the watch pool and the patrol's count of `L`. -/
def State.withAccrual (s L : State) : State :=
  { s with
    zones := L.zones
    clock := L.clock
    published := L.published
    publicationDue := L.publicationDue
    watch := L.watch
    dueQueue := L.dueQueue
    remaining := L.remaining }

/-- A change of the accrual unit, that depends on nothing a work changes besides. -/
structure Accrualwise (f : State → State) : Prop where
  besides : ∀ L u, f (L.besides u) = (f L).besides u
  change : ∀ L, f L = L.withAccrual (f L)

theorem Accrualwise.comp {f g : State → State} (hg : Accrualwise g) (hf : Accrualwise f) : Accrualwise fun s => g (f s) where
  besides L u := by rw [hf.besides, hg.besides]
  change L := (hg.change (f L)).trans (congrArg (fun x => x.withAccrual (g (f L))) (hf.change L))

/-- The clock set (R126, R130, R131). -/
def State.setClock (s : State) (c : Clock) : State := { s with clock := c }

theorem State.setClock_accrualwise (c : Clock) : Accrualwise fun s => s.setClock c := ⟨fun _ _ => rfl, fun _ => rfl⟩

/-- A publication left due (R123). -/
def State.owing (s : State) : State := { s with publicationDue := true }

theorem State.owing_accrualwise : Accrualwise State.owing := ⟨fun _ _ => rfl, fun _ => rfl⟩

theorem State.publishing_accrualwise : Accrualwise State.publishing := ⟨fun _ _ => rfl, fun _ => rfl⟩

/-- The state once a publication that was due is made (R123). -/
def State.caughtUp (s : State) : State := if s.publicationDue = true then s.publishing else s

theorem State.advanceMinute_accrualwise (m : Word) (stall : Fin 16) : Accrualwise fun s => s.advanceMinute m stall where
  besides L u := by
    have zones : (L.besides u).zones = L.zones := rfl
    have classes : (L.besides u).classes = L.classes := rfl
    unfold State.advanceMinute
    rw [zones, classes]
    generalize Vector.ofFn _ = advanced
    rfl
  change L := by
    unfold State.advanceMinute
    generalize Vector.ofFn _ = advanced
    rfl

theorem State.examine_accrualwise (zones : Vector Zone 64) : Accrualwise fun s => s.examine zones :=
  ⟨fun _ _ => rfl, fun _ => rfl⟩

theorem State.startBatch_accrualwise : Accrualwise State.startBatch := ⟨fun _ _ => rfl, fun _ => rfl⟩

/-- The zones charged, the clock set to a value and the patrol's reads dropped (R127). -/
def State.jump (s : State) (zones : Vector Zone 64) (value : Word) : State :=
  { s with zones := zones, clock := .held value 0, remaining := 0 }

theorem State.jump_accrualwise (zones : Vector Zone 64) (value : Word) : Accrualwise fun s => s.jump zones value :=
  ⟨fun _ _ => rfl, fun _ => rfl⟩

/-! ### The course of the clock's work -/

/-- The clock's work has come from `w` to `u` on a part that stood as `s`: the accrual unit is that of `L`, the intake and the
engine those of `w`; since then no byte but those of the areas has changed, of the causes the notice unit's alone, and the notices
given have been handed over. Without a notice no cause is set and no message sent. -/
structure Accrues (s w L u : State) (ns : List Notice) (areas : List (Nat × Nat)) : Prop where
  region : RegionValid s
  accrual : L = s.withAccrual L
  frame : u = L.besides u
  intake : u.lists = w.lists ∧ u.lastServed = w.lastServed ∧ u.engine = w.engine ∧ u.cacheSets = s.cacheSets
  indices : ∀ j : ListNo, w.lists[j].next < s.layout.cellsPerList
  start : w.base = s.base
  bytes : KeepsBytes w u areas
  causes : ∀ i, 2 ≤ i → u.causes.getLsbD i = s.causes.getLsbD i
  handed : Handed s u ns
  quiet : ns = [] → u.causes = s.causes ∧ u.messages = s.messages

/-- The notice unit does not see the accrual unit. -/
theorem SameView.withAccrual {v u : State} (h : SameView v u) (L : State) : SameView v (u.withAccrual L) :=
  ⟨h.sound, h.room, h.base, h.layout, h.capacity, h.counts, h.held, h.flags, h.causes, h.bytes⟩

/-- An event of the clock begins where the part stands. -/
theorem InService.accrues {s : State} (h : InService s) : Accrues s s s s [] [] :=
  ⟨h.region, rfl, rfl, ⟨rfl, rfl, rfl, rfl⟩, h.region.next, rfl, .refl s _, fun _ _ => rfl,
    ⟨false, s, rfl, .refl h.sound h.region.capacity_dvd.1⟩, fun _ => ⟨rfl, rfl⟩⟩

/-- A CLOCKSET's work begins after its take. -/
theorem Offers.accrues {s : State} {k : ListNo} {kind : Nat} (h : Offers s k kind) :
    Accrues s (s.afterTake k) s (s.afterTake k) [] [] where
  region := h.service.region
  accrual := rfl
  frame := rfl
  intake := ⟨rfl, rfl, rfl, rfl⟩
  indices j := by
    have took := s.afterTake_takenFrom k
    by_cases own : j = k
    · rw [own, took.index]
      exact Nat.mod_lt _ h.service.region.cells_pos
    · rw [took.others j own]
      exact h.service.region.next j
  start := rfl
  bytes := .refl _ _
  causes _ _ := rfl
  handed := ⟨false, s, rfl, h.takenView⟩
  quiet _ := ⟨rfl, rfl⟩

section
variable {s w L u y : State} {ns : List Notice} {areas : List (Nat × Nat)}

theorem Accrues.mono (h : Accrues s w L u ns areas) {areas' : List (Nat × Nat)} (sub : areas ⊆ areas') :
    Accrues s w L u ns areas' :=
  { h with bytes := h.bytes.mono sub }

theorem Accrues.base (h : Accrues s w L u ns areas) : u.base = s.base := by
  unfold State.base
  rw [h.frame, h.accrual]
  rfl

/-- What the clock's work leaves of the part. -/
theorem Accrues.held (h : Accrues s w L u ns areas) : u.layout = s.layout ∧ u.capacity = s.capacity ∧ u.failing = s.failing
    ∧ u.engineState = s.engineState ∧ u.resetCauses = s.resetCauses ∧ u.prog = s.prog := by
  rw [h.frame, h.accrual]
  exact ⟨rfl, rfl, rfl, rfl, rfl, rfl⟩

/-- The accrual unit of the work is that of `L`. -/
theorem Accrues.shows (h : Accrues s w L u ns areas) : u.zones = L.zones ∧ u.clock = L.clock ∧ u.published = L.published
    ∧ u.publicationDue = L.publicationDue ∧ u.classes = L.classes := by
  rw [h.frame]
  exact ⟨rfl, rfl, rfl, rfl, rfl⟩

theorem Accrues.sound (h : Accrues s w L u ns areas) : u.failing = none := by
  obtain ⟨missed, v, -, view⟩ := h.handed
  exact view.sound.2

theorem Accrues.regionNow (h : Accrues s w L u ns areas) : RegionValid u := by
  obtain ⟨layout, capacity, -, -, -, prog⟩ := h.held
  exact h.region.of_eq layout capacity (by rw [h.intake.1]; exact h.indices) (by rw [prog]; exact h.region.flight)

/-- A change of the accrual unit. -/
theorem Accrues.change (h : Accrues s w L u ns areas) {f : State → State} (hf : Accrualwise f) :
    Accrues s w (f L) (f u) ns areas := by
  have step : f u = (f L).besides u := by
    have := hf.besides L u
    rwa [← h.frame] at this
  refine ⟨h.region, ?accrual, ?frame, ?intake, h.indices, h.start, ?bytes, ?causes, ?handed, ?quiet⟩
  case accrual => exact (hf.change L).trans (congrArg (fun x => x.withAccrual (f L)) h.accrual)
  case frame => rw [step]; rfl
  case intake => rw [step]; exact h.intake
  case bytes => rw [step]; exact h.bytes
  case causes => rw [step]; exact h.causes
  case handed =>
    obtain ⟨missed, v, run, view⟩ := h.handed
    have same := view.withAccrual (f u)
    rw [← hf.change u] at same
    exact ⟨missed, v, run, same⟩
  case quiet => rw [step]; exact h.quiet

/-- Writes within the pages. -/
theorem Accrues.write (h : Accrues s w L u ns areas) (frame : y = { u with mem := y.mem }) (keeps : KeepsBytes u y s.pageAreas)
    (pages : s.pageAreas ⊆ areas) : Accrues s w L y ns areas where
  region := h.region
  accrual := h.accrual
  frame := by
    have := h.frame
    rw [frame, this]
    rfl
  intake := by rw [frame]; exact h.intake
  indices := h.indices
  start := h.start
  bytes := h.bytes.trans (h.base.trans h.start.symm) (keeps.mono pages)
  causes := by rw [frame]; exact h.causes
  handed := by
    obtain ⟨missed, v, run, view⟩ := h.handed
    obtain ⟨layout, capacity, -⟩ := h.held
    have off : OffUnit u s.pageAreas := by
      unfold OffUnit State.unitPlaces
      rw [layout, capacity]
      exact h.region.pages_offUnit
    exact ⟨missed, v, run, view.off (by rw [frame]) (by rw [frame]; rfl) (by rw [frame]) (by rw [frame])
      (by rw [frame]; exact ⟨rfl, rfl, rfl, rfl, rfl⟩) (by rw [frame]; exact fun _ _ => rfl) keeps off⟩
  quiet := by rw [frame]; exact h.quiet

/-- More notices handed over. -/
theorem Accrues.report (h : Accrues s w L u ns areas) (unit : s.noticeAreas ⊆ areas) (ms : List Notice) :
    ∃ x, reportNotices ms u = .ok () x ∧ Accrues s w L x (ns ++ ms) areas := by
  obtain ⟨missed, x, run, frame, handed⟩ := h.handed.more ms
  obtain ⟨layout, capacity, -⟩ := h.held
  have places : u.noticeAreas = s.noticeAreas := by
    unfold State.noticeAreas
    rw [layout, capacity]
  have bytes := frame.bytes
  rw [places] at bytes
  refine ⟨x, (Act.bind_ok run).trans rfl, h.region, h.accrual, ?frame, ?intake, h.indices, h.start,
    h.bytes.trans (h.base.trans h.start.symm) (bytes.mono unit), fun i hi => (frame.causes i hi).trans (h.causes i hi), handed,
    fun none => ?quiet⟩
  case frame =>
    have first := h.frame
    have second := frame.frame
    unfold NoticeFrame at second
    rw [second, first]
    rfl
  case intake =>
    rw [frame.frame]
    exact h.intake
  case quiet =>
    obtain ⟨rfl, rfl⟩ := List.append_eq_nil_iff.mp none
    obtain ⟨-, rfl⟩ := Act.pure_eq_ok.mp run
    exact h.quiet rfl

/-! ### Publications and the clock words -/

/-- A publication in the course of the clock's work (R66). -/
theorem Accrues.publish (h : Accrues s w L u ns areas) (pages : s.pageAreas ⊆ areas) :
    ∃ x, Machine.publish u = .ok () x ∧ Accrues s w L.publishing x ns areas ∧ PageShown x := by
  refine ⟨_, publish_ok h.sound, ?_, State.publishedState_shown h.regionNow⟩
  have keeps := u.publishedState_keeps
  obtain ⟨layout, -⟩ := h.held
  have places : u.pageAreas = s.pageAreas := by
    unfold State.pageAreas
    rw [layout]
  rw [places] at keeps
  exact (h.change State.publishing_accrualwise).write u.publishedState_frame keeps pages

/-- The publication that a boundary left due (R123). -/
theorem Accrues.finish (h : Accrues s w L u ns areas) (pages : L.publicationDue = true → s.pageAreas ⊆ areas) :
    ∃ x, finishPublication u = .ok () x ∧ Accrues s w L.caughtUp x ns areas := by
  obtain ⟨-, -, -, due, -⟩ := h.shows
  unfold finishPublication State.caughtUp
  rw [Act.get_bind, due]
  split
  · next owed =>
    obtain ⟨x, run, later, -⟩ := h.publish (pages owed)
    exact ⟨x, run, later⟩
  · exact ⟨u, rfl, h⟩

/-- The clock words written alone (R121). -/
theorem Accrues.showClock (h : Accrues s w L u ns areas) (running : s.engineState = .running) (pages : s.pageAreas ⊆ areas) :
    ∃ x, writeClockWords u = .ok () x ∧ Accrues s w L x ns areas
      ∧ x.peekWords (s.layout.controlPage + 12) 2
        = #v[wordOfBytes 2 (clockCode L.clock) (stallOf L.clock) s.resetCauses.toNat, minuteWord L.clock] := by
  obtain ⟨layout, -, -, state, causes, -⟩ := h.held
  obtain ⟨-, clock, -⟩ := h.shows
  have word : u.controlClock = wordOfBytes 2 (clockCode L.clock) (stallOf L.clock) s.resetCauses.toNat := by
    unfold State.controlClock
    rw [state, running, clock, causes]
    rfl
  have run : writeClockWords u = .ok () (u.poke (s.layout.controlPage + 12) [u.controlClock, minuteWord u.clock]) := by
    unfold writeClockWords
    rw [Act.get_bind, if_pos (state.trans running), regionWrite_ok h.sound, layout]
  rw [word, clock] at run
  refine ⟨_, run, h.write rfl (.poke ⟨(s.layout.controlPage + 12, 16), ?_, Nat.le_refl _, by simp⟩) pages, ?_⟩
  · simp [State.pageAreas]
  · exact State.peekWords_poke u _ 2 #v[_, _]

end

end Sys2Proof.Machine
end

-- ==== Proofs: the clock's events ====
section
/-! What a minute boundary, a run of them, a gap accrual and the end of a CLOCKSET leave (R123, R127, R130, R166). -/

namespace Sys2Proof.Machine

/-! ### ZONE_STALE (R64, R65) -/

/-- A zone turns STALE at a check exactly if it was CURRENT and is STALE after it. -/
theorem Zone.turnsStale_eq (z : Zone) (minute : Nat) : z.turnsStale minute
    = (decide (z.climate = .current) && decide ((z.checkStale minute).climate = .stale)) := by
  rw [Zone.checkStale_eq]
  cases turns : z.turnsStale minute with
  | true =>
    obtain ⟨-, current, -⟩ := (z.turnsStale_iff minute).mp turns
    simp [current]
  | false => cases z.climate <;> simp

/-- The notices of a check, by the zones as they stood and the climate states it leaves them in. -/
theorem staleNotices_eq {zones : Vector Zone 64} {minute : Word} {before after : ZoneNo → Zone}
    (current : ∀ z, zones[z].climate = (before z).climate)
    (checked : ∀ z, (zones[z].checkStale minute.toNat).climate = (after z).climate)
    (fields : ∀ z, zones[z].lastSample = (before z).lastSample ∧ zones[z].staleLimit = (before z).staleLimit) :
    staleNotices zones minute
      = ((List.finRange 64).filter fun z : ZoneNo =>
          decide ((before z).climate = .current) && decide ((after z).climate = .stale)).map
        fun z => ⟨.zoneStale, z.val, minute, (before z).lastSample, word (before z).staleLimit.toNat⟩ := by
  unfold staleNotices
  rw [← List.filterMap_eq_map, List.filterMap_filter]
  refine List.filterMap_congr fun z _ => ?_
  obtain ⟨sample, limit⟩ := fields z
  unfold zoneStaleNotice
  rw [Zone.turnsStale_eq, current, checked, sample, limit]
  rfl

/-! ### One boundary (R123) -/

section
variable {s w L u x t : State} {ns : List Notice} {areas : List (Nat × Nat)} {m value : Word} {stall : Fin 16} {k : ListNo}

theorem State.passMinute_held (clock : s.clock = .held m stall) :
    s.passMinute = ((s.advanceMinute m stall).examine s.zones).startBatch := by
  unfold State.passMinute
  rw [clock]

theorem State.minuteNotices_held (clock : s.clock = .held m stall) : s.minuteNotices = staleNotices s.zones (m + 1) := by
  unfold State.minuteNotices
  rw [clock]

theorem State.passMinute_unset (clock : s.clock = .unset) : s.passMinute = s := by
  unfold State.passMinute
  rw [clock]

theorem State.minuteNotices_unset (clock : s.clock = .unset) : s.minuteNotices = [] := by
  unfold State.minuteNotices
  rw [clock]

/-- Stages 1 to 3 of a boundary in the course of the clock's work (R123). -/
theorem Accrues.boundary (h : Accrues s w L u ns areas) (unit : s.noticeAreas ⊆ areas) :
    ∃ x, Machine.boundary u = .ok () x ∧ Accrues s w L.passMinute x (ns ++ L.minuteNotices) areas := by
  obtain ⟨zones, clock, -⟩ := h.shows
  unfold Machine.boundary
  rw [Act.get_bind, clock, zones]
  cases held : L.clock with
  | unset =>
    rw [State.passMinute_unset held, State.minuteNotices_unset held, List.append_nil]
    exact ⟨u, rfl, h⟩
  | held m stall =>
    obtain ⟨x, run, later⟩ := (h.change (State.advanceMinute_accrualwise m stall)).report unit (staleNotices L.zones (m + 1))
    rw [State.passMinute_held held, State.minuteNotices_held held]
    simp only
    rw [Act.set_bind, Act.bind_ok run]
    exact ⟨_, rfl, (later.change (State.examine_accrualwise L.zones)).change State.startBatch_accrualwise⟩

/-- A run of boundaries in the course of the clock's work (R130). -/
theorem Accrues.boundaries (unit : s.noticeAreas ⊆ areas) (n : Nat) : ∀ {L u : State} {ns : List Notice},
    Accrues s w L u ns areas → ∃ x, repeatAct n Machine.boundary u = .ok () x
      ∧ Accrues s w (State.passMinutes n L) x (ns ++ State.runNotices n L) areas := by
  induction n with
  | zero =>
    intro L u ns h
    refine ⟨u, rfl, ?_⟩
    unfold State.runNotices
    rw [List.append_nil]
    exact h
  | succ n ih =>
    intro L u ns h
    obtain ⟨x, run, later⟩ := h.boundary unit
    obtain ⟨y, runs, last⟩ := ih later
    refine ⟨y, ?_, ?_⟩
    · unfold repeatAct
      rw [Act.bind_ok run, runs]
    · rw [List.append_assoc] at last
      exact last

/-! ### A run of boundaries as a whole (R130) -/

/-- The stages of a boundary, the zones as they stood before it given (R123). -/
theorem State.stages_accrualwise (m : Word) (stall : Fin 16) (zones : Vector Zone 64) :
    Accrualwise fun s => ((s.advanceMinute m stall).examine zones).startBatch :=
  State.startBatch_accrualwise.comp ((State.examine_accrualwise zones).comp (State.advanceMinute_accrualwise m stall))

theorem State.passMinute_accrualwise : Accrualwise State.passMinute where
  besides L u := by
    have clock : (L.besides u).clock = L.clock := rfl
    cases held : L.clock with
    | unset => rw [State.passMinute_unset (clock.trans held), State.passMinute_unset held]
    | held m stall =>
      rw [State.passMinute_held (clock.trans held), State.passMinute_held held]
      exact (State.stages_accrualwise m stall L.zones).besides L u
  change L := by
    cases held : L.clock with
    | unset =>
      rw [State.passMinute_unset held]
      rfl
    | held m stall =>
      rw [State.passMinute_held held]
      exact (State.stages_accrualwise m stall L.zones).change L

/-- The clock after a boundary (R123). -/
theorem State.passMinute_clock (clock : s.clock = .held m stall) : s.passMinute.clock = .held (m + 1) stall := by
  rw [State.passMinute_held clock]
  rfl

theorem State.passMinutes_clock (n : Nat) : ∀ {s : State} {m : Word}, s.clock = .held m stall →
    (State.passMinutes n s).clock = .held (m + word n) stall := by
  induction n with
  | zero =>
    intro s m clock
    rw [show m + word 0 = m by simp [word]]
    exact clock
  | succ n ih =>
    intro s m clock
    have later := ih (State.passMinute_clock clock)
    rw [show m + 1 + word n = m + word (n + 1) by unfold word; rw [BitVec.ofNat_add]; ac_rfl] at later
    exact later

/-- The patrol's count after a run of one boundary or more (R115). -/
theorem State.passMinutes_remaining (n : Nat) : ∀ {s : State} {m : Word}, s.clock = .held m stall →
    (State.passMinutes (n + 1) s).remaining = if s.stopping then 0 else s.batch := by
  induction n with
  | zero =>
    intro s m clock
    show s.passMinute.remaining = _
    rw [State.passMinute_held clock]
    simp [State.startBatch]
  | succ n ih =>
    intro s m clock
    have later := ih (State.passMinute_clock clock)
    have kept := State.passMinute_accrualwise.change s
    have stopping : s.passMinute.stopping = s.stopping := by rw [kept]; rfl
    have batch : s.passMinute.batch = s.batch := by rw [kept]; rfl
    rw [stopping, batch] at later
    exact later

/-- The published minute and what is due are no part of a boundary's stages. -/
def State.withPages (s : State) (published : Word) (due : Bool) : State := { s with published := published, publicationDue := due }

theorem State.passMinute_withPages (s : State) (published : Word) (due : Bool) :
    (s.withPages published due).passMinute = s.passMinute.withPages published due := by
  have clock : (s.withPages published due).clock = s.clock := rfl
  cases held : s.clock with
  | unset => rw [State.passMinute_unset (clock.trans held), State.passMinute_unset held]
  | held m stall =>
    rw [State.passMinute_held (clock.trans held), State.passMinute_held held]
    unfold State.advanceMinute
    have zones : (s.withPages published due).zones = s.zones := rfl
    have classes : (s.withPages published due).classes = s.classes := rfl
    rw [zones, classes]
    generalize Vector.ofFn _ = advanced
    rfl

theorem State.minuteNotices_withPages (s : State) (published : Word) (due : Bool) :
    (s.withPages published due).minuteNotices = s.minuteNotices := rfl

theorem State.passMinutes_withPages (n : Nat) (published : Word) (due : Bool) : ∀ s : State,
    State.passMinutes n (s.withPages published due) = (State.passMinutes n s).withPages published due
      ∧ State.runNotices n (s.withPages published due) = State.runNotices n s := by
  induction n with
  | zero => exact fun _ => ⟨rfl, rfl⟩
  | succ n ih =>
    intro s
    obtain ⟨states, notices⟩ := ih s.passMinute
    unfold State.passMinutes State.runNotices
    rw [State.passMinute_withPages, State.minuteNotices_withPages, states, notices]
    exact ⟨rfl, rfl⟩

/-! ### A gap accrual (R127, R128) -/

/-- A zone charged for a gap and then checked (R127). -/
theorem State.gap_checkStale (s : State) (g : Nat) (value : Word) (z : ZoneNo) :
    (s.zones[z].gap s.classes g).checkStale value.toNat = s.zoneAfterGap g value z := by
  unfold State.zoneAfterGap Zone.gap
  simp only
  generalize s.zones[z] = zone
  by_cases none : zone.type = .typeNone
  · have passed : zone.defined = false := by simp [Zone.defined, none]
    rw [if_pos none, passed, if_neg Bool.false_ne_true]
    simp [Zone.checkStale, Zone.turnsStale, passed]
  · have defined : zone.defined = true := by simp [Zone.defined, none]
    rw [if_neg none, if_pos defined, Zone.checkStale_eq]
    simp only [Zone.turnsStale_iff, none, ne_eq, not_false_eq_true, true_and]

/-- A gap leaves of a zone what its notice tells, and its climate state (R127). -/
theorem Zone.gap_readings (z : Zone) (classes : Vector ClassState 8) (g : Nat) :
    (z.gap classes g).climate = z.climate ∧ (z.gap classes g).lastSample = z.lastSample
      ∧ (z.gap classes g).staleLimit = z.staleLimit := by
  unfold Zone.gap
  split
  · exact ⟨rfl, rfl, rfl⟩
  · exact ⟨rfl, rfl, rfl⟩

/-- A gap accrual but for its notices and its publication (R127). -/
def State.gapPassed (s : State) (g : Nat) (value : Word) : State :=
  (s.jump (Vector.ofFn (s.zoneAfterGap g value)) value).examine s.zones

/-- The zones of a table charged for a gap (R127 step 1). -/
def State.charged (s : State) (g : Nat) : Vector Zone 64 := Vector.ofFn fun z : ZoneNo => s.zones[z].gap s.classes g

theorem State.charged_get (s : State) (g : Nat) (z : ZoneNo) : (s.charged g)[z] = s.zones[z].gap s.classes g := by
  show (Vector.ofFn _)[z.val] = _
  rw [Vector.getElem_ofFn]

theorem State.gapNotices_eq (s : State) (start value : Word) (g cleared : Nat) : s.gapNotices start value g cleared
    = staleNotices (s.charged g) value ++ [clockGapNotice start value g cleared] := by
  rw [staleNotices_eq (before := fun z => s.zones[z]) (after := s.zoneAfterGap g value)]
  · rfl
  · intro z
    rw [s.charged_get]
    exact (s.zones[z].gap_readings s.classes g).1
  · intro z
    rw [s.charged_get, s.gap_checkStale]
  · intro z
    rw [s.charged_get]
    exact (s.zones[z].gap_readings s.classes g).2

/-- A gap accrual in the stages of R127, by what it charges. -/
theorem gapAccrual_eq (u : State) (start value : Word) (g cleared : Nat) : gapAccrual start value g cleared u
    = (do
        reportNotices (staleNotices (u.charged g) value)
        modify fun t => t.examine u.zones
        reportNotices [clockGapNotice start value g cleared]
        Machine.publish : Act Unit) (u.jump (Vector.ofFn (u.zoneAfterGap g value)) value) := by
  have checked : (Vector.ofFn fun z : Fin 64 => (u.charged g)[z].checkStale value.toNat) = Vector.ofFn (u.zoneAfterGap g value) :=
    congrArg Vector.ofFn (funext fun z => by rw [u.charged_get, u.gap_checkStale])
  unfold gapAccrual
  rw [Act.get_bind]
  have charged : (Vector.ofFn fun z : Fin 64 => u.zones[z].gap u.classes g) = u.charged g := rfl
  rw [charged, Act.modify_bind, checked]
  rfl

/-- A gap accrual in the course of the clock's work (R127, R128). -/
theorem Accrues.gap (h : Accrues s w L u ns areas) (unit : s.noticeAreas ⊆ areas) (pages : s.pageAreas ⊆ areas)
    (start value : Word) (g cleared : Nat) : ∃ x, gapAccrual start value g cleared u = .ok () x
      ∧ Accrues s w (L.gapPassed g value).publishing x (ns ++ L.gapNotices start value g cleared) areas ∧ PageShown x := by
  obtain ⟨zones, -, -, -, classes⟩ := h.shows
  have after : u.zoneAfterGap g value = L.zoneAfterGap g value := by
    unfold State.zoneAfterGap
    rw [zones, classes]
  have charged : u.charged g = L.charged g := by
    unfold State.charged
    rw [zones, classes]
  rw [gapAccrual_eq, L.gapNotices_eq, after, charged, zones, ← List.append_assoc]
  obtain ⟨x, run, first⟩ := (h.change (State.jump_accrualwise (Vector.ofFn (L.zoneAfterGap g value)) value)).report unit
    (staleNotices (L.charged g) value)
  obtain ⟨y, run', second⟩ := (first.change (State.examine_accrualwise L.zones)).report unit
    [clockGapNotice start value g cleared]
  obtain ⟨t, run'', last, shown⟩ := second.publish pages
  refine ⟨t, ?_, last, shown⟩
  rw [Act.bind_ok run, Act.modify_bind, Act.bind_ok run', run'']

/-! ### The end of the work -/

/-- What `t` is to the part that stood as `s`, once an event of the clock has passed: the accrual unit is that of `L`, and besides
it the notice unit, the memory, the wires and the intake alone have changed. -/
structure ClockPassed (s L t : State) (ns : List Notice) : Prop where
  notices : NoticesGo s t ns
  frame : t = { s with
    mem := t.mem
    lists := t.lists
    lastServed := t.lastServed
    zones := L.zones
    clock := L.clock
    published := L.published
    publicationDue := L.publicationDue
    watch := L.watch
    dueQueue := L.dueQueue
    remaining := L.remaining
    written := t.written
    taken := t.taken
    heldNotices := t.heldNotices
    logFull := t.logFull
    noticesDropped := t.noticesDropped
    causes := t.causes
    messages := t.messages
    lines := t.lines }

/-- An event of the clock that serves no cell ends with its wires driven (R157). -/
theorem Accrues.expired (h : Accrues s s L u ns areas) (sound : s.failing = none) :
    ClockPassed s L u.drive ns ∧ KeepsBytes s u.drive areas ∧ u.drive.lists = s.lists
      ∧ u.drive.lastServed = s.lastServed := by
  obtain ⟨missed, v, run, view⟩ := h.handed
  obtain ⟨missed', v', run', frameS⟩ := handNotices_frame ns sound
  rw [run] at run'
  cases run'
  obtain ⟨lists, served, engine, sets⟩ := h.intake
  have frame : u = (s.withAccrual L).besides u := by
    rw [← h.accrual]
    exact h.frame
  unfold State.besides at frame
  rw [engine, sets] at frame
  have unit := (view.sameUnit frameS).drive
  refine ⟨⟨.of_run (missed := missed) h.region sound run (by simpa using unit) h.base, ?_⟩, h.bytes, lists, served⟩
  obtain ⟨ls, driven⟩ : ∃ ls, u.drive = { u with lines := ls } := ⟨_, rfl⟩
  rw [driven, frame]
  rfl

/-- What a CLOCKSET leaves besides: its cell completed, the bytes of the areas alone changed, and the pages standing as its work
left them. -/
structure ClockServed (s x t : State) (k : ListNo) (a : Answer) (areas : List (Nat × Nat)) : Prop where
  served : Served s t k a
  bytes : KeepsBytes s t (cellAreas (s.nextCell k) ++ [s.indexArea k] ++ areas)
  shown : PageShown x → PageShown t
  words : t.peekWords (s.layout.controlPage + 12) 2 = x.peekWords (s.layout.controlPage + 12) 2

/-- A completion leaves the pages standing (R66, R166). -/
theorem CompletedFrom.pageShown {c : TakenCell} {a : Answer} {off : Nat} (h : CompletedFrom x t c a)
    (at_ : x.layout.cell c.list c.index = off) (apart : ∀ q ∈ x.pageAreas, AllApart (cellAreas off) q) (shown : PageShown x) :
    PageShown t := by
  have keeps := (h.ended at_).bytes
  have base : t.base = x.base := by rw [h.frame]; rfl
  have layout : t.layout = x.layout := by rw [h.frame]
  have page := apart (x.layout.zonePage, 12352) (by simp [State.pageAreas, zonePageBytes])
  refine ⟨shown.toZonePageShown.of_keeps keeps base layout page (fun z => by rw [h.frame]) (by rw [h.frame]), ?_⟩
  have words := keeps.peekWords (k := 4) base (apart (x.layout.controlPage + 12, 16) (by simp [State.pageAreas]))
  have same : t.controlShown = x.controlShown := by rw [h.frame]; rfl
  rw [layout, words, same]
  exact shown.control

theorem ListState.eq_of_fields {a b : ListState} (next : a.next = b.next) (eligible : a.eligible = b.eligible) : a = b := by
  cases a
  cases b
  simp only at next eligible
  rw [next, eligible]

/-- The list of a completed cell stands as its take left it (R163, R164). -/
theorem CompletedFrom.takenFrom {c : TakenCell} {a : Answer} (h : CompletedFrom x t c a) (lists : x.lists = (s.afterTake k).lists)
    (served : x.lastServed = (s.afterTake k).lastServed)
    (word : t.peek (s.layout.controlPage + 28 + 4 * (k.val / 4))
      = (s.afterTake k).peek (s.layout.controlPage + 28 + 4 * (k.val / 4)))
    (list : c.list = k) : TakenFrom s t k := by
  have took := s.afterTake_takenFrom k
  have next (j : ListNo) : t.lists[j].next = (s.afterTake k).lists[j].next := by rw [(h.lists j).1, lists]
  refine ⟨(next k).trans took.index, ?shown, fun j hj => ?others, ?served⟩
  case shown =>
    rw [word, took.shown]
    exact (indexWord_congr _ next).symm
  case others =>
    have eligible := (h.lists j).2
    rw [lists, list, decide_eq_false hj, Bool.false_and, Bool.or_false] at eligible
    rw [← took.others j hj]
    exact ListState.eq_of_fields (next j) eligible
  case served =>
    rw [h.frame]
    exact served.trans took.served

/-- The completion that ends a CLOCKSET (R166). -/
theorem Accrues.complete (h : Accrues s (s.afterTake k) L x ns areas) (sound : s.failing = none) (free : s.engine = .free)
    (within : areas ⊆ s.pageAreas ++ s.noticeAreas) (a : Answer) :
    ∃ t, completeCell (s.offered k) a x = .ok () t ∧ ClockPassed s L t.drive ns ∧ ClockServed s x t.drive k a areas := by
  obtain ⟨t, run, done⟩ := completeCell_from h.sound (s.offered k) a
  refine ⟨t, run, ?_⟩
  generalize t.drive = t at done
  obtain ⟨layout, -⟩ := h.held
  obtain ⟨lists, lastServed, -, sets⟩ := h.intake
  have at_ : x.layout.cell (s.offered k).list (s.offered k).index = s.nextCell k := by rw [layout]; rfl
  have ended := done.ended at_
  have first : 0 < s.layout.tableSize := h.region.tableLow
  have unitApart : ∀ r ∈ s.noticeAreas, AllApart (cellAreas (s.nextCell k)) r :=
    fun r hr => h.region.cellAreas_apart k first (List.mem_cons_of_mem _ hr)
  have places : x.pageAreas = s.pageAreas := by
    unfold State.pageAreas
    rw [layout]
  have pagesApart := h.region.cellAreas_pages k
  have tbase : t.base = x.base := by rw [done.frame]; rfl
  obtain ⟨missed, v, handed, view⟩ := h.handed
  obtain ⟨missed', v', handed', frameS⟩ := handNotices_frame ns sound
  rw [handed] at handed'
  cases handed'
  refine ⟨⟨.of_run (missed := missed) h.region sound handed ?unit (tbase.trans h.base), ?frame⟩,
    ⟨⟨?taken, done.doneCell at_ h.causes, ?inspected⟩, ?bytes, done.pageShown at_ (by rw [places]; exact pagesApart), ?words⟩⟩
  case unit => simpa using ended.sameUnit h.base unitApart (view.sameUnit frameS)
  case frame =>
    have engine : t.engine = s.engine := ended.engine.trans free.symm
    have cache : t.cacheSets = s.cacheSets := ended.sets.trans sets
    have work : x = (s.withAccrual L).besides x := by
      rw [← h.accrual]
      exact h.frame
    have whole : t = (s.withAccrual L).besides t := by
      have last := ended.frame
      rw [work] at last
      exact last
    unfold State.besides at whole
    rw [engine, cache] at whole
    exact whole
  case taken =>
    refine done.takenFrom lists lastServed ?_ rfl
    rw [ended.bytes.peek tbase (h.region.cellAreas_index k),
      h.bytes.peek (h.base.trans h.start.symm) fun r hr => h.region.clock_index k r (within hr)]
  case inspected =>
    have eligible := (done.lists k).2
    have index : x.lists[k].eligible = false := by
      rw [lists]
      exact congrArg ListState.eligible (Vector.getElem_set_self _)
    rw [index, Bool.false_or] at eligible
    exact eligible.trans (by rw [decide_eq_true (show k = (s.offered k).list from rfl), Bool.true_and])
  case bytes =>
    have begun := ((s.afterTake_cellAreas k).mono (List.subset_append_left _ areas)).trans h.start
      (h.bytes.mono (List.subset_append_right _ _))
    exact begun.trans h.base (ended.bytes.mono fun r hr => List.mem_append_left _ (List.mem_append_left _ hr))
  case words =>
    have control := pagesApart (s.layout.controlPage + 12, 16) (by simp [State.pageAreas])
    exact ended.bytes.peekWords tbase (control.within (by simp) (by simp))

end

end Sys2Proof.Machine
end

-- ==== Proofs: CLOCKSET and the minute timer ====
section
/-! CLOCKSET from UNSET and while the clock is set, and the expiry of the minute timer (O40, O41, O43). -/

namespace Sys2Proof.Machine

section
variable {s w L u x t : State} {k : ListNo} {ns : List Notice} {areas : List (Nat × Nat)} {m v : Word} {stall : Fin 16}

/-! ### What is seen of an event of the clock -/

/-- Where no notice is handed over the notice unit stays as it was. -/
theorem ClockPassed.silent (h : ClockPassed s L t []) : t = { s with
    mem := t.mem
    lists := t.lists
    lastServed := t.lastServed
    zones := L.zones
    clock := L.clock
    published := L.published
    publicationDue := L.publicationDue
    watch := L.watch
    dueQueue := L.dueQueue
    remaining := L.remaining
    causes := t.causes
    messages := t.messages
    lines := t.lines } := by
  obtain ⟨written, taken, held, full, dropped⟩ := h.notices.idle rfl
  have frame := h.frame
  rw [written, taken, held, full, dropped] at frame
  exact frame

/-- The accrual unit after an event of the clock. -/
theorem ClockPassed.shows (h : ClockPassed s L t ns) : t.zones = L.zones ∧ t.clock = L.clock ∧ t.watch = L.watch
    ∧ t.dueQueue = L.dueQueue ∧ t.remaining = L.remaining := by
  rw [h.frame]
  exact ⟨rfl, rfl, rfl, rfl, rfl⟩

/-- A publication on a clock that is set (R66). -/
theorem State.publishing_held (clock : s.clock = .held m stall) : s.publishing = s.withPages m false := by
  have minute : (if s.clockSet then s.minute else s.published) = m := by
    unfold State.clockSet State.minute
    rw [clock]
    rfl
  unfold State.publishing
  rw [minute]
  rfl

/-- What was due from the last boundary made, on a clock that is set (R123). -/
theorem State.caughtUp_held (clock : s.clock = .held m stall) :
    s.caughtUp = s.withPages (if s.publicationDue then m else s.published) false := by
  unfold State.caughtUp
  cases due : s.publicationDue with
  | true =>
    rw [if_pos rfl, if_pos rfl]
    exact State.publishing_held clock
  | false =>
    rw [if_neg Bool.false_ne_true, if_neg Bool.false_ne_true, ← due]
    rfl

/-- A gap accrual and its publication, field by field (R127). -/
theorem State.gapPassed_publishing (s : State) (published : Word) (due : Bool) (g : Nat) (v : Word) :
    ((s.withPages published due).gapPassed g v).publishing
      = { s with
        zones := Vector.ofFn (s.zoneAfterGap g v)
        clock := .held v 0
        published := v
        publicationDue := false
        watch := (({ s with zones := Vector.ofFn (s.zoneAfterGap g v) } : State).examine s.zones).watch
        dueQueue := (({ s with zones := Vector.ofFn (s.zoneAfterGap g v) } : State).examine s.zones).dueQueue
        remaining := 0 } := by
  have zones : (s.withPages published due).zoneAfterGap g v = s.zoneAfterGap g v := rfl
  unfold State.gapPassed
  rw [zones]
  generalize Vector.ofFn (s.zoneAfterGap g v) = zones
  rfl

/-- The zones and the pool after a gap accrual (R107, R127). -/
theorem ClockPassed.charged {published : Word} {due : Bool} {g : Nat}
    (h : ClockPassed s ((s.withPages published due).gapPassed g v).publishing t ns) :
    (∀ z : ZoneNo, t.zones[z] = s.zoneAfterGap g v z)
      ∧ let w := { s with zones := t.zones }.examine s.zones
        t.watch = w.watch ∧ t.dueQueue = w.dueQueue := by
  rw [State.gapPassed_publishing] at h
  obtain ⟨zones, -, watch, dueQueue, -⟩ := h.shows
  simp only at zones watch dueQueue
  rw [zones]
  refine ⟨fun z => ?_, watch, dueQueue⟩
  show (Vector.ofFn _)[z.val] = _
  rw [Vector.getElem_ofFn]

/-! ### CLOCKSET (R125) -/

/-- The value 0xFFFFFFFF is refused (R125). -/
theorem Admits.clockset_none (h : Admits s k 11) (none : (s.offered k).clockValue = noWord) :
    ∃ t, exec .clockset s = .next t ∧ Answers s t k (refusedWith .badValue) []
      ∧ t = { s with
          mem := t.mem
          lists := t.lists
          lastServed := t.lastServed
          causes := t.causes
          messages := t.messages
          lines := t.lines } := by
  refine h.refuses (kinds := (· == 11)) rfl (work := clocksetWork) ?_
  unfold clocksetWork
  rw [Act.get_bind, if_pos none]
  rfl

theorem clocksetWork_applied {c : TakenCell} {a : ClockAnswer} (given : c.clockValue ≠ noWord)
    (ran : applyClock c.clockValue u = .ok a x) : clocksetWork c u = .ok (some (clockAnswer u x a)) x := by
  unfold clocksetWork
  rw [Act.get_bind, if_neg given, Act.bind_ok ran]
  rfl

/-- A CLOCKSET whose value is applied, from the run of the accrual unit's work (R125). -/
theorem Admits.clockset (h : Admits s k 11) {a : ClockAnswer} (given : (s.offered k).clockValue ≠ noWord)
    (ran : applyClock (s.offered k).clockValue (s.afterTake k) = .ok a x)
    (work : Accrues s (s.afterTake k) L x ns areas) (within : areas ⊆ s.pageAreas ++ s.noticeAreas) :
    ∃ t, exec .clockset s = .next t ∧ ClockPassed s L t ns ∧ ClockServed s x t k (clockAnswer s L a) areas := by
  have answer : clockAnswer (s.afterTake k) x a = clockAnswer s L a := by
    obtain ⟨-, clock, -⟩ := work.shows
    unfold clockAnswer
    rw [clock]
    rfl
  have worked := clocksetWork_applied given ran
  rw [answer] at worked
  obtain ⟨t, completed, passed, served⟩ :=
    work.complete h.offers.service.sound (State.mayTakeCell_free h.offers.free) within (clockAnswer s L a)
  exact ⟨t.drive, h.run (kinds := (· == 11)) rfl worked completed, passed, served⟩

/-! ### From UNSET (R126) -/

theorem applyClock_unset (finished : finishPublication u = .ok () x) (clock : x.clock = .unset) (v : Word) :
    applyClock v u = setFromUnset v x := by
  unfold applyClock
  rw [Act.bind_ok finished, Act.get_bind, clock]

/-- The first minute of a part that holds none, or the one it published (R126). -/
theorem Accrues.setFirst (h : Accrues s w L u ns areas) (pages : s.pageAreas ⊆ areas)
    (first : L.published = noWord ∨ v = L.published) : ∃ x, setFromUnset v u = .ok clockDone x
      ∧ Accrues s w (L.setClock (.held v 0)).publishing x ns areas ∧ PageShown x := by
  obtain ⟨-, -, published, -⟩ := h.shows
  obtain ⟨x, run, later, shown⟩ := (h.change (State.setClock_accrualwise (.held v 0))).publish pages
  refine ⟨x, ?_, later, shown⟩
  unfold setFromUnset
  rw [Act.get_bind, published, if_pos first, Act.modify_bind]
  exact (Act.bind_ok run).trans rfl

theorem setFromUnset_backward (held : u.published ≠ noWord) (below : v.toNat < u.published.toNat) :
    setFromUnset v u = .ok clockRefused u := by
  have other : v ≠ u.published := fun e => absurd (congrArg BitVec.toNat e) (Nat.ne_of_lt below)
  unfold setFromUnset
  rw [Act.get_bind, if_neg (not_or.mpr ⟨held, other⟩), if_pos below]
  rfl

/-- A minute after the published one: the gap between them is charged (R126, R127). -/
theorem Accrues.setLater (h : Accrues s w L u ns areas) (unit : s.noticeAreas ⊆ areas) (pages : s.pageAreas ⊆ areas)
    (held : L.published ≠ noWord) (above : L.published.toNat < v.toNat) :
    let g := v.toNat - L.published.toNat
    ∃ x, setFromUnset v u = .ok ⟨true, g, 0⟩ x
      ∧ Accrues s w (L.gapPassed g v).publishing x (ns ++ L.gapNotices L.published v g 0) areas ∧ PageShown x := by
  intro g
  obtain ⟨-, -, published, -⟩ := h.shows
  have other : v ≠ L.published := fun e => absurd (congrArg BitVec.toNat e) (Nat.ne_of_gt above)
  obtain ⟨x, run, later, shown⟩ := h.gap unit pages L.published v g 0
  refine ⟨x, ?_, later, shown⟩
  unfold setFromUnset
  rw [Act.get_bind, published, if_neg (not_or.mpr ⟨held, other⟩), if_neg (Nat.not_lt.mpr above.le)]
  exact (Act.bind_ok run).trans rfl

/-- Settles O40: by the value, and by the published minute it is compared with. -/
theorem clocksetFromUnsetComparesThePublishedMinute : Obligations.ClocksetFromUnsetComparesThePublishedMinute := by
  intro s k h unset idle v l g refused areas
  have start := h.offers.accrues
  have finished : finishPublication (s.afterTake k) = .ok () (s.afterTake k) :=
    (finishPublication_ok (s := s.afterTake k) h.offers.service.sound).trans
      (congrArg _ (if_neg (show ¬ s.publicationDue = true by rw [idle]; exact Bool.false_ne_true)))
  have applied := applyClock_unset finished unset v
  refine ⟨h.clockset_none, fun given held below => ?backward, fun given first => ?first, fun given held above => ?gap⟩
  case backward =>
    have answer : clockAnswer (s.afterTake k) (s.afterTake k) clockRefused = ⟨.clockBackward, 0, noWord, l, 0, 0⟩ := by
      have clock : (s.afterTake k).clock = .unset := unset
      unfold clockAnswer State.clockSet
      rw [clock]
      rfl
    have worked := clocksetWork_applied given (applied.trans (setFromUnset_backward held below))
    rw [answer] at worked
    exact h.answers_silent (kinds := (· == 11)) rfl (work := clocksetWork) .refl worked
  case first =>
    obtain ⟨x, run, work, shown⟩ := (start.mono (List.nil_subset s.pageAreas)).setFirst (fun _ hr => hr) first
    obtain ⟨t, ran, passed, served⟩ := h.clockset given (applied.trans run) work (List.subset_append_left _ _)
    have frame := passed.silent
    refine ⟨t, ran, served.served, served.shown shown, served.bytes, ?_⟩
    rw [idle]
    exact frame
  case gap =>
    obtain ⟨x, run, work, shown⟩ := (start.mono (List.nil_subset (s.pageAreas ++ s.noticeAreas))).setLater
      (List.subset_append_right _ _) (List.subset_append_left _ _) held above
    obtain ⟨t, ran, passed, served⟩ := h.clockset given (applied.trans run) work (fun _ hr => hr)
    obtain ⟨zones, pool⟩ := ClockPassed.charged (published := s.published) (due := s.publicationDue) passed
    have bytes := served.bytes
    rw [← List.append_assoc] at bytes
    refine ⟨t, ran, served.served, served.shown shown, passed.notices, bytes, zones, pool, ?_⟩
    obtain ⟨zonesL, -, watchL, dueQueueL, -⟩ := passed.shows
    rw [zonesL, watchL, dueQueueL, idle]
    exact passed.frame

/-! ### While the clock is set (R129) -/

theorem applyClock_held (finished : finishPublication u = .ok () x) (clock : x.clock = .held m stall) (v : Word) :
    applyClock v u = correct m stall v x := by
  unfold applyClock
  rw [Act.bind_ok finished, Act.get_bind, clock]

/-- The step of a value from the reckoned minute (R129). -/
def clockStep (m : Word) (stall : Fin 16) (v : Word) : Int := (v.toNat : Int) - ((m.toNat : Int) - stall.val)

theorem correct_same (step : clockStep m stall v = 0) : correct m stall v = pure clockDone := if_pos step

theorem correct_forward (low : 1 ≤ clockStep m stall v) (high : clockStep m stall v ≤ 15) :
    correct m stall v = stepForward m stall (clockStep m stall v).toNat :=
  (if_neg (by show ¬ clockStep m stall v = 0; omega)).trans (if_pos ⟨low, high⟩)

theorem correct_gap (far : 15 < clockStep m stall v) : correct m stall v = (do
    gapAccrual m v (v.toNat - m.toNat) stall.val
    pure ⟨true, v.toNat - m.toNat, 0⟩ : Act ClockAnswer) :=
  (if_neg (by show ¬ clockStep m stall v = 0; omega)).trans
    ((if_neg (by show ¬ (1 ≤ clockStep m stall v ∧ clockStep m stall v ≤ 15); omega)).trans (if_pos far))

/-- The two branches of a step back (R131). -/
theorem correct_backward (back : clockStep m stall v < 0) : correct m stall v
    = if -15 ≤ clockStep m stall v ∧ (m.toNat : Int) - 15 ≤ (v.toNat : Int) then stepBack m stall (-clockStep m stall v).toNat
      else pure clockRefused :=
  (if_neg (by show ¬ clockStep m stall v = 0; omega)).trans
    ((if_neg (by show ¬ (1 ≤ clockStep m stall v ∧ clockStep m stall v ≤ 15); omega)).trans
      (if_neg (by show ¬ 15 < clockStep m stall v; omega)))

/-- The stall count lowered or raised to `n`, and shown (R121, R130, R131). -/
theorem Accrues.restall (h : Accrues s w L u ns areas) (running : s.engineState = .running) (pages : s.pageAreas ⊆ areas)
    (m : Word) (n : Fin 16) : ∃ x, (do
        modify fun t => t.setClock (.held m n)
        writeClockWords : Act Unit) u = .ok () x
      ∧ Accrues s w (L.setClock (.held m n)) x ns areas
      ∧ x.peekWords (s.layout.controlPage + 12) 2
        = #v[wordOfBytes 2 (clockCode (.held m n)) n.val s.resetCauses.toNat, m] :=
  (h.change (State.setClock_accrualwise (.held m n))).showClock running pages

theorem stepForward_stalled {n : Fin 16} {j : Nat} (within : n.val + j = stall.val) : stepForward m stall j = (do
    (do modify fun t => t.setClock (.held m n)
        writeClockWords : Act Unit)
    pure clockDone : Act ClockAnswer) := by
  have count : Fin.ofNat 16 (stall.val - j) = n := Fin.ext (by have := n.isLt; simp only [Fin.ofNat]; omega)
  unfold stepForward
  simp only
  rw [count, if_pos (by omega)]
  rfl

theorem stepBack_stalled {n : Fin 16} {j : Nat} (within : n.val = stall.val + j) : stepBack m stall j = (do
    (do modify fun t => t.setClock (.held m n)
        writeClockWords : Act Unit)
    pure clockDone : Act ClockAnswer) := by
  have count : Fin.ofNat 16 (stall.val + j) = n := Fin.ext (by have := n.isLt; simp only [Fin.ofNat]; omega)
  unfold stepBack
  rw [count]
  rfl

/-- A forward correction past the stall: the rest as boundaries, with one publication (R130). -/
theorem Accrues.runForward (h : Accrues s w L u ns areas) (unit : s.noticeAreas ⊆ areas) (pages : s.pageAreas ⊆ areas)
    (m : Word) {j left : Nat} (past : j = stall.val + left) (onward : 0 < left) :
    let R := L.setClock (.held m 0)
    ∃ x, stepForward m stall j u = .ok ⟨true, 0, left⟩ x
      ∧ Accrues s w (State.passMinutes left R).publishing x (ns ++ State.runNotices left R) areas ∧ PageShown x := by
  intro R
  have count : Fin.ofNat 16 (stall.val - j) = 0 := Fin.ext (by simp only [Fin.ofNat]; omega)
  have rest : j - stall.val = left := by omega
  obtain ⟨y, run, passed⟩ := (h.change (State.setClock_accrualwise (.held m 0))).boundaries unit left
  obtain ⟨x, published, last, shown⟩ := passed.publish pages
  refine ⟨x, ?_, last, shown⟩
  unfold stepForward
  rw [count, rest, Act.modify_bind, if_neg (by omega)]
  exact (Act.bind_ok run).trans ((Act.bind_ok published).trans rfl)

/-- A CLOCKSET while the clock is set: what was due is published, and the correction applied (R125, R129). -/
theorem Admits.corrects (h : Admits s k 11) (clock : s.clock = .held m stall) (given : (s.offered k).clockValue ≠ noWord)
    (pages : s.pageAreas ⊆ areas) (within : areas ⊆ s.pageAreas ++ s.noticeAreas) {a : ClockAnswer} {P : State → Prop}
    (ran : ∀ u, Accrues s (s.afterTake k) s.caughtUp u [] areas →
      ∃ x, correct m stall (s.offered k).clockValue u = .ok a x ∧ Accrues s (s.afterTake k) L x ns areas ∧ P x) :
    ∃ x t, exec .clockset s = .next t ∧ P x ∧ ClockPassed s L t ns ∧ ClockServed s x t k (clockAnswer s L a) areas := by
  obtain ⟨u, finished, begun⟩ := (h.offers.accrues.mono (List.nil_subset areas)).finish fun _ => pages
  have held : u.clock = .held m stall := by
    obtain ⟨-, same, -⟩ := begun.shows
    rw [same, State.caughtUp_held clock]
    exact clock
  obtain ⟨x, run, work, shown⟩ := ran u begun
  obtain ⟨t, done, passed, served⟩ := h.clockset given ((applyClock_held finished held _).trans run) work within
  exact ⟨x, t, done, shown, passed, served⟩

/-- The answer of a correction carried out or refused, by the clock it leaves (R125). -/
theorem clockAnswer_held (before : s.clock = .held m stall) {m' : Word} {n : Fin 16} (after : L.clock = .held m' n)
    (a : ClockAnswer) : clockAnswer s L a
      = ⟨if a.done then .ok else .clockBackward, wordOfBytes (clockCode (.held m' n)) n.val 0 0, m',
          if a.done then word a.gap else noWord, word a.boundaries, 0⟩ := by
  unfold clockAnswer State.clockSet
  rw [before, after]
  rfl

/-- What a CLOCKSET that moves no minute leaves of the part: what was due from the last boundary is published (R123, R130, R131). -/
def KeepsMinute (s t : State) (m : Word) : Prop :=
  t = { s with
    mem := t.mem
    lists := t.lists
    lastServed := t.lastServed
    clock := t.clock
    published := if s.publicationDue then m else s.published
    publicationDue := false
    causes := t.causes
    messages := t.messages
    lines := t.lines }

theorem ClockPassed.keepsMinute {clock : Clock} (held : s.clock = .held m stall)
    (h : ClockPassed s (s.caughtUp.setClock clock) t []) : t.clock = clock ∧ KeepsMinute s t m := by
  obtain ⟨-, own, -⟩ := h.shows
  have frame := h.silent
  rw [State.caughtUp_held held] at frame
  refine ⟨own, ?_⟩
  unfold KeepsMinute
  rw [own]
  exact frame

/-- What a CLOCKSET that moves the plant minute to `v` leaves of the part (R127, R130). -/
def MovesMinute (s t : State) (v : Word) : Prop :=
  t = { s with
    mem := t.mem
    lists := t.lists
    lastServed := t.lastServed
    zones := t.zones
    clock := .held v 0
    published := v
    publicationDue := false
    watch := t.watch
    dueQueue := t.dueQueue
    remaining := t.remaining
    written := t.written
    taken := t.taken
    heldNotices := t.heldNotices
    logFull := t.logFull
    noticesDropped := t.noticesDropped
    causes := t.causes
    messages := t.messages
    lines := t.lines }

theorem ClockPassed.movesMinute (h : ClockPassed s L t ns) (clock : L.clock = .held v 0) (published : L.published = v)
    (made : L.publicationDue = false) : MovesMinute s t v := by
  obtain ⟨zones, -, watch, dueQueue, remaining⟩ := h.shows
  have frame := h.frame
  rw [clock, published, made] at frame
  unfold MovesMinute
  rw [zones, watch, dueQueue, remaining]
  exact frame

/-- A CLOCKSET that leaves the clock as it stands, be it carried out or refused (R129). -/
theorem Admits.clockset_stands (h : Admits s k 11) (clock : s.clock = .held m stall)
    (given : (s.offered k).clockValue ≠ noWord) {a : ClockAnswer} (work : correct m stall (s.offered k).clockValue = pure a) :
    ∃ t, exec .clockset s = .next t ∧ KeepsMinute s t m ∧ t.clock = s.clock
      ∧ KeepsBytes s t (cellAreas (s.nextCell k) ++ [s.indexArea k] ++ s.pageAreas)
      ∧ Served s t k ⟨if a.done then .ok else .clockBackward, wordOfBytes (clockCode s.clock) stall.val 0 0, m,
        if a.done then word a.gap else noWord, word a.boundaries, 0⟩ := by
  have caught : s.caughtUp.clock = .held m stall := by
    rw [State.caughtUp_held clock]
    exact clock
  have same : s.caughtUp.setClock s.clock = s.caughtUp := by
    rw [State.caughtUp_held clock]
    rfl
  obtain ⟨x, t, done, -, passed, served⟩ := h.corrects (P := fun _ => True) (L := s.caughtUp) (a := a) (ns := []) clock given
    (fun _ hr => hr) (List.subset_append_left _ _) fun u begun => ⟨u, by rw [work]; rfl, begun, trivial⟩
  rw [← same] at passed
  obtain ⟨own, frame⟩ := passed.keepsMinute clock
  have answered := served.served
  rw [clockAnswer_held clock caught] at answered
  refine ⟨t, done, frame, own, served.bytes, ?_⟩
  rw [clock]
  exact answered

/-- A CLOCKSET that changes the stall count to `n` alone (R130, R131). -/
theorem Admits.clockset_restalls (h : Admits s k 11) (clock : s.clock = .held m stall)
    (given : (s.offered k).clockValue ≠ noWord) {n : Fin 16} (work : correct m stall (s.offered k).clockValue = (do
      (do modify fun t => t.setClock (.held m n)
          writeClockWords : Act Unit)
      pure clockDone : Act ClockAnswer)) :
    ∃ t, exec .clockset s = .next t ∧ KeepsMinute s t m ∧ t.clock = .held m n
      ∧ KeepsBytes s t (cellAreas (s.nextCell k) ++ [s.indexArea k] ++ s.pageAreas)
      ∧ t.peekWords (s.layout.controlPage + 12) 2
        = #v[wordOfBytes 2 (clockCode t.clock) n.val s.resetCauses.toNat, m]
      ∧ Served s t k ⟨.ok, wordOfBytes (clockCode t.clock) n.val 0 0, m, 0, 0, 0⟩ := by
  obtain ⟨x, t, done, words, passed, served⟩ := h.corrects (a := clockDone) clock given (fun _ hr => hr)
    (List.subset_append_left _ _) fun u begun => by
      obtain ⟨x, run, rest⟩ := begun.restall h.offers.service.running (fun _ hr => hr) m n
      exact ⟨x, by rw [work, Act.bind_ok run]; rfl, rest⟩
  obtain ⟨own, frame⟩ := passed.keepsMinute clock
  have answered := served.served
  rw [clockAnswer_held clock (n := n) rfl] at answered
  refine ⟨t, done, frame, own, served.bytes, ?_, ?_⟩
  · rw [served.words, words, own]
  · rw [own]
    exact answered

/-- The engine takes no cell while a stop is under way (R173). -/
theorem State.mayTakeCell_serving (h : s.mayTakeCell = true) : s.stopping = false := by
  unfold State.mayTakeCell State.mayWork at h
  simp only [Bool.and_eq_true, Bool.not_eq_true', decide_eq_true_eq] at h
  obtain ⟨⟨⟨⟨⟨-, serving⟩, -⟩, -⟩, -⟩, -⟩ := h
  exact serving

/-- A CLOCKSET that moves the minute by boundaries, with one publication (R130). -/
theorem Admits.clockset_runs (h : Admits s k 11) (clock : s.clock = .held m stall)
    (given : (s.offered k).clockValue ≠ noWord) {left : Nat} (onward : 0 < left)
    (ends : (s.offered k).clockValue = m + word left)
    (work : correct m stall (s.offered k).clockValue = stepForward m stall (stall.val + left)) :
    let w := State.passMinutes left (s.setClock (.held m 0))
    ∃ t, exec .clockset s = .next t ∧ MovesMinute s t (s.offered k).clockValue ∧ PageShown t
      ∧ KeepsBytes s t (cellAreas (s.nextCell k) ++ [s.indexArea k] ++ s.pageAreas ++ s.noticeAreas)
      ∧ t.zones = w.zones ∧ t.watch = w.watch ∧ t.dueQueue = w.dueQueue ∧ t.remaining = s.batch
      ∧ NoticesGo s t (State.runNotices left (s.setClock (.held m 0)))
      ∧ Served s t k ⟨.ok, 1, (s.offered k).clockValue, 0, word left, 0⟩ := by
  intro w
  have pages : s.pageAreas ⊆ s.pageAreas ++ s.noticeAreas := List.subset_append_left _ _
  obtain ⟨x, t, done, shown, passed, served⟩ := h.corrects (a := ⟨true, 0, left⟩) clock given pages (fun _ hr => hr)
    fun u begun => by
      obtain ⟨x, run, rest⟩ := begun.runForward (stall := stall) (List.subset_append_right _ _) pages m rfl onward
      exact ⟨x, by rw [work]; exact run, rest⟩
  let early := if s.publicationDue then m else s.published
  have begins : s.caughtUp.setClock (.held m 0) = (s.setClock (.held m 0)).withPages early false := by
    rw [State.caughtUp_held clock]
    rfl
  obtain ⟨states, notices⟩ := State.passMinutes_withPages left early false (s.setClock (.held m 0))
  have last : w.clock = .held (s.offered k).clockValue 0 := by
    rw [ends]
    exact State.passMinutes_clock left rfl
  have batch : w.remaining = s.batch := by
    obtain ⟨l, rfl⟩ : ∃ l, left = l + 1 := ⟨left - 1, by omega⟩
    have count := State.passMinutes_remaining (s := s.setClock (.held m 0)) (m := m) (stall := 0) l rfl
    have serving : (s.setClock (.held m 0)).stopping = false := State.mayTakeCell_serving (s := s) h.offers.free
    rwa [serving, if_neg Bool.false_ne_true] at count
  have run : State.passMinutes left (s.setClock (.held m 0)) = w := rfl
  clear_value w
  have published : (w.withPages early false).publishing = w.withPages (s.offered k).clockValue false :=
    State.publishing_held (s := w.withPages early false) (stall := 0) last
  rw [begins, states, run, published] at passed served
  rw [notices] at passed
  obtain ⟨zones, -, watch, dueQueue, remaining⟩ := passed.shows
  have answered := served.served
  rw [clockAnswer_held (L := w.withPages _ false) clock last] at answered
  have bytes := served.bytes
  rw [← List.append_assoc] at bytes
  exact ⟨t, done, passed.movesMinute last rfl rfl, served.shown shown, bytes, zones, watch, dueQueue, remaining.trans batch,
    passed.notices, answered⟩

/-- A CLOCKSET that charges the gap up to its value (R127, R130). -/
theorem Admits.clockset_leaps (h : Admits s k 11) (clock : s.clock = .held m stall)
    (given : (s.offered k).clockValue ≠ noWord) (far : 15 < clockStep m stall (s.offered k).clockValue) :
    let v := (s.offered k).clockValue
    let g := v.toNat - m.toNat
    ∃ t, exec .clockset s = .next t ∧ MovesMinute s t v ∧ PageShown t
      ∧ KeepsBytes s t (cellAreas (s.nextCell k) ++ [s.indexArea k] ++ s.pageAreas ++ s.noticeAreas)
      ∧ (∀ z : ZoneNo, t.zones[z] = s.zoneAfterGap g v z) ∧ t.remaining = 0
      ∧ (let w := { s with zones := t.zones }.examine s.zones
         t.watch = w.watch ∧ t.dueQueue = w.dueQueue)
      ∧ NoticesGo s t (s.gapNotices m v g stall.val) ∧ Served s t k ⟨.ok, 1, v, word g, 0, 0⟩ := by
  intro v g
  have pages : s.pageAreas ⊆ s.pageAreas ++ s.noticeAreas := List.subset_append_left _ _
  obtain ⟨x, t, done, shown, passed, served⟩ := h.corrects (a := ⟨true, g, 0⟩) clock given pages (fun _ hr => hr)
    fun u begun => by
      obtain ⟨x, run, rest⟩ := begun.gap (List.subset_append_right _ _) pages m v g stall.val
      exact ⟨x, by rw [correct_gap far]; exact (Act.bind_ok run).trans rfl, rest⟩
  rw [State.caughtUp_held clock] at passed served
  obtain ⟨zones, pool⟩ := passed.charged
  obtain ⟨-, -, -, -, remaining⟩ := passed.shows
  have answered := served.served
  rw [clockAnswer_held clock (m' := v) (n := 0) rfl] at answered
  have bytes := served.bytes
  rw [← List.append_assoc] at bytes
  exact ⟨t, done, passed.movesMinute rfl rfl rfl, served.shown shown, bytes, zones, remaining, pool, passed.notices, answered⟩

/-- Settles O41: by the step from the reckoned minute. -/
theorem clocksetCorrectsByTheStep : Obligations.ClocksetCorrectsByTheStep := by
  intro s k m stall h clock v d published areas still moved
  have step : clockStep m stall v = d := rfl
  refine ⟨h.clockset_none, fun given zero => ?zero, fun n given low one back => ?stall, fun given past near => ?run,
    fun given far => h.clockset_leaps clock given far, fun n given back count => ?back, fun given back far => ?refused⟩
  case zero => exact h.clockset_stands clock given (correct_same (step.trans zero))
  case stall =>
    have forward := correct_forward (m := m) (stall := stall) (v := v) (by omega) (by have := stall.isLt; omega)
    rw [stepForward_stalled (n := n) (by omega)] at forward
    exact h.clockset_restalls clock given forward
  case run =>
    intro left
    have forward := correct_forward (m := m) (stall := stall) (v := v) (by omega) (by omega)
    rw [show (clockStep m stall v).toNat = stall.val + left by omega] at forward
    refine h.clockset_runs clock given (show 0 < left by omega) ?_ forward
    have value : d = (v.toNat : Int) - ((m.toNat : Int) - stall.val) := rfl
    have low := v.isLt
    show v = m + word left
    apply BitVec.eq_of_toNat_eq
    unfold word
    rw [BitVec.toNat_add, BitVec.toNat_ofNat]
    omega
  case back =>
    have backward := correct_backward (m := m) (stall := stall) (v := v) back
    rw [if_pos (by have := n.isLt; omega), stepBack_stalled (n := n) (by omega)] at backward
    obtain ⟨t, done, frame, own, bytes, words, served⟩ := h.clockset_restalls clock given backward
    have stalled : clockCode t.clock = 2 := by
      rw [own]
      exact if_neg fun none => absurd (congrArg Fin.val none) (by simp only [Fin.val_zero]; omega)
    rw [stalled] at words served
    exact ⟨t, done, frame, own, bytes, words, served⟩
  case refused =>
    have backward := correct_backward (m := m) (stall := stall) (v := v) back
    rw [if_neg (by omega)] at backward
    exact h.clockset_stands clock given backward

/-! ### The minute timer (R122) -/

/-- An expiry finds the clock as what was due from the last boundary left it (R122, R123). -/
theorem minuteExpiry_held (finished : finishPublication u = .ok () x) (clock : x.clock = .held m stall) :
    minuteExpiry u = (if stall ≠ 0 then lowerStall m stall
      else if m.toNat < topMinute then do
        boundary
        modify State.owing
      else pure () : Act Unit) x := by
  unfold minuteExpiry
  rw [Act.bind_ok finished, Act.get_bind, clock]
  rfl

/-- What an expiry starts from once what was due is published. -/
theorem InService.expires (h : InService s) (clock : s.clock = .held m stall)
    (pages : s.publicationDue = true → s.pageAreas ⊆ areas) : ∃ u, finishPublication s = .ok () u
      ∧ Accrues s s s.caughtUp u [] areas ∧ u.clock = .held m stall := by
  obtain ⟨u, finished, begun⟩ := (h.accrues.mono (List.nil_subset areas)).finish pages
  obtain ⟨-, same, -⟩ := begun.shows
  refine ⟨u, finished, begun, ?_⟩
  rw [same, State.caughtUp_held clock]
  exact clock

/-- An expiry while UNSET is ignored (R122). -/
theorem minuteExpiry_unset (sound : s.failing = none) (unset : s.clock = .unset) (idle : s.publicationDue = false) :
    minuteExpiry s = .ok () s := by
  have finished := finishPublication_ok sound
  rw [if_neg (by rw [idle]; exact Bool.false_ne_true)] at finished
  unfold minuteExpiry
  rw [Act.bind_ok finished, Act.get_bind, unset]
  rfl

theorem lowerStall_stalled {n : Fin 16} (stalled : stall.val = n.val + 1) : lowerStall m stall = (do
    modify fun t => t.setClock (.held m n)
    writeClockWords : Act Unit) := by
  have count : Fin.ofNat 16 (stall.val - 1) = n := Fin.ext (by have := n.isLt; simp only [Fin.ofNat]; omega)
  unfold lowerStall
  rw [count]
  rfl

/-- The zones after a boundary (R34, R123). -/
theorem State.passMinute_zones (clock : s.clock = .held m stall) (z : ZoneNo) :
    s.passMinute.zones[z] = s.zones[z].boundary s.classes (m + 1).toNat := by
  rw [State.passMinute_held clock]
  show (Vector.ofFn _)[z.val] = _
  rw [Vector.getElem_ofFn]

/-- The climate state of a zone after a boundary is that of its check (R34, R64). -/
theorem Zone.boundary_climate (z : Zone) (classes : Vector ClassState 8) (minute : Nat) :
    (z.boundary classes minute).climate = (z.checkStale minute).climate := rfl

/-- The pool after a boundary, by the zones as it leaves them (R107, R123). -/
theorem State.passMinute_pool (clock : s.clock = .held m stall) :
    let w := { s with zones := s.passMinute.zones }.examine s.zones
    s.passMinute.watch = w.watch ∧ s.passMinute.dueQueue = w.dueQueue := by
  rw [State.passMinute_held clock]
  unfold State.advanceMinute
  generalize Vector.ofFn _ = advanced
  exact ⟨rfl, rfl⟩

/-- The ZONE_STALE notices of a boundary, by the zones as it leaves them (R65). -/
theorem State.minuteNotices_eq (clock : s.clock = .held m stall) : s.minuteNotices
    = ((List.finRange 64).filter fun z : ZoneNo =>
        decide (s.zones[z].climate = .current) && decide (s.passMinute.zones[z].climate = .stale)).map
      fun z => ⟨.zoneStale, z.val, m + 1, s.zones[z].lastSample, word s.zones[z].staleLimit.toNat⟩ := by
  rw [State.minuteNotices_held clock]
  refine staleNotices_eq (before := fun z => s.zones[z]) (after := fun z => s.passMinute.zones[z]) (fun _ => rfl) (fun z => ?_)
    fun _ => ⟨rfl, rfl⟩
  rw [State.passMinute_zones clock, Zone.boundary_climate]

theorem clockCode_held (m : Word) (n : Fin 16) : clockCode (.held m n) = if n.val = 0 then 1 else 2 :=
  ite_congr (propext Fin.ext_iff) (fun _ => rfl) fun _ => rfl

/-- An expiry that raises no notice changes the clock and the publication alone (R121, R122). -/
theorem Accrues.expired_silent (h : Accrues s s (s.caughtUp.setClock clock) u [] areas) (sound : s.failing = none)
    (held : s.clock = .held m stall) : u.drive = { s with
      mem := u.drive.mem
      clock := clock
      published := if s.publicationDue then m else s.published
      publicationDue := false
      lines := u.drive.lines } := by
  obtain ⟨passed, -, lists, lastServed⟩ := h.expired sound
  obtain ⟨causes, messages⟩ := h.quiet rfl
  have frame := passed.silent
  rw [lists, lastServed, State.drive_causes, causes, State.drive_messages, messages, State.caughtUp_held held] at frame
  exact frame

/-- Settles O43: by the clock the expiry finds. -/
theorem minuteExpiryMakesOneBoundary : Obligations.MinuteExpiryMakesOneBoundary := by
  intro s service published pages
  have sound := service.sound
  refine ⟨fun unset idle => conclude_ok (minuteExpiry_unset sound unset idle), fun m stall n clock stalled => ?stall,
    fun m clock top => ?top, fun m clock below => ?boundary⟩
  case stall =>
    obtain ⟨u, finished, begun, held⟩ := service.expires (areas := s.pageAreas) clock fun _ _ hr => hr
    obtain ⟨x, run, work, words⟩ := begun.restall service.running (fun _ hr => hr) m n
    have ran := minuteExpiry_held finished held
    rw [if_pos (fun none => absurd (congrArg Fin.val none) (by simp only [Fin.val_zero]; omega)), lowerStall_stalled stalled,
      run] at ran
    obtain ⟨passed, bytes, -⟩ := work.expired sound
    have frame := work.expired_silent sound clock
    obtain ⟨-, own, -⟩ := passed.shows
    rw [clockCode_held] at words
    refine ⟨x.drive, conclude_ok ran, own, bytes, words, ?_⟩
    rw [own]
    exact frame
  case top =>
    obtain ⟨u, finished, begun, held⟩ := service.expires (areas := pages) clock fun due _ hr => by
      rw [show pages = s.pageAreas from if_pos due]
      exact hr
    have ran := minuteExpiry_held finished held
    rw [if_neg (fun none => none rfl), if_neg (by unfold topMinute; omega)] at ran
    have same : s.caughtUp.setClock (.held m 0) = s.caughtUp := by
      rw [State.caughtUp_held clock, ← clock]
      rfl
    rw [← same] at begun
    obtain ⟨-, bytes, -⟩ := begun.expired sound
    have frame := begun.expired_silent sound clock
    rw [← clock] at frame
    exact ⟨u.drive, conclude_ok ran, bytes, frame⟩
  case boundary =>
    obtain ⟨u, finished, begun, held⟩ := service.expires (areas := pages ++ s.noticeAreas) clock fun due r hr => by
      rw [show pages = s.pageAreas from if_pos due]
      exact List.mem_append_left _ hr
    have ran := minuteExpiry_held finished held
    obtain ⟨x, run, work⟩ := begun.boundary (List.subset_append_right _ _)
    rw [if_neg (fun none => none rfl), if_pos (by unfold topMinute; omega), Act.bind_ok run, Act.modify_eq] at ran
    obtain ⟨passed, bytes, lists, lastServed⟩ := (work.change State.owing_accrualwise).expired sound
    have done := conclude_ok ran
    generalize x.owing.drive = t at *
    have passes : s.caughtUp.passMinute = s.passMinute.withPages (published m) false := by
      rw [State.caughtUp_held clock, State.passMinute_withPages]
    have notices : s.caughtUp.minuteNotices = s.minuteNotices := by
      rw [State.caughtUp_held clock, State.minuteNotices_withPages]
    rw [passes, notices, State.minuteNotices_eq clock] at passed
    obtain ⟨zones, -, watch, dueQueue, -⟩ := passed.shows
    change t.zones = s.passMinute.zones at zones
    change t.watch = s.passMinute.watch at watch
    change t.dueQueue = s.passMinute.dueQueue at dueQueue
    have pool := State.passMinute_pool clock
    have notices := passed.notices
    have frame := passed.frame
    have next : s.passMinute.clock = .held (m + 1) 0 := State.passMinute_clock clock
    have count : s.passMinute.remaining = if s.stopping then 0 else s.batch := State.passMinutes_remaining 0 clock
    rw [← zones] at pool notices
    rw [← watch, ← dueQueue] at pool
    refine ⟨t, done, fun z => ?zones, pool, notices, bytes, ?frame⟩
    case zones =>
      rw [zones, State.passMinute_zones clock, BitVec.toNat_add_of_lt (by simpa using (by omega : m.toNat + 1 < 2 ^ 32))]
      rfl
    case frame =>
      rw [lists, lastServed] at frame
      rw [zones, watch, dueQueue, ← next, ← count]
      exact frame

end

end Sys2Proof.Machine
end

-- ==== Proofs: the account cache kept sound ====
section
/-! What a fetch, a write-through, an attach and TUNE make of the cache's sets, and that every step keeps them sound (O57). -/

namespace Sys2Proof.Machine

/-! ### The ways of a set (R133) -/

theorem wayHolds_iff {o : Option Line} {tag : Nat} : wayHolds o tag = true ↔ ∃ l, o = some l ∧ l.tag = tag := by
  cases o <;> simp [wayHolds]

/-- No way holds an account that misses. -/
theorem CacheSet.wayOf_eq_none {cs : CacheSet} {n : Nat} :
    cs.wayOf n = none ↔ ∀ w : Fin 4, ¬ ∃ l, cs.ways[w] = some l ∧ l.tag = n / 64 := by
  unfold CacheSet.wayOf CacheSet.findWay
  rw [List.find?_eq_none]
  exact ⟨fun miss w holds => miss w (List.mem_finRange w) (wayHolds_iff.mpr holds),
    fun miss w _ holds => miss w (wayHolds_iff.mp holds)⟩

/-- A fill puts its line into the way it takes (R135). -/
theorem CacheSet.fill_way (cs : CacheSet) (n : Nat) (ws : Vector Word 16) (w : Fin 4) :
    (cs.fill n ws).ways[w] = if w = cs.fillWay then some ⟨tagOf n, ws⟩ else cs.ways[w] := by
  unfold CacheSet.fill
  simp only [CacheSet.use_ways, Fin.getElem_fin, Vector.getElem_set, Fin.ext_iff, eq_comm (a := w.val)]

@[simp] theorem CacheSet.invalid_way (w : Fin 4) : CacheSet.invalid.ways[w] = none := by
  simp [CacheSet.invalid]

/-! ### Sound sets -/

/-- What `CacheSound` asks of one set in a cache mode. -/
structure CacheSet.Sound (cs : CacheSet) (mode : CacheMode) : Prop where
  single : ∀ (v w : Fin 4) (x y : Line), cs.ways[v] = some x → cs.ways[w] = some y → x.tag = y.tag → v = w
  off : mode = .off → ∀ w : Fin 4, cs.ways[w] = none

theorem cacheSound_iff (s : State) : CacheSound s ↔ ∀ i : Fin 64, s.cacheSets[i].Sound s.cacheMode :=
  ⟨fun h i => ⟨h.single i, fun off => h.off off i⟩, fun h => ⟨fun i => (h i).single, fun off i => (h i).off off⟩⟩

theorem CacheSet.invalid_sound (mode : CacheMode) : CacheSet.invalid.Sound mode where
  single v w x y hx := by rw [CacheSet.invalid_way] at hx; cases hx
  off _ := CacheSet.invalid_way

/-- Whether a set is sound depends on the tags of its ways alone. -/
theorem CacheSet.Sound.of_tags {cs ds : CacheSet} {mode : CacheMode} (h : cs.Sound mode)
    (tags : ∀ w : Fin 4, ds.ways[w].map Line.tag = cs.ways[w].map Line.tag) : ds.Sound mode where
  single v w x y hx hy same := by
    have tx := tags v
    have ty := tags w
    rw [hx] at tx
    rw [hy] at ty
    obtain ⟨x', hx', ex⟩ := Option.map_eq_some_iff.mp tx.symm
    obtain ⟨y', hy', ey⟩ := Option.map_eq_some_iff.mp ty.symm
    exact h.single v w x' y' hx' hy' (ex.trans (same.trans ey.symm))
  off mode w := by
    have tag := tags w
    rw [h.off mode w] at tag
    exact Option.map_eq_none_iff.mp tag

theorem CacheSet.Sound.use {cs : CacheSet} {mode : CacheMode} (h : cs.Sound mode) (w : Fin 4) : (cs.use w).Sound mode :=
  h.of_tags fun _ => by rw [CacheSet.use_ways]

/-- A write-through keeps the tag of every line (R139). -/
theorem CacheSet.Sound.rewrite {cs : CacheSet} {mode : CacheMode} (h : cs.Sound mode) (n : Nat) (ws : Vector Word 16) :
    (cs.rewrite n ws).Sound mode := by
  refine h.of_tags fun w => ?_
  rw [cs.rewrite_way]
  split
  · next holds =>
    obtain ⟨l, line, tag⟩ := wayHolds_iff.mp holds
    rw [line, Option.map_some, Option.map_some, tag]
  · rfl

/-- A fill follows a miss, outside mode OFF: its line is then the only one of its account (R135, R140). -/
theorem CacheSet.Sound.fill {cs : CacheSet} {mode : CacheMode} {n : Nat} (h : cs.Sound mode) (miss : cs.wayOf n = none)
    (on : mode ≠ .off) (ws : Vector Word 16) : (cs.fill n ws).Sound mode where
  single v w x y hx hy same := by
    have other := CacheSet.wayOf_eq_none.mp miss
    rw [cs.fill_way] at hx hy
    split at hx
    · next new =>
      obtain rfl := Option.some.inj hx
      split at hy
      · next also => rw [new, also]
      · exact absurd ⟨y, hy, same.symm⟩ (other w)
    · split at hy
      · obtain rfl := Option.some.inj hy
        exact absurd ⟨x, hx, same⟩ (other v)
      · exact h.single v w x y hx hy same
  off mode := absurd mode on

/-! ### Changes of the cache -/

/-- The account cache: its sets and its mode. -/
def State.cache (s : State) : Vector CacheSet 64 × CacheMode := (s.cacheSets, s.cacheMode)

theorem CacheSound.of_cache {s t : State} (h : CacheSound s) (same : t.cache = s.cache) : CacheSound t := by
  obtain ⟨sets, mode⟩ := Prod.mk.inj same
  rw [cacheSound_iff, sets, mode]
  exact (cacheSound_iff s).mp h

/-- Every set invalid, in any mode (R140, R143, R175). -/
theorem CacheSound.of_invalid {s : State} (sets : s.cacheSets = Vector.replicate 64 CacheSet.invalid) : CacheSound s := by
  refine (cacheSound_iff s).mpr fun i => ?_
  have invalid : s.cacheSets[i] = CacheSet.invalid := by simp [sets]
  rw [invalid]
  exact CacheSet.invalid_sound _

theorem State.mapSet_own (s : State) (n : Nat) (f : CacheSet → CacheSet) :
    (s.mapSet n f).cacheSets[setOf n] = f s.cacheSets[setOf n] := Vector.getElem_set_self _

/-- One set changed to a sound one. -/
theorem CacheSound.mapSet {s : State} (h : CacheSound s) {n : Nat} {f : CacheSet → CacheSet}
    (hf : s.cacheSets[setOf n].Sound s.cacheMode → (f s.cacheSets[setOf n]).Sound s.cacheMode) :
    CacheSound (s.mapSet n f) := by
  have sets := (cacheSound_iff s).mp h
  refine (cacheSound_iff _).mpr fun i => ?_
  rw [s.mapSet_cacheMode]
  by_cases own : i = setOf n
  · rw [own, s.mapSet_own n f]
    exact hf (sets _)
  · rw [s.mapSet_keeps n f i own]
    exact sets i

/-- TUNE invalidates every line where it enters OFF (R140, R168). -/
theorem CacheSound.setCacheMode {s : State} (h : CacheSound s) (m : CacheMode) : CacheSound (s.setCacheMode m) := by
  unfold State.setCacheMode
  split
  · exact .of_invalid rfl
  · next on => exact ⟨h.single, fun off => absurd off on⟩

theorem CacheSound.tuned {s : State} (h : CacheSound s) (c : TakenCell) (maps : Vector AuthMap 8) :
    CacheSound (s.tuned c maps) := by
  unfold State.tuned
  cases cacheModeOf c.tuneMode with
  | none => exact h.of_cache rfl
  | some m => exact (h.setCacheMode m).of_cache rfl

/-! ### Changes beside the cache -/

theorem State.raiseCause_cache (s : State) (c : Cause) : (s.raiseCause c).cache = s.cache := by simp [State.cache]

/-- A change of the watch pool alone. -/
theorem State.cache_of_pool {s t : State} {watch : List WatchEntry} {dueQueue : List Nat} {unwatched : Nat}
    (h : t = { s with watch := watch, dueQueue := dueQueue, unwatched := unwatched }) : t.cache = s.cache := by
  rw [h]
  rfl

theorem State.removeEntry_cache (s : State) (n : Nat) : (s.removeEntry n).cache = s.cache :=
  State.cache_of_pool (s.removeEntry_frame n)

theorem State.watchAccount_cache (s : State) (n : Nat) (a : Account) : (s.watchAccount n a).cache = s.cache :=
  State.cache_of_pool (s.watchAccount_frame n a)

theorem State.unpooled_cache (s : State) (n : Nat) (a : Account) : (s.unpooled n a).cache = s.cache :=
  State.cache_of_pool (s.unpooled_frame n a)

theorem State.repooled_cache (s : State) (n : Nat) (a b : Account) : (s.repooled n a b).cache = s.cache :=
  State.cache_of_pool (s.repooled_frame n a b)

theorem State.noteBake_cache (s : State) (a b : Account) : (s.noteBake a b).cache = s.cache := by
  unfold State.noteBake
  split <;> rfl

theorem State.countAmend_cache (s : State) (a b : Account) : (s.countAmend a b).cache = s.cache := by
  have zone : (s.countExpired a b).cache = s.cache := by
    unfold State.countExpired
    split <;> rfl
  rw [s.countAmend_eq]
  split
  · exact zone
  · exact zone

theorem State.rewatch_cache (s : State) (e : WatchEntry) (a : Account) : (s.rewatch e a).cache = s.cache := by
  have removed := s.removeEntry_cache e.account
  unfold State.rewatch
  split
  · exact removed
  · exact removed

theorem State.patrolWatch_cache (s : State) (n : Nat) (a : Account) : (s.patrolWatch n a).cache = s.cache := by
  have tried := State.cache_of_pool (s.tryWatch_frame n a)
  unfold State.patrolWatch
  simp only
  split
  · exact tried
  · exact tried

theorem State.advanceMinute_cache (s : State) (m : Word) (stall : Fin 16) : (s.advanceMinute m stall).cache = s.cache := by
  simp [State.cache]

theorem State.cache_charged (s : State) (zones : Vector Zone 64) (clock : Clock) :
    { s with zones := zones, clock := clock, remaining := 0 }.cache = s.cache := rfl

theorem State.failAttach_cache (s : State) (code : AttachFail) : (s.failAttach code).cache = s.cache :=
  State.raiseCause_cache _ _

theorem State.endProgramming_cache (s : State) (defects : List NvDefect) : (s.endProgramming defects).cache = s.cache := by
  unfold State.endProgramming
  split
  · rfl
  · split <;> rfl

/-- Entry to FAULTED leaves the cache alone (R174). -/
theorem State.enterFaulted_cache (s : State) : s.enterFaulted.cache = s.cache := State.raiseCause_cache _ _

/-! ### Region accesses and the notice unit keep the cache sound -/

/-- A change beside the cache. -/
theorem modify_cacheSound {f : State → State} (h : ∀ s, (f s).cache = s.cache) : Act.Keeps CacheSound (modify f) :=
  Act.keeps_modify fun s hs => hs.of_cache (h s)

theorem regionRead_cacheSound (off n : Nat) : Act.Keeps CacheSound (regionRead off n) :=
  regionRead_keeps (fun _ _ h => h.of_cache rfl) off n

theorem regionWriteLanding_cacheSound (lands : Nat → Nat) (off : Nat) (ws : List Word) :
    Act.Keeps CacheSound (regionWriteLanding lands off ws) :=
  regionWriteLanding_keeps (fun _ _ h => h.of_cache rfl) (fun _ _ _ h => h.of_cache rfl) lands off ws

theorem regionWrite_cacheSound (off : Nat) (ws : List Word) : Act.Keeps CacheSound (regionWrite off ws) :=
  regionWriteLanding_cacheSound _ off ws

theorem regionWriteWhole_cacheSound (off : Nat) (ws : List Word) : Act.Keeps CacheSound (regionWriteWhole off ws) :=
  regionWriteLanding_cacheSound _ off ws

theorem landStores_cacheSound (stores : HostStores) : Act.Keeps CacheSound (landStores stores) :=
  modify_cacheSound fun _ => rfl

theorem writeNotice_cacheSound (n : Notice) (held : List Notice) : Act.Keeps CacheSound (writeNotice n held) :=
  Act.keeps_get_any fun _ => Act.keeps_bind (regionWrite_cacheSound _ _) fun _ =>
    Act.keeps_bind (modify_cacheSound fun _ => State.raiseCause_cache _ _) fun _ =>
      Act.keeps_get_any fun _ => regionWriteWhole_cacheSound _ _

theorem drain_cacheSound (k : Nat) : Act.Keeps CacheSound (drain k) := by
  induction k with
  | zero => exact Act.keeps_pure _
  | succ k ih =>
    refine Act.keeps_get_any fun s => Act.keeps_ite ?_ (Act.keeps_pure _)
    cases nextHeld s.heldNotices with
    | none => exact Act.keeps_pure _
    | some n => exact Act.keeps_bind (writeNotice_cacheSound _ _) fun _ => ih

theorem readTaken_cacheSound : Act.Keeps CacheSound readTaken :=
  Act.keeps_get_any fun _ => Act.keeps_bind (regionRead_cacheSound _ _) fun _ =>
    Act.keeps_bind (modify_cacheSound fun _ => rfl) fun _ => Act.keeps_get_any fun _ => drain_cacheSound _

theorem receiveNotice_cacheSound (n : Notice) : Act.Keeps CacheSound (receiveNotice n) := by
  have hold {f : State → State} (h : ∀ s, (f s).cache = s.cache) : Act.Keeps CacheSound (do modify f; readTaken; pure false) :=
    Act.keeps_bind (modify_cacheSound h) fun _ => Act.keeps_then_pure readTaken_cacheSound _
  refine Act.keeps_get_any fun s =>
    Act.keeps_ite (Act.keeps_ite ?logged ?read) (Act.keeps_ite ?merged (Act.keeps_ite ?held ?dropped))
  case logged => exact Act.keeps_then_pure (writeNotice_cacheSound _ _) _
  case read =>
    exact Act.keeps_bind readTaken_cacheSound fun _ => Act.keeps_get_any fun _ => Act.keeps_ite
      (Act.keeps_then_pure (writeNotice_cacheSound _ _) _) (Act.keeps_then_pure (modify_cacheSound fun _ => by rfl) _)
  case merged => exact hold fun _ => rfl
  case held => exact hold fun _ => rfl
  case dropped => exact Act.keeps_then_pure readTaken_cacheSound _

theorem handNotices_cacheSound (ns : List Notice) : Act.Keeps CacheSound (handNotices ns) := by
  induction ns with
  | nil => exact Act.keeps_pure _
  | cons n ns ih =>
    exact Act.keeps_bind (receiveNotice_cacheSound n) fun _ => Act.keeps_ite
      (Act.keeps_bind (modify_cacheSound fun _ => rfl) fun _ => Act.keeps_then_pure ih _) (Act.keeps_then_pure ih _)

theorem reportNotices_cacheSound (ns : List Notice) : Act.Keeps CacheSound (reportNotices ns) :=
  Act.keeps_then_pure (handNotices_cacheSound ns) _

/-! ### Fetches and write-throughs (R134 to R139) -/

theorem readUncached_cacheSound (n : Nat) : Act.Keeps CacheSound (readUncached n) :=
  Act.keeps_get_any fun _ => Act.keeps_then_pure (regionRead_cacheSound _ _) _

/-- A state whose cache is sound, allocates, and misses an account. -/
def MayFill (n : Nat) (s : State) : Prop := CacheSound s ∧ s.hitWay n = none ∧ s.cacheMode = .normal

theorem MayFill.fill {s : State} {n : Nat} (h : MayFill n s) (ws : Vector Word 16) :
    CacheSound (s.mapSet n fun cs => cs.fill n ws) := by
  obtain ⟨sound, miss, normal⟩ := h
  exact sound.mapSet fun set => set.fill miss (by rw [normal]; decide) ws

theorem regionRead_mayFill (account off n : Nat) : Act.Keeps (MayFill account) (regionRead off n) :=
  regionRead_keeps (fun _ _ ⟨sound, misses⟩ => ⟨sound.of_cache rfl, misses⟩) off n

/-- A fill is made in NORMAL alone, after a miss (R134, R135). -/
theorem fetchRecord_cacheSound (n : Nat) : Act.Keeps CacheSound (fetchRecord n) := by
  refine Act.keeps_get fun s _ => ?_
  cases hit : s.hitWay n with
  | some w =>
    obtain ⟨ws, line⟩ := State.cached_of_hitWay hit
    have uses : Act.Keeps CacheSound (modify fun s => s.mapSet n fun cs => cs.use w) :=
      Act.keeps_modify fun _ h => h.mapSet fun set => set.use w
    rw [line]
    exact Act.does_from (Act.keeps_then_pure uses _) fun _ h => h.2
  | none =>
    refine Act.does_ite (fun normal => ?_) fun _ => Act.does_from (readUncached_cacheSound n) fun _ h => h.2
    have reads : Act.Does (fun t => t = s ∧ CacheSound t) (regionRead (s.layout.record n) 16) (fun _ => MayFill n) CacheSound :=
      Act.does_weaken (regionRead_mayFill n _ _) (fun t ⟨same, sound⟩ => ⟨sound, same ▸ hit, same ▸ normal⟩)
        (fun _ _ h => h) fun _ h => h.1
    refine Act.does_bind reads fun ws => Act.does_ite (fun _ => Act.does_pure fun _ h => h.1) fun _ => ?_
    exact Act.does_bind (R := fun _ => CacheSound) (Act.does_modify fun _ h => h.fill ws) fun _ => Act.keeps_pure _

theorem patrolFetch_cacheSound (n : Nat) : Act.Keeps CacheSound (patrolFetch n) := by
  refine Act.keeps_get_any fun s => ?_
  cases s.cached n with
  | some ws => exact Act.keeps_pure _
  | none => exact readUncached_cacheSound n

theorem writeThrough_cacheSound (n : Nat) (a : Account) : Act.Keeps CacheSound (writeThrough n a) :=
  Act.keeps_bind (Act.keeps_modify fun _ h => h.mapSet fun set => set.rewrite n _) fun _ =>
    Act.keeps_get_any fun _ => Act.keeps_then_pure (regionWrite_cacheSound _ _) _

theorem markMissed_cacheSound (n : Nat) (dropped : Bool) : Act.Keeps CacheSound (markMissed n dropped) := by
  refine Act.keeps_ite (Act.keeps_bind (fetchRecord_cacheSound n) fun f => ?_) (Act.keeps_pure _)
  cases f with
  | corrupt => exact modify_cacheSound fun _ => rfl
  | malformed => exact modify_cacheSound fun _ => rfl
  | record a => exact Act.keeps_ite (Act.keeps_pure _) (Act.keeps_then_pure (writeThrough_cacheSound _ _) _)

theorem settleAccount_cacheSound (n : Nat) (a : Account) {counts : State → State} (h : ∀ s, (counts s).cache = s.cache)
    (ns : List Notice) : Act.Keeps CacheSound (settleAccount n a counts ns) :=
  Act.keeps_bind (writeThrough_cacheSound n a) fun _ => Act.keeps_bind (modify_cacheSound h) fun _ =>
    Act.keeps_then_pure (Act.keeps_bind (handNotices_cacheSound ns) fun _ => markMissed_cacheSound n _) _

/-! ### The kinds of cell -/

theorem onAccount_cacheSound (c : TakenCell) (compareTag : Bool) (zonesOf : Account → List Nat)
    {work : Nat → Account → Act Answer} (h : ∀ n a, Act.Keeps CacheSound (work n a)) :
    Act.Keeps CacheSound (onAccount c compareTag zonesOf work) := by
  refine Act.keeps_get_any fun s =>
    Act.keeps_ite (Act.keeps_pure _) (Act.keeps_bind (fetchRecord_cacheSound _) fun f => ?_)
  cases f with
  | corrupt => exact Act.keeps_then_pure (reportNotices_cacheSound _) _
  | malformed => exact Act.keeps_then_pure (reportNotices_cacheSound _) _
  | record a => exact Act.keeps_ite (Act.keeps_pure _) (Act.keeps_ite (Act.keeps_pure _) (h _ a))

theorem enrolAccount_cacheSound (c : TakenCell) (n : Nat) (a : Account) : Act.Keeps CacheSound (enrolAccount c n a) := by
  refine Act.keeps_get_any fun s => Act.keeps_ite (Act.keeps_pure _) (Act.keeps_ite (Act.keeps_pure _) ?_)
  simp only
  split
  · exact Act.keeps_pure _
  · exact Act.keeps_ite (Act.keeps_pure _) (Act.keeps_then_pure (settleAccount_cacheSound _ _ (fun _ => by rfl) _) _)

theorem openAccount_cacheSound (c : TakenCell) (n : Nat) (a : Account) : Act.Keeps CacheSound (openAccount c n a) :=
  Act.keeps_get_any fun _ => Act.keeps_ite (Act.keeps_pure _) (Act.keeps_ite (Act.keeps_pure _)
    (Act.keeps_bind (modify_cacheSound fun s => s.watchAccount_cache n _) fun _ =>
      Act.keeps_then_pure (settleAccount_cacheSound _ _ (fun _ => by rfl) _) _))

theorem moveAccount_cacheSound (c : TakenCell) (n : Nat) (a : Account) : Act.Keeps CacheSound (moveAccount c n a) := by
  refine Act.keeps_get_any fun s => ?_
  cases a.zone with
  | none => exact Act.keeps_pure _
  | some src =>
    exact Act.keeps_ite (Act.keeps_pure _) (Act.keeps_ite (Act.keeps_pure _)
      (Act.keeps_bind (modify_cacheSound fun s => s.repooled_cache n a _) fun _ =>
        Act.keeps_then_pure (settleAccount_cacheSound _ _ (fun _ => by rw [State.noteBake_cache]; rfl) _) _))

theorem bagAccount_cacheSound (n : Nat) (a : Account) : Act.Keeps CacheSound (bagAccount n a) := by
  refine Act.keeps_get_any fun s => ?_
  cases a.zone with
  | none => exact Act.keeps_pure _
  | some z =>
    exact Act.keeps_bind (modify_cacheSound fun s => s.unpooled_cache n a) fun _ =>
      Act.keeps_then_pure (settleAccount_cacheSound _ _ (fun _ => by rw [State.noteBake_cache]; rfl) _) _

theorem retireAccount_cacheSound (n : Nat) (a : Account) : Act.Keeps CacheSound (retireAccount n a) := by
  refine Act.keeps_get_any fun s => Act.keeps_ite (Act.keeps_pure _) ?_
  cases a.zone with
  | none => exact Act.keeps_then_pure (settleAccount_cacheSound _ _ (fun _ => by rfl) _) _
  | some z =>
    exact Act.keeps_bind (modify_cacheSound fun s => s.unpooled_cache n a) fun _ =>
      Act.keeps_then_pure (settleAccount_cacheSound _ _ (fun _ => by rfl) _) _

theorem amendAccount_cacheSound (c : TakenCell) (n : Nat) (a : Account) : Act.Keeps CacheSound (amendAccount c n a) := by
  refine Act.keeps_get_any fun s => ?_
  cases s.amendRefusal c a with
  | some r => exact Act.keeps_pure _
  | none =>
    have settles := settleAccount_cacheSound n (s.amended c n a).1 (counts := fun t => t.countAmend a (s.amended c n a).1)
      (fun t => t.countAmend_cache _ _) (s.amended c n a).2
    exact Act.keeps_ite
      (Act.keeps_bind (modify_cacheSound fun s => s.repooled_cache n a _) fun _ =>
        Act.keeps_then_pure settles _) (Act.keeps_then_pure settles _)

theorem queryAccount_cacheSound (n : Nat) (a : Account) : Act.Keeps CacheSound (queryAccount n a) :=
  Act.keeps_get_any fun _ => Act.keeps_ite (Act.keeps_pure _) (Act.keeps_pure _)

theorem climateWork_cacheSound (c : TakenCell) : Act.Keeps CacheSound (climateWork c) :=
  Act.keeps_get_any fun _ => Act.keeps_ite (Act.keeps_pure _)
    (Act.keeps_bind (modify_cacheSound fun _ => rfl) fun _ => Act.keeps_then_pure (reportNotices_cacheSound _) _)

theorem zonesetWork_cacheSound (c : TakenCell) : Act.Keeps CacheSound (zonesetWork c) :=
  Act.keeps_get_any fun _ => Act.keeps_ite (Act.keeps_pure _) (Act.keeps_ite (Act.keeps_pure _)
    (Act.keeps_ite (Act.keeps_pure _) (Act.keeps_then_pure (modify_cacheSound fun _ => by rfl) _)))

theorem tuneWork_cacheSound (c : TakenCell) : Act.Keeps CacheSound (tuneWork c) := by
  have applies (maps : Vector AuthMap 8) : Act.Keeps CacheSound (applyTune c maps) :=
    Act.keeps_bind (Act.keeps_modify fun _ h => h.tuned c maps) fun _ => Act.keeps_get_any fun _ => Act.keeps_pure _
  exact Act.keeps_get_any fun _ => Act.keeps_ite (Act.keeps_pure _) (Act.keeps_ite
    (Act.keeps_bind (regionRead_cacheSound _ _) fun _ => Act.keeps_ite (applies _) (Act.keeps_pure _)) (applies _))

theorem classwriteWork_cacheSound (c : TakenCell) : Act.Keeps CacheSound (classwriteWork c) := by
  refine Act.keeps_get_any fun s => Act.keeps_ite (Act.keeps_pure _) (Act.keeps_ite (Act.keeps_pure _)
    (Act.keeps_bind (regionRead_cacheSound _ _) fun image => Act.keeps_get_any fun t => ?_))
  simp only
  split
  · exact Act.keeps_pure _
  · exact Act.keeps_then_pure (modify_cacheSound fun _ => by rfl) _

/-! ### The intake (R162 to R166) -/

theorem inspect_cacheSound (k : ListNo) : Act.Keeps CacheSound (inspect k) :=
  Act.keeps_get_any fun _ => Act.keeps_ite (Act.keeps_pure _)
    (Act.keeps_bind (regionRead_cacheSound _ _) fun _ => modify_cacheSound fun _ => rfl)

theorem takeCell_cacheSound (k : ListNo) : Act.Keeps CacheSound (takeCell k) :=
  Act.keeps_get_any fun _ => Act.keeps_bind (regionRead_cacheSound _ _) fun _ =>
    Act.keeps_bind (regionWrite_cacheSound _ _) fun _ => Act.keeps_bind (modify_cacheSound fun _ => rfl) fun _ =>
      Act.keeps_get_any fun _ => Act.keeps_then_pure (regionWrite_cacheSound _ _) _

theorem completeCell_cacheSound (c : TakenCell) (a : Answer) : Act.Keeps CacheSound (completeCell c a) :=
  Act.keeps_get_any fun _ => Act.keeps_bind (regionWrite_cacheSound _ _) fun _ =>
    Act.keeps_bind (regionWrite_cacheSound _ _) fun _ => Act.keeps_bind (regionWriteWhole_cacheSound _ _) fun _ =>
      Act.keeps_bind (modify_cacheSound fun _ => rfl) fun _ => Act.keeps_ite
        (Act.keeps_bind (modify_cacheSound fun _ => State.raiseCause_cache _ _) fun _ => inspect_cacheSound _)
        (inspect_cacheSound _)

/-- The command of a kind of cell keeps the cache sound if its work does. -/
theorem serveCell_cacheSound {kinds : Nat → Bool} {work : TakenCell → Act (Option Answer)}
    (h : ∀ c, Act.Keeps CacheSound (work c)) : Act.Keeps CacheSound (serveCell kinds work) := by
  refine Act.keeps_get_any fun s => Act.keeps_ite ?_ (Act.keeps_pure _)
  cases s.chosenList with
  | none => exact Act.keeps_pure _
  | some k =>
    refine Act.keeps_ite (Act.keeps_bind (takeCell_cacheSound k) fun c => Act.keeps_get_any fun t => ?_) (Act.keeps_pure _)
    cases t.intakeRefusal c with
    | some r => exact completeCell_cacheSound c _
    | none =>
      refine Act.keeps_bind (h c) fun answer => ?_
      cases answer with
      | some a => exact completeCell_cacheSound c a
      | none => exact modify_cacheSound fun _ => rfl

theorem cellNoLongerPosted_cacheSound : Act.Keeps CacheSound cellNoLongerPosted := by
  refine Act.keeps_get_any fun s => Act.keeps_ite ?_ (Act.keeps_pure _)
  cases s.chosenList with
  | none => exact Act.keeps_pure _
  | some k =>
    exact Act.keeps_ite (Act.keeps_pure _)
      (Act.keeps_bind (regionRead_cacheSound _ _) fun _ => modify_cacheSound fun _ => rfl)

/-! ### Hand-overs and the patrol (R27, R28, R115 to R118) -/

theorem freeEngine_cacheSound : Act.Keeps CacheSound freeEngine := modify_cacheSound fun _ => rfl

theorem removeEntry_cacheSound (n : Nat) : Act.Keeps CacheSound (modify fun s => s.removeEntry n) :=
  modify_cacheSound fun s => s.removeEntry_cache n

theorem dropFaulty_cacheSound (e : WatchEntry) (what : Nat) : Act.Keeps CacheSound (dropFaulty e what) :=
  Act.keeps_bind (removeEntry_cacheSound _) fun _ => Act.keeps_get_any fun _ => reportNotices_cacheSound _

theorem giveWarning_cacheSound (e : WatchEntry) (a : Account) : Act.Keeps CacheSound (giveWarning e a) :=
  Act.keeps_get_any fun _ => Act.keeps_bind (modify_cacheSound fun s => s.rewatch_cache _ _) fun _ =>
    Act.keeps_ite (Act.keeps_pure _) (Act.keeps_then_pure (settleAccount_cacheSound _ _ (fun _ => by rfl) _) _)

theorem giveExpiry_cacheSound (e : WatchEntry) (a : Account) : Act.Keeps CacheSound (giveExpiry e a) :=
  Act.keeps_get_any fun _ => Act.keeps_bind (removeEntry_cacheSound _) fun _ =>
    Act.keeps_then_pure (settleAccount_cacheSound _ _ (fun _ => by rfl) _) _

theorem serveHandover_cacheSound {e : WatchEntry} {work : Fetched → Act Unit} (h : ∀ f, Act.Keeps CacheSound (work f)) :
    Act.Keeps CacheSound (serveHandover e work) :=
  Act.keeps_bind (modify_cacheSound fun _ => rfl) fun _ => Act.keeps_bind (fetchRecord_cacheSound _) fun f =>
    Act.keeps_bind (h f) fun _ => freeEngine_cacheSound

theorem serveWarning_cacheSound (e : WatchEntry) : Act.Keeps CacheSound (serveWarning e) := by
  rw [serveWarning_eq]
  refine serveHandover_cacheSound fun f => ?_
  cases f with
  | corrupt => exact dropFaulty_cacheSound e 1
  | malformed => exact dropFaulty_cacheSound e 2
  | record a => exact Act.keeps_ite (removeEntry_cacheSound _) (giveWarning_cacheSound e a)

theorem serveExpiry_cacheSound (e : WatchEntry) : Act.Keeps CacheSound (serveExpiry e) := by
  have faulty (what : Nat) : Act.Keeps CacheSound (expireFaulty e what) :=
    Act.keeps_bind (modify_cacheSound fun _ => rfl) fun _ => dropFaulty_cacheSound e what
  rw [serveExpiry_eq]
  refine serveHandover_cacheSound fun f => ?_
  cases f with
  | corrupt => exact faulty 1
  | malformed => exact faulty 2
  | record a => exact Act.keeps_ite (removeEntry_cacheSound _) (giveExpiry_cacheSound e a)

/-- A hand-over is served where one is presented (R10). -/
theorem handover_cacheSound {stage : Stage} {serve : WatchEntry → Act Unit} (h : ∀ e, Act.Keeps CacheSound (serve e)) :
    Act.Keeps CacheSound (do
      let s ← get
      match s.handoverAt stage with
      | some e => serve e
      | none => pure ()) := by
  refine Act.keeps_get_any fun s => ?_
  cases s.handoverAt stage with
  | none => exact Act.keeps_pure _
  | some e => exact h e

theorem patrolReadOne_cacheSound : Act.Keeps CacheSound patrolReadOne := by
  refine Act.keeps_get_any fun s => Act.keeps_ite (Act.keeps_bind (patrolFetch_cacheSound _) fun f =>
    Act.keeps_bind (modify_cacheSound fun _ => rfl) fun _ => Act.keeps_get_any fun t => ?_) (Act.keeps_pure _)
  cases f with
  | corrupt => exact reportNotices_cacheSound _
  | malformed => exact reportNotices_cacheSound _
  | record a => exact Act.keeps_ite (modify_cacheSound fun _ => rfl) (Act.keeps_pure _)

theorem patrolSettle_cacheSound (n : Nat) (z : ZoneNo) (a : Account) : Act.Keeps CacheSound (patrolSettle n z a) := by
  have watch (b : Account) : Act.Keeps CacheSound (modify fun s => s.patrolWatch n b) :=
    modify_cacheSound fun s => s.patrolWatch_cache n b
  refine Act.keeps_get_any fun s => Act.keeps_ite ?expiry (Act.keeps_ite ?warning (watch a))
  case expiry =>
    exact Act.keeps_get_any fun _ => Act.keeps_bind (modify_cacheSound fun _ => rfl) fun _ =>
      Act.keeps_then_pure (settleAccount_cacheSound _ _ (fun _ => by rfl) _) _
  case warning =>
    exact Act.keeps_get_any fun _ => Act.keeps_bind (watch _) fun _ =>
      Act.keeps_then_pure (settleAccount_cacheSound _ _ (fun _ => by rfl) _) _

theorem servePatrol_cacheSound (n : Nat) : Act.Keeps CacheSound (servePatrol n) := by
  have reports (ns : List Notice) : Act.Keeps CacheSound (do reportNotices ns; freeEngine) :=
    Act.keeps_bind (reportNotices_cacheSound ns) fun _ => freeEngine_cacheSound
  refine Act.keeps_bind (modify_cacheSound fun _ => rfl) fun _ => Act.keeps_bind (fetchRecord_cacheSound n) fun f =>
    Act.keeps_get_any fun t => ?_
  cases f with
  | corrupt => exact reports _
  | malformed => exact reports _
  | record a =>
    simp only
    cases a.zone with
    | none => exact freeEngine_cacheSound
    | some z =>
      exact Act.keeps_ite (Act.keeps_bind (patrolSettle_cacheSound n z a) fun _ => freeEngine_cacheSound)
        freeEngine_cacheSound

theorem patrolWork_cacheSound : Act.Keeps CacheSound patrolWork := by
  refine Act.keeps_get_any fun s => Act.keeps_ite ?_ (Act.keeps_pure _)
  cases s.heldAccount with
  | none => exact Act.keeps_pure _
  | some n => exact servePatrol_cacheSound n

/-! ### Publications, timers and the clock -/

theorem writeZonePage_cacheSound (zones : Vector Zone 64) (published : Word) :
    Act.Keeps CacheSound (writeZonePage zones published) :=
  Act.keeps_get_any fun _ => Act.keeps_bind (Act.keeps_forEach fun _ _ => regionWrite_cacheSound _ _) fun _ =>
    Act.keeps_bind (regionWrite_cacheSound _ _) fun _ => Act.keeps_bind (regionWrite_cacheSound _ _) fun _ =>
      regionWriteWhole_cacheSound _ _

theorem publish_cacheSound : Act.Keeps CacheSound publish :=
  Act.keeps_bind (modify_cacheSound fun _ => rfl) fun _ => Act.keeps_get_any fun _ =>
    Act.keeps_bind (writeZonePage_cacheSound _ _) fun _ => regionWrite_cacheSound _ _

theorem finishPublication_cacheSound : Act.Keeps CacheSound finishPublication :=
  Act.keeps_get_any fun _ => Act.keeps_ite publish_cacheSound (Act.keeps_pure _)

theorem writeClockWords_cacheSound : Act.Keeps CacheSound writeClockWords :=
  Act.keeps_get_any fun _ => Act.keeps_ite (regionWrite_cacheSound _ _) (Act.keeps_pure _)

theorem inspections_cacheSound (ks : List ListNo) : Act.Keeps CacheSound (do forEach ks inspect; readTaken) :=
  Act.keeps_bind (Act.keeps_forEach fun k _ => inspect_cacheSound k) fun _ => readTaken_cacheSound

theorem nudgeCommand_cacheSound (mask : BitVec 8) : Act.Keeps CacheSound (nudgeCommand mask) :=
  Act.keeps_get_any fun _ => Act.keeps_ite (inspections_cacheSound _) (Act.keeps_pure _)

theorem scanExpiry_cacheSound : Act.Keeps CacheSound scanExpiry :=
  Act.keeps_get_any fun _ => Act.keeps_ite (inspections_cacheSound _) (Act.keeps_pure _)

theorem boundary_cacheSound : Act.Keeps CacheSound boundary := by
  refine Act.keeps_get fun s hs => ?_
  cases s.clock with
  | unset => exact Act.does_pure fun _ h => h.2
  | held m stall =>
    exact Act.does_bind (R := fun _ => CacheSound)
      (Act.does_set fun _ _ => hs.of_cache (s.advanceMinute_cache m stall)) fun _ =>
        Act.keeps_bind (reportNotices_cacheSound _) fun _ =>
          Act.keeps_bind (modify_cacheSound fun _ => rfl) fun _ => modify_cacheSound fun _ => rfl

/-- The work stands as a variable `a`, so that Lean does not unfold its 64 zones where the lemma is applied. -/
theorem gapAccrual_cacheSound {start value : Word} {g cleared : Nat} {a : Act Unit} (ha : gapAccrual start value g cleared = a) :
    Act.Keeps CacheSound a := by
  rw [← ha]
  refine Act.keeps_get_any ?_
  intro s
  extract_lets charged
  clear_value charged
  exact Act.keeps_bind (modify_cacheSound fun t => t.cache_charged _ _) fun _ =>
    Act.keeps_bind (reportNotices_cacheSound _) fun _ => Act.keeps_bind (modify_cacheSound fun _ => rfl) fun _ =>
      Act.keeps_bind (reportNotices_cacheSound _) fun _ => publish_cacheSound

theorem setFromUnset_cacheSound (v : Word) : Act.Keeps CacheSound (setFromUnset v) := by
  refine Act.keeps_get_any fun s => ?_
  generalize ha : gapAccrual s.published v (v.toNat - s.published.toNat) 0 = a
  exact Act.keeps_ite
    (Act.keeps_bind (modify_cacheSound fun _ => rfl) fun _ => Act.keeps_then_pure publish_cacheSound _)
    (Act.keeps_ite (Act.keeps_pure _) (Act.keeps_then_pure (gapAccrual_cacheSound ha) _))

theorem stepForward_cacheSound (m : Word) (stall : Fin 16) (k : Nat) : Act.Keeps CacheSound (stepForward m stall k) :=
  Act.keeps_bind (modify_cacheSound fun _ => rfl) fun _ =>
    Act.keeps_ite (Act.keeps_then_pure writeClockWords_cacheSound _)
      (Act.keeps_bind (Act.keeps_repeatAct boundary_cacheSound _) fun _ => Act.keeps_then_pure publish_cacheSound _)

theorem stepBack_cacheSound (m : Word) (stall : Fin 16) (k : Nat) : Act.Keeps CacheSound (stepBack m stall k) :=
  Act.keeps_bind (modify_cacheSound fun _ => rfl) fun _ => Act.keeps_then_pure writeClockWords_cacheSound _

theorem correct_cacheSound (m : Word) (stall : Fin 16) (v : Word) : Act.Keeps CacheSound (correct m stall v) := by
  unfold correct
  simp only
  generalize ha : gapAccrual m v (v.toNat - m.toNat) stall.val = a
  exact Act.keeps_ite (Act.keeps_pure _) (Act.keeps_ite (stepForward_cacheSound _ _ _)
    (Act.keeps_ite (Act.keeps_then_pure (gapAccrual_cacheSound ha) _)
      (Act.keeps_ite (stepBack_cacheSound _ _ _) (Act.keeps_pure _))))

theorem clocksetWork_cacheSound (c : TakenCell) : Act.Keeps CacheSound (clocksetWork c) := by
  have applies (v : Word) : Act.Keeps CacheSound (applyClock v) := by
    refine Act.keeps_bind finishPublication_cacheSound fun _ => Act.keeps_get_any fun s => ?_
    cases s.clock with
    | unset => exact setFromUnset_cacheSound v
    | held m stall => exact correct_cacheSound m stall v
  exact Act.keeps_get_any fun _ => Act.keeps_ite (Act.keeps_pure _)
    (Act.keeps_bind (applies _) fun _ => Act.keeps_get_any fun _ => Act.keeps_pure _)

theorem minuteExpiry_cacheSound : Act.Keeps CacheSound minuteExpiry := by
  refine Act.keeps_bind finishPublication_cacheSound fun _ => Act.keeps_get_any fun s => ?_
  cases s.clock with
  | unset => exact Act.keeps_pure _
  | held m stall =>
    exact Act.keeps_ite (Act.keeps_bind (modify_cacheSound fun _ => rfl) fun _ => writeClockWords_cacheSound)
      (Act.keeps_ite (Act.keeps_bind boundary_cacheSound fun _ => modify_cacheSound fun _ => rfl) (Act.keeps_pure _))

/-! ### Attachment (R143, R170 to R172) -/

theorem walkRecord_cacheSound (n : Nat) (a : Account) : Act.Keeps CacheSound (walkRecord n a) := by
  refine Act.keeps_ite (Act.keeps_pure _) (Act.keeps_bind (modify_cacheSound fun _ => rfl) fun _ => ?_)
  cases a.zone with
  | none => exact Act.keeps_pure _
  | some z =>
    exact Act.keeps_get_any fun s => Act.keeps_ite
      (Act.keeps_then_pure (modify_cacheSound fun t =>
        (t.countZone z 1 a.expiredCount).watchAccount_cache n a) _)
      (Act.keeps_then_pure (reportNotices_cacheSound _) _)

theorem walkAccount_cacheSound (n : Nat) : Act.Keeps CacheSound (walkAccount n) := by
  refine Act.keeps_bind (readUncached_cacheSound n) fun f => Act.keeps_get_any fun s => ?_
  cases f with
  | corrupt => exact Act.keeps_then_pure (reportNotices_cacheSound _) _
  | malformed => exact Act.keeps_then_pure (reportNotices_cacheSound _) _
  | record a => exact walkRecord_cacheSound n a

theorem walkCell_cacheSound (k : ListNo) (i : Nat) : Act.Keeps CacheSound (walkCell k i) := by
  refine Act.keeps_get_any fun s => Act.keeps_bind (regionRead_cacheSound _ _) fun w0 =>
    Act.keeps_ite (Act.keeps_bind (regionRead_cacheSound _ _) fun w1 => Act.keeps_bind (regionWrite_cacheSound _ _) fun _ =>
      Act.keeps_bind (regionWrite_cacheSound _ _) fun _ => Act.keeps_bind (regionWriteWhole_cacheSound _ _) fun _ => ?_)
      (Act.keeps_pure _)
  exact Act.keeps_ite (Act.keeps_then_pure (modify_cacheSound fun _ => State.raiseCause_cache _ _) _) (Act.keeps_pure _)

theorem walkCells_cacheSound : Act.Keeps CacheSound walkCells :=
  Act.keeps_get_any fun _ => Act.keeps_sumOver fun k _ => Act.keeps_sumOver fun i _ => walkCell_cacheSound k i

theorem endAttach_cacheSound (fresh : Bool) (abandoned faulty : Nat) : Act.Keeps CacheSound (endAttach fresh abandoned faulty) :=
  Act.keeps_get_any fun _ => Act.keeps_bind (reportNotices_cacheSound _) fun _ =>
    Act.keeps_bind (modify_cacheSound fun _ => rfl) fun _ => Act.keeps_get_any fun _ =>
      Act.keeps_bind (regionWrite_cacheSound _ _) fun _ => modify_cacheSound fun _ => State.raiseCause_cache _ _

theorem finishAttach_cacheSound (b : LayoutBlock) : Act.Keeps CacheSound (finishAttach b) :=
  Act.keeps_bind (modify_cacheSound fun _ => rfl) fun _ =>
    Act.keeps_bind (Act.keeps_sumOver fun n _ => walkAccount_cacheSound n) fun _ =>
      Act.keeps_bind walkCells_cacheSound fun _ => endAttach_cacheSound _ _ _

theorem attachFresh_cacheSound (capacity : Nat) (flag : Word) : Act.Keeps CacheSound (attachFresh capacity flag) :=
  Act.keeps_bind (modify_cacheSound fun _ => rfl) fun _ => Act.keeps_get_any fun _ =>
    Act.keeps_bind (writeZonePage_cacheSound _ _) fun _ => Act.keeps_get_any fun _ =>
      Act.keeps_bind (regionWrite_cacheSound _ _) fun _ => regionWrite_cacheSound _ _

theorem readEntries_cacheSound (zs : List (Fin 64)) : ∀ v, Act.Keeps CacheSound (readEntries zs v) := by
  induction zs with
  | nil => exact fun _ => Act.keeps_pure _
  | cons z zs ih => exact fun v => Act.keeps_get_any fun _ => Act.keeps_bind (regionRead_cacheSound _ _) fun _ => ih _

theorem attachLoaded_cacheSound (capacity : Nat) : Act.Keeps CacheSound (attachLoaded capacity) := by
  refine Act.keeps_get_any fun _ => Act.keeps_bind (regionRead_cacheSound _ _) fun header =>
    Act.keeps_bind (readEntries_cacheSound _ _) fun entries => ?_
  cases zonesOfPage header entries with
  | none => exact Act.keeps_then_pure (modify_cacheSound fun _ => State.failAttach_cache _ _) _
  | some zones =>
    exact Act.keeps_bind (modify_cacheSound fun _ => rfl) fun _ => Act.keeps_bind (regionRead_cacheSound _ _) fun _ =>
      Act.keeps_then_pure (modify_cacheSound fun _ => by rfl) _

/-- A START in IDLE invalidates every line before the attach, which leaves the cache alone (R143, R169). -/
theorem startCommand_cacheSound : Act.Keeps CacheSound startCommand :=
  Act.keeps_get_any fun _ => Act.keeps_ite (Act.keeps_bind (Act.keeps_modify fun _ _ => .of_invalid rfl) fun _ =>
    Act.keeps_bind (regionRead_cacheSound _ _) fun _ => Act.keeps_ite
      (Act.keeps_bind (modify_cacheSound fun _ => rfl) fun _ => Act.keeps_ite
        (Act.keeps_bind (attachFresh_cacheSound _ _) fun _ => finishAttach_cacheSound _)
        (Act.keeps_bind (attachLoaded_cacheSound _) fun _ => Act.keeps_ite (finishAttach_cacheSound _) (Act.keeps_pure _)))
      (modify_cacheSound fun _ => State.failAttach_cache _ _)) (Act.keeps_pure _)

/-! ### Registers, stops and the class store -/

/-- A reset invalidates every line (R175). -/
theorem reset_cacheSound (causes : State → BitVec 3) : Act.Keeps CacheSound (modify fun t => t.resetWith (causes t)) :=
  Act.keeps_modify fun _ _ => .of_invalid rfl

theorem storeEnables_cacheSound (enables : BitVec 5) : Act.Keeps CacheSound (storeEnables enables) :=
  modify_cacheSound fun _ => rfl

theorem stopCommand_cacheSound : Act.Keeps CacheSound stopCommand := modify_cacheSound fun _ => by split <;> rfl

theorem writeRegister_cacheSound (reg : RegName) (value : Word) : Act.Keeps CacheSound (writeRegister reg value) := by
  cases reg with
  | id => exact Act.keeps_pure _
  | baseLo => exact modify_cacheSound fun _ => by split <;> rfl
  | baseHi => exact modify_cacheSound fun _ => by split <;> rfl
  | control =>
    exact Act.keeps_ite (reset_cacheSound _) (Act.keeps_bind (storeEnables_cacheSound _) fun _ =>
      Act.keeps_ite startCommand_cacheSound (Act.keeps_ite stopCommand_cacheSound (Act.keeps_pure _)))

theorem stopCompletion_cacheSound : Act.Keeps CacheSound stopCompletion :=
  Act.keeps_get_any fun _ => Act.keeps_ite
    (Act.keeps_bind readTaken_cacheSound fun _ => Act.keeps_bind (modify_cacheSound fun _ => rfl) fun _ =>
      Act.keeps_bind publish_cacheSound fun _ => Act.keeps_get_any fun _ =>
        Act.keeps_bind (regionWriteWhole_cacheSound _ _) fun _ => Act.keeps_bind (modify_cacheSound fun _ => rfl) fun _ =>
          Act.keeps_get_any fun _ => Act.keeps_bind (regionWrite_cacheSound _ _) fun _ => modify_cacheSound fun _ => rfl)
    (Act.keeps_pure _)

theorem failAccess_cacheSound (after written : Nat) : Act.Keeps CacheSound (failAccess after written) := by
  intro s hs
  cases after with
  | zero => by_cases attached : s.attached = true <;> simpa [failAccess, attached] using hs
  | succ n =>
    by_cases faulted : s.engineState = .faulted
    · simpa [failAccess, faulted] using hs
    · simp only [failAccess, if_neg faulted]
      exact hs.of_cache rfl

theorem applyCompletion_cacheSound (p : Programming) (success : Bool) : Act.Keeps CacheSound (applyCompletion p success) := by
  have ends (running : Prop) [Decidable running] (ns : List Notice) (a : Answer) :
      Act.Keeps CacheSound (if running then do reportNotices ns; completeCell p.cell a else pure ()) :=
    Act.keeps_ite (Act.keeps_bind (reportNotices_cacheSound _) fun _ => completeCell_cacheSound _ _) (Act.keeps_pure _)
  have applied (s : State) : (s.applied p success).cache = s.cache := by
    rw [s.applied_frame]
    rfl
  refine Act.keeps_get fun s hs => ?_
  have after : CacheSound (s.applied p success) := hs.of_cache (applied s)
  cases success <;>
    exact Act.does_bind (R := fun _ => CacheSound) (Act.does_set fun _ _ => after) fun _ => ends _ _ _

theorem classCompletion_cacheSound : Act.Keeps CacheSound classCompletion := by
  refine Act.keeps_get_any fun s => ?_
  cases s.prog with
  | none => exact Act.keeps_pure _
  | some p =>
    simp only
    cases p.ended with
    | none => exact Act.keeps_pure _
    | some success => exact Act.keeps_ite (applyCompletion_cacheSound p success) (Act.keeps_pure _)

/-! ### Every command -/

/-- A command keeps the cache sound if its work does: driving the lines and entering FAULTED leave the cache alone (R174). -/
theorem conclude_cacheSound {a : Act Unit} {s t : State} (ran : conclude a s = .next t) (hs : CacheSound s)
    (h : Act.Keeps CacheSound a) : CacheSound t := by
  cases ran
  exact State.after_keeps h (fun _ hu => hu.of_cache rfl) (fun u hu => hu.of_cache u.enterFaulted_cache) hs

/-- Every command keeps the cache sound. -/
theorem exec_cacheSound (c : Instr) {s t : State} (hs : CacheSound s) (ran : exec c s = .next t) : CacheSound t := by
  have cell {kinds : Nat → Bool} {work : TakenCell → Act (Option Answer)} (ran : conclude (serveCell kinds work) s = .next t)
      (h : ∀ c, Act.Keeps CacheSound (work c)) : CacheSound t := conclude_cacheSound ran hs (serveCell_cacheSound h)
  have account {kinds : Nat → Bool} {compareTag : Bool} {zonesOf : TakenCell → Account → List Nat}
      {work : TakenCell → Nat → Account → Act Answer}
      (ran : conclude (serveCell kinds fun c => do
        let r ← onAccount c compareTag (zonesOf c) (work c)
        pure (some r)) s = .next t)
      (h : ∀ c n a, Act.Keeps CacheSound (work c n a)) : CacheSound t :=
    cell ran fun c => Act.keeps_then_pure (onAccount_cacheSound c _ _ (h c)) _
  have host {stores : HostStores} {a : Act Unit} (ran : conclude (do landStores stores; a) s = .next t)
      (h : Act.Keeps CacheSound a) : CacheSound t :=
    conclude_cacheSound ran hs (Act.keeps_bind (landStores_cacheSound stores) fun _ => h)
  cases c with
  | powerOnReset => exact conclude_cacheSound ran hs (reset_cacheSound _)
  | pinReset => exact conclude_cacheSound ran hs (reset_cacheSound _)
  | softReset stores => exact host ran (reset_cacheSound _)
  | start stores enables =>
    exact host ran (Act.keeps_bind (storeEnables_cacheSound enables) fun _ => startCommand_cacheSound)
  | stop stores enables =>
    exact host ran (Act.keeps_bind (storeEnables_cacheSound enables) fun _ => stopCommand_cacheSound)
  | stopCompletion => exact conclude_cacheSound ran hs stopCompletion_cacheSound
  | registerWrite stores reg value => exact host ran (writeRegister_cacheSound reg value)
  | statusWrite stores value => exact host ran (modify_cacheSound fun _ => rfl)
  | nudge stores mask => exact host ran (nudgeCommand_cacheSound mask)
  | intakeScanTimerExpiry => exact conclude_cacheSound ran hs scanExpiry_cacheSound
  | minuteTimerExpiry => exact conclude_cacheSound ran hs minuteExpiry_cacheSound
  | zonePagePublication => exact conclude_cacheSound ran hs finishPublication_cacheSound
  | enrol => exact account ran enrolAccount_cacheSound
  | openInto => exact account ran openAccount_cacheSound
  | move => exact account ran moveAccount_cacheSound
  | bag => exact account ran fun _ => bagAccount_cacheSound
  | retire => exact account ran fun _ => retireAccount_cacheSound
  | amend => exact account ran amendAccount_cacheSound
  | query => exact account ran fun _ => queryAccount_cacheSound
  | climate => exact cell ran climateWork_cacheSound
  | zoneset => exact cell ran zonesetWork_cacheSound
  | classwrite => exact cell ran classwriteWork_cacheSound
  | clockset => exact cell ran clocksetWork_cacheSound
  | tune => exact cell ran tuneWork_cacheSound
  | unknownKind => exact cell ran fun _ => Act.keeps_pure _
  | classProgrammingEnd defects => exact conclude_cacheSound ran hs (modify_cacheSound fun u => u.endProgramming_cache defects)
  | classCompletion => exact conclude_cacheSound ran hs classCompletion_cacheSound
  | warningHandover => exact conclude_cacheSound ran hs (handover_cacheSound serveWarning_cacheSound)
  | expiryHandover => exact conclude_cacheSound ran hs (handover_cacheSound serveExpiry_cacheSound)
  | patrolRead => exact conclude_cacheSound ran hs patrolReadOne_cacheSound
  | patrolWork => exact conclude_cacheSound ran hs patrolWork_cacheSound
  | regionAccessFailure after written => exact conclude_cacheSound ran hs (failAccess_cacheSound after written)
  | cellNoLongerPosted => exact conclude_cacheSound ran hs cellNoLongerPosted_cacheSound

/-- Settles O57: the case of an empty queue, and every command by what its work keeps. -/
theorem everyStepKeepsTheCacheSound : Obligations.EveryStepKeepsTheCacheSound := by
  intro s t h ran
  unfold step at ran
  cases front : s.pending with
  | nil =>
    rw [front] at ran
    cases ran
    exact h
  | cons c rest =>
    rw [front] at ran
    exact exec_cacheSound c (s := { s with pending := rest }) (h.of_cache rfl) ran

end Sys2Proof.Machine
end

-- ==== Proofs: the replacement order, lookups and write-throughs ====
section
/-! The replacement order of a set, and what a lookup and a write-through do in each case (O51, O52). -/

namespace Sys2Proof.Machine

/-! ### The replacement order (R136) -/

theorem CacheSet.victim_eq (cs : CacheSet) :
    cs.victim = (if cs.pairBit = false then (if cs.bit01 = false then 0 else 1) else if cs.bit23 = false then 2 else 3) := by
  unfold CacheSet.victim
  cases cs.pairBit <;> cases cs.bit01 <;> cases cs.bit23 <;> rfl

/-- The pair bit names the pair of the victim. -/
theorem CacheSet.victim_pair (cs : CacheSet) : cs.victim.val / 2 = cs.pairBit.toNat := by
  rw [cs.victim_eq]
  cases cs.pairBit with
  | false => cases cs.bit01 <;> simp
  | true => cases cs.bit23 <;> simp

/-- A use makes the pair bit name the other pair. -/
theorem CacheSet.use_pairBit (cs : CacheSet) (w : Fin 4) : (cs.use w).pairBit = decide (w.val / 2 = 0) := by
  match w with
  | 0 => rfl
  | 1 => rfl
  | 2 => rfl
  | 3 => rfl

theorem CacheSet.victim_use_pair (cs : CacheSet) (w : Fin 4) : (cs.use w).victim.val / 2 ≠ w.val / 2 := by
  rw [CacheSet.victim_pair, CacheSet.use_pairBit]
  by_cases low : w.val / 2 = 0
  · simp [low]
  · rw [decide_eq_false low]
    exact fun same => low same.symm

theorem CacheSet.findWay_eq (cs : CacheSet) (p : Option Line → Bool) : cs.findWay p = Fin.find? fun w => p cs.ways[w] :=
  Fin.find?_eq_find?_finRange.symm

/-- A fill takes the lowest invalid way, and the victim where every way is valid (R135). -/
theorem CacheSet.fillWay_spec {cs : CacheSet} {w : Fin 4} (takes : cs.fillWay = w) :
    (∀ v : Fin 4, v < w → cs.ways[v] ≠ none ∨ ∀ u : Fin 4, cs.ways[u] ≠ none)
      ∧ (cs.ways[w] = none ∨ (w = cs.victim ∧ ∀ u : Fin 4, cs.ways[u] ≠ none)) := by
  unfold CacheSet.fillWay at takes
  cases found : cs.findWay Option.isNone with
  | none =>
    rw [found] at takes
    rw [cs.findWay_eq, Fin.find?_eq_none_iff] at found
    have valid (u : Fin 4) : cs.ways[u] ≠ none := fun invalid => by simpa [invalid] using found u
    exact ⟨fun _ _ => .inr valid, .inr ⟨takes.symm, valid⟩⟩
  | some lowest =>
    rw [found] at takes
    obtain rfl : lowest = w := takes
    rw [cs.findWay_eq, Fin.find?_eq_some_iff] at found
    obtain ⟨invalid, lower⟩ := found
    exact ⟨fun v less => .inl fun unused => by simpa [unused] using lower v less, .inl (Option.isNone_iff_eq_none.mp invalid)⟩

/-! ### Lookups (R133 to R138) -/

/-- The one way that holds an account is the way a lookup finds. -/
theorem CacheSet.wayOf_eq_some {cs : CacheSet} {n : Nat} {w : Fin 4} {l : Line} (line : cs.ways[w] = some l)
    (tag : l.tag = n / 64) (only : ∀ (v : Fin 4) (x : Line), cs.ways[v] = some x → x.tag = n / 64 → v = w) :
    cs.wayOf n = some w := by
  unfold CacheSet.wayOf
  rw [cs.findWay_eq, Fin.find?_eq_some_iff]
  refine ⟨wayHolds_iff.mpr ⟨l, line, tag⟩, fun v less => Bool.eq_false_iff.mpr fun holds => ?_⟩
  obtain ⟨x, other, same⟩ := wayHolds_iff.mp holds
  exact absurd (only v x other same) (Fin.ne_of_lt less)

section
variable {s : State} {n : Nat}

theorem State.cached_hit {w : Fin 4} {l : Line} (hit : s.hitWay n = some w) (line : s.cacheSets[setOf n].ways[w] = some l) :
    s.cached n = some l.words := by
  unfold State.cached
  rw [hit]
  exact congrArg (Option.map Line.words) line

/-- A hit makes no access of the region (R134, R137). -/
theorem fetchRecord_hit {w : Fin 4} {l : Line} (hit : s.hitWay n = some w) (line : s.cacheSets[setOf n].ways[w] = some l) :
    fetchRecord n s = .ok (judge l.words) (s.mapSet n fun cs => cs.use w) := by
  unfold fetchRecord
  rw [Act.get_bind, State.cached_hit hit line, hit]
  rfl

theorem patrolFetch_hit {w : Fin 4} {l : Line} (hit : s.hitWay n = some w) (line : s.cacheSets[setOf n].ways[w] = some l) :
    patrolFetch n s = .ok (judge l.words) s := by
  unfold patrolFetch
  rw [Act.get_bind, State.cached_hit hit line]
  rfl

theorem State.fetched_miss (miss : s.hitWay n = none) : s.fetched n =
    if isCorrupt (s.peekWords (s.layout.record n) 16) then .corrupt else judge (s.peekWords (s.layout.record n) 16) := by
  unfold State.fetched State.cached
  rw [miss]

/-- A miss that is not filled answers the table's record and changes nothing (R134, R135). -/
theorem fetchRecord_unfilled (sound : s.failing = none) (miss : s.hitWay n = none)
    (unfilled : ¬ (s.cacheMode = .normal ∧ isCorrupt (s.peekWords (s.layout.record n) 16) = false)) :
    fetchRecord n s = .ok (s.fetched n) s := by
  rw [fetchRecord_ok sound]
  unfold State.setAfterFetch
  rw [miss]
  simp only [if_neg unfilled, s.mapSet_self]

/-- A miss in NORMAL on a record that passes fills the set (R135). -/
theorem fetchRecord_filled (sound : s.failing = none) (miss : s.hitWay n = none) (normal : s.cacheMode = .normal)
    (passes : isCorrupt (s.peekWords (s.layout.record n) 16) = false) : fetchRecord n s
      = .ok (s.fetched n) (s.mapSet n fun cs => cs.fill n (s.peekWords (s.layout.record n) 16)) := by
  rw [fetchRecord_ok sound]
  unfold State.setAfterFetch
  rw [miss]
  simp only [normal, passes, and_self, ↓reduceIte]
  rfl

end

/-! ### The check word of a record (R2) -/

theorem recordCheck_eq (ws : Vector Word 16) :
    recordCheck ws = ~~~ ((List.finRange 15).map fun i => (ws[i.val]'(by omega)).rotateLeft i.val).sum := by
  have length : (ws.toList.take 15).length = 15 := by simp
  unfold recordCheck checkWord
  rw [rotatedSum_eq_sum, length, ← List.map_coe_finRange_eq_range, List.map_map]
  refine congrArg (fun words : List Word => ~~~ words.sum) (List.map_congr_left fun i _ => ?_)
  have index : (0 + i.val) % 32 = i.val := by omega
  have word : (ws.toList.take 15).getD i.val 0 = ws[i.val] := by simp
  simp only [Function.comp_apply, index, word]

theorem isBlank_eq_false_iff (ws : Vector Word 16) : isBlank ws = false ↔ ∃ i : Fin 16, ws[i] ≠ 0 := by
  simp only [isBlank, List.all_eq_false, decide_eq_true_eq, Vector.mem_toList_iff, Vector.mem_iff_getElem]
  exact ⟨fun ⟨_, ⟨i, h, e⟩, nonzero⟩ => ⟨⟨i, h⟩, e ▸ nonzero⟩,
    fun ⟨i, nonzero⟩ => ⟨_, ⟨i.val, i.isLt, rfl⟩, nonzero⟩⟩

theorem isCorrupt_iff (ws : Vector Word 16) : isCorrupt ws = true ↔ (∃ i : Fin 16, ws[i] ≠ 0)
    ∧ ws[15] ≠ ~~~ ((List.finRange 15).map fun i => (ws[i.val]'(by omega)).rotateLeft i.val).sum := by
  rw [← recordCheck_eq, ← isBlank_eq_false_iff]
  simp [isCorrupt]

/-! ### The obligations -/

/-- Settles O51: the order bits case by case, and a fetch that hits. -/
theorem cacheOrderBitsPointAwayFromTheWayUsed : Obligations.CacheOrderBitsPointAwayFromTheWayUsed := by
  refine ⟨fun cs => ⟨cs.victim_eq, rfl, rfl, rfl, rfl, cs.victim_use_pair, fun n ws => ?_⟩,
    fun s n w l line tag only => ?_⟩
  · obtain ⟨lowest, invalidOrVictim⟩ := CacheSet.fillWay_spec (cs := cs) rfl
    exact ⟨cs.fillWay, lowest, invalidOrVictim, rfl⟩
  · exact ⟨_, fetchRecord_hit (CacheSet.wayOf_eq_some line tag only) line⟩

/-- Settles O52: a lookup that hits, one that misses, and a write-through. -/
theorem engineFetchFollowsTheLookupAndTheMode : Obligations.EngineFetchFollowsTheLookupAndTheMode := by
  intro s n sound cache cs table served holds
  refine ⟨isCorrupt_iff table, fun w l line tag => ?hit, fun unheld => ?miss, fun a => ?write⟩
  case hit =>
    have hit : s.hitWay n = some w := CacheSet.wayOf_eq_some line tag fun v x other same =>
      cache.single _ v w x l other line (same.trans tag.symm)
    exact ⟨fetchRecord_hit hit line, patrolFetch_hit hit line⟩
  case miss =>
    have miss : s.hitWay n = none := CacheSet.wayOf_eq_none.mpr unheld
    have found := State.fetched_miss miss
    have passing (passes : isCorrupt table = false) : s.fetched n = served table := by
      rw [found, if_neg (by rw [passes]; decide)]
      rfl
    refine ⟨?patrol, fun corrupt => ?corrupt, fun passes other => ?served, fun passes normal => ?filled⟩
    case patrol =>
      rw [patrolFetch_ok sound, found]
      rfl
    case corrupt =>
      rw [fetchRecord_unfilled sound miss (fun fills => by rw [fills.2] at corrupt; cases corrupt), found, if_pos corrupt]
    case served => rw [fetchRecord_unfilled sound miss (fun fills => other fills.1), passing passes]
    case filled =>
      rw [fetchRecord_filled sound miss normal passes, passing passes]
      rfl
  case write =>
    let ws := recordWords { a with sequence := a.sequence + 1 }
    have own := s.mapSet_own n fun cs => cs.rewrite n ws
    refine ⟨_, writeThrough_ok sound n a, rfl, s.mapSet_keeps n fun cs => cs.rewrite n ws, ?bytes,
      State.peekWords_poke _ _ _ ws, ?order, fun w => ?lines⟩
    case bytes => exact KeepsBytes.poke (s := s.mapSet n _) ⟨_, List.mem_singleton_self _, Nat.le_refl _, by simp⟩
    case order =>
      rw [State.poke_cacheSets, own]
      rfl
    case lines =>
      rw [State.poke_cacheSets, own, cs.rewrite_way]
      exact ⟨fun holds => if_pos (wayHolds_iff.mpr holds), fun other => if_neg fun held => other (wayHolds_iff.mp held)⟩

end Sys2Proof.Machine
end

-- ==== Proofs: events of the notice unit ====
section
/-! Everything that work can do to the notice unit and the causes, as a run of events of a few kinds, and what every such run keeps
of them: the soundness of the unit (O56) and the account of the causes set and the messages sent (O6). -/

namespace Sys2Proof.Machine

/-! ### Events (R145 to R155) -/

/-- The part of the state that the notice unit and the causes are, and whether the part is FAULTED. -/
structure Desk where
  enables : BitVec 5
  causes : BitVec 5
  messages : Nat
  written : Word
  taken : Word
  capacity : Nat
  held : List Notice
  logFull : Bool
  faulted : Bool

/-- What a state holds of it. -/
def State.desk (s : State) : Desk :=
  ⟨s.enables, s.causes, s.messages, s.written, s.taken, s.capacity, s.heldNotices, s.logFull, decide (s.engineState = .faulted)⟩

/-- An event of a cause (R155). -/
def Desk.raise (d : Desk) (c : Cause) : Desk :=
  if d.causes.getLsbD c.index then d
  else
    { d with
      causes := d.causes ||| (1#5 <<< c.index)
      messages := if d.enables.getLsbD c.index then d.messages + 1 else d.messages }

/-- What can happen to the notice unit and the causes in the course of a work. -/
inductive Event where
  /-- The engine state becomes one other than FAULTED. -/
  | woken
  /-- A cause that no notice sets. -/
  | raised (c : Cause)
  /-- T is read (R147). -/
  | read (value : Word)
  /-- A notice is written into the log, and leaves the held queue if it stood there (R146, R150). -/
  | logged (n : Notice)
  /-- A notice joins the held queue (R148). -/
  | held (n : Notice)
  /-- A notice is merged into the held one of its kind and subject (R149). -/
  | merged (n : Notice)
  /-- The held queue is discarded (R173). -/
  | discarded
  /-- An attach sets the log up (R145, R170). -/
  | begun (written taken : Word) (capacity : Nat)

/-- Which commands an event can be part of: 0 any, 1 those that complete cells, 2 START, 3 none. -/
def Event.rank : Event → Nat
  | .woken | .read _ | .logged _ | .held _ | .merged _ | .discarded => 0
  | .raised .cellDone => 1
  | .raised .attachEnd | .begun _ _ _ => 2
  | .raised .urgentNotice | .raised .notice | .raised .fault => 3

/-- The records an event writes into the log. -/
def Event.records : Event → Nat
  | .logged _ => 1
  | .woken | .raised _ | .read _ | .held _ | .merged _ | .discarded | .begun _ _ _ => 0

/-- The cause an event sets. -/
def Event.cause? : Event → Option Cause
  | .raised c => some c
  | .logged n => some n.cause
  | .woken | .read _ | .held _ | .merged _ | .discarded | .begun _ _ _ => none

/-- When an event can happen: a notice is written while the log has room, and held while the queue has a place and none of its kind
and subject (R145, R148, R149); a log has at most 4096 places (section 10.2). -/
def Event.Allowed (d : Desk) : Event → Prop
  | .logged _ => (d.written - d.taken).toNat < d.capacity
  | .held n => d.held.length < heldMax ∧ ∀ m ∈ d.held, m.sameKey n = false
  | .begun _ _ capacity => capacity ≤ 4096
  | .woken | .raised _ | .read _ | .merged _ | .discarded => True

/-- What an event leaves. -/
def Desk.play (d : Desk) : Event → Desk
  | .woken => { d with faulted := false }
  | .raised c => d.raise c
  | .read t => { d with taken := reckonTaken d.written d.capacity t }
  | .logged n =>
    Desk.raise
      { d with written := d.written + 1, held := d.held.erase n, logFull := d.logFull && !(d.held.erase n).isEmpty } n.cause
  | .held n => { d with held := d.held ++ [n], logFull := d.logFull || d.held.isEmpty }
  | .merged n => { d with held := mergeHeld n d.held }
  | .discarded => { d with held := [], logFull := false }
  | .begun written taken capacity =>
    { d with written := written, taken := reckonTaken written capacity taken, capacity := capacity }

/-- A run of events of a rank or below, with the number of records it writes into the log. -/
inductive Desk.Goes (rank : Nat) (d : Desk) : Nat → Desk → Prop where
  | stays : Desk.Goes rank d 0 d
  | plays {k : Nat} {e : Desk} (ev : Event) (before : Desk.Goes rank d k e) (ranked : ev.rank ≤ rank) (allowed : ev.Allowed e) :
      Desk.Goes rank d (k + ev.records) (e.play ev)

theorem Desk.Goes.trans {rank j k : Nat} {d e f : Desk} (h : Desk.Goes rank d j e) (g : Desk.Goes rank e k f) :
    Desk.Goes rank d (j + k) f := by
  induction g with
  | stays => exact h
  | plays ev _ ranked allowed ih =>
    rw [← Nat.add_assoc]
    exact .plays ev ih ranked allowed

theorem Desk.Goes.mono {rank rank' k : Nat} {d e : Desk} (h : Desk.Goes rank d k e) (le : rank ≤ rank') :
    Desk.Goes rank' d k e := by
  induction h with
  | stays => exact .stays
  | plays ev _ ranked allowed ih => exact .plays ev ih (ranked.trans le) allowed

theorem State.raiseCause_desk (s : State) (c : Cause) : (s.raiseCause c).desk = s.desk.raise c := by
  unfold State.raiseCause Desk.raise
  by_cases set : s.causes.getLsbD c.index = true
  · rw [if_pos set]
    exact (if_pos set).symm
  · rw [if_neg set]
    exact (if_neg set).symm

/-! ### A run keeps the notice unit sound -/

/-- What `NoticesSound` asks of the notice unit. -/
structure Desk.Sound (d : Desk) : Prop where
  held : d.held.length ≤ heldMax
  keys : d.held.Pairwise fun m n => m.sameKey n = false
  flag : d.logFull = !d.held.isEmpty
  occupancy : (d.written - d.taken).toNat ≤ d.capacity
  capacity : d.capacity ≤ 4096

theorem noticesSound_iff (s : State) : NoticesSound s ↔ s.desk.Sound :=
  ⟨fun h => ⟨h.held, h.keys, h.flag, h.occupancy, h.capacity⟩, fun h => ⟨h.held, h.keys, h.flag, h.occupancy, h.capacity⟩⟩

/-- An event of a cause leaves all but the causes and the messages. -/
theorem Desk.raise_frame (d : Desk) (c : Cause) :
    d.raise c = { d with causes := (d.raise c).causes, messages := (d.raise c).messages } := by
  unfold Desk.raise
  split <;> rfl

theorem Desk.Sound.raise {d : Desk} (h : d.Sound) (c : Cause) : (d.raise c).Sound := by
  rw [d.raise_frame]
  exact ⟨h.held, h.keys, h.flag, h.occupancy, h.capacity⟩

/-- A T read is reckoned with so that the log is never over its capacity (R147). -/
theorem reckonTaken_le (written : Word) {capacity : Nat} (t : Word) (small : capacity ≤ 4096) :
    (written - reckonTaken written capacity t).toNat ≤ capacity := by
  unfold reckonTaken
  split
  · assumption
  · unfold word
    bv_omega

/-- A merge keeps the kinds and subjects of the notices held (R149). -/
theorem mergeHeld_keys (n : Notice) {held : List Notice} (h : held.Pairwise fun m n => m.sameKey n = false) :
    (mergeHeld n held).Pairwise fun m n => m.sameKey n = false := by
  unfold mergeHeld
  refine List.Pairwise.map _ (fun x y apart => ?_) h
  split <;> split <;> exact apart

theorem Desk.Sound.play {d : Desk} (h : d.Sound) {ev : Event} (allowed : ev.Allowed d) : (d.play ev).Sound := by
  cases ev with
  | woken => exact ⟨h.held, h.keys, h.flag, h.occupancy, h.capacity⟩
  | raised c => exact h.raise c
  | read t => exact ⟨h.held, h.keys, h.flag, reckonTaken_le _ _ h.capacity, h.capacity⟩
  | logged n =>
    suffices logged : Desk.Sound { d with
        written := d.written + 1, held := d.held.erase n, logFull := d.logFull && !(d.held.erase n).isEmpty } from
      logged.raise n.cause
    refine ⟨?_, h.keys.sublist List.erase_sublist, ?_, ?_, h.capacity⟩
    · exact List.length_erase_le.trans h.held
    · rw [h.flag]
      cases held : d.held <;> simp
    · have room : (d.written - d.taken).toNat < d.capacity := allowed
      have next := word_sub_succ (a := d.written) (b := d.taken) (by have := h.capacity; omega)
      exact next.trans_le room
  | held n =>
    obtain ⟨place, fresh⟩ := allowed
    refine ⟨?_, ?_, ?_, h.occupancy, h.capacity⟩
    · simpa [Desk.play] using place
    · exact List.pairwise_append.mpr ⟨h.keys, List.pairwise_singleton _ _, fun m hm x hx => by
        rw [List.mem_singleton.mp hx]; exact fresh m hm⟩
    · simp [Desk.play, h.flag]
  | merged n =>
    refine ⟨?_, mergeHeld_keys n h.keys, ?_, h.occupancy, h.capacity⟩
    · simpa [Desk.play, mergeHeld] using h.held
    · simp [Desk.play, mergeHeld, h.flag]
  | discarded => exact ⟨Nat.zero_le _, .nil, rfl, h.occupancy, h.capacity⟩
  | begun written taken capacity => exact ⟨h.held, h.keys, h.flag, reckonTaken_le _ _ allowed, allowed⟩

theorem Desk.Goes.sound {rank k : Nat} {d e : Desk} (run : Desk.Goes rank d k e) (h : d.Sound) : e.Sound := by
  induction run with
  | stays => exact h
  | plays ev _ _ allowed ih => exact ih.play allowed

/-! ### What a run does to the causes and the messages -/

theorem Desk.raise_causes (d : Desk) (c : Cause) (i : Nat) :
    (d.raise c).causes.getLsbD i = (d.causes.getLsbD i || decide (i = c.index)) := by
  have asState := State.raiseCause_getLsbD { State.reset with causes := d.causes, enables := d.enables } c i
  rw [← asState]
  unfold Desk.raise State.raiseCause
  simp only
  split <;> rfl

/-- An event sets its cause and leaves the others (R154, R155). -/
theorem Desk.play_causes (d : Desk) (ev : Event) (i : Nat) :
    (d.play ev).causes.getLsbD i = (d.causes.getLsbD i || ev.cause?.any fun c => decide (i = c.index)) := by
  cases ev with
  | raised c => exact d.raise_causes c i
  | logged n => exact Desk.raise_causes _ n.cause i
  | woken => exact (Bool.or_false _).symm
  | read t => exact (Bool.or_false _).symm
  | held n => exact (Bool.or_false _).symm
  | merged n => exact (Bool.or_false _).symm
  | discarded => exact (Bool.or_false _).symm
  | begun written taken capacity => exact (Bool.or_false _).symm

/-- A run clears no cause (R154). -/
theorem Desk.Goes.causes_kept {rank k : Nat} {d e : Desk} (run : Desk.Goes rank d k e) {i : Nat}
    (set : d.causes.getLsbD i = true) : e.causes.getLsbD i = true := by
  induction run with
  | stays => exact set
  | plays ev _ _ _ ih => rw [Desk.play_causes, ih, Bool.true_or]

/-- The rank of an event bounds the cause it sets: CELL_DONE, ATTACH_END and FAULT stand at 2, 3 and 4 (R154). -/
theorem Event.cause_index_le {ev : Event} {c : Cause} (sets : ev.cause? = some c) : c.index ≤ ev.rank + 1 := by
  cases ev with
  | raised x =>
    cases sets
    cases c <;> decide
  | logged n =>
    cases sets
    exact Nat.le_of_lt_succ n.cause_index
  | woken => cases sets
  | read t => cases sets
  | held n => cases sets
  | merged n => cases sets
  | discarded => cases sets
  | begun written taken capacity => cases sets

/-- A cause above the rank stays as it is. -/
theorem Desk.Goes.cause_unset {rank k : Nat} {d e : Desk} (run : Desk.Goes rank d k e) {i : Nat} (above : rank + 1 < i) :
    e.causes.getLsbD i = d.causes.getLsbD i := by
  induction run with
  | stays => rfl
  | plays ev _ ranked _ ih =>
    rw [Desk.play_causes, ih]
    cases sets : ev.cause? with
    | none => exact Bool.or_false _
    | some c =>
      have := Event.cause_index_le sets
      have other : i ≠ c.index := by omega
      simp [other]

/-- Below the rank of START the causes of notices are set by records written alone (R146). -/
theorem Desk.Goes.notice_causes {rank k : Nat} {d e : Desk} (run : Desk.Goes rank d k e) (low : rank ≤ 1) (idle : k = 0)
    {i : Nat} (hi : i < 2) : e.causes.getLsbD i = d.causes.getLsbD i := by
  induction run with
  | stays => rfl
  | plays ev _ ranked _ ih =>
    rw [Desk.play_causes, ih (by omega)]
    have other : ev.cause?.any (fun c => decide (i = c.index)) = false := by
      cases ev with
      | logged n => simp [Event.records] at idle
      | raised c =>
        cases c with
        | cellDone => exact decide_eq_false (show i ≠ 2 by omega)
        | urgentNotice => simp [Event.rank] at ranked; omega
        | notice => simp [Event.rank] at ranked; omega
        | attachEnd => simp [Event.rank] at ranked; omega
        | fault => simp [Event.rank] at ranked; omega
      | woken => rfl
      | read t => rfl
      | held n => rfl
      | merged n => rfl
      | discarded => rfl
      | begun written taken capacity => rfl
    rw [other, Bool.or_false]

/-- Below the rank of START, W rises by the records written (R145, R146). -/
theorem Desk.Goes.written {rank k : Nat} {d e : Desk} (run : Desk.Goes rank d k e) (low : rank ≤ 1) :
    e.written = d.written + word k := by
  induction run with
  | stays => simp [word]
  | @plays k e ev _ ranked _ ih =>
    cases ev with
    | logged n =>
      show (Desk.raise _ n.cause).written = _
      rw [Desk.raise_frame]
      show e.written + 1 = _
      rw [ih, BitVec.add_assoc]
      exact congrArg (d.written + ·) (BitVec.ofNat_add k 1).symm
    | raised c =>
      show (e.raise c).written = _
      rw [Desk.raise_frame]
      exact ih
    | begun written taken capacity => simp [Event.rank] at ranked; omega
    | woken => exact ih
    | read t => exact ih
    | held n => exact ih
    | merged n => exact ih
    | discarded => exact ih

/-- No event takes a part to FAULTED. -/
theorem Desk.Goes.not_faulted {rank k : Nat} {d e : Desk} (run : Desk.Goes rank d k e) (h : d.faulted = false) :
    e.faulted = false := by
  induction run with
  | stays => exact h
  | @plays k e ev _ _ _ ih =>
    cases ev with
    | woken => rfl
    | raised c =>
      show (e.raise c).faulted = false
      rw [Desk.raise_frame]
      exact ih
    | logged n =>
      show (Desk.raise _ n.cause).faulted = false
      rw [Desk.raise_frame]
      exact ih
    | read t => exact ih
    | held n => exact ih
    | merged n => exact ih
    | discarded => exact ih
    | begun written taken capacity => exact ih

/-- The number of causes that go from clear to set with their enable set. -/
def messagesDue (before after enables : BitVec 5) : Nat :=
  ((List.range 5).filter fun i => !before.getLsbD i && after.getLsbD i && enables.getLsbD i).length

/-- Causes once set stay set, so the messages of two runs are those of both. -/
theorem messagesDue_add {x y z : BitVec 5} (enables : BitVec 5) (xy : ∀ i, x.getLsbD i = true → y.getLsbD i = true)
    (yz : ∀ i, y.getLsbD i = true → z.getLsbD i = true) :
    messagesDue x y enables + messagesDue y z enables = messagesDue x z enables := by
  unfold messagesDue
  induction List.range 5 with
  | nil => rfl
  | cons i is ih =>
    have first := xy i
    have second := yz i
    simp only [List.filter_cons]
    revert first second
    cases x.getLsbD i <;> cases y.getLsbD i <;> cases z.getLsbD i <;> cases enables.getLsbD i <;> simp <;> omega

theorem messagesDue_self (x enables : BitVec 5) : messagesDue x x enables = 0 := by
  simp [messagesDue]

/-- An event of a cause sends its message exactly if it goes from clear to set with its enable set (R155). -/
theorem Desk.raise_messages (d : Desk) (c : Cause) :
    (d.raise c).messages = d.messages + messagesDue d.causes (d.raise c).causes d.enables := by
  have bits : messagesDue d.causes (d.raise c).causes d.enables
      = if d.causes.getLsbD c.index = false ∧ d.enables.getLsbD c.index = true then 1 else 0 := by
    have one (i : Nat) : (!d.causes.getLsbD i && (d.raise c).causes.getLsbD i && d.enables.getLsbD i)
        = (decide (i = c.index) && (!d.causes.getLsbD c.index && d.enables.getLsbD c.index)) := by
      rw [d.raise_causes]
      by_cases same : i = c.index
      · rw [same]; cases d.causes.getLsbD c.index <;> simp
      · simp [same]
    unfold messagesDue
    simp only [one]
    cases d.causes.getLsbD c.index <;> cases d.enables.getLsbD c.index <;> cases c <;> rfl
  rw [bits]
  unfold Desk.raise
  cases d.causes.getLsbD c.index <;> cases d.enables.getLsbD c.index <;> rfl

theorem Desk.play_messages (d : Desk) (ev : Event) :
    (d.play ev).messages = d.messages + messagesDue d.causes (d.play ev).causes d.enables ∧ (d.play ev).enables = d.enables := by
  have idle : d.messages = d.messages + messagesDue d.causes d.causes d.enables := by rw [messagesDue_self, Nat.add_zero]
  have raised (c : Cause) : (d.raise c).enables = d.enables := by rw [Desk.raise_frame]
  cases ev with
  | raised c => exact ⟨d.raise_messages c, raised c⟩
  | logged n => exact ⟨Desk.raise_messages _ n.cause, by show (Desk.raise _ n.cause).enables = _; rw [Desk.raise_frame]⟩
  | woken => exact ⟨idle, rfl⟩
  | read t => exact ⟨idle, rfl⟩
  | held n => exact ⟨idle, rfl⟩
  | merged n => exact ⟨idle, rfl⟩
  | discarded => exact ⟨idle, rfl⟩
  | begun written taken capacity => exact ⟨idle, rfl⟩

/-- A run sends one message for each enabled cause that it sets (R155). -/
theorem Desk.Goes.messages {rank k : Nat} {d e : Desk} (run : Desk.Goes rank d k e) :
    e.messages = d.messages + messagesDue d.causes e.causes d.enables ∧ e.enables = d.enables := by
  induction run with
  | stays => exact ⟨by rw [messagesDue_self, Nat.add_zero], rfl⟩
  | @plays k e ev before _ _ ih =>
    obtain ⟨messages, enables⟩ := ih
    obtain ⟨sent, same⟩ := e.play_messages ev
    refine ⟨?_, same.trans enables⟩
    rw [sent, messages, enables, Nat.add_assoc,
      messagesDue_add d.enables (fun i => before.causes_kept) fun i set => by rw [Desk.play_causes, set, Bool.true_or]]

end Sys2Proof.Machine
end

-- ==== Proofs: runs of the notice unit ====
section
/-! Every piece of work runs the notice unit and the causes by events alone (O56, O6). -/

namespace Sys2Proof.Machine

/-! ### Work that runs the notice unit -/

section

variable {α β : Type} {rank received more : Nat} {s : State}

/-- A run of events of a rank or below. Below the rank of START every record it writes was held at its start or is one of the
notices received in its course (R148, R150). -/
def Desk.Runs (rank received : Nat) (d e : Desk) : Prop :=
  ∃ k, Desk.Goes rank d k e ∧ (rank ≤ 1 → k + e.held.length ≤ d.held.length + received)

theorem Desk.Runs.refl (d : Desk) : d.Runs rank received d := ⟨0, .stays, fun _ => by omega⟩

theorem Desk.Runs.trans {d e f : Desk} (h : d.Runs rank received e) (g : e.Runs rank more f) :
    d.Runs rank (received + more) f := by
  obtain ⟨j, first, bound⟩ := h
  obtain ⟨k, second, bound'⟩ := g
  exact ⟨j + k, first.trans second, fun low => by have := bound low; have := bound' low; omega⟩

theorem Desk.Runs.mono {d e : Desk} (h : d.Runs rank received e) {rank' : Nat} (higher : rank ≤ rank')
    (le : received ≤ more) : d.Runs rank' more e := by
  obtain ⟨k, run, bound⟩ := h
  exact ⟨k, run.mono higher, fun low => by have := bound (higher.trans low); omega⟩

/-- One event. -/
theorem Desk.Runs.event (d : Desk) (ev : Event) (ranked : ev.rank ≤ rank) (allowed : ev.Allowed d)
    (cost : ev.records + (d.play ev).held.length ≤ d.held.length + received) : d.Runs rank received (d.play ev) :=
  ⟨0 + ev.records, .plays ev .stays ranked allowed, fun _ => by omega⟩

/-- The work, begun in `s`, takes the notice unit through a run, cut or not. -/
def Act.RunsAt (rank received : Nat) (a : Act α) (s : State) : Prop :=
  match a s with
  | .ok _ t => s.desk.Runs rank received t.desk
  | .error _ t => s.desk.Runs rank received t.desk

/-- The work takes the notice unit through a run wherever it begins. -/
def Act.Runs (rank received : Nat) (a : Act α) : Prop := ∀ s, Act.RunsAt rank received a s

/-- The work leaves the notice unit and the causes alone. -/
def Act.OffDesk (a : Act α) : Prop := ∀ d, Act.Keeps (fun s => s.desk = d) a

theorem Act.RunsAt.ok {a : Act α} {t : State} {x : α} (h : Act.RunsAt rank received a s) (ran : a s = .ok x t) :
    s.desk.Runs rank received t.desk := by
  unfold Act.RunsAt at h
  rw [ran] at h
  exact h

theorem Act.RunsAt.error {a : Act α} {t : State} {e : Cut} (h : Act.RunsAt rank received a s) (ran : a s = .error e t) :
    s.desk.Runs rank received t.desk := by
  unfold Act.RunsAt at h
  rw [ran] at h
  exact h

theorem Act.runsAt_iff {a : Act α} : Act.RunsAt rank received a s ↔
    (∀ x t, a s = .ok x t → s.desk.Runs rank received t.desk) ∧ ∀ e t, a s = .error e t → s.desk.Runs rank received t.desk := by
  refine ⟨fun h => ⟨fun _ _ => h.ok, fun _ _ => h.error⟩, fun ⟨ok, error⟩ => ?_⟩
  unfold Act.RunsAt
  cases ran : a s with
  | ok x t => exact ok x t ran
  | error e t => exact error e t ran

theorem Act.RunsAt.mono {a : Act α} {rank' : Nat} (h : Act.RunsAt rank received a s) (higher : rank ≤ rank')
    (le : received ≤ more) : Act.RunsAt rank' more a s :=
  Act.runsAt_iff.mpr ⟨fun _ _ ran => (h.ok ran).mono higher le, fun _ _ ran => (h.error ran).mono higher le⟩

theorem Act.Runs.mono {a : Act α} {rank' : Nat} (h : a.Runs rank received) (higher : rank ≤ rank') (le : received ≤ more) :
    a.Runs rank' more := fun s => (h s).mono higher le

theorem Act.Runs.le {a : Act α} (h : a.Runs rank received) (le : received ≤ more) : a.Runs rank more := h.mono le_rfl le

/-- Of an attach the notices received are not counted. -/
theorem Act.Runs.uncounted {a : Act α} (h : a.Runs 2 received) : a.Runs 2 more := by
  have desk {d e : Desk} (run : d.Runs 2 received e) : d.Runs 2 more e :=
    ⟨run.choose, run.choose_spec.1, fun low => absurd low (by decide)⟩
  exact fun s => Act.runsAt_iff.mpr ⟨fun _ _ ran => desk ((h s).ok ran), fun _ _ ran => desk ((h s).error ran)⟩

theorem Act.runsAt_bind {a : Act α} {f : α → Act β} (ha : Act.RunsAt rank received a s)
    (hf : ∀ x t, a s = .ok x t → Act.RunsAt rank more (f x) t) : Act.RunsAt rank (received + more) (a >>= f) s := by
  cases ran : a s with
  | ok x t =>
    have first := ha.ok ran
    have second := hf x t ran
    refine Act.runsAt_iff.mpr ⟨fun y u h => ?_, fun e u h => ?_⟩
    · rw [Act.bind_ok ran] at h
      exact first.trans (second.ok h)
    · rw [Act.bind_ok ran] at h
      exact first.trans (second.error h)
  | error e t =>
    have first := ha.error ran
    refine Act.runsAt_iff.mpr ⟨fun y u h => ?_, fun e u h => ?_⟩
    · rw [Act.bind_error ran] at h
      cases h
    · rw [Act.bind_error ran] at h
      cases h
      exact first.mono le_rfl (Nat.le_add_right _ _)

/-- Work in two parts, of which the first receives no notice. -/
theorem Act.runsAt_then {a : Act α} {f : α → Act β} (ha : Act.RunsAt rank 0 a s)
    (hf : ∀ x t, a s = .ok x t → Act.RunsAt rank received (f x) t) : Act.RunsAt rank received (a >>= f) s := by
  have both := Act.runsAt_bind ha hf
  rwa [Nat.zero_add] at both

theorem Act.OffDesk.ok {a : Act α} (h : a.OffDesk) {t : State} {x : α} (ran : a s = .ok x t) : t.desk = s.desk := by
  have kept := h s.desk s rfl
  rw [ran] at kept
  exact kept

theorem Act.OffDesk.runs {a : Act α} (h : a.OffDesk) : a.Runs rank received := by
  intro s
  have kept := h s.desk s rfl
  refine Act.runsAt_iff.mpr ⟨fun x t ran => ?_, fun e t ran => ?_⟩
  · rw [ran] at kept
    rw [kept]
    exact .refl _
  · rw [ran] at kept
    rw [kept]
    exact .refl _

/-- Work that first leaves the unit alone. -/
theorem Act.runsAt_after {a : Act α} {f : α → Act β} (ha : a.OffDesk)
    (hf : ∀ x t, t.desk = s.desk → Act.RunsAt rank received (f x) t) : Act.RunsAt rank received (a >>= f) s := by
  have both := Act.runsAt_bind (ha.runs (rank := rank) (received := 0) s) fun x t ran => hf x t (ha.ok ran)
  rwa [Nat.zero_add] at both

@[inherit_doc Act.runsAt_after]
theorem Act.runs_after {a : Act α} {f : α → Act β} (ha : a.OffDesk) (hf : ∀ x, (f x).Runs rank received) :
    (a >>= f).Runs rank received := fun _ => Act.runsAt_after ha fun x t _ => hf x t

/-- Work that leaves the unit alone in the end. -/
theorem Act.runsAt_before {a : Act α} {f : α → Act β} (ha : Act.RunsAt rank received a s) (hf : ∀ x, (f x).OffDesk) :
    Act.RunsAt rank received (a >>= f) s :=
  Act.runsAt_bind (more := 0) ha fun x t _ => (hf x).runs t

@[inherit_doc Act.runsAt_before]
theorem Act.runs_before {a : Act α} {f : α → Act β} (ha : a.Runs rank received) (hf : ∀ x, (f x).OffDesk) :
    (a >>= f).Runs rank received := fun s => Act.runsAt_before (ha s) hf

theorem Act.runs_bind {a : Act α} {f : α → Act β} (ha : a.Runs rank received) (hf : ∀ x, (f x).Runs rank more) :
    (a >>= f).Runs rank (received + more) := fun s => Act.runsAt_bind (ha s) fun x t _ => hf x t

@[inherit_doc Act.runsAt_then]
theorem Act.runs_then {a : Act α} {f : α → Act β} (ha : a.Runs rank 0) (hf : ∀ x, (f x).Runs rank received) :
    (a >>= f).Runs rank received := fun s => Act.runsAt_then (ha s) fun x t _ => hf x t

theorem Act.runs_pure (x : α) : (pure x : Act α).Runs rank received := fun s => Desk.Runs.refl s.desk

theorem Act.runsAt_get {f : State → Act β} (h : Act.RunsAt rank received (f s) s) : Act.RunsAt rank received (get >>= f) s := h

theorem Act.runs_get {f : State → Act β} (h : ∀ s, (f s).Runs rank received) : (get >>= f).Runs rank received :=
  fun s => h s s

theorem Act.runs_modify {f : State → State} (h : ∀ s : State, s.desk.Runs rank received (f s).desk) :
    Act.Runs rank received (modify f) := h

theorem Act.runsAt_ite {c : Prop} [Decidable c] {a b : Act α} (ha : c → Act.RunsAt rank received a s)
    (hb : ¬ c → Act.RunsAt rank received b s) : Act.RunsAt rank received (if c then a else b) s := by
  split
  · next h => exact ha h
  · next h => exact hb h

theorem Act.runs_ite {c : Prop} [Decidable c] {a b : Act α} (ha : c → a.Runs rank received) (hb : ¬ c → b.Runs rank received) :
    (if c then a else b).Runs rank received := by
  split
  · next h => exact ha h
  · next h => exact hb h

theorem Act.runs_repeatAct {a : Act Unit} (h : a.Runs rank received) (n : Nat) : (repeatAct n a).Runs rank (n * received) := by
  induction n with
  | zero => exact Act.runs_pure _
  | succ n ih => exact (Act.runs_bind h fun _ => ih).le (by rw [Nat.succ_mul, Nat.add_comm])

theorem Act.runs_sumOver {xs : List α} {f : α → Act Nat} (h : ∀ x, (f x).Runs rank 0) : (sumOver xs f).Runs rank 0 := by
  induction xs with
  | nil => exact Act.runs_pure _
  | cons x xs ih => exact Act.runs_then (h x) fun _ => Act.runs_then ih fun _ => Act.runs_pure _

/-- A run keeps the notice unit sound. -/
theorem Act.Runs.keeps {a : Act α} (h : a.Runs rank received) : Act.Keeps NoticesSound a := by
  intro s hs
  have sound {t : State} (run : s.desk.Runs rank received t.desk) : NoticesSound t := by
    obtain ⟨k, goes, -⟩ := run
    exact (noticesSound_iff t).mpr (goes.sound ((noticesSound_iff s).mp hs))
  cases ran : a s with
  | ok x t => exact sound ((h s).ok ran)
  | error e t => exact sound ((h s).error ran)

/-! ### Changes and accesses that leave the unit alone -/

theorem Act.offDesk_pure (x : α) : (pure x : Act α).OffDesk := fun _ => Act.keeps_pure x

theorem Act.offDesk_bind {a : Act α} {f : α → Act β} (ha : a.OffDesk) (hf : ∀ x, (f x).OffDesk) : (a >>= f).OffDesk :=
  fun d => Act.keeps_bind (ha d) fun x => hf x d

theorem Act.OffDesk.answers {a : Act α} (h : a.OffDesk) (f : α → β) : Act.OffDesk (do let x ← a; pure (f x)) :=
  Act.offDesk_bind h fun _ => Act.offDesk_pure _

theorem Act.Runs.answers {a : Act α} (h : a.Runs rank received) (f : α → β) :
    Act.Runs rank received (do let x ← a; pure (f x)) := Act.runs_before h fun _ => Act.offDesk_pure _

theorem Act.offDesk_get {f : State → Act β} (h : ∀ s, (f s).OffDesk) : (get >>= f).OffDesk :=
  fun d => Act.keeps_get_any fun s => h s d

theorem Act.offDesk_modify {f : State → State} (h : ∀ s : State, (f s).desk = s.desk) : Act.OffDesk (modify f) :=
  fun _ => Act.keeps_modify fun s hs => (h s).trans hs

theorem Act.offDesk_ite {c : Prop} [Decidable c] {a b : Act α} (ha : a.OffDesk) (hb : b.OffDesk) :
    (if c then a else b).OffDesk := fun d => Act.keeps_ite (ha d) (hb d)

theorem Act.offDesk_forEach {xs : List α} {f : α → Act Unit} (h : ∀ x, (f x).OffDesk) : (forEach xs f).OffDesk :=
  fun d => Act.keeps_forEach fun x _ => h x d

theorem regionRead_offDesk (off n : Nat) : (regionRead off n).OffDesk := fun _ => regionRead_keeps (fun _ _ h => h) off n

theorem regionWrite_offDesk (off : Nat) (ws : List Word) : (regionWrite off ws).OffDesk :=
  fun _ => regionWrite_keeps (fun _ _ h => h) (fun _ _ _ h => h) off ws

theorem regionWriteWhole_offDesk (off : Nat) (ws : List Word) : (regionWriteWhole off ws).OffDesk :=
  fun _ => regionWriteWhole_keeps (fun _ _ h => h) (fun _ _ _ h => h) off ws

end

section

variable {α β : Type} {rank received : Nat}

/-! ### The notice unit (R146 to R151) -/

/-- A notice written into the log, with room there: one that was held leaves the queue. -/
theorem writeNotice_runsAt {s : State} (n : Notice) {rest : List Notice} (room : s.logHasRoom = true)
    (leaves : rest = s.heldNotices.erase n) (cost : 1 + rest.length ≤ s.heldNotices.length + received) :
    Act.RunsAt rank received (writeNotice n rest) s := by
  refine Act.runsAt_get (Act.runsAt_after (regionWrite_offDesk _ _) fun _ t same => ?_)
  refine Act.runsAt_before ?_ fun _ => Act.offDesk_get fun _ => regionWriteWhole_offDesk _ _
  have held : t.heldNotices = s.heldNotices := congrArg Desk.held same
  have after : (State.raiseCause { t with
        written := t.written + 1, heldNotices := rest, logFull := t.logFull && !rest.isEmpty } n.cause).desk
      = t.desk.play (.logged n) := by
    rw [State.raiseCause_desk, leaves, ← held]
    rfl
  show t.desk.Runs rank received _
  rw [after, same]
  refine .event _ _ (Nat.zero_le _) ?_ ?_
  · show (s.written - s.taken).toNat < s.capacity
    exact of_decide_eq_true room
  · show 1 + (Desk.raise _ n.cause).held.length ≤ _
    rw [Desk.raise_frame]
    exact leaves ▸ cost

/-- The notice drained next is one of those held. -/
theorem nextHeld_mem {held : List Notice} {n : Notice} (next : nextHeld held = some n) : n ∈ held := by
  unfold nextHeld at next
  cases urgent : held.find? fun n => n.kind.urgent with
  | some m =>
    rw [urgent] at next
    cases next
    exact List.mem_of_find?_eq_some urgent
  | none =>
    rw [urgent] at next
    exact List.mem_of_head? next

theorem drain_runs (k : Nat) : (drain k).Runs rank 0 := by
  induction k with
  | zero => exact Act.runs_pure _
  | succ k ih =>
    intro s
    refine Act.runsAt_get (Act.runsAt_ite (fun room => ?_) fun _ => Act.runs_pure _ s)
    cases next : nextHeld s.heldNotices with
    | none => exact Act.runs_pure _ s
    | some n =>
      have leaves := List.length_erase_add_one (nextHeld_mem next)
      exact Act.runsAt_bind (received := 0) (more := 0) (writeNotice_runsAt n room rfl (by omega)) fun _ t _ => ih t

theorem readTaken_runs : readTaken.Runs rank 0 := by
  refine Act.runs_get fun s => Act.runs_after (regionRead_offDesk _ _) fun ws => Act.runs_then ?_ fun _ =>
    Act.runs_get fun _ => drain_runs _
  exact Act.runs_modify fun s => .event s.desk (.read ws[0]) (Nat.zero_le _) trivial (Nat.zero_add _).le

/-- A read of T with nothing held leaves nothing held. -/
theorem readTaken_held {s t : State} {u : Unit} (ran : readTaken s = .ok u t) (none : s.heldNotices = []) :
    t.heldNotices = [] := by
  obtain ⟨k, -, bound⟩ := (readTaken_runs (rank := 0) s).ok ran
  have fewer : k + t.heldNotices.length ≤ s.heldNotices.length + 0 := bound (Nat.zero_le _)
  rw [none] at fewer
  exact List.length_eq_zero_iff.mp (by simpa using fewer : k = 0 ∧ _).2

/-- A notice received costs one record at most beside those of the notices held (R148). -/
theorem receiveNotice_runs (n : Notice) : (receiveNotice n).Runs rank 1 := by
  have logs {s : State} (none : s.heldNotices = []) (room : s.logHasRoom = true) :
      Act.RunsAt rank 1 (do writeNotice n []; pure false) s :=
    Act.runsAt_before (writeNotice_runsAt n room (by rw [none]; rfl) (Nat.le_add_left _ _)) fun _ => Act.offDesk_pure _
  have reads (dropped : Bool) : Act.Runs rank 0 (do readTaken; pure dropped) := readTaken_runs.answers _
  intro s
  refine Act.runsAt_get (Act.runsAt_ite (fun none => ?empty)
    fun some => Act.runsAt_ite (fun _ => ?merged) fun fresh => Act.runsAt_ite (fun place => ?held) fun _ => ?dropped)
  case empty =>
    have none : s.heldNotices = [] := List.isEmpty_iff.mp none
    refine Act.runsAt_ite (logs none) fun _ =>
      Act.runsAt_then (readTaken_runs s) fun _ t ran => Act.runsAt_get (Act.runsAt_ite ?_ fun _ => ?_)
    · exact logs (readTaken_held ran none)
    · refine Act.runsAt_before ?_ fun _ => Act.offDesk_pure _
      have none := readTaken_held ran none
      have holds : ({ t with heldNotices := [n], logFull := true } : State).desk = t.desk.play (.held n) := by
        simp [Desk.play, State.desk, none]
      show t.desk.Runs rank 1 _
      rw [holds]
      refine .event _ _ (Nat.zero_le _) ⟨?_, ?_⟩ ?_
      · show t.heldNotices.length < heldMax
        rw [none]; decide
      · show ∀ m ∈ t.heldNotices, _
        rw [none]; simp
      · simp [Desk.play, Event.records]
  case merged =>
    refine (Act.runsAt_bind (received := 0) (more := 0) ?_ fun _ t _ => reads false t).mono le_rfl (Nat.zero_le _)
    exact Desk.Runs.event s.desk (.merged n) (Nat.zero_le _) trivial (by simp [Desk.play, mergeHeld, Event.records])
  case held =>
    refine Act.runsAt_bind (more := 0) ?_ fun _ t _ => reads false t
    have holds : ({ s with heldNotices := s.heldNotices ++ [n] } : State).desk = s.desk.play (.held n) := by
      simp [Desk.play, State.desk, some]
    show s.desk.Runs rank 1 _
    rw [holds]
    refine .event _ _ (Nat.zero_le _) ⟨place, ?_⟩ (by simp [Desk.play, Event.records])
    show ∀ m ∈ s.heldNotices, _
    simpa using fresh
  case dropped => exact (reads true s).mono le_rfl (Nat.zero_le _)

theorem handNotices_runs (ns : List Notice) : (handNotices ns).Runs rank ns.length := by
  induction ns with
  | nil => exact Act.runs_pure _
  | cons n ns ih =>
    have both : (handNotices (n :: ns)).Runs rank (1 + ns.length) := Act.runs_bind (receiveNotice_runs n) fun _ =>
      Act.runs_ite (fun _ => Act.runs_after (Act.offDesk_modify fun _ => rfl) fun _ => ih.answers _) fun _ => ih.answers _
    exact both.le (by rw [List.length_cons, Nat.add_comm])

theorem reportNotices_runs (ns : List Notice) : (reportNotices ns).Runs rank ns.length := (handNotices_runs ns).answers _

/-- One notice reported. -/
theorem reportNotice_runs (n : Notice) {k : Nat} (hk : 1 ≤ k) : (reportNotices [n]).Runs rank k :=
  (reportNotices_runs [n]).le hk

end

/-! ### Changes of the state beside the unit -/

/-- A change of the watch pool alone. -/
theorem State.desk_of_pool {s t : State} {watch : List WatchEntry} {dueQueue : List Nat} {unwatched : Nat}
    (h : t = { s with watch := watch, dueQueue := dueQueue, unwatched := unwatched }) : t.desk = s.desk := by
  rw [h]
  rfl

theorem State.removeEntry_desk (s : State) (n : Nat) : (s.removeEntry n).desk = s.desk :=
  State.desk_of_pool (s.removeEntry_frame n)

theorem State.watchAccount_desk (s : State) (n : Nat) (a : Account) : (s.watchAccount n a).desk = s.desk :=
  State.desk_of_pool (s.watchAccount_frame n a)

theorem State.unpooled_desk (s : State) (n : Nat) (a : Account) : (s.unpooled n a).desk = s.desk :=
  State.desk_of_pool (s.unpooled_frame n a)

theorem State.repooled_desk (s : State) (n : Nat) (a b : Account) : (s.repooled n a b).desk = s.desk :=
  State.desk_of_pool (s.repooled_frame n a b)

theorem State.noteBake_desk (s : State) (a b : Account) : (s.noteBake a b).desk = s.desk := by
  unfold State.noteBake
  split <;> rfl

theorem State.countAmend_desk (s : State) (a b : Account) : (s.countAmend a b).desk = s.desk := by
  have zone : (s.countExpired a b).desk = s.desk := by
    unfold State.countExpired
    split <;> rfl
  rw [s.countAmend_eq, ← zone]
  generalize s.countExpired a b = t
  split <;> rfl

theorem State.rewatch_desk (s : State) (e : WatchEntry) (a : Account) : (s.rewatch e a).desk = s.desk := by
  unfold State.rewatch
  split <;> exact s.removeEntry_desk e.account

theorem State.patrolWatch_desk (s : State) (n : Nat) (a : Account) : (s.patrolWatch n a).desk = s.desk := by
  have tried := State.desk_of_pool (s.tryWatch_frame n a)
  unfold State.patrolWatch
  simp only
  split <;> exact tried

theorem State.tuned_desk (s : State) (c : TakenCell) (maps : Vector AuthMap 8) : (s.tuned c maps).desk = s.desk := by
  unfold State.tuned
  cases cacheModeOf c.tuneMode with
  | none => rfl
  | some m => cases m <;> rfl

theorem State.endProgramming_desk (s : State) (defects : List NvDefect) : (s.endProgramming defects).desk = s.desk := by
  unfold State.endProgramming
  split
  · rfl
  · split <;> rfl

theorem State.applied_desk (s : State) (p : Programming) (success : Bool) : (s.applied p success).desk = s.desk := by
  rw [s.applied_frame]
  rfl

theorem State.advanceMinute_desk (s : State) (m : Word) (stall : Fin 16) : (s.advanceMinute m stall).desk = s.desk := by
  simp [State.desk]

/-! ### Work that leaves the unit alone -/

theorem readUncached_offDesk (n : Nat) : (readUncached n).OffDesk :=
  Act.offDesk_get fun _ => (regionRead_offDesk _ _).answers _

theorem fetchRecord_offDesk (n : Nat) : (fetchRecord n).OffDesk := by
  refine Act.offDesk_get fun s => ?_
  split
  · exact Act.offDesk_bind (Act.offDesk_modify fun _ => rfl) fun _ => Act.offDesk_pure _
  · refine Act.offDesk_ite (Act.offDesk_bind (regionRead_offDesk _ _) fun ws => Act.offDesk_ite (Act.offDesk_pure _) ?_)
      (readUncached_offDesk n)
    exact Act.offDesk_bind (Act.offDesk_modify fun _ => rfl) fun _ => Act.offDesk_pure _

theorem patrolFetch_offDesk (n : Nat) : (patrolFetch n).OffDesk := by
  refine Act.offDesk_get fun s => ?_
  split
  · exact Act.offDesk_pure _
  · exact readUncached_offDesk n

theorem writeThrough_offDesk (n : Nat) (a : Account) : (writeThrough n a).OffDesk :=
  Act.offDesk_bind (Act.offDesk_modify fun _ => rfl) fun _ => Act.offDesk_get fun _ => (regionWrite_offDesk _ _).answers _

theorem markMissed_offDesk (n : Nat) (dropped : Bool) : (markMissed n dropped).OffDesk := by
  refine Act.offDesk_ite (Act.offDesk_bind (fetchRecord_offDesk n) fun f => ?_) (Act.offDesk_pure _)
  cases f with
  | corrupt => exact Act.offDesk_modify fun _ => rfl
  | malformed => exact Act.offDesk_modify fun _ => rfl
  | record a => exact Act.offDesk_ite (Act.offDesk_pure _) ((writeThrough_offDesk _ _).answers _)

theorem queryAccount_offDesk (n : Nat) (a : Account) : (queryAccount n a).OffDesk :=
  Act.offDesk_get fun _ => Act.offDesk_ite (Act.offDesk_pure _) (Act.offDesk_pure _)

theorem zonesetWork_offDesk (c : TakenCell) : (zonesetWork c).OffDesk :=
  Act.offDesk_get fun _ => Act.offDesk_ite (Act.offDesk_pure _) (Act.offDesk_ite (Act.offDesk_pure _)
    (Act.offDesk_ite (Act.offDesk_pure _) (Act.offDesk_bind (Act.offDesk_modify fun _ => rfl) fun _ => Act.offDesk_pure _)))

theorem tuneWork_offDesk (c : TakenCell) : (tuneWork c).OffDesk := by
  have applies (maps : Vector AuthMap 8) : (applyTune c maps).OffDesk :=
    Act.offDesk_bind (Act.offDesk_modify fun s => s.tuned_desk c maps) fun _ => Act.offDesk_get fun _ => Act.offDesk_pure _
  exact Act.offDesk_get fun _ => Act.offDesk_ite (Act.offDesk_pure _) (Act.offDesk_ite
    (Act.offDesk_bind (regionRead_offDesk _ _) fun _ => Act.offDesk_ite (applies _) (Act.offDesk_pure _)) (applies _))

theorem classwriteWork_offDesk (c : TakenCell) : (classwriteWork c).OffDesk := by
  refine Act.offDesk_get fun s => Act.offDesk_ite (Act.offDesk_pure _) (Act.offDesk_ite (Act.offDesk_pure _)
    (Act.offDesk_bind (regionRead_offDesk _ _) fun image => Act.offDesk_get fun t => ?_))
  simp only
  split
  · exact Act.offDesk_pure _
  · exact Act.offDesk_bind (Act.offDesk_modify fun _ => rfl) fun _ => Act.offDesk_pure _

theorem inspect_offDesk (k : ListNo) : (inspect k).OffDesk :=
  Act.offDesk_get fun _ => Act.offDesk_ite (Act.offDesk_pure _)
    (Act.offDesk_bind (regionRead_offDesk _ _) fun _ => Act.offDesk_modify fun _ => rfl)

theorem takeCell_offDesk (k : ListNo) : (takeCell k).OffDesk :=
  Act.offDesk_get fun _ => Act.offDesk_bind (regionRead_offDesk _ _) fun _ => Act.offDesk_bind (regionWrite_offDesk _ _) fun _ =>
    Act.offDesk_bind (Act.offDesk_modify fun _ => rfl) fun _ => Act.offDesk_get fun _ => (regionWrite_offDesk _ _).answers _

theorem cellNoLongerPosted_offDesk : cellNoLongerPosted.OffDesk := by
  refine Act.offDesk_get fun s => Act.offDesk_ite ?_ (Act.offDesk_pure _)
  cases s.chosenList with
  | none => exact Act.offDesk_pure _
  | some k =>
    exact Act.offDesk_ite (Act.offDesk_pure _)
      (Act.offDesk_bind (regionRead_offDesk _ _) fun _ => Act.offDesk_modify fun _ => rfl)

theorem freeEngine_offDesk : freeEngine.OffDesk := Act.offDesk_modify fun _ => rfl

theorem writeZonePage_offDesk (zones : Vector Zone 64) (published : Word) : (writeZonePage zones published).OffDesk :=
  Act.offDesk_get fun _ => Act.offDesk_bind (Act.offDesk_forEach fun _ => regionWrite_offDesk _ _) fun _ =>
    Act.offDesk_bind (regionWrite_offDesk _ _) fun _ => Act.offDesk_bind (regionWrite_offDesk _ _) fun _ =>
      regionWriteWhole_offDesk _ _

theorem publish_offDesk : publish.OffDesk :=
  Act.offDesk_bind (Act.offDesk_modify fun _ => rfl) fun _ => Act.offDesk_get fun _ =>
    Act.offDesk_bind (writeZonePage_offDesk _ _) fun _ => regionWrite_offDesk _ _

theorem finishPublication_offDesk : finishPublication.OffDesk :=
  Act.offDesk_get fun _ => Act.offDesk_ite publish_offDesk (Act.offDesk_pure _)

theorem writeClockWords_offDesk : writeClockWords.OffDesk :=
  Act.offDesk_get fun _ => Act.offDesk_ite (regionWrite_offDesk _ _) (Act.offDesk_pure _)

theorem readEntries_offDesk (zs : List (Fin 64)) : ∀ v, (readEntries zs v).OffDesk := by
  induction zs with
  | nil => exact fun _ => Act.offDesk_pure _
  | cons z zs ih => exact fun v => Act.offDesk_get fun _ => Act.offDesk_bind (regionRead_offDesk _ _) fun _ => ih _

theorem failAccess_offDesk (after written : Nat) : (failAccess after written).OffDesk := by
  intro d s hs
  cases after with
  | zero => by_cases attached : s.attached = true <;> simpa [failAccess, attached] using hs
  | succ n =>
    by_cases faulted : s.engineState = .faulted
    · simpa [failAccess, faulted] using hs
    · simp only [failAccess, if_neg faulted]
      exact hs

end Sys2Proof.Machine
end

-- ==== Proofs: works as runs of the notice unit ====
section
/-! How many notices each work raises, and that each work is a run of the notice unit (O56, O6). -/

namespace Sys2Proof.Machine

/-! ### How many notices a work raises -/

theorem length_notice_of_test (hit : Bool) (n : Notice) : (if hit then [n] else []).length ≤ 1 := by
  cases hit <;> simp

theorem expiryTest_length (f : InForce) (minute : Word) (n : Nat) (zone : Option ZoneNo) (a : Account) :
    (expiryTest f minute n zone a).2.length ≤ 1 := by
  rw [expiryTest_eq]
  exact length_notice_of_test _ _

theorem warningTest_length (f : InForce) (minute : Word) (n : Nat) (zone : Option ZoneNo) (a : Account) :
    (warningTest f minute n zone a).2.length ≤ 1 := by
  rw [warningTest_eq]
  exact length_notice_of_test _ _

theorem State.foldIn_length (s : State) (n : Nat) (z : ZoneNo) (a : Account) : (s.foldIn n z a).2.length ≤ 2 := by
  unfold State.foldIn foldAccount
  simp only [List.length_append]
  exact Nat.add_le_add (expiryTest_length _ _ _ _ _) (warningTest_length _ _ _ _ _)

theorem State.enterZone_length (s : State) (n : Nat) (z : ZoneNo) (a : Account) : (s.enterZone n z a).2.length ≤ 3 := by
  unfold State.enterZone
  simp only [List.length_append, State.exhaustedNotices_eq]
  exact Nat.add_le_add (Nat.add_le_add (expiryTest_length _ _ _ _ _) (warningTest_length _ _ _ _ _)) (length_notice_of_test _ _)

theorem State.exitCredit_length (s : State) (n : Nat) (z : ZoneNo) (a : Account) :
    (s.exitCredit n z a).notices.length ≤ 1 := by
  have none : (noCredit a).notices.length ≤ 1 := Nat.zero_le _
  unfold State.exitCredit
  split
  · exact none
  · split
    · exact none
    · exact none
    · unfold dryRecovery
      split
      · exact le_rfl
      · exact none
    · unfold bakeCredit
      split
      · exact none
      · exact le_rfl

theorem State.leaveZone_length (s : State) (n : Nat) (z : ZoneNo) (a : Account) : (s.leaveZone n z a).notices.length ≤ 3 := by
  rw [State.leaveZone_eq, List.length_append]
  exact Nat.add_le_add (s.foldIn_length n z a) (s.exitCredit_length n z _)

theorem State.amended_length (s : State) (c : TakenCell) (n : Nat) (a : Account) : (s.amended c n a).2.length ≤ 4 := by
  have fold : (s.amendFold n a).2.length ≤ 2 := by
    unfold State.amendFold
    split
    · exact s.foldIn_length n _ a
    · exact Nat.zero_le _
  simp only [State.amended_eq, amendTests_eq, List.length_append]
  exact Nat.add_le_add fold (Nat.add_le_add (length_notice_of_test _ _) (length_notice_of_test _ _))

theorem staleNotices_length (zones : Vector Zone 64) (minute : Word) : (staleNotices zones minute).length ≤ 64 := by
  unfold staleNotices
  exact (List.length_filterMap_le _ _).trans (List.length_finRange).le

/-- A sample raises one notice at most (R62). -/
theorem examineSample_notices_length (m : AuthMap) (minute : Word) (xs : List Sample) :
    ∀ r : SampleRun, (xs.foldl (examineSample m minute) r).notices.length ≤ r.notices.length + xs.length := by
  induction xs with
  | nil => exact fun _ => le_rfl
  | cons x xs ih =>
    intro r
    have one : (examineSample m minute r x).notices.length ≤ r.notices.length + 1 := by
      unfold examineSample restoredNotices
      simp only
      split
      · exact Nat.le_succ _
      · split
        · exact Nat.le_succ _
        · split
          · exact Nat.le_succ _
          · rw [List.length_append]
            split <;> simp
    refine (ih (examineSample m minute r x)).trans ?_
    rw [List.length_cons]
    omega

section

variable {α β : Type} {rank received : Nat}

/-! ### The kinds of cell -/

theorem settleAccount_runs (n : Nat) (a : Account) {counts : State → State} (h : ∀ s, (counts s).desk = s.desk) {ns : List Notice}
    (le : ns.length ≤ received) : (settleAccount n a counts ns).Runs rank received :=
  Act.runs_after (writeThrough_offDesk n a) fun _ => Act.runs_after (Act.offDesk_modify h) fun _ =>
    Act.Runs.answers (Act.runs_before ((handNotices_runs ns).le le) fun _ => markMissed_offDesk n _) _

theorem onAccount_runs (c : TakenCell) (compareTag : Bool) (zonesOf : Account → List Nat) {work : Nat → Account → Act Answer}
    (some : 1 ≤ received) (h : ∀ n a, (work n a).Runs rank received) : (onAccount c compareTag zonesOf work).Runs rank received := by
  refine Act.runs_get fun s => Act.runs_ite (fun _ => Act.runs_pure _) fun _ =>
    Act.runs_after (fetchRecord_offDesk _) fun f => ?_
  cases f with
  | corrupt => exact (reportNotice_runs _ some).answers _
  | malformed => exact (reportNotice_runs _ some).answers _
  | record a =>
    exact Act.runs_ite (fun _ => Act.runs_pure _) fun _ => Act.runs_ite (fun _ => Act.runs_pure _) fun _ => h _ a

theorem enrolAccount_runs (c : TakenCell) (n : Nat) (a : Account) : (enrolAccount c n a).Runs rank 6 := by
  refine Act.runs_get fun s => Act.runs_ite (fun _ => Act.runs_pure _) fun _ =>
    Act.runs_ite (fun _ => Act.runs_pure _) fun _ => ?_
  simp only
  split
  · exact Act.runs_pure _
  · refine Act.runs_ite (fun _ => Act.runs_pure _) fun _ => (settleAccount_runs _ _ (fun _ => by rfl) ?_).answers _
    exact (expiryTest_length _ _ _ _ _).trans (by decide)

theorem openAccount_runs (c : TakenCell) (n : Nat) (a : Account) : (openAccount c n a).Runs rank 6 :=
  Act.runs_get fun s => Act.runs_ite (fun _ => Act.runs_pure _) fun _ => Act.runs_ite (fun _ => Act.runs_pure _) fun _ =>
    Act.runs_after (Act.offDesk_modify fun s => s.watchAccount_desk n _) fun _ =>
      (settleAccount_runs _ _ (fun _ => by rfl) ((s.enterZone_length n _ a).trans (by decide))).answers _

theorem moveAccount_runs (c : TakenCell) (n : Nat) (a : Account) : (moveAccount c n a).Runs rank 6 := by
  refine Act.runs_get fun s => ?_
  cases a.zone with
  | none => exact Act.runs_pure _
  | some src =>
    refine Act.runs_ite (fun _ => Act.runs_pure _) fun _ => Act.runs_ite (fun _ => Act.runs_pure _) fun _ =>
      Act.runs_after (Act.offDesk_modify fun s => s.repooled_desk n a _) fun _ =>
        (settleAccount_runs _ _ (fun _ => by rw [State.noteBake_desk]; rfl) ?_).answers _
    rw [List.length_append]
    exact Nat.add_le_add (s.leaveZone_length n src a) (s.enterZone_length n _ _)

theorem bagAccount_runs (n : Nat) (a : Account) : (bagAccount n a).Runs rank 6 := by
  refine Act.runs_get fun s => ?_
  cases a.zone with
  | none => exact Act.runs_pure _
  | some z =>
    exact Act.runs_after (Act.offDesk_modify fun s => s.unpooled_desk n a) fun _ =>
      (settleAccount_runs _ _ (fun _ => by rw [State.noteBake_desk]; rfl)
        ((s.leaveZone_length n z a).trans (by decide))).answers _

theorem retireAccount_runs (n : Nat) (a : Account) : (retireAccount n a).Runs rank 6 := by
  refine Act.runs_get fun s => Act.runs_ite (fun _ => Act.runs_pure _) fun _ => ?_
  cases a.zone with
  | none => exact (settleAccount_runs _ _ (fun _ => by rfl) (Nat.zero_le _)).answers _
  | some z =>
    exact Act.runs_after (Act.offDesk_modify fun s => s.unpooled_desk n a) fun _ =>
      (settleAccount_runs _ _ (fun _ => by rfl) ((s.foldIn_length n z a).trans (by decide))).answers _

theorem amendAccount_runs (c : TakenCell) (n : Nat) (a : Account) : (amendAccount c n a).Runs rank 6 := by
  refine Act.runs_get fun s => ?_
  cases s.amendRefusal c a with
  | some r => exact Act.runs_pure _
  | none =>
    have settles : (settleAccount n (s.amended c n a).1 (fun t => t.countAmend a (s.amended c n a).1)
        (s.amended c n a).2).Runs rank 6 :=
      settleAccount_runs _ _ (fun t => t.countAmend_desk _ _) ((s.amended_length c n a).trans (by decide))
    exact Act.runs_ite (fun _ => Act.runs_after (Act.offDesk_modify fun s => s.repooled_desk n a _) fun _ => settles.answers _)
      fun _ => settles.answers _

theorem climateWork_runs (c : TakenCell) : (climateWork c).Runs rank 6 := by
  refine Act.runs_get fun s => Act.runs_ite (fun _ => Act.runs_pure _) fun _ =>
    Act.runs_after (Act.offDesk_modify fun _ => rfl) fun _ => ((reportNotices_runs _).le ?_).answers _
  have samples := examineSample_notices_length s.maps[c.list] s.minute (c.samples.take c.sampleCount) ⟨s.zones, [], []⟩
  have four : (c.samples.take c.sampleCount).length ≤ 4 := List.length_take_le' _ _
  exact samples.trans (by simp only [List.length_nil]; omega)

/-! ### The intake (R162 to R166) -/

/-- A completion sends CELL_DONE if asked (R166). -/
theorem completeCell_runs (c : TakenCell) (a : Answer) : (completeCell c a).Runs 1 received :=
  Act.runs_get fun _ => Act.runs_after (regionWrite_offDesk _ _) fun _ => Act.runs_after (regionWrite_offDesk _ _) fun _ =>
    Act.runs_after (regionWriteWhole_offDesk _ _) fun _ => Act.runs_after (Act.offDesk_modify fun _ => rfl) fun _ =>
      Act.runs_ite (fun _ => Act.runs_before (raises _) fun _ => inspect_offDesk _) fun _ => (inspect_offDesk _).runs
where
  raises (received : Nat) : Act.Runs 1 received (modify fun t => t.raiseCause .cellDone) := Act.runs_modify fun s => by
    rw [State.raiseCause_desk]
    refine .event s.desk (.raised .cellDone) le_rfl trivial ?_
    show 0 + (Desk.raise _ _).held.length ≤ _
    rw [Desk.raise_frame]
    simp

/-- The command of a kind of cell, from the work of its kind. -/
theorem serveCell_runs {kinds : Nat → Bool} {work : TakenCell → Act (Option Answer)} (h : ∀ c, (work c).Runs 1 received) :
    (serveCell kinds work).Runs 1 received := by
  refine Act.runs_get fun s => Act.runs_ite (fun _ => ?_) fun _ => Act.runs_pure _
  cases s.chosenList with
  | none => exact Act.runs_pure _
  | some k =>
    refine Act.runs_ite (fun _ => Act.runs_after (takeCell_offDesk k) fun c => Act.runs_get fun t => ?_) fun _ =>
      Act.runs_pure _
    cases t.intakeRefusal c with
    | some r => exact completeCell_runs c _
    | none =>
      refine (Act.runs_bind (more := 0) (h c) fun answer => ?_)
      cases answer with
      | some a => exact completeCell_runs c a
      | none => exact freeEngine_offDesk.runs

/-! ### Hand-overs and the patrol (R27, R28, R115 to R118) -/

theorem removeEntry_offDesk (n : Nat) : Act.OffDesk (modify fun s => s.removeEntry n) :=
  Act.offDesk_modify fun s => s.removeEntry_desk n

theorem dropFaulty_runs (e : WatchEntry) (what : Nat) : (dropFaulty e what).Runs rank 1 :=
  Act.runs_after (removeEntry_offDesk _) fun _ => Act.runs_get fun _ => reportNotice_runs _ le_rfl

theorem giveWarning_runs (e : WatchEntry) (a : Account) : (giveWarning e a).Runs rank 1 :=
  Act.runs_get fun _ => Act.runs_after (Act.offDesk_modify fun s => s.rewatch_desk _ _) fun _ =>
    Act.runs_ite (fun _ => Act.runs_pure _) fun _ => (settleAccount_runs _ _ (fun _ => by rfl) le_rfl).answers _

theorem giveExpiry_runs (e : WatchEntry) (a : Account) : (giveExpiry e a).Runs rank 1 :=
  Act.runs_get fun _ => Act.runs_after (removeEntry_offDesk _) fun _ =>
    (settleAccount_runs _ _ (fun _ => by rfl) le_rfl).answers _

theorem serveHandover_runs {e : WatchEntry} {work : Fetched → Act Unit} (h : ∀ f, (work f).Runs rank received) :
    (serveHandover e work).Runs rank received :=
  Act.runs_after (Act.offDesk_modify fun _ => rfl) fun _ => Act.runs_after (fetchRecord_offDesk _) fun f =>
    Act.runs_before (h f) fun _ => freeEngine_offDesk

theorem serveWarning_runs (e : WatchEntry) : (serveWarning e).Runs rank 1 := by
  rw [serveWarning_eq]
  refine serveHandover_runs fun f => ?_
  cases f with
  | corrupt => exact dropFaulty_runs e 1
  | malformed => exact dropFaulty_runs e 2
  | record a => exact Act.runs_ite (fun _ => (removeEntry_offDesk _).runs) fun _ => giveWarning_runs e a

theorem serveExpiry_runs (e : WatchEntry) : (serveExpiry e).Runs rank 1 := by
  have faulty (what : Nat) : (expireFaulty e what).Runs rank 1 :=
    Act.runs_after (Act.offDesk_modify fun _ => rfl) fun _ => dropFaulty_runs e what
  rw [serveExpiry_eq]
  refine serveHandover_runs fun f => ?_
  cases f with
  | corrupt => exact faulty 1
  | malformed => exact faulty 2
  | record a => exact Act.runs_ite (fun _ => (removeEntry_offDesk _).runs) fun _ => giveExpiry_runs e a

/-- A hand-over is served where one is presented (R10). -/
theorem handover_runs {stage : Stage} {serve : WatchEntry → Act Unit} (h : ∀ e, (serve e).Runs rank received) :
    Act.Runs rank received (do
      let s ← get
      match s.handoverAt stage with
      | some e => serve e
      | none => pure ()) := by
  refine Act.runs_get fun s => ?_
  cases s.handoverAt stage with
  | none => exact Act.runs_pure _
  | some e => exact h e

theorem patrolReadOne_runs : patrolReadOne.Runs rank 1 := by
  refine Act.runs_get fun s => Act.runs_ite (fun _ => Act.runs_after (patrolFetch_offDesk _) fun f =>
    Act.runs_after (Act.offDesk_modify fun _ => rfl) fun _ => Act.runs_get fun t => ?_) fun _ => Act.runs_pure _
  cases f with
  | corrupt => exact reportNotice_runs _ le_rfl
  | malformed => exact reportNotice_runs _ le_rfl
  | record a => exact Act.runs_ite (fun _ => (Act.offDesk_modify fun _ => rfl).runs) fun _ => Act.runs_pure _

theorem patrolSettle_runs (n : Nat) (z : ZoneNo) (a : Account) : (patrolSettle n z a).Runs rank 1 := by
  have watch (b : Account) : Act.OffDesk (modify fun s => s.patrolWatch n b) := Act.offDesk_modify fun s => s.patrolWatch_desk n b
  refine Act.runs_get fun s => Act.runs_ite (fun _ => ?expiry) fun _ => Act.runs_ite (fun _ => ?warning) fun _ => (watch a).runs
  case expiry =>
    exact Act.runs_get fun _ => Act.runs_after (Act.offDesk_modify fun _ => rfl) fun _ =>
      (settleAccount_runs _ _ (fun _ => by rfl) le_rfl).answers _
  case warning =>
    exact Act.runs_get fun _ => Act.runs_after (watch _) fun _ => (settleAccount_runs _ _ (fun _ => by rfl) le_rfl).answers _

theorem servePatrol_runs (n : Nat) : (servePatrol n).Runs rank 1 := by
  have frees {a : Act Unit} (h : a.Runs rank 1) : Act.Runs rank 1 (do a; freeEngine) :=
    Act.runs_before h fun _ => freeEngine_offDesk
  refine Act.runs_after (Act.offDesk_modify fun _ => rfl) fun _ => Act.runs_after (fetchRecord_offDesk n) fun f =>
    Act.runs_get fun t => ?_
  cases f with
  | corrupt => exact frees (reportNotice_runs _ le_rfl)
  | malformed => exact frees (reportNotice_runs _ le_rfl)
  | record a =>
    simp only
    cases a.zone with
    | none => exact freeEngine_offDesk.runs
    | some z => exact Act.runs_ite (fun _ => frees (patrolSettle_runs n z a)) fun _ => freeEngine_offDesk.runs

theorem patrolWork_runs : patrolWork.Runs rank 1 := by
  refine Act.runs_get fun s => Act.runs_ite (fun _ => ?_) fun _ => Act.runs_pure _
  cases s.heldAccount with
  | none => exact Act.runs_pure _
  | some n => exact servePatrol_runs n

/-! ### Timers and the clock -/

theorem inspections_runs (ks : List ListNo) : Act.Runs rank 0 (do forEach ks inspect; readTaken) :=
  Act.runs_after (Act.offDesk_forEach fun k => inspect_offDesk k) fun _ => readTaken_runs

theorem nudgeCommand_runs (mask : BitVec 8) : (nudgeCommand mask).Runs rank 0 :=
  Act.runs_get fun _ => Act.runs_ite (fun _ => inspections_runs _) fun _ => Act.runs_pure _

theorem scanExpiry_runs : scanExpiry.Runs rank 0 :=
  Act.runs_get fun _ => Act.runs_ite (fun _ => inspections_runs _) fun _ => Act.runs_pure _

theorem boundary_runs : boundary.Runs rank 64 := by
  intro s
  refine Act.runsAt_get ?_
  cases s.clock with
  | unset => exact Act.runs_pure _ s
  | held m stall =>
    have advances : Act.RunsAt rank 0 (set (s.advanceMinute m stall)) s := by
      show s.desk.Runs rank 0 (s.advanceMinute m stall).desk
      rw [s.advanceMinute_desk]
      exact .refl _
    have begins (zones : Vector Zone 64) : Act.OffDesk (do
        modify fun t : State => t.examine zones
        modify State.startBatch) :=
      Act.offDesk_bind (Act.offDesk_modify fun _ => rfl) fun _ => Act.offDesk_modify fun _ => rfl
    exact Act.runsAt_then advances fun _ t _ =>
      Act.runs_before ((reportNotices_runs _).le (staleNotices_length _ _)) (fun _ => begins _) t

/-- The zones charged and the clock set stand as variables, so that Lean does not unfold their 64 zones. -/
theorem State.charged_desk (s : State) (zones : Vector Zone 64) (clock : Clock) :
    ({ s with zones := zones, clock := clock, remaining := 0 } : State).desk = s.desk := rfl

/-- The work stands as a variable `a`, so that Lean does not unfold its 64 zones where the lemma is applied. -/
theorem gapAccrual_runs {start value : Word} {g cleared : Nat} {a : Act Unit} (ha : gapAccrual start value g cleared = a) :
    a.Runs rank 65 := by
  rw [← ha]
  refine Act.runs_get ?_
  intro s
  extract_lets charged
  clear_value charged
  refine Act.runs_after (Act.offDesk_modify fun t => t.charged_desk _ _) fun _ => ?_
  exact Act.runs_bind (received := 64) (more := 1) ((reportNotices_runs _).le (staleNotices_length _ _)) fun _ =>
    Act.runs_after (Act.offDesk_modify fun _ => rfl) fun _ =>
      Act.runs_before (reportNotice_runs _ le_rfl) fun _ => publish_offDesk

theorem setFromUnset_runs (v : Word) : (setFromUnset v).Runs rank 65 := by
  refine Act.runs_get fun s => ?_
  generalize ha : gapAccrual s.published v (v.toNat - s.published.toNat) 0 = a
  exact Act.runs_ite
    (fun _ => Act.runs_after (Act.offDesk_modify fun _ => rfl) fun _ => (publish_offDesk.answers _).runs)
    fun _ => Act.runs_ite (fun _ => Act.runs_pure _) fun _ => (gapAccrual_runs ha).answers _

/-- A small step makes one boundary for each minute left over (R130). -/
theorem stepForward_runs (m : Word) (stall : Fin 16) {k : Nat} (small : k ≤ 15) : (stepForward m stall k).Runs rank 960 := by
  have boundaries : (repeatAct (k - stall.val) boundary).Runs rank 960 :=
    (Act.runs_repeatAct boundary_runs (k - stall.val)).le (by omega)
  exact Act.runs_after (Act.offDesk_modify fun _ => rfl) fun _ =>
    Act.runs_ite (fun _ => (writeClockWords_offDesk.answers _).runs) fun _ =>
      Act.runs_before boundaries fun _ => publish_offDesk.answers _

theorem stepBack_offDesk (m : Word) (stall : Fin 16) (k : Nat) : (stepBack m stall k).OffDesk :=
  Act.offDesk_bind (Act.offDesk_modify fun _ => rfl) fun _ => writeClockWords_offDesk.answers _

theorem correct_runs (m : Word) (stall : Fin 16) (v : Word) : (correct m stall v).Runs rank 960 := by
  unfold correct
  simp only
  generalize ha : gapAccrual m v (v.toNat - m.toNat) stall.val = a
  exact Act.runs_ite (fun _ => Act.runs_pure _) fun _ => Act.runs_ite (fun small => stepForward_runs _ _ (by omega)) fun _ =>
    Act.runs_ite (fun _ => ((gapAccrual_runs ha).le (by decide)).answers _) fun _ =>
      Act.runs_ite (fun _ => (stepBack_offDesk _ _ _).runs) fun _ => Act.runs_pure _

theorem clocksetWork_runs (c : TakenCell) : (clocksetWork c).Runs rank 960 := by
  have applies (v : Word) : (applyClock v).Runs rank 960 := by
    refine Act.runs_after finishPublication_offDesk fun _ => Act.runs_get fun s => ?_
    cases s.clock with
    | unset => exact (setFromUnset_runs v).le (by decide)
    | held m stall => exact correct_runs m stall v
  exact Act.runs_get fun _ => Act.runs_ite (fun _ => Act.runs_pure _) fun _ =>
    Act.runs_before (applies _) fun _ => Act.offDesk_get fun _ => Act.offDesk_pure _

theorem minuteExpiry_runs : minuteExpiry.Runs rank 64 := by
  refine Act.runs_after finishPublication_offDesk fun _ => Act.runs_get fun s => ?_
  cases s.clock with
  | unset => exact Act.runs_pure _
  | held m stall =>
    exact Act.runs_ite
      (fun _ => Act.runs_after (Act.offDesk_modify fun _ => rfl) fun _ => writeClockWords_offDesk.runs)
      fun _ => Act.runs_ite (fun _ => Act.runs_before boundary_runs fun _ => Act.offDesk_modify fun _ => rfl) fun _ =>
        Act.runs_pure _

/-! ### Registers, stops and the class store -/

/-- An engine state other than FAULTED. -/
theorem Desk.Runs.wakes {s t : State} (h : t.desk = s.desk.play .woken) : s.desk.Runs rank 0 t.desk := by
  rw [h]
  exact .event _ _ (Nat.zero_le _) trivial (Nat.zero_add _).le

theorem stopCommand_offDesk : stopCommand.OffDesk := Act.offDesk_modify fun _ => by split <;> rfl

theorem stopCompletion_runs : stopCompletion.Runs rank 0 := by
  refine Act.runs_get fun _ => Act.runs_ite (fun _ => ?_) fun _ => Act.runs_pure _
  refine Act.runs_then readTaken_runs fun _ => Act.runs_then (Act.runs_modify fun s => ?discards) fun _ =>
    Act.runs_after publish_offDesk fun _ => Act.runs_get fun _ => Act.runs_after (regionWriteWhole_offDesk _ _) fun _ =>
      Act.runs_after (Act.offDesk_modify fun _ => rfl) fun _ => Act.runs_get fun _ =>
        Act.runs_after (regionWrite_offDesk _ _) fun _ => Act.runs_modify fun s => ?ends
  case discards => exact Desk.Runs.event s.desk .discarded (Nat.zero_le _) trivial (Nat.zero_le _)
  case ends => exact .wakes rfl

theorem applyCompletion_runs (p : Programming) (success : Bool) : (applyCompletion p success).Runs 1 1 := by
  have ends (running : Prop) [Decidable running] (n : Notice) (a : Answer) :
      Act.Runs 1 1 (if running then do reportNotices [n]; completeCell p.cell a else pure ()) :=
    Act.runs_ite (fun _ => Act.runs_bind (more := 0) (reportNotice_runs n le_rfl) fun _ => completeCell_runs _ _) fun _ =>
      Act.runs_pure _
  intro s
  have applies : Act.RunsAt 1 0 (set (s.applied p success)) s := by
    show s.desk.Runs 1 0 (s.applied p success).desk
    rw [s.applied_desk]
    exact .refl _
  refine Act.runsAt_get ?_
  cases success <;> exact Act.runsAt_then applies fun _ t _ => ends _ _ _ t

theorem classCompletion_runs : classCompletion.Runs 1 1 := by
  refine Act.runs_get fun s => ?_
  cases s.prog with
  | none => exact Act.runs_pure _
  | some p =>
    simp only
    cases p.ended with
    | none => exact Act.runs_pure _
    | some success => exact Act.runs_ite (fun _ => applyCompletion_runs p success) fun _ => Act.runs_pure _

/-! ### Attachment (R143, R170 to R172) -/

theorem raiseCause_attach_runs (c : Cause) (ranked : (Event.raised c).rank ≤ 2) (s : State) :
    s.desk.Runs 2 0 (s.raiseCause c).desk := by
  rw [State.raiseCause_desk]
  exact ⟨_, .plays (.raised c) .stays ranked trivial, fun low => absurd low (by decide)⟩

theorem walkRecord_runs (n : Nat) (a : Account) : (walkRecord n a).Runs 2 0 := by
  refine Act.runs_ite (fun _ => Act.runs_pure _) fun _ => Act.runs_after (Act.offDesk_modify fun _ => rfl) fun _ => ?_
  cases a.zone with
  | none => exact Act.runs_pure _
  | some z =>
    exact Act.runs_get fun s => Act.runs_ite
      (fun _ => (Act.offDesk_bind (Act.offDesk_modify fun t => (t.countZone z 1 a.expiredCount).watchAccount_desk n a) fun _ =>
        Act.offDesk_pure _).runs)
      fun _ => (reportNotices_runs _).uncounted.answers _

theorem walkAccount_runs (n : Nat) : (walkAccount n).Runs 2 0 := by
  refine Act.runs_after (readUncached_offDesk n) fun f => Act.runs_get fun s => ?_
  cases f with
  | corrupt => exact (reportNotices_runs _).uncounted.answers _
  | malformed => exact (reportNotices_runs _).uncounted.answers _
  | record a => exact walkRecord_runs n a

theorem walkCell_runs (k : ListNo) (i : Nat) : (walkCell k i).Runs 2 0 := by
  refine Act.runs_get fun s => Act.runs_after (regionRead_offDesk _ _) fun w0 =>
    Act.runs_ite (fun _ => Act.runs_after (regionRead_offDesk _ _) fun w1 => Act.runs_after (regionWrite_offDesk _ _) fun _ =>
      Act.runs_after (regionWrite_offDesk _ _) fun _ => Act.runs_after (regionWriteWhole_offDesk _ _) fun _ => ?_)
      fun _ => Act.runs_pure _
  exact Act.runs_ite
    (fun _ => Act.runs_before (Act.runs_modify (raiseCause_attach_runs .cellDone (by decide))) fun _ => Act.offDesk_pure _)
    fun _ => Act.runs_pure _

theorem walkCells_runs : walkCells.Runs 2 0 :=
  Act.runs_get fun _ => Act.runs_sumOver fun k => Act.runs_sumOver fun i => walkCell_runs k i

theorem endAttach_runs (fresh : Bool) (abandoned faulty : Nat) : (endAttach fresh abandoned faulty).Runs 2 0 :=
  Act.runs_get fun _ => Act.runs_then (reportNotices_runs _).uncounted fun _ =>
    Act.runs_then (Act.runs_modify fun _ => .wakes rfl) fun _ => Act.runs_get fun _ =>
      Act.runs_after (regionWrite_offDesk _ _) fun _ =>
        Act.runs_modify fun s => raiseCause_attach_runs .attachEnd le_rfl { s with scanRunning := true }

theorem finishAttach_runs (b : LayoutBlock) : (finishAttach b).Runs 2 0 :=
  Act.runs_after (Act.offDesk_modify fun _ => rfl) fun _ => Act.runs_then (Act.runs_sumOver walkAccount_runs) fun _ =>
    Act.runs_then walkCells_runs fun _ => endAttach_runs _ _ _

theorem State.failAttach_runs (s : State) (code : AttachFail) : s.desk.Runs 2 0 (s.failAttach code).desk := by
  have wakes : s.desk.Runs 2 0 ({ s with
      attachFail := code
      zones := Vector.replicate 64 Zone.undefined
      published := noWord
      engineState := .idle } : State).desk := .wakes rfl
  exact wakes.trans (raiseCause_attach_runs .attachEnd le_rfl _)

/-- The log as an attach sets it up, with the W and the T it finds (R145, R147, R170). -/
theorem Desk.Runs.begins {s t : State} (written taken : Word) {capacity : Nat} (small : capacity ≤ 4096)
    (h : t.desk = s.desk.play (.begun written taken capacity)) : s.desk.Runs 2 0 t.desk := by
  rw [h]
  exact .event _ _ le_rfl small (Nat.zero_add _).le

theorem attachFresh_runs {capacity : Nat} (small : capacity ≤ 4096) (flag : Word) : (attachFresh capacity flag).Runs 2 0 := by
  have zero : reckonTaken 0 capacity 0 = 0 := if_pos (Nat.zero_le _)
  exact Act.runs_then (Act.runs_modify fun s => .begins 0 0 small (by simp only [State.desk, Desk.play, zero])) fun _ =>
    Act.OffDesk.runs (Act.offDesk_get fun _ => Act.offDesk_bind (writeZonePage_offDesk _ _) fun _ => Act.offDesk_get fun _ =>
      Act.offDesk_bind (regionWrite_offDesk _ _) fun _ => regionWrite_offDesk _ _)

theorem attachLoaded_runs {capacity : Nat} (small : capacity ≤ 4096) : (attachLoaded capacity).Runs 2 0 := by
  refine Act.runs_get fun _ => Act.runs_after (regionRead_offDesk _ _) fun header =>
    Act.runs_after (readEntries_offDesk _ _) fun entries => ?_
  cases zonesOfPage header entries with
  | none => exact Act.runs_before (Act.runs_modify fun s => s.failAttach_runs _) fun _ => Act.offDesk_pure _
  | some zones =>
    exact Act.runs_after (Act.offDesk_modify fun _ => rfl) fun _ => Act.runs_after (regionRead_offDesk _ _) fun page =>
      Act.runs_before (Act.runs_modify fun s => .begins page[1] page[0] small rfl) fun _ => Act.offDesk_pure _

theorem startCommand_runs : startCommand.Runs 2 0 := by
  refine Act.runs_get fun _ => Act.runs_ite (fun _ => Act.runs_then (Act.runs_modify fun _ => .wakes rfl) fun _ =>
    Act.runs_after (regionRead_offDesk _ _) fun w => Act.runs_ite (fun valid => ?_) fun _ =>
      Act.runs_modify fun s => s.failAttach_runs _) fun _ => Act.runs_pure _
  have small : (layoutBlockOf w).capacity ≤ 4096 := by
    obtain ⟨-, -, log, -⟩ := layoutValid_facts valid
    revert log
    generalize (layoutBlockOf w).capacity = capacity
    simp only [logCapacities, List.mem_cons, List.not_mem_nil, or_false]
    omega
  exact Act.runs_after (Act.offDesk_modify fun _ => rfl) fun _ => Act.runs_ite
    (fun _ => Act.runs_then (attachFresh_runs small _) fun _ => finishAttach_runs _)
    fun _ => Act.runs_then (attachLoaded_runs small) fun _ => Act.runs_ite (fun _ => finishAttach_runs _) fun _ => Act.runs_pure _

end

end Sys2Proof.Machine
end

-- ==== Proofs: the notice unit under every command ====
section
/-! Every command as a run of the notice unit, and that every step keeps the unit sound (O56). -/

namespace Sys2Proof.Machine

/-! ### Every command -/

/-- Which events a command can run: START sets the log up, the commands of cells complete cells (R154, R170). -/
def commandRank (c : Instr) : Nat :=
  match c with
  | .start _ _ => 2
  | _ => if c.completesCells then 1 else 0

/-- Entry to FAULTED (R174). -/
def Desk.fault (d : Desk) : Desk := Desk.raise { d with faulted := true } .fault

theorem State.enterFaulted_desk (s : State) : s.enterFaulted.desk = s.desk.fault :=
  State.raiseCause_desk _ .fault

theorem Desk.Sound.fault {d : Desk} (h : d.Sound) : d.fault.Sound :=
  have entered : Desk.Sound { d with faulted := true } := ⟨h.held, h.keys, h.flag, h.occupancy, h.capacity⟩
  entered.raise .fault

/-- A command ends with a run of events, or in FAULTED after one that a failed access cut (R174). -/
def Desk.Ends (rank : Nat) (d : Desk) (k : Nat) (e : Desk) : Prop :=
  ∃ x, Desk.Goes rank d k x ∧ (e = x ∨ e = x.fault)

section

variable {rank received k : Nat} {d e : Desk}

theorem Desk.fault_frame (d : Desk) :
    d.fault = { d with faulted := true, causes := d.fault.causes, messages := d.fault.messages } :=
  Desk.raise_frame _ _

theorem Desk.Ends.sound (h : d.Ends rank k e) (sound : d.Sound) : e.Sound := by
  obtain ⟨x, run, rfl | rfl⟩ := h
  · exact run.sound sound
  · exact (run.sound sound).fault

theorem Desk.Ends.enables (h : d.Ends rank k e) : e.enables = d.enables := by
  obtain ⟨x, run, rfl | rfl⟩ := h
  · exact run.messages.2
  · rw [Desk.fault_frame]
    exact run.messages.2

/-- Of a work that is concluded. -/
theorem Act.Runs.leaves {a : Act Unit} (works : a.Runs rank received) (u : State) :
    ∃ k, u.desk.Ends rank k (u.after a).desk ∧ (rank ≤ 1 → k ≤ u.heldNotices.length + received) := by
  unfold State.after
  cases ends : a u with
  | ok _ t =>
    obtain ⟨k, run, bound⟩ := (works u).ok ends
    exact ⟨k, ⟨t.desk, run, .inl rfl⟩, fun low => (Nat.le_add_right _ _).trans (bound low)⟩
  | error _ t =>
    obtain ⟨k, run, bound⟩ := (works u).error ends
    exact ⟨k, ⟨t.desk, run, .inr t.enterFaulted_desk⟩, fun low => (Nat.le_add_right _ _).trans (bound low)⟩

end

/-- Of a state whose enables were written, the rest of the unit is as it was. -/
theorem Desk.Sound.enabled {d : Desk} (h : d.Sound) (enables : BitVec 5) : Desk.Sound { d with enables := enables } :=
  ⟨h.held, h.keys, h.flag, h.occupancy, h.capacity⟩

/-- A CONTROL word that carries no command stores its enables alone (R158). -/
theorem writeControl_plain {value : Word} (plain : controlCarriesNoCommand value = true) :
    writeControl value = (do storeEnables (value.extractLsb' 8 5); pure ()) := by
  simp only [controlCarriesNoCommand, Bool.and_eq_true, Bool.not_eq_true', beq_iff_eq] at plain
  obtain ⟨noReset, both⟩ := plain
  unfold writeControl
  simp only [noReset, both, Bool.and_not_self, Bool.false_eq_true, ↓reduceIte]

/-- A write of a register other than CONTROL (R158). -/
theorem writeRegister_offDesk {reg : RegName} (value : Word) (other : reg ≠ .control) : (writeRegister reg value).OffDesk := by
  cases reg with
  | id => exact Act.offDesk_pure _
  | baseLo => exact Act.offDesk_modify fun _ => by split <;> rfl
  | baseHi => exact Act.offDesk_modify fun _ => by split <;> rfl
  | control => exact absurd rfl other

theorem exec_controlWrite {value : Word} (plain : controlCarriesNoCommand value = true) (s : State) (stores : HostStores) :
    exec (.registerWrite stores .control value) s
      = .next (State.after { s with mem := s.mem.land stores, enables := value.extractLsb' 8 5 } (pure ())) := by
  show Host.Outcome.next (State.after { s with mem := s.mem.land stores } (writeControl value)) = _
  rw [writeControl_plain plain]
  rfl

/-- Every command but a reset and STATUS_WRITE is a work that runs the unit, begun where the host's stores have landed and the
enables are those it writes. -/
theorem exec_runs (s : State) (c : Instr) (kept : c.isReset = false) (status : ∀ stores value, c ≠ .statusWrite stores value)
    (plain : ∀ stores value, c = .registerWrite stores .control value → controlCarriesNoCommand value = true) :
    ∃ (u : State) (a : Act Unit), exec c s = .next (u.after a) ∧ u.desk = { s.desk with enables := u.enables }
      ∧ a.Runs (commandRank c) 1024 := by
  have cell {kinds : Nat → Bool} {work : TakenCell → Act (Option Answer)} (h : ∀ c, (work c).Runs 1 1024) :
      (serveCell kinds work).Runs 1 1024 := serveCell_runs h
  have account {kinds : Nat → Bool} {compareTag : Bool} {zonesOf : TakenCell → Account → List Nat}
      {work : TakenCell → Nat → Account → Act Answer} (h : ∀ c n a, (work c n a).Runs 1 6) :
      (serveCell kinds fun c => do
        let r ← onAccount c compareTag (zonesOf c) (work c)
        pure (some r)).Runs 1 1024 :=
    cell fun c => ((onAccount_runs c _ _ (by decide) (h c)).answers _).le (by decide)
  cases c with
  | powerOnReset => simp [Instr.isReset] at kept
  | pinReset => simp [Instr.isReset] at kept
  | softReset stores => simp [Instr.isReset] at kept
  | start stores enables =>
    exact ⟨{ s with mem := s.mem.land stores, enables := enables }, startCommand, rfl, rfl, startCommand_runs.uncounted⟩
  | stop stores enables =>
    exact ⟨{ s with mem := s.mem.land stores, enables := enables }, stopCommand, rfl, rfl, stopCommand_offDesk.runs⟩
  | stopCompletion => exact ⟨s, _, rfl, rfl, stopCompletion_runs.le (Nat.zero_le _)⟩
  | registerWrite stores reg value =>
    by_cases other : reg ≠ .control
    · exact ⟨{ s with mem := s.mem.land stores }, writeRegister reg value, rfl, rfl, (writeRegister_offDesk value other).runs⟩
    · obtain rfl := not_not.mp other
      exact ⟨{ s with mem := s.mem.land stores, enables := value.extractLsb' 8 5 }, pure (),
        exec_controlWrite (plain stores value rfl) s stores, rfl, Act.runs_pure _⟩
  | statusWrite stores value => exact absurd rfl (status stores value)
  | nudge stores mask =>
    exact ⟨{ s with mem := s.mem.land stores }, nudgeCommand mask, rfl, rfl, (nudgeCommand_runs mask).le (Nat.zero_le _)⟩
  | intakeScanTimerExpiry => exact ⟨s, _, rfl, rfl, scanExpiry_runs.le (Nat.zero_le _)⟩
  | minuteTimerExpiry => exact ⟨s, _, rfl, rfl, minuteExpiry_runs.le (by decide)⟩
  | zonePagePublication => exact ⟨s, _, rfl, rfl, finishPublication_offDesk.runs⟩
  | enrol => exact ⟨s, _, rfl, rfl, account enrolAccount_runs⟩
  | openInto => exact ⟨s, _, rfl, rfl, account openAccount_runs⟩
  | move => exact ⟨s, _, rfl, rfl, account moveAccount_runs⟩
  | bag => exact ⟨s, _, rfl, rfl, account fun _ => bagAccount_runs⟩
  | retire => exact ⟨s, _, rfl, rfl, account fun _ => retireAccount_runs⟩
  | amend => exact ⟨s, _, rfl, rfl, account amendAccount_runs⟩
  | query => exact ⟨s, _, rfl, rfl, account fun _ n a => (queryAccount_offDesk n a).runs⟩
  | climate => exact ⟨s, _, rfl, rfl, cell fun c => (climateWork_runs c).le (by decide)⟩
  | zoneset => exact ⟨s, _, rfl, rfl, cell fun c => (zonesetWork_offDesk c).runs⟩
  | classwrite => exact ⟨s, _, rfl, rfl, cell fun c => (classwriteWork_offDesk c).runs⟩
  | clockset => exact ⟨s, _, rfl, rfl, cell fun c => (clocksetWork_runs c).le (by decide)⟩
  | tune => exact ⟨s, _, rfl, rfl, cell fun c => (tuneWork_offDesk c).runs⟩
  | unknownKind => exact ⟨s, _, rfl, rfl, cell fun _ => Act.runs_pure _⟩
  | classProgrammingEnd defects =>
    exact ⟨s, _, rfl, rfl, (Act.offDesk_modify fun u => u.endProgramming_desk defects).runs⟩
  | classCompletion => exact ⟨s, _, rfl, rfl, classCompletion_runs.le (by decide)⟩
  | warningHandover => exact ⟨s, _, rfl, rfl, (handover_runs serveWarning_runs).le (by decide)⟩
  | expiryHandover => exact ⟨s, _, rfl, rfl, (handover_runs serveExpiry_runs).le (by decide)⟩
  | patrolRead => exact ⟨s, _, rfl, rfl, patrolReadOne_runs.le (by decide)⟩
  | patrolWork => exact ⟨s, _, rfl, rfl, patrolWork_runs.le (by decide)⟩
  | regionAccessFailure after written => exact ⟨s, _, rfl, rfl, (failAccess_offDesk after written).runs⟩
  | cellNoLongerPosted => exact ⟨s, _, rfl, rfl, cellNoLongerPosted_offDesk.runs⟩

/-- What such a command leaves of the unit. -/
theorem exec_leaves (s : State) (c : Instr) (kept : c.isReset = false) (status : ∀ stores value, c ≠ .statusWrite stores value)
    (plain : ∀ stores value, c = .registerWrite stores .control value → controlCarriesNoCommand value = true) :
    ∃ (t : State) (k : Nat), exec c s = .next t ∧ Desk.Ends (commandRank c) { s.desk with enables := t.enables } k t.desk
      ∧ (commandRank c ≤ 1 → k ≤ s.heldNotices.length + 1024) := by
  obtain ⟨u, a, ran, began, works⟩ := exec_runs s c kept status plain
  obtain ⟨k, ends, bound⟩ := works.leaves u
  have held : u.heldNotices = s.heldNotices := congrArg Desk.held began
  have enables : (u.after a).enables = u.enables := ends.enables
  refine ⟨u.after a, k, ran, ?_, held ▸ bound⟩
  rw [enables, ← began]
  exact ends

/-! ### Every step keeps the unit sound -/

theorem NoticesSound.of_fields {s t : State} (h : NoticesSound s) (held : t.heldNotices = s.heldNotices) (flag : t.logFull = s.logFull)
    (written : t.written = s.written) (taken : t.taken = s.taken) (capacity : t.capacity = s.capacity) : NoticesSound t where
  held := held ▸ h.held
  keys := held ▸ h.keys
  flag := by rw [held, flag, h.flag]
  occupancy := by
    unfold State.logOccupancy
    rw [written, taken, capacity]
    exact h.occupancy
  capacity := capacity ▸ h.capacity

/-- A command keeps the unit sound if its work does: driving the lines and entering FAULTED leave it alone (R174). -/
theorem conclude_noticesSound {a : Act Unit} {s t : State} (ran : conclude a s = .next t) (hs : NoticesSound s)
    (h : Act.Keeps NoticesSound a) : NoticesSound t := by
  cases ran
  refine State.after_keeps h (fun _ hu => hu.of_fields rfl rfl rfl rfl rfl) (fun u hu => ?_) hs
  rw [noticesSound_iff, State.enterFaulted_desk]
  exact ((noticesSound_iff u).mp hu).fault

/-- A reset leaves an empty unit (R175). -/
theorem reset_noticesSound (causes : State → BitVec 3) : Act.Keeps NoticesSound (modify fun t => t.resetWith (causes t)) :=
  Act.keeps_modify fun _ _ => State.reset_noticesSound.of_fields rfl rfl rfl rfl rfl

/-- Any word written to CONTROL, a command's or not. -/
theorem writeControl_noticesSound (value : Word) : Act.Keeps NoticesSound (writeControl value) :=
  Act.keeps_ite (reset_noticesSound _)
    (Act.keeps_bind (Act.keeps_modify fun _ h => h.of_fields rfl rfl rfl rfl rfl) fun _ =>
      Act.keeps_ite startCommand_runs.keeps
        (Act.keeps_ite (stopCommand_offDesk.runs (rank := 0) (received := 0)).keeps (Act.keeps_pure _)))

theorem landStores_noticesSound (stores : HostStores) : Act.Keeps NoticesSound (landStores stores) :=
  Act.keeps_modify fun _ h => h.of_fields rfl rfl rfl rfl rfl

/-- Every command keeps the unit sound. -/
theorem exec_noticesSound (c : Instr) {s t : State} (hs : NoticesSound s) (ran : exec c s = .next t) : NoticesSound t := by
  have host {stores : HostStores} {a : Act Unit} (ran : conclude (do landStores stores; a) s = .next t)
      (h : Act.Keeps NoticesSound a) : NoticesSound t :=
    conclude_noticesSound ran hs (Act.keeps_bind (landStores_noticesSound stores) fun _ => h)
  have runs (kept : c.isReset = false) (status : ∀ stores value, c ≠ .statusWrite stores value)
      (plain : ∀ stores value, c = .registerWrite stores .control value → controlCarriesNoCommand value = true) :
      NoticesSound t := by
    obtain ⟨u, k, passed, ends, -⟩ := exec_leaves s c kept status plain
    cases ran.symm.trans passed
    exact (noticesSound_iff t).mpr (ends.sound (((noticesSound_iff s).mp hs).enabled _))
  by_cases reset : c.isReset = true
  · cases c with
    | powerOnReset => exact conclude_noticesSound ran hs (reset_noticesSound _)
    | pinReset => exact conclude_noticesSound ran hs (reset_noticesSound _)
    | softReset stores => exact host ran (reset_noticesSound _)
    | _ => simp [Instr.isReset] at reset
  · by_cases status : ∃ stores value, c = .statusWrite stores value
    · obtain ⟨stores, value, rfl⟩ := status
      exact host ran (Act.keeps_modify fun _ h => h.of_fields rfl rfl rfl rfl rfl)
    · by_cases control : ∃ stores value, c = .registerWrite stores .control value
      · obtain ⟨stores, value, rfl⟩ := control
        exact host ran (writeControl_noticesSound value)
      · exact runs (by simpa using reset) (fun stores value h => status ⟨stores, value, h⟩)
          fun stores value h => absurd ⟨stores, value, h⟩ control

/-- Settles O56: an empty queue idles, and every command's work is a run of events, each of which keeps the unit sound. -/
theorem everyStepKeepsTheNoticeUnitSound : Obligations.EveryStepKeepsTheNoticeUnitSound := by
  intro s t h ran
  unfold step at ran
  cases front : s.pending with
  | nil =>
    rw [front] at ran
    cases ran
    exact h
  | cons c rest =>
    rw [front] at ran
    exact exec_noticesSound c (s := { s with pending := rest }) (h.of_fields rfl rfl rfl rfl rfl) ran

end Sys2Proof.Machine
end

-- ==== Proofs: causes and messages over every command ====
section
/-! What a run of events, cut by a failed access or not, does to the causes and the messages, and what every command does to them
(O6). -/

namespace Sys2Proof.Machine

/-! ### What a run leaves, ended or cut -/

section

variable {rank k : Nat} {d e : Desk}

theorem Desk.fault_causes (d : Desk) (i : Nat) : d.fault.causes.getLsbD i = (d.causes.getLsbD i || decide (i = 4)) :=
  Desk.raise_causes { d with faulted := true } .fault i

/-- A command sends one message for each enabled cause that it sets (R155). -/
theorem Desk.Ends.messages (h : d.Ends rank k e) : e.messages = d.messages + messagesDue d.causes e.causes d.enables := by
  obtain ⟨x, run, rfl | rfl⟩ := h
  · exact run.messages.1
  · obtain ⟨sent, same⟩ := run.messages
    have last : x.fault.messages = x.messages + messagesDue x.causes x.fault.causes x.enables :=
      Desk.raise_messages { x with faulted := true } .fault
    rw [last, sent, same, Nat.add_assoc, messagesDue_add d.enables (fun i => run.causes_kept) fun i set => by
      rw [Desk.fault_causes, set, Bool.true_or]]

theorem Desk.Ends.causes_kept (h : d.Ends rank k e) {i : Nat} (set : d.causes.getLsbD i = true) :
    e.causes.getLsbD i = true := by
  obtain ⟨x, run, rfl | rfl⟩ := h
  · exact run.causes_kept set
  · rw [Desk.fault_causes, run.causes_kept set, Bool.true_or]

/-- A cause other than FAULT that stands above the rank stays as it is. -/
theorem Desk.Ends.cause_unset (h : d.Ends rank k e) {i : Nat} (other : i ≠ 4) (above : rank + 1 < i) :
    e.causes.getLsbD i = d.causes.getLsbD i := by
  obtain ⟨x, run, rfl | rfl⟩ := h
  · exact run.cause_unset above
  · rw [Desk.fault_causes, run.cause_unset above, decide_eq_false other, Bool.or_false]

/-- The causes of notices stay as they are where no record is written (R146). -/
theorem Desk.Ends.notice_causes (h : d.Ends rank k e) (low : rank ≤ 1) (idle : k = 0) {i : Nat} (hi : i < 2) :
    e.causes.getLsbD i = d.causes.getLsbD i := by
  obtain ⟨x, run, rfl | rfl⟩ := h
  · exact run.notice_causes low idle hi
  · rw [Desk.fault_causes, run.notice_causes low idle hi, decide_eq_false (by omega), Bool.or_false]

theorem Desk.Ends.written (h : d.Ends rank k e) (low : rank ≤ 1) : e.written = d.written + word k := by
  obtain ⟨x, run, rfl | rfl⟩ := h
  · exact run.written low
  · rw [Desk.fault_frame]
    exact run.written low

/-- FAULT is set exactly on entry to FAULTED (R154, R174). -/
theorem Desk.Ends.fault_cause (h : d.Ends rank k e) (low : rank ≤ 2) (sound : d.faulted = false) :
    e.causes.getLsbD 4 = (d.causes.getLsbD 4 || e.faulted) := by
  obtain ⟨x, run, rfl | rfl⟩ := h
  · rw [run.not_faulted sound, Bool.or_false]
    exact run.cause_unset (by omega)
  · rw [Desk.fault_causes, Desk.fault_frame]
    simp

end

/-! ### The events of a command -/

theorem commandRank_le (c : Instr) : commandRank c ≤ 2 := by
  unfold commandRank
  split
  · exact le_rfl
  · split <;> decide

theorem commandRank_of_ne_start {c : Instr} (other : ¬ ∃ stores enables, c = .start stores enables) : commandRank c ≤ 1 := by
  unfold commandRank
  split
  · next stores enables => exact absurd ⟨stores, enables, rfl⟩ other
  · split <;> decide

theorem commandRank_of_completesCells {c : Instr} (none : c.completesCells = false) : commandRank c = 0 := by
  unfold commandRank
  split
  · simp [Instr.completesCells] at none
  · simp [none]

/-! ### A part in FAULTED -/

/-- The work passes over a state: it ends, and the notice unit and the causes stand. -/
def Act.PassesAt (a : Act Unit) (s : State) : Prop := ∃ t, a s = .ok () t ∧ t.desk = s.desk

section

variable {s : State}

/-- Work under a test that fails. -/
theorem Act.passesAt_guard {test : State → Prop} [DecidablePred test] {work : State → Act Unit} (fails : ¬ test s) :
    Act.PassesAt (do let s ← get; if test s then work s else pure ()) s := by
  refine ⟨s, ?_, rfl⟩
  rw [Act.get_bind, if_neg fails]
  rfl

theorem Act.passesAt_modify {f : State → State} (h : (f s).desk = s.desk) : Act.PassesAt (modify f) s := ⟨f s, rfl, h⟩

/-- Work that does nothing. -/
theorem Act.passesAt_of_ok {a : Act Unit} (h : a s = .ok () s) : Act.PassesAt a s := ⟨s, h, rfl⟩

theorem State.mayWork_faulted (faulted : s.engineState = .faulted) : s.mayWork = false := by
  simp [State.mayWork, faulted]

theorem State.mayTakeCell_faulted (faulted : s.engineState = .faulted) : s.mayTakeCell = false := by
  simp [State.mayTakeCell, State.mayWork_faulted faulted]

theorem serveCell_faulted {kinds : Nat → Bool} {work : TakenCell → Act (Option Answer)} (faulted : s.engineState = .faulted) :
    (serveCell kinds work).PassesAt s :=
  Act.passesAt_of_ok (serveCell_idle fun k may => by simp [State.mayTakeCell_faulted faulted] at may)

theorem finishPublication_idle (idle : s.publicationDue = false) : finishPublication s = .ok () s := by
  unfold finishPublication
  rw [Act.get_bind, idle]
  rfl

theorem minuteExpiry_idle (idle : s.publicationDue = false) (unset : s.clock = .unset) : minuteExpiry s = .ok () s := by
  unfold minuteExpiry
  rw [Act.bind_ok (finishPublication_idle idle), Act.get_bind, unset]
  rfl

theorem State.handoverAt_faulted (faulted : s.engineState = .faulted) (stage : Stage) : s.handoverAt stage = none := by
  simp [State.handoverAt, State.mayWork_faulted faulted]

/-- No hand-over is presented (R10). -/
theorem handover_faulted {stage : Stage} {serve : WatchEntry → Act Unit} (faulted : s.engineState = .faulted) :
    Act.PassesAt (do
      let s ← get
      match s.handoverAt stage with
      | some e => serve e
      | none => pure ()) s := by
  refine Act.passesAt_of_ok ?_
  rw [Act.get_bind, State.handoverAt_faulted faulted]
  rfl

theorem failAccess_faulted (faulted : s.engineState = .faulted) (after written : Nat) : (failAccess after written).PassesAt s := by
  refine Act.passesAt_of_ok ?_
  cases after with
  | zero => simp [failAccess, State.attached, faulted]
  | succ n => simp [failAccess, faulted]

/-- In FAULTED a completion is applied, and nothing is raised or completed with it (R85). -/
theorem classCompletion_faulted (faulted : s.engineState = .faulted) : classCompletion.PassesAt s := by
  have stopped : s.engineState ≠ .running := by rw [faulted]; decide
  by_cases waits : ∃ p success, s.prog = some p ∧ p.ended = some success
  · obtain ⟨p, success, flight, ended⟩ := waits
    unfold Act.PassesAt
    rw [classCompletion_ended flight ended]
    split
    · exact ⟨_, applyCompletion_stopped stopped p success, s.applied_desk p success⟩
    · exact ⟨s, rfl, rfl⟩
  · refine Act.passesAt_of_ok (classCompletion_idle fun p flight => ?_)
    cases ended : p.ended with
    | none => rfl
    | some success => exact absurd ⟨p, success, flight, ended⟩ waits

theorem writeRegister_passesAt {reg : RegName} (value : Word) (other : reg ≠ .control) : (writeRegister reg value).PassesAt s := by
  cases reg with
  | id => exact Act.passesAt_of_ok rfl
  | baseLo => exact Act.passesAt_modify (by split <;> rfl)
  | baseHi => exact Act.passesAt_modify (by split <;> rfl)
  | control => exact absurd rfl other

/-- Work over the host's stores and the enables written passes if it does so where they have landed. -/
theorem exec_of_passesAt {c : Instr} {u : State} {a : Act Unit} (ran : exec c s = .next (u.after a)) (same : u.causes = s.causes)
    (passes : a.PassesAt u) : ∃ t, exec c s = .next t ∧ t.causes = s.causes := by
  obtain ⟨t, ended, stands⟩ := passes
  exact ⟨t.drive, by rw [ran, State.after, ended], (congrArg Desk.causes stands).trans same⟩

/-- In FAULTED no access is made, so none fails and no cause is set (R154, R174). -/
theorem exec_faulted {c : Instr} (kept : c.isReset = false) (status : ∀ stores value, c ≠ .statusWrite stores value)
    (plain : ∀ stores value, c = .registerWrite stores .control value → controlCarriesNoCommand value = true)
    (faulted : s.engineState = .faulted) (rest : RestSound s) : ∃ t, exec c s = .next t ∧ t.causes = s.causes := by
  have stopped : s.engineState ≠ .running := by rw [faulted]; decide
  have unset : s.clockSet = false := Bool.eq_false_iff.mpr fun set => stopped (rest.clock set)
  have clock : s.clock = .unset := by
    by_contra held
    exact absurd (s.clockSet_iff.mpr held) (by simp [unset])
  have due : s.publicationDue = false := Bool.eq_false_iff.mpr fun due => by simp [rest.due due] at unset
  have scan : s.scanRunning = false := Bool.eq_false_iff.mpr fun runs => stopped (rest.scan runs)
  have work : s.mayWork = false := State.mayWork_faulted faulted
  have here {a : Act Unit} (ran : exec c s = conclude a s) (passes : a.PassesAt s) : ∃ t, exec c s = .next t ∧ t.causes = s.causes :=
    exec_of_passesAt ran rfl passes
  cases c with
  | powerOnReset => simp [Instr.isReset] at kept
  | pinReset => simp [Instr.isReset] at kept
  | softReset stores => simp [Instr.isReset] at kept
  | statusWrite stores value => exact absurd rfl (status stores value)
  | start stores enables =>
    exact exec_of_passesAt (u := { s with mem := s.mem.land stores, enables := enables }) (a := startCommand) rfl rfl
      (Act.passesAt_guard (test := fun s => s.engineState = .idle) (by rw [faulted]; decide))
  | stop stores enables =>
    exact exec_of_passesAt (u := { s with mem := s.mem.land stores, enables := enables }) (a := stopCommand) rfl rfl
      (Act.passesAt_modify (by split <;> rfl))
  | stopCompletion => exact here rfl (Act.passesAt_guard (test := fun s => s.mayFinishStop = true) (by simp [State.mayFinishStop, faulted]))
  | registerWrite stores reg value =>
    by_cases other : reg ≠ .control
    · exact exec_of_passesAt (u := { s with mem := s.mem.land stores }) (a := writeRegister reg value) rfl rfl
        (writeRegister_passesAt value other)
    · obtain rfl := not_not.mp other
      exact exec_of_passesAt (exec_controlWrite (plain stores value rfl) s stores) rfl (Act.passesAt_of_ok rfl)
  | nudge stores mask =>
    exact exec_of_passesAt (u := { s with mem := s.mem.land stores }) (a := nudgeCommand mask) rfl rfl
      (Act.passesAt_guard (test := fun s => s.engineState = .running) stopped)
  | intakeScanTimerExpiry => exact here rfl (Act.passesAt_guard (test := fun s => s.scanRunning = true) (by simp [scan]))
  | minuteTimerExpiry => exact here rfl (Act.passesAt_of_ok (minuteExpiry_idle due clock))
  | zonePagePublication => exact here rfl (Act.passesAt_of_ok (finishPublication_idle due))
  | enrol => exact here rfl (serveCell_faulted faulted)
  | openInto => exact here rfl (serveCell_faulted faulted)
  | move => exact here rfl (serveCell_faulted faulted)
  | bag => exact here rfl (serveCell_faulted faulted)
  | retire => exact here rfl (serveCell_faulted faulted)
  | amend => exact here rfl (serveCell_faulted faulted)
  | query => exact here rfl (serveCell_faulted faulted)
  | climate => exact here rfl (serveCell_faulted faulted)
  | zoneset => exact here rfl (serveCell_faulted faulted)
  | classwrite => exact here rfl (serveCell_faulted faulted)
  | clockset => exact here rfl (serveCell_faulted faulted)
  | tune => exact here rfl (serveCell_faulted faulted)
  | unknownKind => exact here rfl (serveCell_faulted faulted)
  | classProgrammingEnd defects => exact here rfl (Act.passesAt_modify (s.endProgramming_desk defects))
  | classCompletion => exact here rfl (classCompletion_faulted faulted)
  | warningHandover => exact here rfl (handover_faulted (serve := serveWarning) faulted)
  | expiryHandover => exact here rfl (handover_faulted (serve := serveExpiry) faulted)
  | patrolRead => exact here rfl (Act.passesAt_guard (test := fun s => s.mayPatrol = true) (by simp [State.mayPatrol, faulted]))
  | patrolWork =>
    exact here rfl (Act.passesAt_guard (test := fun s => (s.mayWork && s.handover.isNone) = true) (by simp [work]))
  | regionAccessFailure after written => exact here rfl (failAccess_faulted faulted after written)
  | cellNoLongerPosted =>
    exact here rfl (Act.passesAt_guard (test := fun s => s.mayTakeCell = true) (by simp [State.mayTakeCell_faulted faulted]))

end

/-! ### One cause, and every command -/

/-- A cause goes from clear to set once, with one message exactly if its enable is set, and alone (R154, R155). -/
theorem State.raiseCause_once (s : State) (c : Cause) :
    (s.raiseCause c).causes.getLsbD c.index = true
      ∧ (∀ i, i ≠ c.index → (s.raiseCause c).causes.getLsbD i = s.causes.getLsbD i)
      ∧ (s.raiseCause c).messages
          = (if s.causes.getLsbD c.index = false ∧ s.enables.getLsbD c.index = true then s.messages + 1 else s.messages)
      ∧ s.raiseCause c = { s with causes := (s.raiseCause c).causes, messages := (s.raiseCause c).messages } := by
  refine ⟨by simp [s.raiseCause_getLsbD], fun i other => by simp [s.raiseCause_getLsbD, other], ?_, ?_⟩
  · unfold State.raiseCause
    cases s.causes.getLsbD c.index <;> cases s.enables.getLsbD c.index <;> rfl
  · unfold State.raiseCause
    split <;> rfl

/-- STATUS_WRITE sets no cause, so it sends no message (R155, R158). -/
theorem State.clearStatus_messagesDue (s : State) (value : Word) (enables : BitVec 5) :
    messagesDue s.causes (s.clearStatus value).causes enables = 0 := by
  unfold messagesDue State.clearStatus
  refine List.length_eq_zero_iff.mpr (List.filter_eq_nil_iff.mpr fun i _ => ?_)
  simp only [BitVec.getLsbD_and]
  cases s.causes.getLsbD i <;> simp

/-- What a command does to the causes, by the events it runs. -/
theorem exec_causes (s : State) (c : Instr) (formed : c.wellFormed = true) (kept : c.isReset = false)
    (status : ∀ stores value, c ≠ .statusWrite stores value) :
    ∃ t, exec c s = .next t
      ∧ t.messages = s.messages + messagesDue s.causes t.causes t.enables
      ∧ (∀ i, s.causes.getLsbD i = true → t.causes.getLsbD i = true)
      ∧ (s.engineState ≠ .faulted → t.causes.getLsbD 4 = (s.causes.getLsbD 4 || decide (t.engineState = .faulted)))
      ∧ (s.engineState = .faulted → RestSound s → t.causes.getLsbD 4 = s.causes.getLsbD 4)
      ∧ ((¬ ∃ stores enables, c = .start stores enables) → t.causes.getLsbD 3 = s.causes.getLsbD 3)
      ∧ (c.completesCells = false → t.causes.getLsbD 2 = s.causes.getLsbD 2)
      ∧ ((¬ ∃ stores enables, c = .start stores enables) → NoticesSound s → t.written = s.written →
          ∀ i, i < 2 → t.causes.getLsbD i = s.causes.getLsbD i) := by
  have plain : ∀ stores value, c = .registerWrite stores .control value → controlCarriesNoCommand value = true := by
    rintro stores value rfl
    simp only [Instr.wellFormed, Bool.and_eq_true] at formed
    exact formed.2
  obtain ⟨t, k, ran, ends, bound⟩ := exec_leaves s c kept status plain
  refine ⟨t, ran, ends.messages, fun i => ends.causes_kept, fun sound => ?fault, fun faulted rest => ?faulted,
    fun other => ?attach, fun none => ?cells, fun other sound same i hi => ?notices⟩
  case fault => exact ends.fault_cause (commandRank_le c) (decide_eq_false sound)
  case faulted =>
    obtain ⟨u, passed, causes⟩ := exec_faulted kept status plain faulted rest
    cases passed.symm.trans ran
    rw [causes]
  case attach =>
    have := commandRank_of_ne_start other
    exact ends.cause_unset (by decide) (by omega)
  case cells =>
    have := commandRank_of_completesCells none
    exact ends.cause_unset (by decide) (by omega)
  case notices =>
    have low := commandRank_of_ne_start other
    have written : t.written = s.written + word k := ends.written low
    have few : k ≤ 64 + 1024 := (bound low).trans (Nat.add_le_add_right sound.held 1024)
    refine ends.notice_causes low ?_ hi
    rw [same] at written
    unfold word at written
    bv_omega

/-- Settles O6: one cause by its definition, and every command by the events it runs. -/
theorem causeSendsOneMessageWhenItGoesFromClearToSet : Obligations.CauseSendsOneMessageWhenItGoesFromClearToSet := by
  refine ⟨State.raiseCause_once, fun s c formed kept => ?_⟩
  by_cases status : ∃ stores value, c = .statusWrite stores value
  · obtain ⟨stores, value, rfl⟩ := status
    refine ⟨(State.clearStatus { s with mem := s.mem.land stores } value).drive, rfl, ?_,
      fun other => absurd rfl (other stores value)⟩
    exact (congrArg (s.messages + ·) (State.clearStatus_messagesDue { s with mem := s.mem.land stores } value s.enables)).symm
  · have status (stores : HostStores) (value : Word) : c ≠ .statusWrite stores value := fun h => status ⟨stores, value, h⟩
    obtain ⟨t, ran, messages, causes⟩ := exec_causes s c formed kept status
    exact ⟨t, ran, messages, fun _ => causes⟩

end Sys2Proof.Machine
end

-- ==== Proofs: hold lines ====
section
/-! The hold lines as their conditions have them, and that every command leaves them so (O7). -/

namespace Sys2Proof.Machine

/-- A climate other than CURRENT is STALE or NO_CLIMATE (R36). -/
theorem climate_ne_current_iff (c : ClimateState) : c ≠ .current ↔ c = .stale ∨ c = .noClimate := by
  cases c <;> simp

/-- Conditions 1 to 3 of R156. -/
theorem Zone.holds_iff (z : Zone) : z.holds = true ↔
    0 < z.expiredPresent ∨ (z.holdOnStale = true ∧ (z.climate = .stale ∨ z.climate = .noClimate)) ∨ z.faultHold = true := by
  unfold Zone.holds
  simp only [Bool.or_eq_true, Bool.and_eq_true, decide_eq_true_eq, climate_ne_current_iff, or_assoc]

/-- A line is asserted exactly under the conditions of R156. -/
theorem State.lineHeld_iff (s : State) (n : Nat) : s.lineHeld n = true ↔
    ¬ (s.engineState = .running ∧ ∃ m stall, s.clock = .held m stall)
      ∨ ∃ z : ZoneNo, s.zones[z].holdLine.val = n
          ∧ (0 < s.zones[z].expiredPresent
              ∨ (s.zones[z].holdOnStale = true ∧ (s.zones[z].climate = .stale ∨ s.zones[z].climate = .noClimate))
              ∨ s.zones[z].faultHold = true) := by
  have zones : (s.zones.toList.any fun z => decide (z.holdLine.val = n) && z.holds) = true
      ↔ ∃ z : ZoneNo, s.zones[z].holdLine.val = n ∧ s.zones[z].holds = true := by
    simp only [List.any_eq_true, Bool.and_eq_true, decide_eq_true_eq, Vector.mem_toList_iff, Vector.mem_iff_getElem]
    constructor
    · rintro ⟨z, ⟨i, low, rfl⟩, held⟩
      exact ⟨⟨i, low⟩, held⟩
    · rintro ⟨z, held⟩
      exact ⟨_, ⟨z.val, z.isLt, rfl⟩, held⟩
  unfold State.lineHeld
  rw [Bool.or_eq_true, zones, Bool.not_eq_true', Bool.eq_false_iff, Ne, s.ready_iff]
  simp only [Zone.holds_iff]

/-- The lines driven are the lines held (R157). -/
theorem State.drive_lines (s : State) (n : Fin 8) : s.drive.lines[n] = s.drive.lineHeld (n.val + 1) := by
  show (Vector.ofFn fun i : Fin 8 => s.lineHeld (i.val + 1))[n.val] = s.lineHeld (n.val + 1)
  rw [Vector.getElem_ofFn]

/-- A command drives the lines last, whatever its work (R157). -/
theorem State.after_eq_drive (s : State) (a : Act Unit) : ∃ t : State, s.after a = t.drive := by
  unfold State.after
  cases a s with
  | ok _ t => exact ⟨t, rfl⟩
  | error _ t => exact ⟨t.enterFaulted, rfl⟩

/-- Every command concludes a work. -/
theorem exec_conclude (c : Instr) (s : State) : ∃ a, exec c s = conclude a s := by
  cases c <;> exact ⟨_, rfl⟩

/-- Settles O7: the lines by their definition, and every command by driving them last. -/
theorem holdLinesAreAssertedByTheirConditions : Obligations.HoldLinesAreAssertedByTheirConditions := by
  refine fun s => ⟨fun n => s.lineHeld_iff (n.val + 1), fun c => ?_⟩
  obtain ⟨a, ran⟩ := exec_conclude c s
  obtain ⟨t, driven⟩ := s.after_eq_drive a
  refine ⟨t.drive, by rw [ran, conclude, driven], fun n => ?_⟩
  rw [t.drive_lines n]
  exact t.drive.lineHeld_iff (n.val + 1)

end Sys2Proof.Machine
end

-- ==== Proofs: a notice received ====
section
/-! A notice written, held, merged or dropped, the drain's order, and the mark of a drop (O50). -/

namespace Sys2Proof.Machine

section

variable {s t : State} {n m : Notice} {held rest : List Notice}

/-! ### A notice written into the log (R146) -/

/-- What the log, the control page and the causes show of a notice written into the log of `s`. -/
def ShowsLogged (s t : State) (n : Notice) : Prop :=
  (t.peekWords (s.layout.noticeLog + 16 * (s.written.toNat % s.capacity)) 4).toList = n.words ∧ t.written = s.written + 1
    ∧ t.peek (s.layout.controlPage + 4) = t.written ∧ t.peek (s.layout.controlPage + 8) = word t.heldNotices.length
    ∧ t.causes.getLsbD n.cause.index = true ∧ KeepsBytes s t s.noticeAreas

/-- Of the state outside host memory and the causes a write changes W and the held queue. -/
theorem State.logged_eq (s : State) (n : Notice) (rest : List Notice) : s.logged n rest =
    { s with
      mem := (s.logged n rest).mem
      written := s.written + 1
      heldNotices := rest
      logFull := s.logFull && !rest.isEmpty
      causes := (s.logged n rest).causes
      messages := (s.logged n rest).messages } := by
  unfold State.logged State.recorded State.raiseCause
  split <;> rfl

theorem State.logged_shows (region : RegionValid s) (n : Notice) (rest : List Notice) :
    ShowsLogged s (s.logged n rest) n := by
  obtain ⟨room, -, -⟩ := region.capacity_dvd
  have pageLog := region.areasApart.pageLog
  have slot : s.written.toNat % s.capacity < s.capacity := Nat.mod_lt _ room
  have layout : (s.recorded n rest).layout = s.layout := by rw [s.recorded_frame n rest]
  have page (i : Nat) (hi : i < 2) := (s.recorded n rest).peek_poke (s.layout.controlPage + 4)
    [(s.recorded n rest).written, word (s.recorded n rest).heldNotices.length] i hi
  refine ⟨?words, ?written, ?pageWritten, ?pageHeld, ?cause, (s.logged_unitFrame room n rest).bytes⟩
  case words =>
    rw [State.logged_peekWords, State.peekWords_poke_apart, ← Nat.add_zero s.written.toNat]
    · exact State.peekWords_poke_toList _ _ rfl
    · unfold Apart at pageLog
      simp only [List.length_cons, List.length_nil] at pageLog ⊢
      omega
  case written =>
    rw [s.logged_eq n rest]
  case pageWritten => exact page 0 (by decide)
  case pageHeld =>
    exact page 1 (by decide)
  case cause =>
    show (State.raiseCause _ n.cause).causes.getLsbD n.cause.index = true
    rw [State.raiseCause_getLsbD, decide_eq_true rfl, Bool.or_true]

/-! ### T read and the drain (R147, R150) -/

/-- The state that reckons with the T in the control page (R147). -/
def State.reckoned (s : State) : State :=
  { s with taken := reckonTaken s.written s.capacity (s.peek s.layout.controlPage) }

/-- A read of T reckons with it and drains. -/
theorem readTaken_eq (sound : s.failing = none) : readTaken s = drain s.heldNotices.length s.reckoned := by
  unfold readTaken
  rw [Act.get_bind, Act.bind_ok (regionRead_ok sound _ _), Act.modify_bind, Act.get_bind]
  have first : (s.peekWords s.layout.controlPage 1)[0] = s.peek s.layout.controlPage := by
    simp only [State.peekWords, Memory.words, Vector.getElem_ofFn]
    rfl
  rw [first]
  rfl

/-- The drain stops where the log is full or none is held. -/
theorem drain_idle (k : Nat) (idle : s.heldNotices = [] ∨ s.logHasRoom = false) : drain k s = .ok () s := by
  cases k with
  | zero => rfl
  | succ k =>
    unfold drain
    rw [Act.get_bind]
    split
    · next room =>
      rcases idle with none | full
      · rw [none]
        rfl
      · rw [full] at room
        cases room
    · rfl

theorem drain_next (sound : s.failing = none) (room : s.logHasRoom = true) (next : nextHeld s.heldNotices = some m) (k : Nat) :
    drain (k + 1) s = drain k (s.logged m (s.heldNotices.erase m)) := by
  rw [drain, Act.get_bind, if_pos room, next]
  exact Act.bind_ok (writeNotice_ok sound m _)

/-- The notice drained next is the oldest URGENT one, else the oldest, and it leaves its place. -/
theorem nextHeld_split {before after : List Notice} (calm : ∀ x ∈ before, x.kind.urgent = false)
    (first : m.kind.urgent = true ∨ (before = [] ∧ ∀ x ∈ after, x.kind.urgent = false)) :
    nextHeld (before ++ m :: after) = some m ∧ (before ++ m :: after).erase m = before ++ after := by
  have none : before.find? (fun x => x.kind.urgent) = none := List.find?_eq_none.mpr fun x hx => by simp [calm x hx]
  unfold nextHeld
  rw [List.find?_append, none, Option.none_or]
  by_cases urgent : m.kind.urgent = true
  · have other : m ∉ before := fun hm => by simp [calm m hm] at urgent
    rw [List.erase_append_right _ other, List.erase_cons_head, List.find?_cons_of_pos (p := fun x : Notice => x.kind.urgent) urgent]
    exact ⟨rfl, rfl⟩
  · obtain ⟨rfl, quiet⟩ := first.resolve_left urgent
    have later : after.find? (fun x => x.kind.urgent) = Option.none := List.find?_eq_none.mpr fun x hx => by simp [quiet x hx]
    rw [List.find?_cons_of_neg (p := fun x : Notice => x.kind.urgent) urgent, later]
    exact ⟨rfl, List.erase_cons_head m after⟩

/-! ### A notice received (R148, R149, R151) -/

theorem Notice.sameKey_iff : m.sameKey n = true ↔ m.kind = n.kind ∧ m.subject = n.subject := by
  unfold Notice.sameKey
  rw [Bool.and_eq_true, decide_eq_true_eq, decide_eq_true_eq]

/-- A merge keeps the places: the held notice of the same kind and subject becomes the one received, the others stay. -/
theorem mergeHeld_places {i : Nat} (place : held[i]? = some m) :
    (m.kind = n.kind ∧ m.subject = n.subject → (mergeHeld n held)[i]? = some n)
      ∧ (¬ (m.kind = n.kind ∧ m.subject = n.subject) → (mergeHeld n held)[i]? = some m) := by
  unfold mergeHeld
  rw [List.getElem?_map, place, Option.map_some, ← Notice.sameKey_iff]
  refine ⟨fun alike => ?_, fun other => by rw [if_neg other]⟩
  rw [if_pos alike]
  obtain ⟨kind, subject⟩ := Notice.sameKey_iff.mp alike
  rw [kind, subject]

theorem mergeHeld_length (n : Notice) (held : List Notice) : (mergeHeld n held).length = held.length := List.length_map _

theorem any_sameKey_iff : (held.any fun m => m.sameKey n) = true ↔ ∃ m ∈ held, m.kind = n.kind ∧ m.subject = n.subject := by
  simp only [List.any_eq_true, Notice.sameKey_iff]

/-- Work that reads T, once it ends. -/
theorem readTaken_answers {α : Type} (ran : readTaken s = .ok () t) (x : α) : (do readTaken; pure x : Act α) s = .ok x t := by
  rw [Act.bind_ok ran]
  rfl

/-- None held and no room: T is read, and the notice written or held. -/
theorem receiveNotice_read (sound : s.failing = none) (none : s.heldNotices = []) (full : s.logHasRoom = false) :
    receiveNotice n s = .ok false
      (if s.reckoned.logHasRoom = true then s.reckoned.logged n []
        else { s.reckoned with heldNotices := [n], logFull := true }) := by
  unfold receiveNotice
  rw [Act.get_bind, none, if_pos List.isEmpty_nil, full, if_neg (by decide), Act.bind_ok (readTaken_empty sound none), Act.get_bind]
  by_cases room : s.reckoned.logHasRoom = true
  · rw [if_pos room]
    exact (congrFun (if_pos room) s.reckoned).trans (Act.bind_ok (writeNotice_ok (s := s.reckoned) sound n []))
  · rw [if_neg room]
    exact congrFun (if_neg room) s.reckoned

/-- One of its kind and subject is held: the merge, then a read of T. -/
theorem receiveNotice_merged (alike : ∃ m ∈ s.heldNotices, m.kind = n.kind ∧ m.subject = n.subject) :
    receiveNotice n s = (do readTaken; pure false : Act Bool) { s with heldNotices := mergeHeld n s.heldNotices } := by
  have some : ¬ s.heldNotices.isEmpty = true := by
    obtain ⟨m, hm, -⟩ := alike
    exact fun none => by rw [List.isEmpty_iff.mp none] at hm; cases hm
  unfold receiveNotice
  rw [Act.get_bind, if_neg some, if_pos (any_sameKey_iff.mpr alike)]
  rfl

theorem receiveNotice_added (some : s.heldNotices ≠ []) (fresh : ∀ m ∈ s.heldNotices, ¬ (m.kind = n.kind ∧ m.subject = n.subject))
    (place : s.heldNotices.length < heldMax) :
    receiveNotice n s = (do readTaken; pure false : Act Bool) { s with heldNotices := s.heldNotices ++ [n] } := by
  unfold receiveNotice
  rw [Act.get_bind, if_neg (fun none => some (List.isEmpty_iff.mp none)),
    if_neg (fun alike => by obtain ⟨m, hm, same⟩ := any_sameKey_iff.mp alike; exact fresh m hm same), if_pos place]
  rfl

theorem receiveNotice_dropped (fresh : ∀ m ∈ s.heldNotices, ¬ (m.kind = n.kind ∧ m.subject = n.subject))
    (full : heldMax ≤ s.heldNotices.length) : receiveNotice n s = (do readTaken; pure true : Act Bool) s := by
  unfold receiveNotice
  rw [Act.get_bind, if_neg (fun none => by rw [List.isEmpty_iff.mp none] at full; exact absurd full (by decide)),
    if_neg (fun alike => by obtain ⟨m, hm, same⟩ := any_sameKey_iff.mp alike; exact fresh m hm same),
    if_neg (Nat.not_lt.mpr full)]

/-- A drop sets NOTICES_DROPPED unless the notice marks its account (R151). -/
theorem handNotices_dropped (dropped : receiveNotice n s = .ok true t) : handNotices [n] s = .ok n.kind.marksAccount
    { t with noticesDropped := t.noticesDropped || !n.kind.marksAccount } := by
  unfold handNotices
  rw [Act.bind_ok dropped]
  cases n.kind.marksAccount with
  | true =>
    rw [Bool.not_true, Bool.or_false]
    rfl
  | false =>
    rw [Bool.not_false, Bool.or_true]
    rfl

/-! ### The mark of a drop (R151) -/

/-- The account's set after a fetch of its record. -/
theorem State.fetched_ownSet (s : State) (k : Nat) :
    OwnSet s (s.mapSet k fun _ => s.setAfterFetch k) k (s.setAfterFetch k) where
  own := s.mapSet_own k _
  others := s.mapSet_keeps k _

/-- A faulty record cannot be marked, so NOTICES_DROPPED is set. -/
theorem markMissed_faulty (sound : s.failing = none) {k : Nat} (faulty : s.recordOf k = none) :
    markMissed k true s = .ok () { s.mapSet k fun _ => s.setAfterFetch k with noticesDropped := true } := by
  unfold markMissed
  rw [if_pos rfl, Act.bind_ok (fetchRecord_ok sound k), s.fetched_eq, faulty]
  simp only
  split <;> rfl

theorem markMissed_record (sound : s.failing = none) {k : Nat} {a : Account} (found : s.recordOf k = some a) :
    markMissed k true s
      = (if a.flags.noticeMissed = true then pure () else do
          let _ ← writeThrough k { a with flags := { a.flags with noticeMissed := true } }
          pure () : Act Unit) (s.mapSet k fun _ => s.setAfterFetch k) := by
  unfold markMissed
  rw [if_pos rfl, Act.bind_ok (fetchRecord_ok sound k), s.fetched_eq, found]

end

section

variable {s : State} {n : Notice}

/-! ### The queue, the drain and the record over a whole receipt -/

/-- The room found by the T read. -/
theorem State.reckoned_hasRoom_iff (s : State) : s.reckoned.logHasRoom = true ↔
    (s.written - reckonTaken s.written s.capacity (s.peek s.layout.controlPage)).toNat < s.capacity := decide_eq_true_iff

/-- With none held a write leaves the queue empty and LOG_FULL clear. -/
theorem State.logged_alone (none : s.heldNotices = []) (n : Notice) : s.logged n [] =
    { s with
      mem := (s.logged n []).mem
      written := (s.logged n []).written
      taken := s.taken
      logFull := false
      causes := (s.logged n []).causes
      messages := (s.logged n []).messages } := by
  have full := s.logged_eq n []
  rw [List.isEmpty_nil, Bool.not_true, Bool.and_false, ← none] at full
  have written : (s.logged n []).written = s.written + 1 := by rw [s.logged_eq n []]
  rw [written]
  rw [none] at full ⊢
  exact full

/-- What a read of T does with a queue that the notice has joined, with room or without. -/
theorem readTaken_queue (sound : s.failing = none) (next : List Notice) :
    (s.reckoned.logHasRoom = false → readTaken { s with heldNotices := next } = .ok () { s.reckoned with heldNotices := next })
      ∧ ∃ t, readTaken { s with heldNotices := next } = .ok () t
        ∧ drain next.length { s.reckoned with heldNotices := next } = .ok () t := by
  have drains := readTaken_eq (s := { s with heldNotices := next }) sound
  refine ⟨fun full => drains.trans (drain_idle _ (.inr full)), ?_⟩
  obtain ⟨t, ran, -⟩ := drain_frame next.length (s := { s.reckoned with heldNotices := next }) sound
  exact ⟨t, drains.trans ran, ran⟩

/-- The marking of an account after a drop, over a record that a fetch finds. -/
theorem markMissed_written (sound : s.failing = none) {k : Nat} {a : Account} (found : s.recordOf k = some a) :
    let b := { a with flags := { a.flags with noticeMissed := true }, sequence := a.sequence + 1 }
    ∃ t, markMissed k true s = .ok () t
      ∧ t = { s with mem := t.mem, cacheSets := t.cacheSets }
      ∧ (a.flags.noticeMissed = true → t.mem = s.mem ∧ CacheAfter s t k none)
      ∧ (a.flags.noticeMissed = false →
          Written s t k b ∧ CacheAfter s t k (some b) ∧ KeepsBytes s t [(s.layout.record k, 64)]) := by
  intro b
  have fetched := s.fetched_ownSet k
  have marks := markMissed_record sound found
  cases marked : a.flags.noticeMissed with
  | true =>
    rw [marked, if_pos rfl] at marks
    exact ⟨_, marks, rfl, fun _ => ⟨rfl, OwnSet.cacheAfter (written := none) fetched sound⟩, fun clear => Bool.noConfusion clear⟩
  | false =>
    rw [marked, if_neg (by decide),
      Act.bind_ok (writeThrough_ok (s := s.mapSet k fun _ => s.setAfterFetch k) sound k _)] at marks
    have stands : Stands s (((s.mapSet k fun _ => s.setAfterFetch k).mapSet k fun cs => cs.rewrite k (recordWords b)).poke
        (s.layout.record k) (recordWords b).toList) k (s.setAfterFetch k) (recordWords b) :=
      ⟨(fetched.mapSet fun cs => cs.rewrite k (recordWords b)).of_eq rfl, State.peekWords_poke _ _ _ _⟩
    have rewritten := stands.set
    rw [CacheSet.rewrite_eq_updated] at rewritten
    refine ⟨_, marks, rfl, fun set => Bool.noConfusion set, fun _ => ⟨⟨stands.table, stands.written⟩,
      OwnSet.cacheAfter (written := some b) rewritten sound, ?_⟩⟩
    exact KeepsBytes.poke (s := (s.mapSet k _).mapSet k _) ⟨_, List.mem_singleton_self _, Nat.le_refl _, by simp⟩

end

/-- Settles O50: by the state of the queue and of the log when the notice comes, the drain one notice at a time, and the mark of a
drop by what the second fetch finds. -/
theorem receivedNoticeIsWrittenHeldMergedOrDropped : Obligations.ReceivedNoticeIsWrittenHeldMergedOrDropped := by
  intro s service read room held place logs
  have sound := service.sound
  have region := service.region
  have noRoom (none : ¬ room) : s.reckoned.logHasRoom = false := Bool.eq_false_iff.mpr fun yes => none (s.reckoned_hasRoom_iff.mp yes)
  refine ⟨fun n => ?received, fun k idle => drain_idle k idle, fun k before after m hasRoom queue calm first => ?drained,
    fun n => ⟨fun faulty => ?faulty, fun a found => markMissed_written sound found⟩⟩
  case received =>
    intro alike wrote
    refine ⟨fun none hasRoom => ?written, fun none full found => ?read, fun none full still => ?held,
      fun _ still same => ?merged, fun some still fresh place => ?added, fun still fresh full => ?dropped,
      fun _ _ same => ?mergedDrain, fun some _ fresh place => ?addedDrain, fun _ fresh full => ?droppedDrain⟩
    case written =>
      exact ⟨_, receiveNotice_logged sound none hasRoom n, s.logged_shows region n [], s.logged_alone none n⟩
    case read =>
      have ran := receiveNotice_read (n := n) sound none full
      rw [if_pos (s.reckoned_hasRoom_iff.mpr found)] at ran
      exact ⟨_, ran, State.logged_shows (region.of_service (t := s.reckoned) rfl) n [], s.reckoned.logged_alone none n⟩
    case held =>
      have ran := receiveNotice_read (n := n) sound none full
      rwa [noRoom still, if_neg (by decide)] at ran
    case merged =>
      have ran := (readTaken_queue sound (mergeHeld n held)).1 (noRoom still)
      exact ⟨_, (receiveNotice_merged same).trans (readTaken_answers ran false), rfl, mergeHeld_length n held,
        fun i m at_i => mergeHeld_places at_i⟩
    case added =>
      have ran := (readTaken_queue sound (held ++ [n])).1 (noRoom still)
      exact (receiveNotice_added some fresh place).trans (readTaken_answers ran false)
    case dropped =>
      have ran := (readTaken_queue sound held).1 (noRoom still)
      exact handNotices_dropped ((receiveNotice_dropped fresh full).trans (readTaken_answers ran true))
    case mergedDrain =>
      obtain ⟨t, ran, drains⟩ := (readTaken_queue sound (mergeHeld n held)).2
      rw [mergeHeld_length] at drains
      exact ⟨_, t, (receiveNotice_merged same).trans (readTaken_answers ran false), drains, mergeHeld_length n held,
        fun i m at_i => mergeHeld_places at_i⟩
    case addedDrain =>
      obtain ⟨t, ran, drains⟩ := (readTaken_queue sound (held ++ [n])).2
      rw [List.length_append] at drains
      exact ⟨t, (receiveNotice_added some fresh place).trans (readTaken_answers ran false), drains⟩
    case droppedDrain =>
      obtain ⟨t, ran, drains⟩ := (readTaken_queue sound held).2
      exact ⟨t, drains, handNotices_dropped ((receiveNotice_dropped fresh full).trans (readTaken_answers ran true))⟩
  case drained =>
    have queue : s.heldNotices = before ++ m :: after := queue
    obtain ⟨next, leaves⟩ := nextHeld_split calm first
    rw [← queue] at next leaves
    refine ⟨s.logged m (before ++ after), ?_, s.logged_shows region m _, ?_⟩
    · rw [drain_next sound hasRoom next, leaves]
    · have written : (s.logged m (before ++ after)).written = s.written + 1 := by rw [s.logged_eq]
      rw [written]
      exact s.logged_eq m _
  case faulty =>
    exact ⟨_, markMissed_faulty sound faulty,
      OwnSet.cacheAfter (written := none) ((s.fetched_ownSet n).of_eq rfl) sound, rfl⟩

end Sys2Proof.Machine
end
